-- ==== Sys2Proof/Word.lean ====
section
/-! DEFINITION. The words of the machine: bytes, 16-bit words, colours and tile numbers. -/

namespace Sys2Proof

/-- One byte of a message, of the configuration image, of an observation item or of memory. -/
abbrev Byte := BitVec 8

/-- A 16-bit word: WFN, LCS, counters, event masks (00_scope.md, Terms). -/
abbrev Word := BitVec 16

/-- A 24-bit RGB colour, red in the high byte (00_scope.md, Conventions). -/
abbrev Rgb := BitVec 24

/-- A tile number, 0 to 31 (R24). -/
abbrev Tile := BitVec 5

end Sys2Proof
end

