-- ==== Sys2Proof/Syntax.lean ====
section
/-! DEFINITION. The commands: one constructor for each row of spec/opcode_table.json, in its order.
The table gives its rows no operands and no bits; every constructor carries the Span of clock time and of
sampled inputs since the command before (notes/assumptions/1.md), and what else its rule needs from outside. -/

namespace Sys2Proof

/-- A level of a Tile Bus line (R20). -/
inductive Level where
  | dominant
  | recessive
  deriving DecidableEq, Repr

/-- A level of VI_HS or VI_VS, and the polarity that pulse level gives (R43). -/
inductive Pol where
  | high
  | low
  deriving DecidableEq, Repr

/-- The two input sync lines (R43). -/
inductive SyncLine where
  | hs
  | vs
  deriving DecidableEq, Repr

/-- The blocks whose frame-start work can be taken in either order (R71, R103, R130, R139). -/
inductive Block where
  | store
  | mode
  | membership
  | picture
  deriving DecidableEq, Repr

/-- How an I2C write goes on after its bytes (R170, R171). -/
inductive TxEnd where
  /-- A STOP ends it. -/
  | stop
  /-- It is left open; the next START or STOP ends it. -/
  | unfinished
  /-- A repeated START for reading, `n` bytes clocked out, then a STOP. -/
  | read (n : Nat)
  /-- A repeated START for reading, `n` bytes clocked out, and the read left open. -/
  | readUnfinished (n : Nat)
  deriving DecidableEq, Repr

/-- What the clocked inputs of the station saw between the command before and this one. -/
structure Span where
  /-- XREF clocks passed. -/
  xref : Nat
  /-- Panel pixel clocks passed. -/
  pix : Nat
  /-- Input pixel clocks passed. -/
  vi : Nat
  /-- TD as the other stations leave it, one level for each XREF clock; recessive at the clocks not listed (R20, R21). -/
  td : List Level
  /-- TD, one level for the middle of each ballot bit (R83). -/
  ballot : List Level
  /-- FL_MISO, `true` for a high level, one for each XREF clock; low at the clocks not listed (R156). -/
  miso : List Bool
  deriving DecidableEq, Repr

/-- No time passed and nothing sampled. -/
def Span.zero : Span := ⟨0, 0, 0, [], [], []⟩

/-- A command: one row of the table of operations and events. -/
inductive Instr where
  | hardReset (w : Span)
  | resetnRise (w : Span) (straps : BitVec 2)
  | startDelayExpiry (w : Span)
  | copyReadEnd (w : Span)
  | pllLock (w : Span)
  | pllWaitExpiry (w : Span)
  | frameStart (w : Span) (edge : Bool) (order : List Block)
  | loneLock (w : Span) (order : List Block)
  | holdPictureTimerExpiry (w : Span) (edge : Bool) (order : List Block)
  | rosterLapse (w : Span) (edge : Bool) (order : List Block)
  | fsPulseEnd (w : Span)
  | foreignEdge (w : Span)
  | keptEdgeExpiry (w : Span)
  | outputLineEnd (w : Span)
  | statusOpen (w : Span)
  | statusCutoff (w : Span) (modeFirst : Bool)
  | found (w : Span)
  | ballotWindowStart (w : Span)
  | ballotLine (w : Span) (td : Level)
  | ballotEnd (w : Span)
  | ballotWindowEnd (w : Span)
  | busIdle (w : Span)
  | startEdge (w : Span)
  | messageStart (w : Span)
  | arbitrationLoss (w : Span)
  | messageSent (w : Span)
  | endBitFailure (w : Span)
  | messageDiscarded (w : Span)
  | statusReceived (w : Span)
  | modeReceived (w : Span)
  | leaveReceived (w : Span)
  | busStuck (w : Span)
  | stuckClear (w : Span)
  | hsEdge (w : Span)
  | vsEdge (w : Span)
  | vsHoldExpiry (w : Span)
  | inputTimerExpiry (w : Span)
  | captureComplete (w : Span)
  | writeFifoOverflow (w : Span) (pixel : Rgb)
  | refreshRequest (w : Span)
  | memoryTransferEnd (w : Span)
  | readUnderflow (w : Span)
  | hold (w : Span)
  | release (w : Span)
  | setMode (w : Span) (mode : Byte)
  | clearEvents (w : Span) (mask : Word)
  | clearCounters (w : Span)
  | restart (w : Span)
  | eventsClearWrite (w : Span) (mask : Word)
  | itemSelect (w : Span) (address : BitVec 7) (bytes : List Byte) (fin : TxEnd)
  | syncTransition (w : Span) (line : SyncLine) (level : Pol)
  | regionPixelEntry (w : Span) (pixel : Rgb)
  | ballotEdge (w : Span)
  deriving DecidableEq, Repr

end Sys2Proof
end

