-- ==== Sys2Proof/Decode.lean ====
section
/-! DEFINITION. The decoder of table words. The table gives its rows no bits, so no word spells a command
(notes/assumptions/27.md). -/

namespace Sys2Proof

/-- The command that a word of the table spells: none does. -/
def decodeTableWord (_nbits _w : Nat) : Option Instr := none

end Sys2Proof
end

