-- ==== Sys2Proof/Config.lean ====
section
/-! DEFINITION. What is fixed for the machine: the constants the rules name, the fields of the loaded
configuration with their start-up values, what unwritten memory reads as, and the one free value. -/

namespace Sys2Proof.Config

/-- XREF clocks of the start delay (R154). -/
def startDelay : Nat := 2700

/-- XREF clocks within which the PLL must lock (R165). -/
def pllWait : Nat := 54000

/-- XREF clocks that FL_CSn stays high between two transactions: R156 asks for at least 16.
DESIGN CHOICE, safe (notes/assumptions/28.md). -/
def flashGap : Nat := 16

/-- XREF clocks of one FL_SCK period (R156). -/
def flashPeriod : Nat := 4

/-- XREF clocks at which the HS timer expires (R49). -/
def hsLimit : Nat := 4096

/-- XREF clocks at which the VS timer expires (R49). -/
def vsLimit : Nat := 4194304

/-- Input pixel clocks for which a VS leading edge is held (R44). -/
def vsHold : Nat := 8

/-- Pixels held by each FIFO of the memory port (R56, R75). -/
def fifoSize : Nat := 2048

/-- Pixels of one full memory transfer (R73). -/
def burst : Nat := 64

/-- Bytes of one slot's area in the external memory (section 4.6). -/
def slotBytes : Nat := 12582912

/-- Bytes from one region line to the next within a slot (section 4.6). -/
def lineBytes : Nat := 8192

/-- Pixels of one line, and lines, that a slot's area holds (section 4.6). -/
def slotWidth : Nat := 2048
def slotHeight : Nat := 1536

/-- The ten event marks of the event mask, all set (Figure 26). -/
def allEvents : Word := 0x03FF#16

/-- What a byte of external memory that nothing has written reads as.
DESIGN CHOICE, unsafe (notes/assumptions/9.md): R78 leaves the contents after power-on undefined. -/
def unwritten : Byte := 0#8

/-- Whether pattern 9 is white at a canvas column while the canvas width is 0: R148 takes the column modulo the
canvas width and states no result for width 0. Free value (notes/assumptions/21.md). -/
opaque barWithoutCanvas : Word → Int → Bool

end Sys2Proof.Config

namespace Sys2Proof

/-- What a station off the wall shows without a hold picture (R138, R162). -/
inductive DetachedShow where
  | fill
  | ident
  deriving DecidableEq, Repr

/-- A wall mode (R121). Two modes are equal when their kinds and, for PATTERN, their indices are equal. -/
inductive Mode where
  | live
  | fill
  | pattern (index : Fin 12)
  | freeze
  deriving DecidableEq, Repr

/-- The loaded configuration: the fields of R162 that blocks read as configuration. The gamma tables are held
by picture output (R150). -/
structure Settings where
  tile : Tile
  skew : Nat
  eventMask : Word
  multiplier : Nat
  divider : Nat
  htot : Nat
  vtot : Nat
  hstart : Nat
  aw : Nat
  vstart : Nat
  ah : Nat
  hsw : Nat
  vsw : Nat
  hsHigh : Bool
  vsHigh : Bool
  deHigh : Bool
  sopen : Nat
  scut : Nat
  bline : Nat
  lockwin : Nat
  slew : Nat
  lonewait : Nat
  rx : Nat
  ry : Nat
  rw : Nat
  rh : Nat
  cx : Nat
  cy : Nat
  cw : Nat
  ch : Nat
  foundwait : Nat
  lapse : Nat
  holdframes : Nat
  modelead : Nat
  fillColour : Rgb
  detachedShow : DetachedShow
  initialMode : Mode
  dither : Bool
  deriving DecidableEq, Repr

/-- The start-up values of R164: each field with a default holds it, every other field holds 0. -/
def Settings.startUp : Settings where
  tile := 0
  skew := 4
  eventMask := Config.allEvents
  multiplier := 0
  divider := 0
  htot := 0
  vtot := 0
  hstart := 0
  aw := 0
  vstart := 0
  ah := 0
  hsw := 0
  vsw := 0
  hsHigh := false
  vsHigh := false
  deHigh := false
  sopen := 0
  scut := 0
  bline := 0
  lockwin := 256
  slew := 8192
  lonewait := 8
  rx := 0
  ry := 0
  rw := 0
  rh := 0
  cx := 0
  cy := 0
  cw := 0
  ch := 0
  foundwait := 16
  lapse := 6
  holdframes := 60
  modelead := 8
  fillColour := 0
  detachedShow := .fill
  initialMode := .live
  dither := false

/-- The nominal frame L = HTOT x VTOT, in pixel clocks (R2). -/
def Settings.nominal (c : Settings) : Nat := c.htot * c.vtot

/-- The horizontal and vertical steps of the scaler (R142). -/
def Settings.stepX (c : Settings) : Nat := 65536 * c.rw / c.cw
def Settings.stepY (c : Settings) : Nat := 65536 * c.rh / c.ch

/-- A gamma table that changes nothing (R150). -/
def identityGamma : List Byte := (List.range 256).map (BitVec.ofNat 8)

end Sys2Proof
end

