-- ==== Sys2Proof/Machine/State.lean ====
section
/-! DEFINITION. The state of the station, block by block, as plain data; the reasons a step can stop; the state
after a hard reset. -/

namespace Sys2Proof.Machine

/-- Why a step stops with a fault. -/
inductive Fault where
  /-- Raised by MEMORY_TRANSFER_END alone, when the transfer leaves its slot's area of the external memory
  (section 4.6). Safe: no transfer of a region line does (notes/assumptions/29.md). -/
  | transferOutsideSlot
  deriving DecidableEq, Repr

/-- Why a command has no meaning. -/
inductive Refusal where
  /-- A command whose meaning is not written. Raised by no arm. Safe. -/
  | notModelled (mnemonic : String)
  deriving DecidableEq, Repr

/-- The outcome of one command. -/
abbrev Out (σ : Type) := Host.Outcome σ Fault Refusal

/-! ## Timing generator (Chapter 1) -/

/-- An output position, or the stamp of a source frame (R6, R53). -/
structure Stamp where
  wfn : Word
  line : Nat
  deriving DecidableEq, Repr

/-- The lock state (R14). -/
inductive Lock where
  | off
  | seek
  | locked
  deriving DecidableEq, Repr

/-- State of the timing block (R18). -/
structure Timing where
  running : Bool
  pixel : Nat
  line : Nat
  wfn : Word
  lock : Lock
  /-- Pixel clocks from the most recent foreign edge to the present pixel (R10). -/
  keptEdge : Option Nat
  phaseError : Nat
  shortening : Nat
  lockStreak : Nat
  unlockStreak : Nat
  loneWait : Nat
  /-- FS is driven low (R9). -/
  fsDrive : Bool
  deriving DecidableEq, Repr

/-- R19. -/
def Timing.initial : Timing := ⟨false, 0, 0, 0, .off, none, 0, 0, 0, 0, 0, false⟩

/-! ## Tile Bus controller (Chapter 2) -/

/-- The input state (R46 to R49), also a field of STATUS (R25). -/
inductive InputState where
  | noSignal
  | acquiring
  | stable
  deriving DecidableEq, Repr

/-- The fields of a STATUS (R25); `isMember` is its station state, MEMBER or JOINING. -/
structure StatusMsg where
  isMember : Bool
  lock : Lock
  input : InputState
  wfn : Word
  stamp : Option Stamp
  mode : Mode
  effective : Word
  deriving DecidableEq, Repr

/-- The fields of a MODE (R26). -/
structure ModeMsg where
  target : Word
  mode : Mode
  deriving DecidableEq, Repr

/-- The reason of a LEAVE (R26). -/
inductive LeaveReason where
  | hostHold
  | inputLost
  | silenced
  deriving DecidableEq, Repr

/-- The message kinds, in order of code (R24). -/
inductive MsgKind where
  | mode
  | leave
  | status
  deriving DecidableEq, Repr

/-- A message with its fields complete. -/
inductive Message where
  | mode (m : ModeMsg)
  | leave (r : LeaveReason)
  | status (m : StatusMsg)
  deriving DecidableEq, Repr

/-- The receive states (R28). -/
inductive RxState where
  | waitIdle
  | idle
  | frame
  | ballot
  deriving DecidableEq, Repr

/-- The message being sent: the place it stands in, a withdrawal held until it ends (R32), and a STATUS or LEAVE
that waits to replace it (R31). -/
structure Sending where
  kind : MsgKind
  withdraw : Bool
  nextStatus : Option StatusMsg
  nextLeave : Option LeaveReason
  deriving DecidableEq, Repr

/-- State of the Tile Bus controller (R42). -/
structure Bus where
  active : Bool
  /-- The status-open event of this frame has been taken and its cut-off has not (R33, condition 3). -/
  windowOpen : Bool
  /-- Inside the ballot window (R38). -/
  ballotWindow : Bool
  rx : RxState
  /-- The bits sampled of the message in progress, its start bit first (R28). -/
  rxBits : List Level
  idle : Nat
  /-- The level of the last bit time completed (R20, R21). -/
  tdLevel : Level
  /-- Place of the bit time in progress in the pattern 5, 5, 6, 5, 6 (R21). -/
  bitPhase : Nat
  /-- The XREF clock of the bit time in progress that comes next, the first being clock 0 (R21). -/
  bitClock : Nat
  /-- The last sample taken (R21). -/
  sample : Level
  /-- The level read at the last XREF clock (R20). -/
  tdClock : Level
  modePlace : Option ModeMsg
  leavePlace : Option LeaveReason
  statusPlace : Option StatusMsg
  sending : Option Sending
  /-- The conflict latch (R39, R40). -/
  latch : Bool
  stuckCount : Nat
  /-- The stuck indication (R41). -/
  stuck : Bool
  deriving DecidableEq, Repr

/-- R42. -/
def Bus.initial : Bus :=
  ⟨false, false, false, .waitIdle, [], 0, .recessive, 0, 0, .recessive, .recessive, none, none, none, none, false, 0, false⟩

/-! ## Input monitor and capture (Chapter 3) -/

/-- What the sync detector keeps of one line (R43). -/
structure Sync where
  /-- The level since the last transition; not known before the first. -/
  level : Option Pol
  /-- Length so far of the run in progress. -/
  run : Nat
  /-- The run in progress began at a transition. -/
  whole : Bool
  keptHigh : Option Nat
  keptLow : Option Nat
  pulse : Option Pol
  /-- The last transition was a leading edge that no step has taken yet. -/
  leading : Bool
  deriving DecidableEq, Repr

/-- Undetermined, with nothing kept (R43). -/
def Sync.initial : Sync := ⟨none, 0, false, none, none, none, false⟩

/-- A measurement record (R46). -/
structure Record where
  hsPeriod : Nat
  lines : Nat
  activePixels : Nat
  activeLines : Nat
  hsWidth : Nat
  vsWidth : Nat
  hsHigh : Bool
  vsHigh : Bool
  frameTime : Nat
  deriving DecidableEq, Repr

/-- All zero, with both polarities shown as active high (R46). -/
def Record.zero : Record := ⟨0, 0, 0, 0, 0, 0, true, true, 0⟩

/-- The counts of the frame in progress, and the place in its line (R45, R46). -/
structure FrameCount where
  hsPeriod : Nat
  lines : Nat
  activePixels : Nat
  activeLines : Nat
  vsWidth : Nat
  time : Nat
  /-- XREF clocks since the last HS leading edge taken. -/
  sinceHs : Nat
  /-- An HS leading edge has been taken in this frame. -/
  hsTaken : Bool
  /-- DE has been asserted in the line in progress. -/
  lineActive : Bool
  deriving DecidableEq, Repr

/-- R46: the counter begins the next frame from 0. -/
def FrameCount.zero : FrameCount := ⟨0, 0, 0, 0, 0, 0, 0, false, false⟩

/-- The capture progress of the FILLING slot (R51, R54, R59). -/
structure Progress where
  slot : Fin 5
  line : Nat
  pixel : Nat
  entered : Nat
  /-- The line in progress is an active line. -/
  lineActive : Bool
  deriving DecidableEq, Repr

/-- State of the input monitor and capture (R59). -/
structure Input where
  active : Bool
  hs : Sync
  vs : Sync
  /-- The held VS and the input clocks it has been held (R44). -/
  heldVs : Option Nat
  count : FrameCount
  record : Record
  state : InputState
  candidate : Option Record
  agreement : Nat
  stable : Option Record
  hsTimer : Nat
  vsTimer : Nat
  /-- An HS leading edge has been taken since the block became active (R47). -/
  hsSeen : Bool
  lcs : Word
  progress : Option Progress
  deriving DecidableEq, Repr

/-- R60. -/
def Input.initial : Input :=
  ⟨false, .initial, .initial, none, .zero, .zero, .noSignal, none, 0, none, 0, 0, false, 0, none⟩

/-! ## Frame store (Chapter 4) -/

/-- The slot states (R61). -/
inductive SlotState where
  | free
  | filling
  | ready
  | chosen
  | showing
  deriving DecidableEq, Repr

/-- A slot record (R61). -/
structure Slot where
  state : SlotState
  lcs : Word
  stamp : Stamp
  lines : Nat
  torn : Bool
  pledged : Bool
  deriving DecidableEq, Repr

/-- The record of a FREE slot (R61). -/
def Slot.free : Slot := ⟨.free, 0, ⟨0, 0⟩, 0, false, false⟩

/-- The five slot records (R61). -/
structure Slots where
  s0 : Slot
  s1 : Slot
  s2 : Slot
  s3 : Slot
  s4 : Slot
  deriving DecidableEq, Repr

/-- A region pixel in the write FIFO, with its slot, line and pixel (Figure 7). -/
structure WritePixel where
  slot : Fin 5
  line : Nat
  col : Nat
  rgb : Rgb
  deriving DecidableEq, Repr

/-- A region pixel in the read FIFO. -/
structure ReadPixel where
  line : Nat
  col : Nat
  rgb : Rgb
  deriving DecidableEq, Repr

/-- A transfer of the memory port (R73). A read is `live` until its pixels are no
longer wanted (R75, R76). -/
inductive Transfer where
  | refresh
  | write (slot : Fin 5) (line col : Nat) (pixels : List Rgb)
  | read (slot : Fin 5) (line col count : Nat) (live : Bool)
  deriving DecidableEq, Repr

/-- A region line named to the reader: its pixels are taken, or, after an underflow, discarded as they arrive
(R76, R140, R145). -/
structure NamedLine where
  line : Nat
  live : Bool
  deriving DecidableEq, Repr

/-- State of the frame store (R77). -/
structure Store where
  slots : Slots
  dropPending : Bool
  transfer : Option Transfer
  /-- The refresh requests that have come and have not been granted (R73). -/
  refreshWaiting : Nat
  writeFifo : List WritePixel
  readFifo : List ReadPixel
  /-- The region lines named to the reader and not yet fetched whole, in order (R75, R140). -/
  named : List NamedLine
  /-- The pixel of the first named line that the reader fetches next. -/
  fetchCol : Nat
  deriving DecidableEq, Repr

/-- R78. -/
def Store.initial : Store :=
  ⟨⟨.free, .free, .free, .free, .free⟩, false, none, 0, [], [], [], 0⟩

/-! ## Ballot engine (Chapter 5) -/

/-- The ballot phases (Figure 10). -/
inductive BallotPhase where
  | idle
  | watch
  | voting
  | spent
  deriving DecidableEq, Repr

/-- State of the ballot engine (R95). -/
structure Ballot where
  phase : BallotPhase
  /-- Pixel clocks from the ballot edge to the present pixel (R81). -/
  edge : Option Nat
  voter : Bool
  p : Word
  pledged : List Word
  /-- The positions d, 1 to 8, that the own mask holds (R80). -/
  mask : List Nat
  /-- The mode at the pledge was FREEZE (R85). -/
  freeze : Bool
  /-- The levels read for bits 0, 1, ... so far (R83). -/
  lineResult : List Level
  dStar : Nat
  deriving DecidableEq, Repr

/-- R96. -/
def Ballot.initial : Ballot := ⟨.idle, none, false, 0, [], [], false, [], 0⟩

/-! ## Membership controller (Chapter 6) -/

/-- The station states (Figure 13). -/
inductive Station where
  | starting
  | fault
  | detached
  | joining
  | member
  deriving DecidableEq, Repr

/-- The states of a roster entry other than SELF (R107). -/
inductive EntryState where
  | absent
  | joining
  | member
  | lapsed
  | left
  deriving DecidableEq, Repr

/-- A roster entry of another tile (R107). -/
structure Entry where
  state : EntryState
  heard : Nat
  wfn : Word
  stamp : Option Stamp
  mode : Mode
  effective : Word
  lock : Lock
  input : InputState
  reason : Option LeaveReason
  deriving DecidableEq, Repr

/-- The values of an ABSENT entry (R107). -/
def Entry.absent : Entry := ⟨.absent, 0, 0, none, .live, 0, .off, .noSignal, none⟩

/-- State of the membership controller (R119). The place of the SELF entry in `roster` is not read: the SELF entry
is a view of the station (R107). -/
structure Membership where
  station : Station
  hostHold : Bool
  announced : Bool
  holdTimer : Nat
  roster : List Entry
  frameSet : List (Tile × StatusMsg)
  reference : Option Tile
  quiet : Nat
  deriving DecidableEq, Repr

/-- R120. -/
def Membership.initial : Membership :=
  ⟨.starting, false, false, 0, List.replicate 32 .absent, [], none, 0⟩

/-! ## Mode controller (Chapter 7) -/

/-- The current mode record, or a held repair with the tile it was taken from (R122, R133). -/
structure ModeRecord where
  mode : Mode
  effective : Word
  origin : Tile
  deriving DecidableEq, Repr

/-- An entry of the pending-mode queue (R123). -/
structure ModeEntry where
  target : Word
  mode : Mode
  origin : Tile
  deriving DecidableEq, Repr

/-- What a withdrawal held against a MODE being sent will end the SET_MODE as (R126, R127). -/
inductive Ending where
  | none
  | late
  | abandoned
  deriving DecidableEq, Repr

/-- The outstanding SET_MODE (R124 to R127). -/
structure Outstanding where
  target : Word
  mode : Mode
  ending : Ending
  deriving DecidableEq, Repr

/-- State of the mode controller (R135). -/
structure Modes where
  record : ModeRecord
  queue : List ModeEntry
  outstanding : Option Outstanding
  repair : Option ModeRecord
  deriving DecidableEq, Repr

/-- R136: LIVE, 0, 0 before the configuration is loaded. -/
def Modes.initial : Modes := ⟨⟨.live, 0, 0⟩, [], none, none⟩

/-! ## Picture output (Chapter 8) -/

/-- The source selection (R138). -/
inductive Selection where
  | inactive
  | slot
  | fill
  | pattern (index : Fin 12)
  deriving DecidableEq, Repr

/-- Whether all pixels of a line of the line store have arrived (R144). -/
inductive LineStatus where
  | arriving
  | complete
  | incomplete
  deriving DecidableEq, Repr

/-- A region line in the line store (R144). -/
structure StoreLine where
  line : Nat
  pixels : List Rgb
  status : LineStatus
  deriving DecidableEq, Repr

/-- State of picture output (R153). -/
structure Picture where
  selection : Selection
  nextSelection : Selection
  /-- The field colour of pattern 10 in the line in progress (R149). -/
  field : Rgb
  /-- The panel column from which the line in progress is fill colour (R139, R145). -/
  fillFrom : Option Nat
  row : Nat
  /-- The content row whose lines were named last (R140). -/
  namedRow : Option Nat
  lineStore : List StoreLine
  patternWfn : Word
  nextPatternWfn : Word
  dither : Nat
  gammaR : List Byte
  gammaG : List Byte
  gammaB : List Byte
  deriving DecidableEq, Repr

/-- R153. -/
def Picture.initial : Picture :=
  ⟨.inactive, .inactive, 0, none, 0, none, [], 0, 0, 0, identityGamma, identityGamma, identityGamma⟩

/-! ## Configuration loader (Chapter 9) -/

/-- The load phases (Figure 18). -/
inductive LoadPhase where
  | held
  | wait
  | primary
  | backup
  | pll
  | run
  | fault
  deriving DecidableEq, Repr

/-- The two copies of the image (R157). -/
inductive Copy where
  | primary
  | backup
  deriving DecidableEq, Repr

/-- The fault causes (R168). -/
inductive Cause where
  | none
  | noImage
  | badCrc
  | missingRecord
  | range
  | constraint
  | pllNoLock
  deriving DecidableEq, Repr

/-- State of the configuration loader (R168). -/
structure Loader where
  phase : LoadPhase
  startCount : Nat
  pllCount : Nat
  /-- More XREF clocks have passed in the PLL wait than its limit (R165). -/
  pllOver : Bool
  /-- The copy of the transaction in progress (R156). -/
  reading : Option Copy
  /-- XREF clocks of the transaction in progress (R156). -/
  spiClock : Nat
  /-- XREF clocks that FL_CSn has been high before the backup is read, holding at 16 (R156). -/
  gap : Nat
  /-- The bytes read in the transaction in progress. -/
  bytes : List Byte
  /-- The bits of the data byte in progress that have been sampled, first one first (R156). -/
  bits : List Bool
  copyInUse : Option Copy
  cause : Cause
  settings : Settings
  pllRunning : Bool
  deriving DecidableEq, Repr

/-- R168. -/
def Loader.initial : Loader := ⟨.held, 0, 0, false, none, 0, 0, [], [], none, .none, .startUp, false⟩

/-! ## Observation port (Chapter 10) -/

/-- The items (section 12.4). -/
inductive Item where
  | ident
  | station
  | input
  | slots
  | roster
  | counters
  | events
  | command
  deriving DecidableEq, Repr

/-- The transaction states (R182): the bytes a write has carried after its item number; the place of a read. -/
inductive Tx where
  | waiting
  | writing (bytes : List Byte)
  | reading (position : Nat)
  deriving DecidableEq, Repr

/-- The command results (R178). -/
inductive CmdResult where
  | none
  | accepted
  | done
  | refusedState
  | refusedArg
  | busy
  | late
  | abandoned
  deriving DecidableEq, Repr

/-- The commands that can be in flight (section 10.3). -/
inductive InFlight where
  | hold
  | setMode
  deriving DecidableEq, Repr

/-- State of the observation port (R182). The event enable mask in use is the loaded configuration's (R181). -/
structure Port where
  address : BitVec 7
  tx : Tx
  selected : Item
  snapshot : Option (List Byte)
  lastCode : Option Byte
  result : CmdResult
  inFlight : Option InFlight
  /-- The event flags, in the layout of Figure 26. -/
  flags : Word
  /-- SDA in the last transaction: the acknowledgements the port gave. -/
  acks : List Bool
  /-- SDA in the last read transaction: the bytes the port returned. -/
  returned : List Byte
  deriving DecidableEq, Repr

/-- R182. The address before the straps are first sampled is a DESIGN CHOICE (notes/assumptions/15.md). -/
def Port.initial : Port := ⟨0x5A#7, .waiting, .ident, none, none, .none, none, 0, [], []⟩

/-! ## Counters (section 10.5) -/

/-- The 25 counters, in the order of the counter table. -/
structure Counters where
  lockLosses : Word
  msgsSent : Word
  arbLosses : Word
  rxErrors : Word
  statusDropped : Word
  busStuck : Word
  captureDone : Word
  captureShort : Word
  captureTorn : Word
  slotsOverwritten : Word
  rebases : Word
  readUnderflow : Word
  advances : Word
  repeats : Word
  ballotLate : Word
  ballotFaults : Word
  joins : Word
  alignMisses : Word
  foundings : Word
  realigns : Word
  lapses : Word
  modeStale : Word
  modeConflicts : Word
  modeOverflow : Word
  modeRepairs : Word
  deriving DecidableEq, Repr

/-- Every counter 0. -/
def Counters.zero : Counters :=
  ⟨0, 0, 0, 0, 0, 0, 0, 0, 0, 0, 0, 0, 0, 0, 0, 0, 0, 0, 0, 0, 0, 0, 0, 0, 0⟩

/-! ## The whole station -/

/-- The station, and the commands that wait for it. -/
structure State where
  pending : List Instr
  loader : Loader
  timing : Timing
  bus : Bus
  input : Input
  store : Store
  ballot : Ballot
  member : Membership
  modes : Modes
  picture : Picture
  port : Port
  counters : Counters
  /-- The external SDRAM: addresses rising, no entry that equals what an unlisted address reads as. -/
  mem : List Host.Cell
  deriving DecidableEq, Repr

/-- The station at a hard reset, RESETn low, with nothing waiting (R154 and each chapter's state rule). -/
def State.reset : State where
  pending := []
  loader := .initial
  timing := .initial
  bus := .initial
  input := .initial
  store := .initial
  ballot := .initial
  member := .initial
  modes := .initial
  picture := .initial
  port := .initial
  counters := .zero
  mem := []

/-! ## One update for each part -/

def State.setPending (s : State) (q : List Instr) : State := { s with pending := q }
def State.setLoader (s : State) (x : Loader) : State := { s with loader := x }
def State.setTiming (s : State) (x : Timing) : State := { s with timing := x }
def State.setBus (s : State) (x : Bus) : State := { s with bus := x }
def State.setInput (s : State) (x : Input) : State := { s with input := x }
def State.setStore (s : State) (x : Store) : State := { s with store := x }
def State.setBallot (s : State) (x : Ballot) : State := { s with ballot := x }
def State.setMember (s : State) (x : Membership) : State := { s with member := x }
def State.setModes (s : State) (x : Modes) : State := { s with modes := x }
def State.setPicture (s : State) (x : Picture) : State := { s with picture := x }
def State.setPort (s : State) (x : Port) : State := { s with port := x }
def State.setCounters (s : State) (x : Counters) : State := { s with counters := x }
def State.setMem (s : State) (x : List Host.Cell) : State := { s with mem := x }

/-- The loaded configuration. -/
def State.cfg (s : State) : Settings := s.loader.settings

end Sys2Proof.Machine
end

