-- ==== Sys2Proof/Machine/Messages.lean ====
section
/-! DEFINITION. Tile Bus messages as bits and bytes: bit times, framing, CRC, layouts, field checks
(Chapter 2, section 12.1). -/

namespace Sys2Proof.Machine

/-! ## Bit times (R21, R24) -/

/-- The length in XREF clocks of the bit time at a place of the pattern (R21). -/
def bitLength : Nat → Nat
  | 0 => 5
  | 1 => 5
  | 2 => 6
  | 3 => 5
  | _ => 6

/-- The clock of a bit time at which it is sampled (R21). -/
def sampleClock (phase : Nat) : Nat := if bitLength phase = 5 then 2 else 3

/-- XREF clocks that `n` bit times last when the first has place `phase` of the pattern. -/
def bitTimesLast (phase : Nat) : Nat → Nat
  | 0 => 0
  | n + 1 => bitLength phase + bitTimesLast ((phase + 1) % 5) n

/-- Bytes of the payload of a kind (R24). -/
def MsgKind.payload : MsgKind → Nat
  | .mode => 3
  | .leave => 1
  | .status => 10

/-- The kind code (R24). -/
def MsgKind.code : MsgKind → BitVec 3
  | .mode => 0
  | .leave => 1
  | .status => 2

/-- The kind with a code; codes 3 to 7 are unknown (R24). -/
def MsgKind.ofCode (c : BitVec 3) : Option MsgKind :=
  if c = 0 then some .mode else if c = 1 then some .leave else if c = 2 then some .status else none

/-- Bit times of a message: start bit, nine for each byte, two end bits (R22). -/
def MsgKind.bitTimes (k : MsgKind) : Nat := 1 + 9 * (k.payload + 3) + 2

/-- Duration of a message in XREF clocks, counted from its start bit (R21, R24). -/
def MsgKind.duration (k : MsgKind) : Nat := bitTimesLast 0 k.bitTimes

/-! ## Bits of bytes, and the check sums -/

/-- The bits of a byte, most significant first (R22). -/
def byteBits (b : Byte) : List Bool :=
  [b.getLsbD 7, b.getLsbD 6, b.getLsbD 5, b.getLsbD 4, b.getLsbD 3, b.getLsbD 2, b.getLsbD 1, b.getLsbD 0]

/-- A bit as a level: 0 dominant, 1 recessive (R20). -/
def bitLevel (b : Bool) : Level := if b then .recessive else .dominant

/-- Eight bits as a byte, most significant first. -/
def bitsByte (l : List Bool) : Byte := l.foldl (fun acc b => (acc <<< 1) ||| (if b then 1#8 else 0#8)) 0#8

/-- Eight levels as a byte, most significant first. -/
def levelsByte (l : List Level) : Byte := bitsByte (l.map (fun x => x == .recessive))

/-- One bit into the CRC-16 register (R23). -/
def crc16Bit (c : Word) (b : Bool) : Word :=
  let fed := c.getLsbD 15 != b
  if fed then (c <<< 1) ^^^ 0x1021#16 else c <<< 1

/-- The CRC-16 of R23: x^16 + x^12 + x^5 + 1, from FFFFh, sent without inversion. -/
def crc16 (bytes : List Byte) : Word :=
  (bytes.flatMap byteBits).foldl crc16Bit 0xFFFF#16

/-- One bit into the CRC-32 register (R159). -/
def crc32Bit (c : BitVec 32) (b : Bool) : BitVec 32 :=
  let fed := c.getLsbD 31 != b
  if fed then (c <<< 1) ^^^ 0x04C11DB7#32 else c <<< 1

/-- The CRC-32 of R159: 04C11DB7h, from FFFFFFFFh, inverted before comparison. -/
def crc32 (bytes : List Byte) : BitVec 32 :=
  ~~~((bytes.flatMap byteBits).foldl crc32Bit 0xFFFFFFFF#32)

/-- The two bytes of a word, most significant first. -/
def wordBytes (w : Word) : List Byte := [w.extractLsb' 8 8, w.extractLsb' 0 8]

/-- A number in two bytes, most significant first. -/
def natWordBytes (n : Nat) : List Byte := wordBytes (BitVec.ofNat 16 n)

/-- A word from two bytes, most significant first. -/
def bytesWord (hi lo : Byte) : Word := hi ++ lo

/-! ## Layouts (section 12.1) -/

/-- The mode byte (Figure 20). -/
def modeByte : Mode → Byte
  | .live => 0x00#8
  | .fill => 0x40#8
  | .pattern n => 0x80#8 ||| BitVec.ofNat 8 n.val
  | .freeze => 0xC0#8

/-- The mode of a mode byte. Spare bits are not checked; an index of 12 to 15 with PATTERN is undefined (R183). -/
def decodeMode (b : Byte) : Option Mode :=
  let kind := b.extractLsb' 6 2
  if kind = 0 then some .live
  else if kind = 1 then some .fill
  else if kind = 3 then some .freeze
  else
    let n := (b.extractLsb' 0 4).toNat
    if h : n < 12 then some (.pattern ⟨n, h⟩) else none

/-- The lock state code (Figure 21). -/
def Lock.code : Lock → Byte
  | .off => 0
  | .seek => 1
  | .locked => 2

/-- The lock state of a code; 3 is undefined (R183). -/
def decodeLock (c : BitVec 2) : Option Lock :=
  if c = 0 then some .off else if c = 1 then some .seek else if c = 2 then some .locked else none

/-- The input state code (Figure 21). -/
def InputState.code : InputState → Byte
  | .noSignal => 0
  | .acquiring => 1
  | .stable => 2

/-- The input state of a code; 3 is undefined (R183). -/
def decodeInput (c : BitVec 2) : Option InputState :=
  if c = 0 then some .noSignal else if c = 1 then some .acquiring else if c = 2 then some .stable else none

/-- The leave reason code (R26). -/
def LeaveReason.code : LeaveReason → Byte
  | .hostHold => 1
  | .inputLost => 2
  | .silenced => 3

/-- The leave reason of a byte; 0 and 4 to 255 are undefined (R183). -/
def decodeReason (b : Byte) : Option LeaveReason :=
  if b = 1 then some .hostHold else if b = 2 then some .inputLost else if b = 3 then some .silenced else none

/-- The bytes of an optional stamp, 0 when absent (Figures 21 and 27). -/
def stampBytes : Option Stamp → List Byte
  | none => [0, 0, 0, 0]
  | some t => wordBytes t.wfn ++ natWordBytes t.line

/-- The STATUS payload (Figure 21). -/
def statusPayload (m : StatusMsg) : List Byte :=
  let first : Byte := ((if m.isMember then 2#8 else 1#8) <<< 6) ||| (m.lock.code <<< 4) ||| (m.input.code <<< 2)
    ||| (if m.stamp.isSome then 2#8 else 0#8)
  [first] ++ wordBytes m.wfn ++ stampBytes m.stamp ++ [modeByte m.mode] ++ wordBytes m.effective

/-- A message's kind. -/
def Message.kind : Message → MsgKind
  | .mode _ => .mode
  | .leave _ => .leave
  | .status _ => .status

/-- A message's payload (Figures 21 and 22). -/
def Message.payload : Message → List Byte
  | .mode m => wordBytes m.target ++ [modeByte m.mode]
  | .leave r => [r.code]
  | .status m => statusPayload m

/-- The header byte (R24). -/
def headerByte (k : MsgKind) (t : Tile) : Byte := k.code ++ t

/-- The bytes of a message as sent by a tile: header, payload, CRC (R22, R23). -/
def messageBytes (t : Tile) (m : Message) : List Byte :=
  let body := headerByte m.kind t :: m.payload
  body ++ wordBytes (crc16 body)

/-- A byte on the line: a dominant mark bit, then its eight bits (R22). -/
def byteLevels (b : Byte) : List Level := .dominant :: (byteBits b).map bitLevel

/-- A message on the line: start bit, bytes, two end bits (R22). -/
def messageLevels (t : Tile) (m : Message) : List Level :=
  .dominant :: ((messageBytes t m).flatMap byteLevels ++ [.recessive, .recessive])

/-- A STATUS payload decoded, or nothing where it is malformed at a receiver whose frame has `vtot` lines
(R29, R183). -/
def decodeStatus (vtot : Nat) : List Byte → Option StatusMsg
  | [b0, w1, w0, s1, s0, l1, l0, md, e1, e0] =>
    let st := b0.extractLsb' 6 2
    let present := b0.getLsbD 1
    let line := (bytesWord l1 l0).toNat
    match decodeLock (b0.extractLsb' 4 2), decodeInput (b0.extractLsb' 2 2), decodeMode md with
    | some lk, some inp, some mode =>
      if st = 1 then
        (if present then none
         else some ⟨false, lk, inp, bytesWord w1 w0, none, mode, bytesWord e1 e0⟩)
      else if st = 2 then
        (if present && line < vtot then
          some ⟨true, lk, inp, bytesWord w1 w0, some ⟨bytesWord s1 s0, line⟩, mode, bytesWord e1 e0⟩
         else none)
      else none
    | _, _, _ => none
  | _ => none

/-- A MODE payload decoded (R29, R183). -/
def decodeModeMsg : List Byte → Option ModeMsg
  | [t1, t0, md] => (decodeMode md).map (fun m => ⟨bytesWord t1 t0, m⟩)
  | _ => none

/-- A payload decoded by its kind: nothing where the message is malformed (R29, R183). -/
def decodePayload (vtot : Nat) (k : MsgKind) (payload : List Byte) : Option Message :=
  match k with
  | .mode => (decodeModeMsg payload).map .mode
  | .leave => match payload with
    | [b] => (decodeReason b).map .leave
    | _ => none
  | .status => (decodeStatus vtot payload).map .status

/-! ## Framing (R28) -/

/-- What the bits of a message in progress show so far. -/
inductive Verdict where
  /-- Nothing has failed and the message is not at its end. -/
  | arriving
  /-- The start bit read recessive: not a message. -/
  | notMessage
  /-- A check of R28 has failed. -/
  | failed
  /-- Received whole: kind, sender's tile number, payload. -/
  | whole (kind : MsgKind) (tile : Tile) (payload : List Byte)
  deriving DecidableEq, Repr

/-- A byte taken from the line: none yet, a missing mark bit, or the byte and what follows. -/
inductive ByteRead where
  | arriving
  | missingMark
  | byte (b : Byte) (rest : List Level)
  deriving DecidableEq, Repr

/-- Take a mark bit and eight data bits (R22, R28). -/
def readByte : List Level → ByteRead
  | .dominant :: a :: b :: c :: d :: e :: f :: g :: h :: rest => .byte (levelsByte [a, b, c, d, e, f, g, h]) rest
  | .recessive :: _ => .missingMark
  | _ => .arriving

/-- `n` bytes taken from the line. -/
inductive BytesRead where
  | arriving
  | missingMark
  | bytes (l : List Byte) (rest : List Level)
  deriving DecidableEq, Repr

/-- Take `n` bytes. -/
def readBytes : Nat → List Level → BytesRead
  | 0, l => .bytes [] l
  | n + 1, l =>
    match readByte l with
    | .arriving => .arriving
    | .missingMark => .missingMark
    | .byte b rest =>
      match readBytes n rest with
      | .arriving => .arriving
      | .missingMark => .missingMark
      | .bytes bs r => .bytes (b :: bs) r

/-- The checks of R28 over the bits from the start bit on, first failure first. -/
def frameVerdict : List Level → Verdict
  | [] => .arriving
  | .recessive :: _ => .notMessage
  | .dominant :: bits =>
    match readByte bits with
    | .arriving => .arriving
    | .missingMark => .failed
    | .byte header afterHeader =>
      match MsgKind.ofCode (header.extractLsb' 5 3) with
      | none => .failed
      | some k =>
        match readBytes (k.payload + 2) afterHeader with
        | .arriving => .arriving
        | .missingMark => .failed
        | .bytes bs rest =>
          let payload := bs.take k.payload
          let body := header :: payload
          if bs.drop k.payload ≠ wordBytes (crc16 body) then .failed
          else match rest with
            | [] => .arriving
            | .dominant :: _ => .failed
            | [.recessive] => .arriving
            | .recessive :: .dominant :: _ => .failed
            | .recessive :: .recessive :: _ => .whole k (header.extractLsb' 0 5) payload

end Sys2Proof.Machine
end

