-- ==== Sys2Proof/Machine/Memory.lean ====
section
/-! DEFINITION. The external SDRAM behind the memory port (section 4.6): bytes, the layout of a slot, pixels. -/

namespace Sys2Proof.Machine

/-- The byte at an address. -/
def memRead : List Host.Cell → Nat → Byte
  | [], _ => Config.unwritten
  | (b, v) :: rest, a => if b = a then v else memRead rest a

/-- Put a byte at an address, keeping the canonical form. -/
def memWrite : List Host.Cell → Nat → Byte → List Host.Cell
  | [], a, v => if v = Config.unwritten then [] else [(a, v)]
  | (b, u) :: rest, a, v =>
    if a < b then (if v = Config.unwritten then (b, u) :: rest else (a, v) :: (b, u) :: rest)
    else if a = b then (if v = Config.unwritten then rest else (a, v) :: rest)
    else (b, u) :: memWrite rest a v

/-- The canonical form: addresses strictly rising, no entry equal to what an unlisted address reads as. -/
def Memory.wf : List Host.Cell → Bool
  | [] => true
  | (a, v) :: rest => v != Config.unwritten && rest.all (fun c => a < c.1) && Memory.wf rest

/-- The first byte of a pixel (section 4.6). -/
def pixelAddress (slot : Fin 5) (line col : Nat) : Nat :=
  Config.slotBytes * slot.val + Config.lineBytes * line + 4 * col

/-- The four bytes of a stored pixel, lowest address first. The place of the zero byte is the spec's "above" the
components; the order of the three is a DESIGN CHOICE (notes/assumptions/10.md). -/
def pixelBytes (c : Rgb) : List Byte :=
  [c.extractLsb' 0 8, c.extractLsb' 8 8, c.extractLsb' 16 8, 0#8]

/-- Put bytes at rising addresses. -/
def memWriteBytes (m : List Host.Cell) (a : Nat) : List Byte → List Host.Cell
  | [] => m
  | v :: rest => memWriteBytes (memWrite m a v) (a + 1) rest

/-- Store consecutive pixels of a region line (R73, section 4.6). -/
def storePixels (m : List Host.Cell) (slot : Fin 5) (line col : Nat) : List Rgb → List Host.Cell
  | [] => m
  | c :: rest => storePixels (memWriteBytes m (pixelAddress slot line col) (pixelBytes c)) slot line (col + 1) rest

/-- The pixel stored at a place. -/
def loadPixel (m : List Host.Cell) (slot : Fin 5) (line col : Nat) : Rgb :=
  let a := pixelAddress slot line col
  memRead m (a + 2) ++ memRead m (a + 1) ++ memRead m a

/-- Read consecutive pixels of a region line into entries of the read FIFO. -/
def loadPixels (m : List Host.Cell) (slot : Fin 5) (line col : Nat) : Nat → List ReadPixel
  | 0 => []
  | n + 1 => ⟨line, col, loadPixel m slot line col⟩ :: loadPixels m slot line (col + 1) n

/-- A transfer of `n` pixels lies inside its slot's area (section 4.6). -/
def insideSlot (line col n : Nat) : Bool := line < Config.slotHeight && col + n ≤ Config.slotWidth

end Sys2Proof.Machine
end

