-- ==== Sys2Proof/Machine/Flags.lean ====
section
/-! DEFINITION. The 25 counters and the ten event flags: counting, clearing, raising (Chapter 10). -/

namespace Sys2Proof.Machine

/-- The counters by name, in the order of the counter table (section 10.5). -/
inductive Counter where
  | lockLosses
  | msgsSent
  | arbLosses
  | rxErrors
  | statusDropped
  | busStuck
  | captureDone
  | captureShort
  | captureTorn
  | slotsOverwritten
  | rebases
  | readUnderflow
  | advances
  | repeats
  | ballotLate
  | ballotFaults
  | joins
  | alignMisses
  | foundings
  | realigns
  | lapses
  | modeStale
  | modeConflicts
  | modeOverflow
  | modeRepairs
  deriving DecidableEq, Repr

/-- One more, holding at 65535 (section 10.5, the law of the counters). -/
def satInc (v : Word) : Word := if v = 0xFFFF#16 then v else v + 1

/-- Increment one counter (section 10.5). -/
def Counters.bump (c : Counters) : Counter → Counters
  | .lockLosses => { c with lockLosses := satInc c.lockLosses }
  | .msgsSent => { c with msgsSent := satInc c.msgsSent }
  | .arbLosses => { c with arbLosses := satInc c.arbLosses }
  | .rxErrors => { c with rxErrors := satInc c.rxErrors }
  | .statusDropped => { c with statusDropped := satInc c.statusDropped }
  | .busStuck => { c with busStuck := satInc c.busStuck }
  | .captureDone => { c with captureDone := satInc c.captureDone }
  | .captureShort => { c with captureShort := satInc c.captureShort }
  | .captureTorn => { c with captureTorn := satInc c.captureTorn }
  | .slotsOverwritten => { c with slotsOverwritten := satInc c.slotsOverwritten }
  | .rebases => { c with rebases := satInc c.rebases }
  | .readUnderflow => { c with readUnderflow := satInc c.readUnderflow }
  | .advances => { c with advances := satInc c.advances }
  | .repeats => { c with repeats := satInc c.repeats }
  | .ballotLate => { c with ballotLate := satInc c.ballotLate }
  | .ballotFaults => { c with ballotFaults := satInc c.ballotFaults }
  | .joins => { c with joins := satInc c.joins }
  | .alignMisses => { c with alignMisses := satInc c.alignMisses }
  | .foundings => { c with foundings := satInc c.foundings }
  | .realigns => { c with realigns := satInc c.realigns }
  | .lapses => { c with lapses := satInc c.lapses }
  | .modeStale => { c with modeStale := satInc c.modeStale }
  | .modeConflicts => { c with modeConflicts := satInc c.modeConflicts }
  | .modeOverflow => { c with modeOverflow := satInc c.modeOverflow }
  | .modeRepairs => { c with modeRepairs := satInc c.modeRepairs }

/-- The value of one counter. -/
def Counters.get (c : Counters) : Counter → Word
  | .lockLosses => c.lockLosses
  | .msgsSent => c.msgsSent
  | .arbLosses => c.arbLosses
  | .rxErrors => c.rxErrors
  | .statusDropped => c.statusDropped
  | .busStuck => c.busStuck
  | .captureDone => c.captureDone
  | .captureShort => c.captureShort
  | .captureTorn => c.captureTorn
  | .slotsOverwritten => c.slotsOverwritten
  | .rebases => c.rebases
  | .readUnderflow => c.readUnderflow
  | .advances => c.advances
  | .repeats => c.repeats
  | .ballotLate => c.ballotLate
  | .ballotFaults => c.ballotFaults
  | .joins => c.joins
  | .alignMisses => c.alignMisses
  | .foundings => c.foundings
  | .realigns => c.realigns
  | .lapses => c.lapses
  | .modeStale => c.modeStale
  | .modeConflicts => c.modeConflicts
  | .modeOverflow => c.modeOverflow
  | .modeRepairs => c.modeRepairs

/-- The order of the counter table (section 10.5). -/
def Counter.all : List Counter :=
  [.lockLosses, .msgsSent, .arbLosses, .rxErrors, .statusDropped, .busStuck, .captureDone, .captureShort,
   .captureTorn, .slotsOverwritten, .rebases, .readUnderflow, .advances, .repeats, .ballotLate, .ballotFaults,
   .joins, .alignMisses, .foundings, .realigns, .lapses, .modeStale, .modeConflicts, .modeOverflow, .modeRepairs]

/-- The ten events (section 10.4). -/
inductive Event where
  | stateChange
  | lockChange
  | inputChange
  | rosterChange
  | modeApplied
  | realign
  | busStuck
  | conflict
  | fault
  | restarted
  deriving DecidableEq, Repr

/-- The mark of an event in the event mask (Figure 26). -/
def Event.mark : Event → Word
  | .stateChange => 0x0001#16
  | .lockChange => 0x0002#16
  | .inputChange => 0x0004#16
  | .rosterChange => 0x0008#16
  | .modeApplied => 0x0010#16
  | .realign => 0x0020#16
  | .busStuck => 0x0040#16
  | .conflict => 0x0080#16
  | .fault => 0x0100#16
  | .restarted => 0x0200#16

/-- Increment a counter. -/
def State.count (s : State) (c : Counter) : State := s.setCounters (s.counters.bump c)

/-- Raise an event: its flag is set and stays set (R179). -/
def State.raise (s : State) (e : Event) : State := s.setPort { s.port with flags := s.port.flags ||| e.mark }

/-- Clear every flag marked (R176, R180); marks for no event have no flag to clear. -/
def State.clearFlags (s : State) (mask : Word) : State :=
  s.setPort { s.port with flags := s.port.flags &&& ~~~mask }

/-- The flag of an event is set. -/
def State.flag (s : State) (e : Event) : Bool := s.port.flags &&& e.mark != 0

/-- The event enable mask in use (R181). -/
def State.enableMask (s : State) : Word := s.cfg.eventMask &&& Config.allEvents

/-- ATTN is driven low (R181). While RESETn is low every flag is clear, so it is released. -/
def State.attnLow (s : State) : Bool := s.port.flags &&& s.enableMask != 0

end Sys2Proof.Machine
end

