-- ==== Sys2Proof/Machine/Ops.lean ====
section
/-! DEFINITION. Operations that several blocks share: modular order and stamps (R1), positions in the frame
(R2, R13), the slot records (R61, R62), input usability (R50). -/

namespace Sys2Proof.Machine

/-! ## WFN, LCS and stamps (R1) -/

/-- `a` is later than `b`: (a - b) mod 65536 lies in 1..32767 (R1). -/
def later (a b : Word) : Bool := 1 ≤ (a - b).toNat && (a - b).toNat ≤ 32767

/-- The distance between two numbers. -/
def absDiff (a b : Nat) : Nat := (a - b) + (b - a)

/-- The distance between two stamps, where it exists (R1). -/
def stampDistance (vtot : Nat) (a b : Stamp) : Option Nat :=
  if a.wfn = b.wfn then some (absDiff a.line b.line)
  else if a.wfn = b.wfn + 1 then some (vtot - b.line + a.line)
  else if b.wfn = a.wfn + 1 then some (vtot - a.line + b.line)
  else none

/-- Two stamps match when their distance exists and is at most SKEW (R1). -/
def stampsMatch (c : Settings) (a b : Stamp) : Bool :=
  match stampDistance c.vtot a b with
  | some d => d ≤ c.skew
  | none => false

/-! ## Positions in the frame (R2, R13) -/

/-- The number of the last line of a frame shortened by `s` pixel clocks (R13). -/
def lastLine (c : Settings) (s : Nat) : Nat := c.vtot - 1 - s / c.htot

/-- The length of a line of a frame shortened by `s` pixel clocks: HTOT, but for a short last line (R13). -/
def lineLength (c : Settings) (s line : Nat) : Nat :=
  if line = lastLine c s then c.htot - s % c.htot else c.htot

/-- The length of the line in progress. -/
def State.lineLen (s : State) : Nat := lineLength s.cfg s.timing.shortening s.timing.line

/-- The line in progress is the last of its frame. -/
def State.inLastLine (s : State) : Bool := s.timing.line == lastLine s.cfg s.timing.shortening

/-- The generator runs and the station stands at pixel 0 of a line, the moment of that line's event (R5). -/
def State.atLine (s : State) (n : Nat) : Bool :=
  s.timing.running && s.timing.line == n && s.timing.pixel == 0

/-- The station's own tile number (R24). -/
def State.tile (s : State) : Tile := s.cfg.tile

/-! ## Slot records (R61, R62) -/

/-- One slot record. -/
def Slots.get (x : Slots) : Fin 5 → Slot
  | 0 => x.s0
  | 1 => x.s1
  | 2 => x.s2
  | 3 => x.s3
  | 4 => x.s4

/-- Change every slot record. -/
def Slots.map (f : Fin 5 → Slot → Slot) (x : Slots) : Slots :=
  ⟨f 0 x.s0, f 1 x.s1, f 2 x.s2, f 3 x.s3, f 4 x.s4⟩

/-- Change one slot record. -/
def Slots.modify (x : Slots) (i : Fin 5) (f : Slot → Slot) : Slots :=
  x.map (fun j r => if j = i then f r else r)

/-- The slots with their numbers, lowest first. -/
def Slots.toList (x : Slots) : List (Fin 5 × Slot) := [(0, x.s0), (1, x.s1), (2, x.s2), (3, x.s3), (4, x.s4)]

/-- The lowest-numbered slot in a state. -/
def Slots.first (x : Slots) (st : SlotState) : Option (Fin 5) :=
  (x.toList.find? (fun e => e.2.state == st)).map (·.1)

/-- The record of the SHOWING slot. -/
def Slots.showing (x : Slots) : Option Slot := (x.toList.find? (fun e => e.2.state == .showing)).map (·.2)

/-- The READY set (R62), with slot numbers. -/
def Slots.ready (x : Slots) : List (Fin 5 × Slot) := x.toList.filter (fun e => e.2.state == .ready)

/-- Free every slot that a test picks (R61: a FREE slot has zero fields). -/
def Slots.freeWhere (x : Slots) (p : Slot → Bool) : Slots := x.map (fun _ r => if p r then .free else r)

/-- Free the READY slots older than an LCS (R68 to R71). -/
def Slots.freeOlder (x : Slots) (n : Word) : Slots := x.freeWhere (fun r => r.state == .ready && later n r.lcs)

/-- The entry of a list that comes first in an order on LCS: with `later a b`, the newest; with the arguments
swapped, the oldest (R62). -/
def pickBy (before : Word → Word → Bool) : List (Fin 5 × Slot) → Option (Fin 5 × Slot)
  | [] => none
  | e :: rest =>
    match pickBy before rest with
    | none => some e
    | some b => if before e.2.lcs b.2.lcs then some e else some b

/-- The newest of some slots (R62). -/
def newest (l : List (Fin 5 × Slot)) : Option (Fin 5 × Slot) := pickBy later l

/-- The oldest of some slots (R62). -/
def oldest (l : List (Fin 5 × Slot)) : Option (Fin 5 × Slot) := pickBy (fun a b => later b a) l

/-- Put the slot records back. -/
def State.setSlots (s : State) (x : Slots) : State := s.setStore { s.store with slots := x }

/-! ## Usable input (R50) -/

/-- The configured region lies inside the active area of the stable record (R50). -/
def regionInside (c : Settings) (r : Record) : Bool :=
  c.rx + c.rw ≤ r.activePixels && c.ry + c.rh ≤ r.activeLines

/-- The input is usable (R50). -/
def State.usable (s : State) : Bool :=
  s.input.state == .stable && (match s.input.stable with | some r => regionInside s.cfg r | none => false)

/-- The input is in the condition REGION_MISS (R50). -/
def State.regionMiss (s : State) : Bool := s.input.state == .stable && !s.usable

/-! ## Lock state as other blocks read it -/

/-- The lock state carried by this frame's frame-start event is LOCKED (R5, R33). It changes only at frame starts
and at a stop, so it is the present lock state. -/
def State.locked (s : State) : Bool := s.timing.lock == .locked

/-- The record of the slot a MEMBER is showing: its stamp (R25, R107). -/
def State.presented (s : State) : Option Stamp := s.store.slots.showing.map (·.stamp)

end Sys2Proof.Machine
end

