-- ==== Sys2Proof/Machine/Picture.lean ====
section
/-! DEFINITION. Picture output: source selection, the naming of region lines, the line store, and what each pixel of
the panel holds (Chapter 8). -/

namespace Sys2Proof.Machine

/-! ## Source selection (R138) -/

/-- The selection found from its inputs (R138). A MEMBER with no SHOWING slot, which R138 does not list, is given
fill colour (DESIGN CHOICE, notes/assumptions/20.md). -/
def State.findSelection (s : State) : Selection :=
  match s.member.station with
  | .starting => .inactive
  | .fault => .inactive
  | .detached | .joining =>
    if (s.store.slots.first .showing).isSome then .slot
    else match s.cfg.detachedShow with
      | .fill => .fill
      | .ident => .pattern 10
  | .member =>
    if (s.store.slots.first .showing).isSome then
      match s.modes.record.mode with
      | .live => .slot
      | .freeze => .slot
      | .fill => .fill
      | .pattern n => .pattern n
    else .fill

/-- Picture output takes its picture from the slot in the line in progress or in the following lines (R138). -/
def State.takesSlot (s : State) : Bool := s.picture.selection == .slot || s.findSelection == .slot

/-! ## What a line begins with -/

/-- The field colour of the identity pattern (R149). -/
def State.identityField (s : State) : Rgb :=
  if s.bus.latch then 0x600000#24
  else match s.member.station with
    | .detached => 0x000060#24
    | .joining => 0x604000#24
    | .member => 0x006000#24
    | _ => 0x000060#24

/-! ## Panel coordinates, content rows and columns (R137, R141, R142) -/

/-- The left index, second index and weight of a source position on one axis of `size` region pixels (R142). -/
def axisIndex (position size : Nat) : Nat × Nat × Nat :=
  let a := position / 65536
  (a, if a + 1 = size then size - 1 else a + 1, position % 65536)

/-- The region lines that content row `j` needs (R142). -/
def rowLines (c : Settings) (j : Nat) : List Nat :=
  let (b, b2, _) := axisIndex (j * c.stepY) c.rh
  if b = b2 then [b] else [b, b2]

/-- The output line of content row 0 (R137, R141). -/
def firstContentLine (c : Settings) : Nat := c.vstart + c.cy

/-- The content row output in a line, if one is. -/
def contentRowAt (c : Settings) (line : Nat) : Option Nat :=
  if firstContentLine c ≤ line ∧ line < firstContentLine c + c.ch then some (line - firstContentLine c) else none

/-- The first content row still to be output from a line on, if there is one in the window. -/
def contentRowFrom (c : Settings) (line : Nat) : Nat := line - firstContentLine c

/-- A content row is named only if it is in the window and its line is in the frame (R140). -/
def State.rowExists (s : State) (j : Nat) : Bool :=
  j < s.cfg.ch && firstContentLine s.cfg + j ≤ lastLine s.cfg s.timing.shortening

/-! ## The line store (R140, R144) -/

/-- Keep the complete lines that row `j` needs, release the others, and name the missing ones (R140, R144). -/
def State.nameRow (s : State) (j : Nat) : State :=
  if s.rowExists j then
    let need := rowLines s.cfg j
    let kept := s.picture.lineStore.filter (fun l => l.status == .complete && need.contains l.line)
    let missing := need.filter (fun n => !(kept.any (fun l => l.line == n)))
    (s.setPicture { s.picture with
      lineStore := kept ++ missing.map (fun n => ⟨n, [], .arriving⟩), namedRow := some j }).setStore
      { s.store with named := s.store.named ++ missing.map (fun n => ⟨n, true⟩) }
  else s

/-- One pixel from the read FIFO into the line store: taken where it is the next pixel of an arriving line, and
discarded otherwise (R76, R144). -/
def takePixel (rw : Nat) (store : List StoreLine) (x : ReadPixel) : List StoreLine :=
  store.map (fun l =>
    if l.status = .arriving ∧ l.line = x.line ∧ l.pixels.length = x.col then
      { l with pixels := l.pixels ++ [x.rgb], status := if x.col + 1 = rw then .complete else .arriving }
    else l)

/-- The line store with every pixel that the read FIFO holds taken from it (R76, R144). -/
def State.arrivedLines (s : State) : List StoreLine :=
  s.store.readFifo.foldl (takePixel s.cfg.rw) s.picture.lineStore

/-- The scaler takes the pixels that have arrived (notes/assumptions/11.md). -/
def State.drainFifo (s : State) : State :=
  if s.takesSlot then
    (s.setPicture { s.picture with lineStore := s.arrivedLines }).setStore { s.store with readFifo := [] }
  else s

/-- The transfer in progress, no longer wanted if it is a read (R75). -/
def staleTransfer : Option Transfer → Option Transfer
  | some (.read i l c n _) => some (.read i l c n false)
  | t => t

/-- What is on its way to the scaler is no longer wanted: the read FIFO is emptied, and the lines named and not yet
fetched are discarded as they arrive (R76, R140, R145; notes/assumptions/12.md). -/
def State.discardFetches (s : State) : State :=
  s.setStore { s.store with
    readFifo := [], named := s.store.named.map (fun l => { l with live := false }),
    transfer := staleTransfer s.store.transfer }

/-- The read FIFO is emptied, and nothing is named (R75). -/
def State.emptyReader (s : State) : State :=
  s.setStore { s.store with
    readFifo := [], named := [], fetchCol := 0, transfer := staleTransfer s.store.transfer }

/-- The panel column of the pixel in progress; 0 before the first DE pixel of the line (R137). -/
def State.column (s : State) : Nat := s.timing.pixel - s.cfg.hstart

/-- The SHOWING slot has changed or been freed during a line: the read FIFO and the line store are emptied, the rest
of a SLOT line is fill colour, and fetching resumes with the next content row (R75, R139, R144). -/
def State.slotChanged (s : State) : State :=
  let t := s.emptyReader
  let fill := if t.picture.selection = .slot then
      some (match t.picture.fillFrom with | some k => min k t.column | none => t.column)
    else t.picture.fillFrom
  let u := t.setPicture { t.picture with lineStore := [], namedRow := none, fillFrom := fill }
  if u.picture.selection = .slot ∧ u.findSelection = .slot then
    u.nameRow (contentRowFrom u.cfg (u.timing.line + 1))
  else u

/-- Picture output's frame-start work: the selection is found, the scaler starts afresh, the patterns and the dither
take the WFN of the event (R138, R140, R144, R146, R151, R75). -/
def State.pictureFrameStart (s : State) : State :=
  let t := s.emptyReader
  let u := t.setPicture { t.picture with
    selection := t.findSelection, nextSelection := t.findSelection, field := t.identityField, fillFrom := none, row := 0,
    namedRow := none,
    lineStore := [], patternWfn := t.timing.wfn, nextPatternWfn := t.timing.wfn,
    dither := t.timing.wfn.toNat % 4 }
  if u.picture.selection = .slot then u.nameRow 0 else u

/-- Picture output's work at the end of an output line: the new selection takes effect, and the scaler names the next
region lines: where SLOT takes effect, or stands with nothing named, those of the first content row still to be output
(R139, R140, R144, R146). The line count has already advanced. Outside the content window's lines, where the rules define
no content row, the row held is the first before the window and the last after it (DESIGN CHOICE,
notes/assumptions/48.md). Where SLOT takes effect again, the line store and the read FIFO are emptied, whether or not the
SHOWING slot has changed (DESIGN CHOICE, notes/assumptions/57.md). -/
def State.pictureLineEnd (s : State) : State :=
  let ended := s.timing.line - 1
  let before := s.picture.selection
  let t := s.setPicture { s.picture with
    selection := s.findSelection, nextSelection := s.findSelection, field := s.identityField, fillFrom := none,
    row := min (contentRowFrom s.cfg s.timing.line) (s.cfg.ch - 1), patternWfn := s.picture.nextPatternWfn }
  if t.picture.selection = .slot then
    if before ≠ .slot ∨ t.picture.namedRow = none then
      (t.discardFetches.setPicture { t.picture with lineStore := [], namedRow := none }).nameRow
        (contentRowFrom t.cfg t.timing.line)
    else match contentRowAt t.cfg ended with
      | some j => if t.picture.namedRow = some (j + 1) then t else t.nameRow (j + 1)
      | none => t
  else t

/-! ## Pixel values -/

/-- The three components of a colour. -/
def redOf (c : Rgb) : Nat := (c.extractLsb' 16 8).toNat
def greenOf (c : Rgb) : Nat := (c.extractLsb' 8 8).toNat
def blueOf (c : Rgb) : Nat := (c.extractLsb' 0 8).toNat

/-- A colour from its components. -/
def rgbOf (r g b : Nat) : Rgb := BitVec.ofNat 8 r ++ BitVec.ofNat 8 g ++ BitVec.ofNat 8 b

/-- A blend of two components with a weight in 1/65536 (R143). -/
def blend (u v weight : Nat) : Nat := (u * (65536 - weight) + v * weight + 32768) / 65536

/-- A blend of two colours, component by component (R143). -/
def blendRgb (u v : Rgb) (weight : Nat) : Rgb :=
  rgbOf (blend (redOf u) (redOf v) weight) (blend (greenOf u) (greenOf v) weight)
    (blend (blueOf u) (blueOf v) weight)

/-- A pixel of a region line in the line store, if it has arrived (R144). -/
def storedPixel (store : List StoreLine) (line col : Nat) : Option Rgb :=
  (store.find? (fun l => l.line == line)).bind (fun l => l.pixels[col]?)

/-- The scaler's value for column `i` of row `j`, if every pixel it needs has arrived (R142, R143). -/
def scaledPixel (c : Settings) (store : List StoreLine) (i j : Nat) : Option Rgb :=
  let (a, a2, f) := axisIndex (i * c.stepX) c.rw
  let (b, b2, g) := axisIndex (j * c.stepY) c.rh
  match storedPixel store b a, storedPixel store b a2, storedPixel store b2 a, storedPixel store b2 a2 with
  | some p, some q, some r, some t => some (blendRgb (blendRgb p q f) (blendRgb r t f) g)
  | _, _, _, _ => none

/-- A panel pixel lies in the content window (R141). -/
def inWindow (c : Settings) (x y : Nat) : Bool :=
  c.cx ≤ x && x < c.cx + c.cw && c.cy ≤ y && y < c.cy + c.ch

def white : Rgb := 0xFFFFFF#24
def black : Rgb := 0x000000#24

/-- Canvas positions in 1/65536 of a source pixel (R146). -/
def canvasU (c : Settings) (x : Int) : Int := 65536 * c.rx + (x - c.cx) * c.stepX
def canvasV (c : Settings) (y : Int) : Int := 65536 * c.ry + (y - c.cy) * c.stepY

/-- Pattern 3: a grid line falls on the pixel whose position first reaches a multiple of 64 canvas pixels (R148). -/
def canvasGrid (c : Settings) (x y : Nat) : Rgb :=
  if Int.fdiv (canvasU c x) 4194304 ≠ Int.fdiv (canvasU c (x - 1 : Int)) 4194304
    ∨ Int.fdiv (canvasV c y) 4194304 ≠ Int.fdiv (canvasV c (y - 1 : Int)) 4194304
  then white else black

/-- Pattern 9, the moving bar, on a canvas as wide as the stable record says; black without one (R148). The free
value stands for a canvas of width 0 (notes/assumptions/21.md). -/
def movingBar (c : Settings) (wfn : Word) (stable : Option Record) (x : Nat) : Rgb :=
  match stable with
  | none => black
  | some r =>
    let u := Int.fdiv (canvasU c x) 65536
    if r.activePixels = 0 then (if Config.barWithoutCanvas wfn u then white else black)
    else
      let left : Int := ((wfn.toNat * 8) % r.activePixels : Nat)
      if Int.fmod (u - left) r.activePixels ≤ 15 then white else black

/-- The bars of pattern 0 (R147). -/
def barColour : Nat → Rgb
  | 0 => 0xFFFFFF#24
  | 1 => 0xFFFF00#24
  | 2 => 0x00FFFF#24
  | 3 => 0x00FF00#24
  | 4 => 0xFF00FF#24
  | 5 => 0xFF0000#24
  | 6 => 0x0000FF#24
  | _ => 0x000000#24

/-- The border outline of pattern 11 (R147). -/
def borderOutline (c : Settings) (x y : Nat) : Rgb :=
  let rows := c.cy ≤ y && y ≤ c.cy + c.ch - 1
  let cols := c.cx ≤ x && x ≤ c.cx + c.cw - 1
  if x < 2 || c.aw - 2 ≤ x || y < 2 || c.ah - 2 ≤ y
    || ((x == c.cx || x == c.cx + c.cw - 1) && rows) || ((y == c.cy || y == c.cy + c.ch - 1) && cols)
  then white else black

/-- The segments of the identity pattern (R149). -/
structure Segments where
  top : Bool
  upperRight : Bool
  lowerRight : Bool
  bottom : Bool
  lowerLeft : Bool
  upperLeft : Bool
  middle : Bool
  deriving DecidableEq, Repr

/-- The segments that a digit lights (R149). -/
def digitSegments : Nat → Segments
  | 0 => ⟨true, true, true, true, true, true, false⟩
  | 1 => ⟨false, true, true, false, false, false, false⟩
  | 2 => ⟨true, true, false, true, true, false, true⟩
  | 3 => ⟨true, true, true, true, false, false, true⟩
  | 4 => ⟨false, true, true, false, false, true, true⟩
  | 5 => ⟨true, false, true, true, false, true, true⟩
  | 6 => ⟨true, false, true, true, true, true, true⟩
  | 7 => ⟨true, true, true, false, false, false, false⟩
  | 8 => ⟨true, true, true, true, true, true, true⟩
  | _ => ⟨true, true, true, true, false, true, true⟩

/-- Dot (c, r) of a digit is lit (R149). -/
def dotLit (digit c r : Nat) : Bool :=
  let g := digitSegments digit
  (g.top && r == 0) || (g.upperRight && c == 3 && r ≤ 3) || (g.lowerRight && c == 3 && 3 ≤ r)
  || (g.bottom && r == 6) || (g.lowerLeft && c == 0 && 3 ≤ r) || (g.upperLeft && c == 0 && r ≤ 3)
  || (g.middle && r == 3)

/-- Pattern 10, identity (R149): two digits 4 dots wide, 2 dots apart, 7 dots high. -/
def identityPixel (s : State) (field : Rgb) (x y : Nat) : Rgb :=
  let c := s.cfg
  let k := max 1 (min c.aw c.ah / 32)
  let x0 : Int := Int.fdiv ((c.aw : Int) - 10 * k) 2
  let y0 : Int := Int.fdiv ((c.ah : Int) - 7 * k) 2
  let dx := (x : Int) - x0
  let dy := (y : Int) - y0
  if 0 ≤ dx ∧ dx < 10 * k ∧ 0 ≤ dy ∧ dy < 7 * k then
    let col := dx.toNat / k
    let r := dy.toNat / k
    let t := s.tile.toNat
    if (col < 4 && dotLit (t / 10) col r) || (6 ≤ col && dotLit (t % 10) (col - 6) r) then white else field
  else field

/-- Pattern n at panel pixel (x, y) (R147 to R149). Pattern 9 reads the canvas width from the stable record at every pixel:
R153 lists no width held since a frame start, as Figure 16's text would have it (DESIGN CHOICE,
notes/assumptions/45.md). -/
def patternPixel (s : State) (n : Fin 12) (x y : Nat) : Rgb :=
  let c := s.cfg
  match n.val with
  | 0 => barColour (8 * x / c.aw)
  | 1 => let v := 256 * x / c.aw; rgbOf v v v
  | 2 => if x % 32 = 0 ∨ y % 32 = 0 ∨ x + 1 = c.aw ∨ y + 1 = c.ah then white else black
  | 3 => canvasGrid c x y
  | 4 => 0xFF0000#24
  | 5 => 0x00FF00#24
  | 6 => 0x0000FF#24
  | 7 => white
  | 8 => if (x / 32 + y / 32) % 2 = 0 then white else black
  | 9 => movingBar c s.picture.patternWfn s.input.stable x
  | 10 => identityPixel s s.picture.field x y
  | _ => borderOutline c x y

/-- The content value of panel pixel (x, y) of the line in progress (R141, R145, R139). -/
def contentPixel (s : State) (x y : Nat) : Rgb :=
  let c := s.cfg
  match s.picture.selection with
  | .inactive => black
  | .fill => c.fillColour
  | .pattern n => patternPixel s n x y
  | .slot =>
    let filled := match s.picture.fillFrom with | some k => k ≤ x | none => false
    if inWindow c x y && !filled then
      (scaledPixel c s.arrivedLines (x - c.cx) (y - c.cy)).getD c.fillColour
    else c.fillColour

/-- A component through its gamma table (R150). -/
def gammaOf (table : List Byte) (v : Nat) : Nat := ((table[v]?).getD (BitVec.ofNat 8 v)).toNat

/-- The dither threshold of a pixel (R151). -/
def ditherThreshold (phase x y : Nat) : Nat :=
  let col := (x + phase % 2) % 2
  let row := (y + phase / 2) % 2
  if row = 0 then (if col = 0 then 0 else 2) else (if col = 0 then 3 else 1)

/-- A component reduced to 6 bits on the upper six lines (R151). -/
def ditherValue (phase x y v : Nat) : Nat := 4 * min 63 ((v + ditherThreshold phase x y) / 4)

/-- The value driven for panel pixel (x, y) of the line in progress (R137). -/
def panelPixel (s : State) (x y : Nat) : Rgb :=
  let c := contentPixel s x y
  let stage := fun v => if s.cfg.dither then ditherValue s.picture.dither x y v else v
  rgbOf (stage (gammaOf s.picture.gammaR (redOf c))) (stage (gammaOf s.picture.gammaG (greenOf c)))
    (stage (gammaOf s.picture.gammaB (blueOf c)))

/-! ## Where DE is asserted (R3) -/

/-- A position lies in the configured active area. -/
def inActiveArea (c : Settings) (pixel line : Nat) : Bool :=
  c.hstart ≤ pixel && pixel < c.hstart + c.aw && c.vstart ≤ line && line < c.vstart + c.ah

/-- The picture output needs, at the present pixel, a slot pixel that neither the line store nor the read FIFO holds
(R76, R145). -/
def State.pixelMissing (s : State) : Bool :=
  let c := s.cfg
  let x := s.timing.pixel - c.hstart
  let y := s.timing.line - c.vstart
  s.timing.running && s.picture.selection == .slot && s.picture.fillFrom.isNone
  && inActiveArea c s.timing.pixel s.timing.line && inWindow c x y
  && (scaledPixel c s.arrivedLines (x - c.cx) (y - c.cy)).isNone

end Sys2Proof.Machine
end

