-- ==== Sys2Proof/Machine/StoreOps.lean ====
section
/-! DEFINITION. The frame store: granting, completion, pledges, choose, switch, align, found, drop-picture, stamp shift,
and the arbiter of the memory port with its two FIFOs (Chapter 4). -/

namespace Sys2Proof.Machine

/-! ## Claims from capture (R63, R64, R65) -/

/-- Free one slot, taking its waiting pixels out of the write FIFO (R61, R63, R74). -/
def State.freeSlot (s : State) (i : Fin 5) : State :=
  s.setStore { s.store with
    slots := s.store.slots.modify i (fun _ => .free)
    writeFifo := s.store.writeFifo.filter (fun x => x.slot != i) }

/-- Free the FILLING slot, if one exists, with its waiting pixels (R51, R58, R63). -/
def State.freeFilling (s : State) : State :=
  let gone := fun (x : WritePixel) => (s.store.slots.get x.slot).state == .filling
  s.setStore { s.store with
    slots := s.store.slots.freeWhere (fun r => r.state == .filling)
    writeFifo := s.store.writeFifo.filter (fun x => !gone x) }

/-- The slot becomes READY with its LCS and stamp (R63). -/
def State.makeReady (s : State) (i : Fin 5) : State :=
  s.setSlots (s.store.slots.modify i (fun r => { r with state := .ready }))

/-- A region line's entry has finished (R54, R63). -/
def State.lineWritten (s : State) (i : Fin 5) : State :=
  s.setSlots (s.store.slots.modify i (fun r => { r with lines := r.lines + 1 }))

/-- A region pixel was lost: the slot is TORN (R56). -/
def State.markTorn (s : State) (i : Fin 5) : State :=
  s.setSlots (s.store.slots.modify i (fun r => { r with torn := true }))

/-- The gap g of R64 brought into 1..11 by advances of 11; a gap of 0 counts as 65536
(DEDUCED, notes/assumptions/22.md). -/
def rebasedGap (g : Nat) : Nat := ((if g = 0 then 65536 else g) - 1) % 11 + 1

/-- A gap that R64 leaves alone. -/
def gapInWindow (g : Nat) : Bool := 1 ≤ g && g ≤ 11

/-- The SHOWING slot's LCS is brought up to the input for a grant of LCS `n` (R64, Rebase). -/
def State.rebase (s : State) (n : Word) : State :=
  let x := s.store.slots
  let busy := x.toList.any (fun e => e.2.pledged || e.2.state == .chosen)
  match x.showing with
  | some r =>
    let g := (n - r.lcs).toNat
    if gapInWindow g || busy then s
    else
      let v := n - BitVec.ofNat 16 (rebasedGap g)
      let y := x.map (fun _ q => if q.state = .showing then { q with lcs := v } else q)
      (s.setSlots (y.freeWhere (fun q => q.state == .ready && !later q.lcs v))).count .rebases
  | none => s

/-- Every unpledged READY slot whose LCS is not n - 11 to n - 1 becomes FREE (R64, Stale check). -/
def State.staleCheck (s : State) (n : Word) : State :=
  s.setSlots (s.store.slots.freeWhere (fun r => r.state == .ready && !r.pledged && !gapInWindow (n - r.lcs).toNat))

/-- The slot a grant takes: the lowest FREE slot, else the oldest READY slot that is not pledged (R65). -/
def grantChoice (x : Slots) : Option (Fin 5) :=
  match x.first .free with
  | some i => some i
  | none => (oldest (x.ready.filter (fun e => !e.2.pledged))).map (·.1)

/-- The window check, then the grant of a slot for LCS `n` (R64, R65). The number of the granted slot is returned. -/
def State.grant (s : State) (n : Word) (stamp : Stamp) : State × Option (Fin 5) :=
  let t := (s.rebase n).staleCheck n
  match grantChoice t.store.slots with
  | none => (t, none)
  | some i =>
    let u := if (t.store.slots.get i).state = .ready then t.count .slotsOverwritten else t
    (u.setSlots (u.store.slots.modify i (fun _ => ⟨.filling, n, stamp, 0, false, false⟩)), some i)

/-! ## The ballot and the frame start (R66 to R68) -/

/-- The slots that a pledge takes: the READY slots, the three newest where there are more (R66). -/
def pledgeChoice : Nat → List (Fin 5 × Slot) → List (Fin 5)
  | 0, _ => []
  | n + 1, l =>
    match newest l with
    | none => []
    | some e => e.1 :: pledgeChoice n (l.filter (fun f => f.1 != e.1))

/-- Pledge READY slots for the ballot; the LCS values pledged are returned (R66, R80). -/
def State.pledge (s : State) : State × List Word :=
  let l := pledgeChoice 3 s.store.slots.ready
  (s.setSlots (s.store.slots.map (fun i r => if l.contains i then { r with pledged := true } else r)),
   l.map (fun i => (s.store.slots.get i).lcs))

/-- The end-of-ballot report: with d* > 0 and a SHOWING slot, the READY slot with LCS p + d* becomes CHOSEN; then every
pledge is released (R66, R67, R88). No slot is CHOSEN when a ballot ends (R65); were one, it would stand alone. -/
def State.ballotReport (s : State) (p : Word) (d : Nat) : State :=
  let x := s.store.slots
  let pick := if d ≠ 0 ∧ x.showing.isSome ∧ x.first .chosen = none then
      x.toList.find? (fun e => e.2.state == .ready && e.2.lcs == p + BitVec.ofNat 16 d)
    else none
  let y := match pick with
    | some (i, _) => x.modify i (fun r => { r with state := .chosen })
    | none => x
  s.setSlots (y.map (fun _ r => { r with pledged := false }))

/-- Make a slot SHOWING: the slot that was SHOWING, if another, becomes FREE, and so does every READY slot older than
the new one (R68 to R70). -/
def showSlot (x : Slots) (i : Fin 5) : Slots :=
  let y := x.map (fun j r => if r.state = .showing ∧ j ≠ i then .free else r)
  let z := y.modify i (fun r => { r with state := .showing, pledged := false })
  z.freeOlder (z.get i).lcs

/-- The switch at the own frame start, with a pending drop (R68). -/
def State.switch (s : State) : State :=
  match s.store.slots.first .chosen with
  | none => s
  | some i =>
    let t := s.setSlots (showSlot s.store.slots i)
    let u := if t.store.dropPending
      then t.setStore { t.store with slots := t.store.slots.modify i (fun _ => .free), dropPending := false }
      else t
    u.slotChanged

/-! ## Requests from membership (R69 to R72) -/

/-- Of two matches, the closer; between equals, the later LCS (R69). -/
def betterMatch (a b : Nat × Fin 5 × Word) : Bool :=
  a.1 < b.1 || (a.1 == b.1 && later a.2.2 b.2.2)

/-- The best of some matches. -/
def bestMatch : List (Nat × Fin 5 × Word) → Option (Nat × Fin 5 × Word)
  | [] => none
  | e :: rest =>
    match bestMatch rest with
    | none => some e
    | some b => if betterMatch e b then some e else some b

/-- The READY and SHOWING slots whose stamps match a stamp, with their distances (R69). -/
def matchesOf (c : Settings) (x : Slots) (t : Stamp) : List (Nat × Fin 5 × Word) :=
  x.toList.filterMap (fun e =>
    if (e.2.state = .ready ∨ e.2.state = .showing) ∧ stampsMatch c e.2.stamp t then
      (stampDistance c.vtot e.2.stamp t).map (fun d => (d, e.1, e.2.lcs))
    else none)

/-- The align request: MATCHED with the slot shown, or NO_MATCH with no change (R69). -/
def State.align (s : State) (t : Stamp) : Option State :=
  match bestMatch (matchesOf s.cfg s.store.slots t) with
  | none => none
  | some (_, i, _) =>
    let same := (s.store.slots.get i).state == .showing
    let u := s.setSlots (showSlot s.store.slots i)
    some (if same then u else u.slotChanged)

/-- The found request: FOUNDED with the newest READY slot shown and every other READY slot freed, or NO_READY (R70). -/
def State.foundPicture (s : State) : Option State :=
  match newest s.store.slots.ready with
  | none => none
  | some (i, _) =>
    let y := (showSlot s.store.slots i).freeWhere (fun r => r.state == .ready)
    some (s.setSlots y).slotChanged

/-- The drop-picture request (R71). -/
def State.dropPicture (s : State) : State :=
  let x := s.store.slots
  let had := (x.first .showing).isSome
  let y := x.freeWhere (fun r => r.state == .showing)
  let t := match x.toList.find? (fun e => e.2.state == .chosen) with
    | some (_, c) => s.setStore { s.store with slots := y.freeOlder c.lcs, dropPending := true }
    | none => s.setSlots y
  if had then t.slotChanged else t

/-- The adoption offset is added to the WFN of the stamp of every slot that is not FREE (R72). -/
def State.shiftStamps (s : State) (offset : Word) : State :=
  s.setSlots (s.store.slots.map (fun _ r =>
    if r.state = .free then r else { r with stamp := { r.stamp with wfn := r.stamp.wfn + offset } }))

/-! ## The memory port (R73 to R75) -/

/-- A pixel offered to the write FIFO: lost, with the slot TORN, when the FIFO is full (R56, R74). A TORN slot takes no
more pixels (R54). -/
def State.offerPixel (s : State) (x : WritePixel) : State :=
  if (s.store.slots.get x.slot).torn then s
  else if s.store.writeFifo.length < Config.fifoSize then
    s.setStore { s.store with writeFifo := s.store.writeFifo ++ [x] }
  else s.markTorn x.slot

/-- The pixels at the head of the write FIFO that belong to one region line. -/
def headRun : List WritePixel → List WritePixel
  | [] => []
  | x :: rest => (x :: rest).takeWhile (fun y => y.slot == x.slot && y.line == x.line)

/-- The writer requests a transfer: 64 pixels of one region line, or its last pixels (R74). The rest of a TORN line, fewer
than 64 pixels without the line's last one, is never requested, and waits until its slot is freed: R74 has every line
enter RW pixels (DESIGN CHOICE, notes/assumptions/43.md). -/
def writerWants (rw : Nat) (fifo : List WritePixel) : Bool :=
  let run := headRun fifo
  Config.burst ≤ run.length || (match run.getLast? with | some x => x.col + 1 == rw | none => false)

/-- The write transfer granted, and the FIFO after its pixels have left it (R74). -/
def writeTransfer (fifo : List WritePixel) : Option (Transfer × List WritePixel) :=
  match (headRun fifo).take Config.burst with
  | [] => none
  | x :: rest =>
    some (.write x.slot x.line x.col ((x :: rest).map (·.rgb)), fifo.drop (x :: rest).length)

/-- The read transfer that the reader asks for next, if it may (R75): a line is named, the FIFO has room for 64 pixels,
the picture takes its pixels from the slot, and none of them waits in the write FIFO. -/
def State.readRequest (s : State) : Option Transfer :=
  match s.store.slots.first .showing, s.store.named with
  | some i, ⟨line, live⟩ :: _ =>
    let n := min Config.burst (s.cfg.rw - s.store.fetchCol)
    let waits := s.store.writeFifo.any (fun x =>
      x.slot == i && x.line == line && s.store.fetchCol ≤ x.col && x.col < s.store.fetchCol + n)
    if s.takesSlot && s.store.readFifo.length + Config.burst ≤ Config.fifoSize && n != 0 && !waits
    then some (.read i line s.store.fetchCol n live) else none
  | _, _ => none

/-- The reader's place after a read of `n` pixels has been granted. -/
def advanceFetch (rw : Nat) (x : Store) (n : Nat) : Store :=
  if x.fetchCol + n < rw then { x with fetchCol := x.fetchCol + n }
  else { x with named := x.named.drop 1, fetchCol := 0 }

/-- The waiting request of highest rank is granted: refresh, one for each request that has come, reader, writer (R73). -/
def Store.granted (rw : Nat) (request : Option Transfer) (x : Store) : Store :=
  if 0 < x.refreshWaiting then { x with transfer := some .refresh, refreshWaiting := x.refreshWaiting - 1 }
  else match request with
    | some (.read i l c n live) => { advanceFetch rw x n with transfer := some (.read i l c n live) }
    | _ =>
      if writerWants rw x.writeFifo then
        match writeTransfer x.writeFifo with
        | some (t, rest) => { x with transfer := some t, writeFifo := rest }
        | none => x
      else x

/-- A free port is granted while the generator runs (R73). -/
def State.arbitrate (s : State) : State :=
  if s.timing.running && s.store.transfer.isNone then s.setStore (s.store.granted s.cfg.rw s.readRequest) else s

/-- The pixels that a read brings reach the read FIFO, unless it has been emptied under the read (R75). -/
def State.receiveRead (s : State) (i : Fin 5) (l c n : Nat) (live : Bool) : State :=
  if live then s.setStore { s.store with readFifo := s.store.readFifo ++ loadPixels s.mem i l c n } else s

/-- The end of the transfer in progress, or nothing where it leaves its slot's area (R73, section 4.6). A write stores its
pixels here and none before (DESIGN CHOICE, notes/assumptions/53.md). -/
def State.finishTransfer (s : State) : Option State :=
  let t := s.setStore { s.store with transfer := none }
  match s.store.transfer with
  | none => some s
  | some .refresh => some t
  | some (.write i l c px) =>
    if insideSlot l c px.length then some (t.setMem (storePixels s.mem i l c px)) else none
  | some (.read i l c n live) =>
    if insideSlot l c n then some (t.receiveRead i l c n live) else none

end Sys2Proof.Machine
end

