-- ==== Sys2Proof/Machine/BusOps.lean ====
section
/-! DEFINITION. The Tile Bus holding area with its reports to the owners, sending, receiving, and the mode controller's
part in them (Chapter 2, R125 to R127). -/

namespace Sys2Proof.Machine

/-! ## Outcomes of a SET_MODE (R126, R127, R175) -/

/-- An outstanding SET_MODE ends: it is no longer in flight, and its outcome is the command result (R175). -/
def State.endSetMode (s : State) (r : CmdResult) : State :=
  match s.modes.outstanding with
  | none => s
  | some _ =>
    (s.setModes { s.modes with outstanding := none }).setPort { s.port with
      result := r, inFlight := if s.port.inFlight = some .setMode then none else s.port.inFlight }

/-- The own entry of the outstanding SET_MODE is removed from the queue if it is there (R125, R126). -/
def State.removeOwnEntry (s : State) : State :=
  match s.modes.outstanding with
  | none => s
  | some o => s.setModes { s.modes with
      queue := s.modes.queue.filter (fun e => !(e.target == o.target && e.origin == s.tile)) }

/-- The owner of a MODE is told WITHDRAWN: the SET_MODE ends LATE, its own entry removed, or ABANDONED (R126, R127). -/
def State.modeWithdrawn (s : State) : State :=
  match s.modes.outstanding with
  | none => s
  | some o => match o.ending with
    | .late => s.removeOwnEntry.endSetMode .late
    | _ => s.endSetMode .abandoned

/-! ## Placement and withdrawal (R31, R32) -/

/-- The kind of the message being sent. -/
def Bus.sendingKind (u : Bus) : Option MsgKind := u.sending.map (·.kind)

/-- Placement is refused while the conflict latch is set or the controller is inactive (R31). -/
def State.placementRefused (s : State) : Bool := s.bus.latch || !s.bus.active

/-- Place a STATUS (R31). -/
def State.placeStatus (s : State) (m : StatusMsg) : State :=
  if s.placementRefused then s
  else match s.bus.sending, s.bus.statusPlace with
    | some d, some _ =>
      if d.kind = .status then s.setBus { s.bus with sending := some { d with nextStatus := some m } }
      else (s.setBus { s.bus with statusPlace := some m }).count .statusDropped
    | none, some _ => (s.setBus { s.bus with statusPlace := some m }).count .statusDropped
    | _, none => s.setBus { s.bus with statusPlace := some m }

/-- Place a LEAVE (R31). -/
def State.placeLeave (s : State) (r : LeaveReason) : State :=
  if s.placementRefused then s
  else match s.bus.sending with
    | some d =>
      if d.kind = .leave then s.setBus { s.bus with sending := some { d with nextLeave := some r } }
      else s.setBus { s.bus with leavePlace := some r }
    | none => s.setBus { s.bus with leavePlace := some r }

/-- Place a MODE; nothing where the placement is refused (R31). -/
def State.placeMode (s : State) (m : ModeMsg) : Option State :=
  if s.placementRefused || s.bus.modePlace.isSome then none
  else some (s.setBus { s.bus with modePlace := some m })

/-- Withdraw the STATUS: a waiting one is removed; for one being sent the withdrawal is held (R32). -/
def State.withdrawStatus (s : State) : State :=
  match s.bus.sending with
  | some d =>
    if d.kind = .status then s.setBus { s.bus with sending := some { d with withdraw := true, nextStatus := none } }
    else s.setBus { s.bus with statusPlace := none }
  | none => s.setBus { s.bus with statusPlace := none }

/-- Withdraw the LEAVE (R32). -/
def State.withdrawLeave (s : State) : State :=
  match s.bus.sending with
  | some d =>
    if d.kind = .leave then s.setBus { s.bus with sending := some { d with withdraw := true, nextLeave := none } }
    else s.setBus { s.bus with leavePlace := none }
  | none => s.setBus { s.bus with leavePlace := none }

/-- Withdraw the MODE of the outstanding SET_MODE, which then ends LATE or ABANDONED: at once where it waits, at its
end where it is being sent (R32, R126, R127). A second withdrawal held against a MODE being sent takes the place of the
first, so that a station which leaves MEMBER after the deadline ends it ABANDONED (DESIGN CHOICE,
notes/assumptions/44.md). A MODE being sent keeps its SET_MODE outstanding over an entry to MEMBER at the same cut-off or
later (DESIGN CHOICE, notes/assumptions/55.md). -/
def State.withdrawMode (s : State) (e : Ending) : State :=
  match s.modes.outstanding with
  | none => s
  | some o =>
    let t := s.setModes { s.modes with outstanding := some { o with ending := e } }
    match t.bus.sending with
    | some d =>
      if d.kind = .mode then t.setBus { t.bus with sending := some { d with withdraw := true } }
      else (t.setBus { t.bus with modePlace := none }).modeWithdrawn
    | none => (t.setBus { t.bus with modePlace := none }).modeWithdrawn

/-- The station leaves MEMBER: the queue and a held repair go, and an outstanding SET_MODE is ended (R127, R131). -/
def State.modeLeave (s : State) : State :=
  let t := s.withdrawMode .abandoned
  t.setModes { t.modes with queue := [], repair := none }

/-- The holding area is emptied and each owner told CLEARED (R40, R127). -/
def State.clearHolding (s : State) : State :=
  (s.setBus { s.bus with modePlace := none, leavePlace := none, statusPlace := none, sending := none }).endSetMode
    .abandoned

/-! ## Sending (R33 to R37) -/

/-- The message in the place of a kind. -/
def Bus.placed (u : Bus) : MsgKind → Option Message
  | .mode => u.modePlace.map .mode
  | .leave => u.leavePlace.map .leave
  | .status => u.statusPlace.map .status

/-- The levels of the message being sent by a tile (R22). -/
def Bus.sendingLevels (u : Bus) (t : Tile) : Option (List Level) :=
  match u.sending with
  | none => none
  | some d => (u.placed d.kind).map (messageLevels t)

/-- The levels of the message that the station is sending. -/
def State.sendingLevels (s : State) : Option (List Level) := s.bus.sendingLevels s.tile

/-- A message of a kind would end, its end bits included, before pixel 0 of line BLINE - 2 (R33, condition 4). The
duration is in XREF clocks of 1/27 us, the positions in pixel clocks of divider/(27 x multiplier) us. -/
def State.startsInTime (s : State) (k : MsgKind) : Bool :=
  let c := s.cfg
  let now := s.timing.line * c.htot + s.timing.pixel
  now * c.divider + k.duration * c.multiplier < (c.bline - 2) * c.htot * c.divider

/-- Conditions 1 to 3 and 6 of R33, and that the ballot window is not running (R38). -/
def State.maySend (s : State) : Bool :=
  s.bus.active && !s.bus.latch && s.locked && s.bus.windowOpen && s.bus.sending.isNone && !s.bus.ballotWindow

/-- The waiting message of lowest kind code that meets condition 4 (R33). -/
def State.nextToSend (s : State) : Option MsgKind :=
  [MsgKind.mode, .leave, .status].find? (fun k => (s.bus.placed k).isSome && s.startsInTime k)

/-- A message begins on TD: the receive path is inside it from its start bit, the pattern of bit times starts afresh,
and the station sends `k` if it has one to send (R21, R28, R34). -/
def State.beginMessage (s : State) (k : Option MsgKind) : State :=
  s.setBus { s.bus with
    rx := .frame, rxBits := [], bitPhase := 0, bitClock := 0,
    sending := k.map (fun k => ⟨k, false, none, none⟩) }

/-- The index of the first bit at which what was read differs from what was driven. -/
def firstDifference : List Level → List Level → Option Nat
  | a :: as, b :: bs => if a = b then (firstDifference as bs).map (· + 1) else some 0
  | _, _ => none

/-- The receive path returns to WAIT_IDLE, keeping the idle count (R28). -/
def State.rxWaitIdle (s : State) : State := s.setBus { s.bus with rx := .waitIdle, rxBits := [] }

/-- A message is discarded by the receive path (R28, R29). -/
def State.rxDiscard (s : State) : State := s.rxWaitIdle.count .rxErrors

/-- A STATUS whose sending has ended is no longer being sent (R31, R32, R36, R37). One with a held withdrawal that loses or
fails after the cut-off is removed as withdrawn, uncounted: R32 says so, and R37 would drop and count it (DESIGN CHOICE,
notes/assumptions/42.md). -/
def State.statusEnded (s : State) (d : Sending) (whole : Bool) : State :=
  let t := s.setBus { s.bus with sending := none }
  if whole then t.setBus { t.bus with statusPlace := d.nextStatus }
  else if d.withdraw then t.setBus { t.bus with statusPlace := d.nextStatus }
  else match d.nextStatus with
    | some m => (t.setBus { t.bus with statusPlace := some m }).count .statusDropped
    | none =>
      if s.bus.windowOpen then t
      else (t.setBus { t.bus with statusPlace := none }).count .statusDropped

/-- A LEAVE whose sending has ended (R31, R32, R36). -/
def State.leaveEnded (s : State) (d : Sending) (whole : Bool) : State :=
  let t := s.setBus { s.bus with sending := none }
  if whole || d.withdraw then t.setBus { t.bus with leavePlace := d.nextLeave }
  else match d.nextLeave with
    | some r => t.setBus { t.bus with leavePlace := some r }
    | none => t

/-- A MODE whose sending has ended: SENT gives DONE, a held withdrawal WITHDRAWN (R32, R126, R127). -/
def State.modeEnded (s : State) (d : Sending) (whole : Bool) : State :=
  let t := s.setBus { s.bus with sending := none }
  if whole then (t.setBus { t.bus with modePlace := none }).endSetMode .done
  else if d.withdraw then (t.setBus { t.bus with modePlace := none }).modeWithdrawn
  else t

/-- The sending of the message in progress has ended, whole or not; SENT of a STATUS sets the announced flag (R104). -/
def State.sendingEnded (s : State) (whole : Bool) : State :=
  match s.bus.sending with
  | none => s
  | some d =>
    match d.kind with
    | .mode => s.modeEnded d whole
    | .leave => s.leaveEnded d whole
    | .status =>
      let t := s.statusEnded d whole
      if whole then t.setMember { t.member with announced := true } else t

/-! ## Receiving (R28 to R30) -/

/-- What the receive path has of the message in progress. -/
def State.verdict (s : State) : Verdict := frameVerdict s.bus.rxBits

/-- No bit time in progress has been sampled: the last bit sampled has run to its end (R21). -/
def Bus.bitEnded (u : Bus) : Bool := u.bitClock ≤ sampleClock u.bitPhase

/-- The first `n` bits of the message in progress have been sampled and have run to their ends. -/
def Bus.bitsOver (u : Bus) (n : Nat) : Bool := n < u.rxBits.length || (n == u.rxBits.length && u.bitEnded)

/-- The good foreign message that the receive path has received whole, at the end of its second end bit, with its
sender's tile number (R29, R30). -/
def State.receivedGood (s : State) : Option (Tile × Message) :=
  if s.bus.rx = .frame ∧ s.bus.sending.isNone then
    match s.verdict with
    | .whole k t p =>
      if s.bus.bitsOver k.bitTimes then (decodePayload s.cfg.vtot k p).map (fun m => (t, m)) else none
    | _ => none
  else none

/-- The message in progress has failed a check of R28 or, received whole, the field checks of R29. -/
def State.receiveFailed (s : State) : Bool :=
  s.bus.rx == .frame && s.bus.sending.isNone &&
  (match s.verdict with
   | .failed => true
   | .whole k _ p => s.bus.bitsOver k.bitTimes && (decodePayload s.cfg.vtot k p).isNone
   | _ => false)

/-- The conditions under which the stuck detector counts (R41). -/
def Bus.stuckWatch (u : Bus) (locked : Bool) : Bool :=
  u.active && locked && (u.rx == .waitIdle || u.rx == .idle) && !u.ballotWindow

/-! ## TD, clock by clock (R20, R21) -/

/-- What the line shows when two parties drive it: recessive only when both release it (R20). -/
def lineLevel : Level → Level → Level
  | .recessive, .recessive => .recessive
  | _, _ => .dominant

/-- The index, in the message in progress, of the bit whose bit time is in progress (R21). -/
def Bus.bitIndex (u : Bus) : Nat := if u.bitEnded then u.rxBits.length else u.rxBits.length - 1

/-- The level that the message being sent by a tile drives in the bit time in progress: released outside a message, in
the ballot window, and from the bit on at which the sender has lost (R20, R22, R34, R35, R38). -/
def Bus.drive (u : Bus) (t : Tile) : Level :=
  if u.active && !u.ballotWindow then
    match u.sendingLevels t with
    | some l => if (firstDifference l u.rxBits).isNone then (l[u.bitIndex]?).getD .recessive else .recessive
    | none => .recessive
  else .recessive

/-- The kind of the message in progress, once its kind code has been sampled (R22, R24). -/
def bitsKind (bits : List Level) : Option MsgKind :=
  match bits with
  | _ :: _ :: a :: b :: c :: _ =>
    MsgKind.ofCode ((levelsByte [a, b, c]).extractLsb' 0 3)
  | _ => none

/-- The bit after the bits sampled is a mark bit: bits 1, 10, 19, ... up to the end bits (R22). -/
def markNext (bits : List Level) : Bool :=
  bits.length % 9 == 1
  && (match bitsKind bits with
      | some k => bits.length + 2 < k.bitTimes
      | none => bits.length == 1)

/-- A falling edge that begins a mark bit, the bit before it being recessive (R21). -/
def Bus.aligns (u : Bus) (b : Level) : Bool :=
  u.rx == .frame && u.tdClock == .recessive && b == .dominant && markNext u.rxBits
  && u.rxBits.getLast? == some .recessive

/-- The bit time in progress ends with its sample, and the next place of the pattern follows: the idle and stuck counts
take it (R21, R27, R41). The stuck count judges a bit time by the conditions at its end, so that one begun before they
hold counts where they hold at its end (DESIGN CHOICE, notes/assumptions/47.md). -/
def Bus.endBit (locked : Bool) (u : Bus) : Bus :=
  { u with
    tdLevel := u.sample
    bitPhase := (u.bitPhase + 1) % 5
    bitClock := 0
    idle := if u.sample = .recessive then min 11 (u.idle + 1) else 0
    stuckCount := if u.stuckWatch locked && u.sample == .dominant then min 65 (u.stuckCount + 1) else 0 }

/-- A mark bit begins at its edge: the edge ends the bit time before it where that has been sampled, and begins the
mark's bit time afresh where it was already in progress (R21; notes/assumptions/40.md). -/
def Bus.alignMark (locked : Bool) (u : Bus) : Bus :=
  if u.bitEnded then { u with bitClock := 0 } else u.endBit locked

/-- The sample at the middle of a bit time: the next bit of a message in progress. A start bit that reads recessive is no
message (R21, R28). -/
def Bus.takeSample (u : Bus) (b : Level) : Bus :=
  let glitch := u.rx == .frame && u.rxBits.isEmpty && b == .recessive
  { u with
    sample := b
    rx := if glitch then .waitIdle else u.rx
    rxBits := if u.rx = .frame && !glitch then u.rxBits ++ [b] else u.rxBits
    sending := if glitch then none else u.sending }

/-- One XREF clock of TD, with what the other stations and the own ballot engine drive (R20, R21). -/
def Bus.clock (locked : Bool) (t : Tile) (ballot : Level) (u : Bus) (others : Level) : Bus :=
  let b := lineLevel others (lineLevel ballot (u.drive t))
  let v := if u.aligns b then u.alignMark locked else u
  let x := if v.bitClock = sampleClock v.bitPhase then v.takeSample b else v
  let y := { x with tdClock := b, bitClock := x.bitClock + 1 }
  if bitLength y.bitPhase ≤ y.bitClock then y.endBit locked else y

end Sys2Proof.Machine
end

