-- ==== Sys2Proof/Machine/MemberOps.lean ====
section
/-! DEFINITION. The membership controller, its roster, and the mode controller: leaving and entering MEMBER, the
frame-start work, the cut-off evaluation, modes and their repair (Chapters 6 and 7). -/

namespace Sys2Proof.Machine

/-! ## Changes of the station state (R97 to R106) -/

/-- A change of station state, reported by STATE_CHANGE (R106). -/
def State.setStation (s : State) (x : Station) : State :=
  (s.setMember { s.member with station := x }).raise .stateChange

/-- On a change out of MEMBER except by HOLD: the hold-picture timer is set, with a drop-picture at once when HOLDFRAMES
is 0, and the mode controller is told (R105, R106). -/
def State.outOfMember (s : State) : State :=
  let t := s.setMember { s.member with holdTimer := s.cfg.holdframes }
  (if s.cfg.holdframes = 0 then t.dropPicture else t).modeLeave

/-- A STATUS of this station is still being sent (R104). -/
def State.sendingStatus (s : State) : Bool := s.bus.sendingKind == some .status

/-- The LEAVE of a change to DETACHED by input loss or HOLD: a waiting STATUS is withdrawn, the LEAVE placed where the
peers have heard the station or are hearing it, and the announced flag cleared (R104). -/
def State.announceLeave (s : State) (r : LeaveReason) : State :=
  let t := s.withdrawStatus
  let u := if t.member.announced || t.sendingStatus then t.placeLeave r else t
  u.setMember { u.member with announced := false }

/-- A report that the input is not usable (R99). -/
def State.inputLost (s : State) : State :=
  match s.member.station with
  | .member => ((s.setStation .detached).announceLeave .inputLost).outOfMember
  | .joining => (s.setStation .detached).announceLeave .inputLost
  | _ => s

/-- The conflict latch has been set (R101). -/
def State.silenceStation (s : State) : State :=
  match s.member.station with
  | .member =>
    let t := s.setStation .detached
    (t.setMember { t.member with announced := false }).outOfMember
  | .joining =>
    let t := s.setStation .detached
    t.setMember { t.member with announced := false }
  | _ => s

/-- A realign: MEMBER to JOINING without leaving the wall (R102). -/
def State.realign (s : State) : State :=
  if s.member.station = .member then
    let t := (s.setStation .joining).setMember { s.member with station := .joining, quiet := 0 }
    ((t.count .realigns).raise .realign).outOfMember
  else s

/-- The HOLD in flight is taken and reported done (R100, R174). -/
def State.takeHold (s : State) : State :=
  let t := (s.setMember { s.member with hostHold := true, holdTimer := 0 }).dropPicture
  let u := match s.member.station with
    | .member => ((t.setStation .detached).announceLeave .hostHold).modeLeave
    | .joining => (t.setStation .detached).announceLeave .hostHold
    | _ => t
  u.setPort { u.port with result := .done, inFlight := none }

/-- The test of a DETACHED station for JOINING (R98). -/
def State.joinTest (s : State) : State :=
  if s.member.station = .detached ∧ s.usable ∧ s.member.hostHold = false ∧ s.bus.latch = false then
    let t := (s.setMember { s.member with quiet := 0 }).withdrawLeave
    t.setStation .joining
  else s

/-- The hold-picture timer is counted; when it reaches 0 a drop-picture is asked (R105). -/
def State.countHoldTimer (s : State) : State :=
  if s.member.station ≠ .member ∧ 0 < s.member.holdTimer then
    let t := s.setMember { s.member with holdTimer := s.member.holdTimer - 1 }
    if t.member.holdTimer = 0 then t.dropPicture else t
  else s

/-! ## The roster (R107 to R110) -/

/-- An entry aged by one frame start (R110). -/
def Entry.age (lapse : Nat) (e : Entry) : Entry :=
  match e.state with
  | .absent => e
  | .joining | .member =>
    let n := min 255 (e.heard + 1)
    { e with heard := n, state := if n = lapse then .lapsed else e.state }
  | .lapsed | .left => { e with heard := min 255 (e.heard + 1) }

/-- The entry lapses at this frame start (R110). -/
def Entry.lapses (lapse : Nat) (e : Entry) : Bool :=
  (e.state == .joining || e.state == .member) && min 255 (e.heard + 1) == lapse

/-- The entries of the other tiles, with their numbers. -/
def State.peerEntries (s : State) : List (Nat × Entry) :=
  (List.range 32).zip s.member.roster |>.filter (fun e => e.1 != s.tile.toNat)

/-- An entry of another tile lapses at this frame start. -/
def State.someLapse (s : State) : Bool := s.peerEntries.any (fun e => e.2.lapses s.cfg.lapse)

/-- Count one lapse for each entry of a list that lapses. -/
def State.countLapses (s : State) : List (Nat × Entry) → State
  | [] => s
  | e :: rest =>
    (if e.2.lapses s.cfg.lapse then (s.count .lapses).raise .rosterChange else s).countLapses rest

/-- Change the roster entry of a tile. -/
def State.setEntry (s : State) (t : Tile) (f : Entry → Entry) : State :=
  s.setMember { s.member with
    roster := (List.range s.member.roster.length).zip s.member.roster |>.map
      (fun e => if e.1 = t.toNat then f e.2 else e.2) }

/-- The roster is aged (R110). -/
def State.ageRoster (s : State) : State :=
  let t := s.countLapses s.peerEntries
  t.setMember { t.member with
    roster := (List.range t.member.roster.length).zip t.member.roster |>.map
      (fun e => if e.1 = t.tile.toNat then e.2 else e.2.age t.cfg.lapse) }

/-- The entry of a tile. -/
def State.entry (s : State) (t : Tile) : Entry := (s.member.roster[t.toNat]?).getD .absent

/-- An entry takes a STATUS (R108). -/
def Entry.hear (m : StatusMsg) (_ : Entry) : Entry :=
  ⟨if m.isMember then .member else .joining, 0, m.wfn, m.stamp, m.mode, m.effective, m.lock, m.input, none⟩

/-- A good foreign STATUS in the roster (R108). -/
def State.rosterStatus (s : State) (t : Tile) (m : StatusMsg) : State :=
  if t = s.tile then s
  else
    let changed := (s.entry t).state != (Entry.hear m (s.entry t)).state
    let u := s.setEntry t (Entry.hear m)
    if changed then u.raise .rosterChange else u

/-- A good foreign LEAVE in the roster (R109). -/
def State.rosterLeave (s : State) (t : Tile) (r : LeaveReason) : State :=
  if t = s.tile then s
  else
    let changed := (s.entry t).state != .left
    let u := s.setEntry t (fun e => { e with state := .left, heard := 0, reason := some r })
    if changed then u.raise .rosterChange else u

/-- A good foreign STATUS joins the frame set while the status window is open; a second one from the same tile replaces
the first, and the own tile's is left out (R112). -/
def State.joinFrameSet (s : State) (t : Tile) (m : StatusMsg) : State :=
  if s.bus.windowOpen ∧ t ≠ s.tile then
    s.setMember { s.member with frameSet := s.member.frameSet.filter (fun e => e.1 != t) ++ [(t, m)] }
  else s

/-! ## Duplicate tile numbers (R39, R40) -/

/-- A good message that is not own bears a tile number; where it is the station's own, the latch is set and the station
silenced (R39, R40, R9, R101). -/
def State.detectDuplicate (s : State) (t : Tile) : State :=
  if t = s.tile then
    let u := s.raise .conflict
    if u.bus.latch then u
    else
      let v := (u.setBus { u.bus with latch := true }).clearHolding
      (v.setTiming { v.timing with fsDrive := false }).silenceStation
  else s

/-! ## The STATUS of a frame (R111) -/

/-- The STATUS that the station makes. -/
def State.makeStatus (s : State) : StatusMsg :=
  let isM := s.member.station == .member
  { isMember := isM
    lock := s.timing.lock
    input := s.input.state
    wfn := s.timing.wfn
    stamp := if isM then s.presented else none
    mode := s.modes.record.mode
    effective := s.modes.record.effective }

/-- Status open: the window opens, the frame set and the reference are cleared, and a JOINING or MEMBER station makes
and places its STATUS (R33, R111 to R113). -/
def State.openWindow (s : State) : State :=
  let t := (s.setBus { s.bus with windowOpen := true }).setMember
    { s.member with frameSet := [], reference := none }
  if s.member.station = .joining ∨ s.member.station = .member then t.placeStatus t.makeStatus else t

/-! ## The cut-off evaluation (R112 to R117) -/

/-- The lower of two tile numbers. -/
def lowerTile (a b : Tile) : Tile := if a.toNat ≤ b.toNat then a else b

/-- The lowest of some tile numbers. -/
def lowestTile : List Tile → Option Tile
  | [] => none
  | t :: rest => some (match lowestTile rest with | some u => lowerTile t u | none => t)

/-- The MEMBER messages of the frame set (R112). -/
def State.memberMessages (s : State) : List (Tile × StatusMsg) := s.member.frameSet.filter (fun e => e.2.isMember)

/-- The reference of the frame (R113). -/
def State.findReference (s : State) : Option Tile :=
  lowestTile ((if s.member.station = .member then [s.tile] else []) ++ s.memberMessages.map (·.1))

/-- The reference's message, where the reference is a peer. -/
def State.referenceMsg (s : State) : Option StatusMsg :=
  match s.member.reference with
  | none => none
  | some t => if s.member.station = .member ∧ t = s.tile then none
    else (s.memberMessages.find? (fun e => e.1 == t)).map (·.2)

/-- The reference is found and the quiet-frame counter updated (R113). -/
def State.takeReference (s : State) : State :=
  let r := s.findReference
  let q := match r with
    | some _ => 0
    | none => if s.member.station = .joining ∧ s.locked then min 511 (s.member.quiet + 1) else 0
  s.setMember { s.member with reference := r, quiet := q }

/-- The check of a MEMBER against a peer that is the reference (R114). -/
def State.checkFails (s : State) (m : StatusMsg) : Bool :=
  m.wfn != s.timing.wfn ||
  (match m.stamp, s.presented with
   | some a, some b => !stampsMatch s.cfg a b
   | _, _ => true)

/-- The WFN is adopted, the stamps are shifted by the offset, and the pattern generator takes the value from the next
line on (R8, R72, R146). A stopped generator refuses. -/
def State.adopt (s : State) (w : Word) : State :=
  if s.timing.running then
    let offset := w - s.timing.wfn
    let t := (s.setTiming { s.timing with wfn := w }).shiftStamps offset
    t.setPicture { t.picture with nextPatternWfn := w }
  else s

/-- Entry to MEMBER with a mode record to adopt (R116, R117, R132, R105). A SET_MODE whose MODE is still being sent stays
outstanding (R127; DESIGN CHOICE, notes/assumptions/55.md). -/
def State.enterMember (s : State) (r : ModeRecord) : State :=
  let t := (s.setStation .member).setModes { s.modes with record := r }
  t.setMember { t.member with holdTimer := 0 }

/-- An attempt to align with the reference (R115, R116). -/
def State.attemptAlign (s : State) (t : Tile) (m : StatusMsg) : State :=
  let u := s.adopt m.wfn
  match m.stamp.bind u.align with
  | some v => (v.count .joins).enterMember ⟨m.mode, m.effective, t⟩
  | none => u.count .alignMisses

/-- The founding threshold is reached (R117). -/
def State.foundDue (s : State) : Bool :=
  s.member.station == .joining && s.locked && s.usable
  && s.cfg.foundwait + 2 * s.tile.toNat ≤ s.member.quiet

/-- Founding, or nothing where no slot is READY (R117, R132). -/
def State.foundWall (s : State) : State :=
  match s.foundPicture with
  | some v => (v.count .foundings).enterMember ⟨s.cfg.initialMode, s.timing.wfn, s.tile⟩
  | none => s

/-- The steps of the evaluation after the reference has been found (R114 to R117). -/
def State.evaluate (s : State) : State :=
  match s.member.reference, s.referenceMsg with
  | some t, some m =>
    let u := if s.member.station = .member ∧ s.checkFails m then s.realign else s
    if u.member.station = .joining ∧ u.locked ∧ u.usable then u.attemptAlign t m else u
  | none, _ => if s.foundDue then s.foundWall else s
  | some _, none => s

/-! ## Modes at the frame start and the cut-off (R130 to R134) -/

/-- A message is a candidate for repair (R133). -/
def repairCandidate (rec : ModeRecord) (wfn : Word) (own : Tile) (e : Tile × StatusMsg) : Bool :=
  e.2.wfn == wfn && !later e.2.effective wfn &&
  (later e.2.effective rec.effective
   || (e.2.effective == rec.effective && e.2.mode != rec.mode && e.1.toNat < own.toNat))

/-- The newest candidate, the lowest tile among equals (R133). -/
def bestCandidate : List (Tile × StatusMsg) → Option (Tile × StatusMsg)
  | [] => none
  | e :: rest =>
    match bestCandidate rest with
    | none => some e
    | some b =>
      if later e.2.effective b.2.effective
        || (e.2.effective == b.2.effective && e.1.toNat < b.1.toNat) then some e else some b

/-- Mode repair at the status cut-off (R133). -/
def State.holdRepair (s : State) : State :=
  if s.member.station = .member then
    let l := s.memberMessages.filter (repairCandidate s.modes.record s.timing.wfn s.tile)
    s.setModes { s.modes with
      repair := (bestCandidate l).map (fun e => ⟨e.2.mode, e.2.effective, e.1⟩) }
  else s

/-- The deadline of an outstanding SET_MODE: the cut-off of the frame whose WFN is t - 2 (R126). Where an ending is held
already, the station having left MEMBER while its MODE is being sent, that ending stays and the deadline is passed over
(DESIGN CHOICE, notes/assumptions/52.md). -/
def State.modeDeadline (s : State) : State :=
  match s.modes.outstanding with
  | some o => if s.timing.wfn = o.target - 2 ∧ o.ending = .none then s.withdrawMode .late else s
  | none => s

/-- The Tile Bus controller's part of the cut-off: the window closes and a waiting STATUS is discarded (R37). -/
def State.closeWindow (s : State) : State :=
  let t := s.setBus { s.bus with windowOpen := false }
  if t.bus.statusPlace.isSome && !t.sendingStatus then
    (t.setBus { t.bus with statusPlace := none }).count .statusDropped
  else t

/-- The membership controller's part of the cut-off, with the mode repair at its end (R112 to R117, R133). -/
def State.cutoffEvaluation (s : State) : State := s.takeReference.evaluate.holdRepair

/-- A held repair is applied (R134). -/
def State.applyRepair (s : State) : State :=
  match s.modes.repair with
  | some r => ((s.setModes { s.modes with record := r, repair := none }).count .modeRepairs).raise .modeApplied
  | none => s

/-- The queue's first entry is applied when its target is the new WFN (R130). -/
def State.applyEntry (s : State) : State :=
  match s.modes.queue with
  | e :: rest =>
    if e.target = s.timing.wfn then
      (s.setModes { s.modes with record := ⟨e.mode, e.target, e.origin⟩, queue := rest }).raise .modeApplied
    else s
  | [] => s

/-- An effective WFN that has fallen 32768 behind is advanced by one (R130). -/
def State.advanceEffective (s : State) : State :=
  if s.timing.wfn - s.modes.record.effective = 0x8000#16 then
    s.setModes { s.modes with record := { s.modes.record with effective := s.modes.record.effective + 1 } }
  else s

/-- The mode controller's frame-start work (R130, R134). -/
def State.modeFrameStart (s : State) : State :=
  if s.member.station = .member then s.applyRepair.applyEntry.advanceEffective else s

/-! ## The pending-mode queue (R123 to R129) -/

/-- How far ahead of the present WFN a target lies (R123). -/
def targetDistance (wfn target : Word) : Nat := (target - wfn).toNat

/-- Insert an entry at the place its target gives it, nearest first (R123). -/
def insertEntry (wfn : Word) (e : ModeEntry) : List ModeEntry → List ModeEntry
  | [] => [e]
  | q :: rest =>
    if targetDistance wfn e.target < targetDistance wfn q.target then e :: q :: rest
    else q :: insertEntry wfn e rest

/-- Put an entry in the place of the one with its target. -/
def replaceEntry (e : ModeEntry) (q : List ModeEntry) : List ModeEntry :=
  q.map (fun x => if x.target = e.target then e else x)

/-- The tie rules that SET_MODE and MODE share, for a queue that holds an entry with the target (R125, R129). -/
def State.tieEntry (s : State) (e x : ModeEntry) : State :=
  if x.origin = e.origin then s.setModes { s.modes with queue := replaceEntry e s.modes.queue }
  else if x.origin.toNat < e.origin.toNat then s.count .modeConflicts
  else (s.setModes { s.modes with queue := replaceEntry e s.modes.queue }).count .modeConflicts

/-- The entry of the queue with a target. -/
def State.entryAt (s : State) (t : Word) : Option ModeEntry := s.modes.queue.find? (fun e => e.target == t)

/-- A good foreign MODE (R128, R129). -/
def State.takeMode (s : State) (t : Tile) (m : ModeMsg) : State :=
  if s.member.station ≠ .member ∨ t = s.tile then s
  else
    let d := targetDistance s.timing.wfn m.target
    if d = 0 ∨ 128 < d then s.count .modeStale
    else
      let e : ModeEntry := ⟨m.target, m.mode, t⟩
      match s.entryAt m.target with
      | some x => s.tieEntry e x
      | none =>
        if 4 ≤ s.modes.queue.length then s.count .modeOverflow
        else s.setModes { s.modes with queue := insertEntry s.timing.wfn e s.modes.queue }

/-- The target of a SET_MODE taken now (R124, R125). -/
def State.modeTarget (s : State) : Word := s.timing.wfn + BitVec.ofNat 16 s.cfg.modelead

/-- Record a command result. -/
def State.setResult (s : State) (r : CmdResult) : State := s.setPort { s.port with result := r }

/-- An accepted SET_MODE: the own entry and the MODE (R125). -/
def State.acceptMode (s : State) (m : Mode) : State :=
  let t := s.modeTarget
  let e : ModeEntry := ⟨t, m, s.tile⟩
  let u := match s.entryAt t with
    | some x => s.tieEntry e x
    | none => s.setModes { s.modes with queue := insertEntry s.timing.wfn e s.modes.queue }
  let v := (u.setModes { u.modes with outstanding := some ⟨t, m, .none⟩ }).setPort
    { u.port with result := .accepted, inFlight := some .setMode }
  match v.placeMode ⟨t, m⟩ with
  | some x => x
  | none => v.removeOwnEntry.endSetMode .abandoned

/-- A SET_MODE passed to the mode controller, with its checks in order (R124, R175). -/
def State.takeSetMode (s : State) (b : Byte) : State :=
  match decodeMode b with
  | none => s.setResult .refusedArg
  | some m =>
    if s.member.station ≠ .member then s.setResult .refusedState
    else if s.modes.outstanding.isSome then s.setResult .busy
    else if s.modes.queue.length < 4 || (s.entryAt s.modeTarget).isSome then s.acceptMode m
    else s.setResult .busy

end Sys2Proof.Machine
end

