-- ==== Sys2Proof/Machine/BallotOps.lean ====
section
/-! DEFINITION. The ballot engine: voters, the ballot edge, the ten bits, faults and d* (Chapter 5). -/

namespace Sys2Proof.Machine

/-- The station is a voter (R79). -/
def State.isVoter (s : State) : Bool := s.member.station == .member && !s.bus.latch && s.locked

/-- The engine enters WATCH (R81, R95). -/
def Ballot.watch (b : Ballot) : Ballot :=
  { b with phase := .watch, edge := none, lineResult := [], pledged := [], mask := [], dStar := 0 }

/-- What a voter does at its line BLINE (R81, R82, R90). -/
inductive BallotEntry where
  | stuck
  | late
  /-- It votes; the ballot edge lies `edge` pixel clocks back. -/
  | vote (edge : Nat)
  deriving DecidableEq, Repr

/-- The table of R81 with R82 and R90: the stuck indication is read first (notes/assumptions/8.md). -/
def ballotEntry (stuck : Bool) (half : Nat) (td : Level) (edge : Option Nat) : BallotEntry :=
  if stuck then .stuck
  else match td, edge with
    | .recessive, none => .vote 0
    | .recessive, some a => if a ≤ half then .vote 0 else .late
    | .dominant, some a => if a ≤ half then .vote a else .late
    | .dominant, none => .late

/-- The own mask: the positions d, 1 to 8, whose frame p + d is pledged (R80). -/
def ownMask (p : Word) (pledged : List Word) : List Nat :=
  ([1, 2, 3, 4, 5, 6, 7, 8] : List Nat).filter (fun d => pledged.contains (p + BitVec.ofNat 16 d))

/-- The level a voter drives for a bit (R84, R85). -/
def Ballot.drive (b : Ballot) (k : Nat) : Level :=
  if k = 0 then .dominant
  else if k = 9 then .recessive
  else if (b.mask.contains k && !b.freeze) then .recessive else .dominant

/-- The bit in progress, by the pixel clocks since the ballot edge (R83). -/
def ballotBit (htot edge : Nat) : Nat := edge / htot

/-- A bit read is a fault: a dominant drive read recessive, or the close bit read dominant (R89). -/
def Ballot.bitFault (b : Ballot) (k : Nat) (read : Level) : Bool :=
  (b.drive k == .dominant && read == .recessive) || (k == 9 && read == .dominant)

/-- The first faulted bit of the levels read from bit `k` on (R89). -/
def Ballot.faultFrom (b : Ballot) (k : Nat) : List Level → Option Nat
  | [] => none
  | x :: rest => if b.bitFault k x then some k else b.faultFrom (k + 1) rest

/-- The faulted bit, if one has been read. -/
def Ballot.fault (b : Ballot) : Option Nat := b.faultFrom 0 b.lineResult

/-- The level that the ballot engine drives: its own bits in VOTING, up to a fault (R83, R84, R86, R89). -/
def State.tdBallot (s : State) : Level :=
  match s.ballot.phase, s.ballot.edge with
  | .voting, some a =>
    if s.ballot.fault = none ∧ ballotBit s.cfg.htot a < 10 then s.ballot.drive (ballotBit s.cfg.htot a)
    else .recessive
  | _, _ => .recessive

/-- d* of a line result: the largest d of 1 to 8 whose bit read recessive, or 0 (R87). -/
def resultOf (levels : List Level) : Nat :=
  (([8, 7, 6, 5, 4, 3, 2, 1] : List Nat).find? (fun d => levels[d]? == some Level.recessive)).getD 0

/-- The moment at which the ballot ends: the middle of a faulted bit, or the end of bit 9 (R83, R89). -/
def State.ballotEnds (s : State) : Bool :=
  let h := s.cfg.htot
  s.ballot.phase == .voting &&
  (match s.ballot.edge with
   | none => false
   | some a =>
     match s.ballot.fault with
     | some k => h * k + h / 2 ≤ a
     | none => s.ballot.lineResult.length == 10 && h * 10 ≤ a)

/-- A ballot ended in trouble: d* = 0 reported, one counter, the phase SPENT, and the membership controller told
(R82, R89 to R91). -/
def State.ballotTrouble (s : State) (c : Counter) : State :=
  let t := s.ballotReport s.ballot.p 0
  let u := t.setBallot { t.ballot with phase := .spent, dStar := 0, pledged := [] }
  (u.count c).realign

/-- A voter begins its ballot: the pledge, p, the own mask and the mode are taken as it drives its start bit
(R66, R80, R82, R85). -/
def State.beginVote (s : State) (edge : Nat) : State :=
  let p := (s.store.slots.showing.map (·.lcs)).getD 0
  let (t, l) := s.pledge
  t.setBallot { t.ballot with
    phase := .voting, edge := some edge, voter := true, p := p, pledged := l, mask := ownMask p l,
    freeze := s.modes.record.mode == .freeze, lineResult := [], dStar := 0 }

/-- The ballot-line event (R79 to R82, R90). -/
def State.ballotLineEvent (s : State) (td : Level) : State :=
  if s.isVoter then
    let t := s.setBallot { s.ballot with voter := true }
    match ballotEntry t.bus.stuck (t.cfg.htot / 2) td t.ballot.edge with
    | .stuck => t.ballotTrouble .ballotFaults
    | .late => t.ballotTrouble .ballotLate
    | .vote a => t.beginVote a
  else s.setBallot { s.ballot with phase := .idle, voter := false }

/-- The end of a voter's ballot (R87 to R89). -/
def State.endBallot (s : State) : State :=
  match s.ballot.fault with
  | some _ => s.ballotTrouble .ballotFaults
  | none =>
    let d := resultOf s.ballot.lineResult
    let t := s.ballotReport s.ballot.p d
    let u := t.setBallot { t.ballot with phase := .spent, dStar := d, pledged := [] }
    u.count (if d = 0 then .repeats else .advances)

end Sys2Proof.Machine
end

