-- ==== Sys2Proof/Machine/InputOps.lean ====
section
/-! DEFINITION. The input monitor and capture: sync runs, the frame counter, the input states, the input VS with its
steps, region pixels (Chapter 3). -/

namespace Sys2Proof.Machine

/-! ## Sync runs and pulse levels (R43) -/

/-- The pulse level found from the kept runs: the level whose run is the shorter, unchanged when they are equal (R43). -/
def pulseLevel (keptHigh keptLow : Option Nat) (before : Option Pol) : Option Pol :=
  match keptHigh, keptLow with
  | some h, some l => if h < l then some .high else if l < h then some .low else before
  | _, _ => none

/-- A transition into a level: the run just ended is kept for the other level if it was complete, the pulse level is
found again, and the transition is a leading edge when it is into the pulse level held before it (R43,
notes/assumptions/18.md). -/
def Sync.transition (y : Sync) (to' : Pol) : Sync :=
  let high := if to' = .low ∧ y.whole then some y.run else y.keptHigh
  let low := if to' = .high ∧ y.whole then some y.run else y.keptLow
  { level := some to', run := 0, whole := true, keptHigh := high, keptLow := low
    pulse := pulseLevel high low y.pulse
    leading := y.pulse == some to' }

/-- The pulse level becomes undetermined and the kept run lengths are discarded (R43, entry to NO_SIGNAL). -/
def Sync.forget (y : Sync) : Sync := { y with keptHigh := none, keptLow := none, pulse := none, leading := false }

/-- The kept run of the pulse level (R46, HS width). While the pulse level is undetermined there is no such run, and the
width is 0 (DESIGN CHOICE, notes/assumptions/54.md). -/
def Sync.pulseRun (y : Sync) : Nat :=
  match y.pulse with
  | some .high => y.keptHigh.getD 0
  | some .low => y.keptLow.getD 0
  | none => 0

/-- The line is at its pulse level. -/
def Sync.inPulse (y : Sync) : Bool := y.level.isSome && y.level == y.pulse

/-- The detected polarity (R43, R46). A frame closed while the pulse level is undetermined has it active high (DESIGN
CHOICE, notes/assumptions/54.md). -/
def Sync.activeHigh (y : Sync) : Bool := y.pulse != some .low

/-! ## Frame records (R46, R47) -/

/-- The counts of the frame in progress as a record, at its close (R46). -/
def Input.close (n : Input) : Record :=
  { hsPeriod := min 65535 n.count.hsPeriod
    lines := min 4095 n.count.lines
    activePixels := min 4095 n.count.activePixels
    activeLines := min 4095 n.count.activeLines
    hsWidth := min 65535 n.hs.pulseRun
    vsWidth := min 4095 n.count.vsWidth
    hsHigh := n.hs.activeHigh
    vsHigh := n.vs.activeHigh
    frameTime := min 16777215 n.count.time }

/-- Two records agree (section 3.3). -/
def recordsAgree (a b : Record) : Bool :=
  a.lines == b.lines && a.activePixels == b.activePixels && a.activeLines == b.activeLines
  && absDiff a.hsPeriod b.hsPeriod ≤ 8

/-- Put the input block's state back with a report to the membership controller of a usability that is not (R50, R99). -/
def State.reportInput (s : State) : State := if s.usable then s else s.inputLost

/-! ## The end of a line, and region pixels (R45, R54, R74) -/

/-- Columns of a region line that have not been entered when its entry finishes early. -/
def missingColumns (c : Settings) (pixel : Nat) : List Nat :=
  let entered := min c.rw (pixel - c.rx)
  (List.range (c.rw - entered)).map (· + entered)

/-- An active line is a region line (R54). -/
def isRegionLine (c : Settings) (line : Nat) : Bool := c.ry ≤ line && line < c.ry + c.rh

/-- The region line's entry finishes: it is counted, and recorded in the slot's lines written (R54). -/
def State.finishRegionLine (s : State) (p : Progress) : State :=
  (s.setInput { s.input with progress := some { p with entered := p.entered + 1 } }).lineWritten p.slot

/-- Columns of a region line that were not entered are entered as 000000h (R54). -/
def State.padColumns (s : State) (p : Progress) : List Nat → State
  | [] => s
  | k :: rest => (s.offerPixel ⟨p.slot, p.line - s.cfg.ry, k, 0⟩).padColumns p rest

/-- A region line whose entry has not finished is padded and finished (R54). -/
def State.padLine (s : State) (p : Progress) : State :=
  if isRegionLine s.cfg p.line ∧ p.pixel < s.cfg.rx + s.cfg.rw then
    (s.padColumns p (missingColumns s.cfg p.pixel)).finishRegionLine p
  else s

/-- The next active line is looked for (R45). -/
def Progress.nextLine (q : Progress) : Progress :=
  { q with line := min 4095 (q.line + 1), pixel := 0, lineActive := false }

/-- The line in progress ends: an active line is finished, and the next one is looked for (R45, R54). -/
def State.endInputLine (s : State) : State :=
  let t := s.setInput { s.input with count := { s.input.count with lineActive := false } }
  match t.input.progress with
  | none => t
  | some p =>
    if p.lineActive then
      let u := t.padLine p
      u.setInput { u.input with progress := u.input.progress.map Progress.nextLine }
    else t

/-- The FILLING slot has all its region lines (R55). -/
def State.captureFull (s : State) : Bool :=
  match s.input.progress with
  | some p => s.cfg.rh ≤ p.entered
  | none => false

/-- Completion of the FILLING slot: READY, or FREE where it is TORN (R55, R63). -/
def State.completeCapture (s : State) : State :=
  match s.input.progress with
  | none => s
  | some p =>
    let t := s.setInput { s.input with progress := none }
    if (s.store.slots.get p.slot).torn then (t.freeSlot p.slot).count .captureTorn
    else (t.makeReady p.slot).count .captureDone

/-- The FILLING slot is freed uncounted, and the capture progress cleared (R58). -/
def State.abandonCapture (s : State) : State :=
  (s.setInput { s.input with progress := none }).freeFilling

/-- An input pixel clock with DE asserted, in the counts of the frame (R45, R46). Where DE was asserted already when the VS
was taken, the rest of that line counts as an active line, its pixels numbered from 0 at the VS, though DE has not risen
in it after the VS (DESIGN CHOICE, notes/assumptions/51.md). -/
def FrameCount.pixel (n : FrameCount) : FrameCount :=
  let lines := if n.lineActive then n.activeLines else min 4095 (n.activeLines + 1)
  { n with
    lineActive := true
    activeLines := lines
    activePixels := if lines = 1 then min 4095 (n.activePixels + 1) else n.activePixels }

/-- The pixel is a region pixel of the FILLING slot (R54). -/
def inRegion (c : Settings) (p : Progress) : Bool :=
  isRegionLine c p.line && c.rx ≤ p.pixel && p.pixel < c.rx + c.rw

/-- The pixel's entry into the write FIFO (R54, R56). -/
def State.enterPixel (s : State) (p : Progress) (v : Rgb) : State :=
  if inRegion s.cfg p then
    let t := s.offerPixel ⟨p.slot, p.line - s.cfg.ry, p.pixel - s.cfg.rx, v⟩
    if p.pixel + 1 = s.cfg.rx + s.cfg.rw then t.finishRegionLine p else t
  else s

/-- An input pixel clock with DE asserted (R45, R54). -/
def State.takePixel (s : State) (v : Rgb) : State :=
  let t := s.setInput { s.input with count := s.input.count.pixel }
  match t.input.progress with
  | none => t
  | some p =>
    let u := t.enterPixel p v
    match u.input.progress with
    | some q => u.setInput { u.input with
        progress := some { q with pixel := min 4095 (q.pixel + 1), lineActive := true } }
    | none => u

/-! ## The input VS (R44, R46 to R48, R51) -/

/-- The frame counter begins the next frame from 0, and the VS timer restarts (R46, R49). -/
def State.openFrame (s : State) : State :=
  s.setInput { s.input with count := .zero, vsTimer := 0 }

/-- Steps 4 to 7 of R51: count, stamp, grant, begin. -/
def State.beginFrame (s : State) : State :=
  let n := s.input.lcs + 1
  let t := s.setInput { s.input with lcs := n }
  if t.usable then
    let (u, i) := t.grant n ⟨t.timing.wfn, t.timing.line⟩
    match i with
    | some k => u.setInput { u.input with progress := some ⟨k, 0, 0, 0, false⟩ }
    | none => u
  else t

/-- An input VS taken in NO_SIGNAL (R47): ACQUIRING when an HS leading edge has been taken in the last 4096 XREF
clocks (notes/assumptions/19.md). -/
def State.vsInNoSignal (s : State) : State :=
  if s.input.hsSeen ∧ s.input.hsTimer < Config.hsLimit then
    (s.setInput { s.input with state := .acquiring, candidate := none, agreement := 0 }).openFrame.reportInput
  else s.setInput { s.input with vsTimer := 0 }

/-- An input VS taken in ACQUIRING: the frame is closed and compared with the candidate (R47). -/
def State.vsInAcquiring (s : State) : State :=
  let r := s.input.close
  let t := (s.setInput { s.input with record := r }).openFrame
  match s.input.candidate with
  | some k =>
    if recordsAgree r k then
      (if 3 ≤ s.input.agreement + 1 then
        ((t.setInput { t.input with state := .stable, stable := some k, candidate := none, agreement := 0 }).raise
          .inputChange).beginFrame.reportInput
       else t.setInput { t.input with agreement := s.input.agreement + 1 })
    else t.setInput { t.input with candidate := some r, agreement := 1 }
  | none => t.setInput { t.input with candidate := some r, agreement := 1 }

/-- Steps 1 and 2 of R51: the line in progress ends, with completion where it was the last region line, and a FILLING
slot that still exists is SHORT. -/
def State.shortCheck (s : State) : State :=
  let t := s.endInputLine
  let u := if t.captureFull then t.completeCapture else t
  if (u.store.slots.first .filling).isSome then
    u.abandonCapture.count .captureShort
  else u.setInput { u.input with progress := none }

/-- An input VS taken in STABLE: the steps of R51 in order, with the comparison of R48. -/
def State.vsInStable (s : State) : State :=
  let t := s.shortCheck
  let r := t.input.close
  let u := (t.setInput { t.input with record := r }).openFrame
  let same := match t.input.stable with | some k => recordsAgree r k | none => false
  if same then u.beginFrame
  else
    ((u.setInput { u.input with
      state := .acquiring, stable := none, candidate := some r, agreement := 1 }).raise .inputChange).reportInput

/-- An input VS is taken. -/
def State.inputVs (s : State) : State :=
  match s.input.state with
  | .noSignal => s.vsInNoSignal
  | .acquiring => s.vsInAcquiring
  | .stable => s.vsInStable

/-- A held VS is taken (R44). -/
def State.takeHeldVs (s : State) : State := (s.setInput { s.input with heldVs := none }).inputVs

/-- An HS leading edge in the counts of the frame (R45, R46). -/
def Input.countHs (n : Input) : FrameCount :=
  let k := n.count
  { k with
    hsPeriod := if k.hsTaken then min 65535 k.sinceHs else k.hsPeriod
    lines := min 4095 (k.lines + 1)
    vsWidth := if n.vs.inPulse then min 4095 (k.vsWidth + 1) else k.vsWidth
    sinceHs := 0
    hsTaken := true }

/-- An HS leading edge is taken: the line ends, the counts and the HS timer take it, and a held VS follows it
(R44, R45, R46, R49). -/
def State.takeHs (s : State) : State :=
  let t := s.endInputLine
  let u := t.setInput { t.input with
    count := t.input.countHs, hsTimer := 0, hsSeen := true, hs := { t.input.hs with leading := false } }
  if u.input.heldVs.isSome then u.takeHeldVs else u

/-- A timer has expired (R49). -/
def Input.timerExpired (n : Input) : Bool :=
  n.state != .noSignal && (Config.hsLimit ≤ n.hsTimer || Config.vsLimit ≤ n.vsTimer)

/-- The input becomes NO_SIGNAL by expiry (R43, R46, R49, R58). -/
def State.loseSignal (s : State) : State :=
  let was := s.input.state
  let t := s.setInput { s.input with
    state := .noSignal, record := .zero, count := .zero, heldVs := none, candidate := none, agreement := 0,
    stable := none, hs := s.input.hs.forget, vs := s.input.vs.forget }
  let u := if was = .stable then (t.raise .inputChange).abandonCapture else t
  u.reportInput

end Sys2Proof.Machine
end

