-- ==== Sys2Proof/Machine/Image.lean ====
section
/-! DEFINITION. The configuration image: how many bytes a copy calls for, the six checks, and the configuration an
accepted copy gives (R158 to R163, Figures 24 and 25). -/

namespace Sys2Proof.Machine

/-- A big-endian number of some bytes. -/
def bytesNat (l : List Byte) : Nat := l.foldl (fun acc b => acc * 256 + b.toNat) 0

/-- Whether the five header bytes pass the first check: marker 24h, 10h and a length of 9 to 2048 (R158). -/
def headerGood : List Byte → Bool
  | a :: b :: c :: d :: _ :: _ =>
    a == 0x24#8 && b == 0x10#8 && (let n := bytesNat [c, d]; 9 ≤ n && n ≤ 2048)
  | _ => false

/-- The image length a header gives (Figure 24). -/
def imageLength : List Byte → Nat
  | _ :: _ :: c :: d :: _ => bytesNat [c, d]
  | _ => 0

/-- How many bytes the reader clocks in, by the bytes it has: the header's five, and where they pass the first check as
many as the header calls for (R156, R158). -/
def bytesWanted (l : List Byte) : Nat :=
  if l.length < 5 then 5 else if headerGood l then imageLength l else 5

/-- The read of a copy has ended: header rejected, or all image bytes read (R158). -/
def readEnded (l : List Byte) : Bool := 5 ≤ l.length && l.length == bytesWanted l

/-- A record: its kind and its body (R160). -/
structure ImageRecord where
  kind : Nat
  body : List Byte
  deriving DecidableEq, Repr

/-- Walk `count` records over the bytes between header and trailer: nothing where the structure is not sound (R160). -/
def walkRecords : Nat → List Byte → Option (List ImageRecord)
  | 0, [] => some []
  | 0, _ :: _ => none
  | n + 1, k :: h :: l :: rest =>
    let len := bytesNat [h, l]
    if len ≤ rest.length then
      (walkRecords n (rest.drop len)).map (fun rs => ⟨k.toNat, rest.take len⟩ :: rs)
    else none
  | _ + 1, _ => none

/-- The minimum body of a known kind (R160). -/
def minimumBody : Nat → Option Nat
  | 1 => some 1
  | 2 => some 19
  | 3 => some 6
  | 4 => some 0
  | 5 => some 16
  | 6 => some 0
  | 7 => some 0
  | 8 => some 768
  | _ => none

/-- The first record of a kind, the one that stands (R160). -/
def firstOf (rs : List ImageRecord) (k : Nat) : Option (List Byte) := (rs.find? (fun r => r.kind == k)).map (·.body)

/-- The first record of every known kind that was met has at least its minimum body (R160). A later record of a kind
already met is passed over unchecked (DEDUCED, notes/assumptions/13.md). -/
def lengthsSound (rs : List ImageRecord) : Bool :=
  [1, 2, 3, 4, 5, 6, 7, 8].all (fun k =>
    match firstOf rs k, minimumBody k with
    | some b, some n => n ≤ b.length
    | _, _ => true)

/-- The mandatory kinds (R160, R161). -/
def mandatoryMet (rs : List ImageRecord) : Bool := [1, 2, 3, 4, 5, 6, 7].all (fun k => (firstOf rs k).isSome)

/-- A field of `size` bytes at an offset of a body: given when the body holds all its bytes (R161). -/
def givenField (body : List Byte) (at' size : Nat) : Option Nat :=
  if at' + size ≤ body.length then some (bytesNat ((body.drop at').take size)) else none

/-- A field with a default (R161, R162). -/
def fieldOr (body : List Byte) (at' size default' : Nat) : Nat := (givenField body at' size).getD default'

/-- The values of an image's fields, as numbers, before any range check. -/
structure RawFields where
  station : List Byte
  output : List Byte
  schedule : List Byte
  lock : List Byte
  region : List Byte
  membership : List Byte
  picture : List Byte
  gamma : Option (List Byte)
  deriving DecidableEq, Repr

/-- The bodies that stand (R160). -/
def rawFields (rs : List ImageRecord) : RawFields :=
  let g := fun k => (firstOf rs k).getD []
  ⟨g 1, g 2, g 3, g 4, g 5, g 6, g 7, firstOf rs 8⟩

/-- The initial mode's kind and index bytes; the field is omitted unless the body holds both
(DEDUCED, notes/assumptions/14.md). -/
def initialModeBytes (f : RawFields) : Nat × Nat :=
  match givenField f.picture 4 2 with
  | some v => (v / 256, v % 256)
  | none => (0, 0)

/-- The initial mode (section 12.3): LIVE, FILL or PATTERN with an index of 0 to 11; nothing where out of range. -/
def initialModeOf (f : RawFields) : Option Mode :=
  let (k, n) := initialModeBytes f
  if k = 0 then some .live
  else if k = 1 then some .fill
  else if k = 2 then (if h : n < 12 then some (.pattern ⟨n, h⟩) else none)
  else none

/-- The configuration that the fields give, given and defaulted (R161, R162, Figure 25). -/
def settingsOf (f : RawFields) : Settings :=
  let o := fun i n => fieldOr f.output i n 0
  let pol := o 18 1
  let r := fun i => fieldOr f.region i 2 0
  { tile := BitVec.ofNat 5 (fieldOr f.station 0 1 0)
    skew := fieldOr f.station 1 1 4
    eventMask := BitVec.ofNat 16 (fieldOr f.station 2 2 0x3FF)
    multiplier := o 0 1
    divider := o 1 1
    htot := o 2 2
    vtot := o 4 2
    hstart := o 6 2
    aw := o 8 2
    vstart := o 10 2
    ah := o 12 2
    hsw := o 14 2
    vsw := o 16 2
    hsHigh := pol % 2 == 1
    vsHigh := pol / 2 % 2 == 1
    deHigh := pol / 4 % 2 == 1
    sopen := fieldOr f.schedule 0 2 0
    scut := fieldOr f.schedule 2 2 0
    bline := fieldOr f.schedule 4 2 0
    lockwin := fieldOr f.lock 0 2 256
    slew := fieldOr f.lock 2 2 8192
    lonewait := fieldOr f.lock 4 1 8
    rx := r 0
    ry := r 2
    rw := r 4
    rh := r 6
    cx := r 8
    cy := r 10
    cw := r 12
    ch := r 14
    foundwait := fieldOr f.membership 0 1 16
    lapse := fieldOr f.membership 1 1 6
    holdframes := fieldOr f.membership 2 1 60
    modelead := fieldOr f.membership 3 1 8
    fillColour := BitVec.ofNat 24 (fieldOr f.picture 0 3 0)
    detachedShow := if fieldOr f.picture 3 1 0 = 1 then .ident else .fill
    initialMode := (initialModeOf f).getD .live
    dither := fieldOr f.picture 6 1 0 == 1 }

/-- A number lies in an inclusive range. -/
def inRange (lo hi v : Nat) : Bool := lo ≤ v && v ≤ hi

/-- The ranges of R162, each field alone; omitted fields hold defaults, which lie in range. -/
def rangesHold (f : RawFields) : Bool :=
  let c := settingsOf f
  inRange 0 31 (fieldOr f.station 0 1 0) && inRange 1 15 c.skew
  && inRange 1 255 c.multiplier && inRange 1 255 c.divider
  && inRange 256 4095 c.htot && inRange 128 2047 c.vtot
  && inRange 0 4095 c.hstart && inRange 16 4095 c.aw
  && inRange 0 2047 c.vstart && inRange 16 2047 c.ah
  && inRange 1 4095 c.hsw && inRange 1 2047 c.vsw
  && inRange 0 7 (fieldOr f.output 18 1 0)
  && inRange 0 2047 c.sopen && inRange 0 2047 c.scut && inRange 0 2047 c.bline
  && inRange 16 1023 c.lockwin && inRange 1 65535 c.slew && inRange 2 255 c.lonewait
  && inRange 0 4095 c.rx && inRange 0 4095 c.ry
  && inRange 16 2048 c.rw && inRange 16 1536 c.rh
  && inRange 0 4095 c.cx && inRange 0 2047 c.cy
  && inRange 1 4095 c.cw && inRange 1 2047 c.ch
  && inRange 4 255 c.foundwait && inRange 2 255 c.lapse && inRange 0 255 c.holdframes && inRange 4 64 c.modelead
  && inRange 0 1 (fieldOr f.picture 3 1 0) && (initialModeOf f).isSome && inRange 0 1 (fieldOr f.picture 6 1 0)

/-- The least whole number of lines that SLEW pixel clocks span: ceil(SLEW / HTOT) (R6, R163). -/
def slewLines (c : Settings) : Nat := (c.slew + c.htot - 1) / c.htot

/-- The relations of R163. -/
def relationsHold (c : Settings) : Bool :=
  25 * c.divider ≤ 27 * c.multiplier && 27 * c.multiplier ≤ 165 * c.divider
  && c.hstart + c.aw ≤ c.htot && c.vstart + c.ah ≤ c.vtot
  && c.hsw + 1 ≤ c.htot && c.vsw + 1 ≤ c.vtot
  && 2 ≤ c.sopen
  && c.sopen + 32 ≤ c.scut
  && c.scut + 4 ≤ c.bline
  && c.bline + 12 + slewLines c ≤ c.vtot
  && 4 * c.lockwin ≤ c.htot
  && c.cx + c.cw ≤ c.aw && c.cy + c.ch ≤ c.ah
  && c.rw ≤ 2 * c.cw && c.cw ≤ 8 * c.rw && c.rh ≤ 2 * c.ch && c.ch ≤ 8 * c.rh
  && c.rx + c.rw ≤ 4095 && c.ry + c.rh ≤ 4095

/-- An accepted copy: its configuration and its gamma tables (R164). -/
structure Candidate where
  settings : Settings
  gammaR : List Byte
  gammaG : List Byte
  gammaB : List Byte
  deriving DecidableEq, Repr

/-- The candidate of the fields; without a GAMMA record each table is the identity (R150, R161). -/
def candidateOf (f : RawFields) : Candidate :=
  match f.gamma with
  | none => ⟨settingsOf f, identityGamma, identityGamma, identityGamma⟩
  | some g => ⟨settingsOf f, g.take 256, (g.drop 256).take 256, (g.drop 512).take 256⟩

/-- The outcome of checking a copy. -/
inductive CopyCheck where
  | rejected (cause : Cause)
  | accepted (c : Candidate)
  deriving DecidableEq, Repr

/-- Checks 3 to 6 over the records of a copy whose CRC-32 is right (R160 to R163). -/
def checkRecords (count : Nat) (body : List Byte) : CopyCheck :=
  match walkRecords count body with
  | none => .rejected .range
  | some rs =>
    let f := rawFields rs
    if !lengthsSound rs then .rejected .range
    else if !mandatoryMet rs then .rejected .missingRecord
    else if !rangesHold f then .rejected .range
    else if !relationsHold (settingsOf f) then .rejected .constraint
    else .accepted (candidateOf f)

/-- The six checks in order, the first failure giving the cause (section 9.3). -/
def checkCopy (l : List Byte) : CopyCheck :=
  let n := imageLength l
  if !headerGood l then .rejected .noImage
  else if (crc32 (l.take (n - 4))).toNat ≠ bytesNat ((l.drop (n - 4)).take 4) then .rejected .badCrc
  else checkRecords (bytesNat ((l.drop 4).take 1)) ((l.take (n - 4)).drop 5)

end Sys2Proof.Machine
end

