-- ==== Sys2Proof/Machine/TimingOps.lean ====
section
/-! DEFINITION. The timing generator and the lock machine: the phase error, the streaks, the shortening, the frame
start and the work of the blocks at it (Chapter 1, R103). -/

namespace Sys2Proof.Machine

/-! ## The end of the line in progress -/

/-- Pixel clocks from the present pixel to the end of its line (R2). -/
def State.toLineEnd (s : State) : Nat := s.lineLen - s.timing.pixel

/-- `d` pixel clocks pass: the kept foreign edge and the ballot edge fall further behind (R10, R81), and the scaler
takes what has arrived in the read FIFO. -/
def State.passPixels (s : State) (d : Nat) : State :=
  if d = 0 then s
  else
    let t := s.setTiming { s.timing with keptEdge := s.timing.keptEdge.map (· + d) }
    (t.setBallot { t.ballot with edge := t.ballot.edge.map (· + d) }).drainFifo

/-! ## The lock machine (R11 to R17) -/

/-- The phase error of a frame start in SEEK: nothing at a lone frame start (R11). -/
def seekError (c : Settings) (t : Timing) : Option Nat :=
  match t.keptEdge with
  | some a => if a < c.nominal then some a else none
  | none => none

/-- The phase error of a frame start in LOCKED (R12): the edge fell after the ended frame's own frame start, and in
its last half. -/
def lockedError (c : Settings) (t : Timing) : Nat :=
  match t.keptEdge with
  | some a => if a < c.nominal - t.shortening ∧ a ≤ c.nominal / 2 then a else 0
  | none => 0

/-- What an evaluation finds. -/
structure Evaluation where
  error : Nat
  lock : Lock
  lockStreak : Nat
  unlockStreak : Nat
  loneWait : Nat
  /-- The lock state has become LOCKED by the lone-wait count (R15). -/
  lone : Bool
  deriving DecidableEq, Repr

/-- The evaluation in SEEK (R15). -/
def evaluateSeek (c : Settings) (t : Timing) : Evaluation :=
  match seekError c t with
  | some e =>
    if e ≤ c.lockwin then
      (if 4 ≤ t.lockStreak + 1 then ⟨e, .locked, 0, t.unlockStreak, 0, false⟩
       else ⟨e, .seek, t.lockStreak + 1, t.unlockStreak, 0, false⟩)
    else ⟨e, .seek, 0, t.unlockStreak, 0, false⟩
  | none =>
    if c.lonewait ≤ t.loneWait + 1 then ⟨0, .locked, 0, t.unlockStreak, 0, true⟩
    else ⟨0, .seek, 0, t.unlockStreak, t.loneWait + 1, false⟩

/-- The evaluation in LOCKED (R16). -/
def evaluateLocked (c : Settings) (t : Timing) : Evaluation :=
  let e := lockedError c t
  if e ≤ c.lockwin then ⟨e, .locked, t.lockStreak, 0, t.loneWait, false⟩
  else if t.unlockStreak = 0 then ⟨e, .locked, t.lockStreak, 1, t.loneWait, false⟩
  else ⟨e, .seek, t.lockStreak, 0, t.loneWait, false⟩

/-- The evaluation by the lock state that held at the end of the frame (R17). In OFF nothing is evaluated (R14). -/
def evaluation (c : Settings) (t : Timing) : Evaluation :=
  match t.lock with
  | .off => ⟨0, .off, t.lockStreak, t.unlockStreak, t.loneWait, false⟩
  | .seek => evaluateSeek c t
  | .locked => evaluateLocked c t

/-- A falling edge of FS at the frame start's own pixel, before the evaluation: it counts, with age 0, unless the station
is LOCKED and not silenced and so may begin its own drive there (R10, R11; notes/assumptions/6.md). -/
def State.edgeAtStart (s : State) (edge : Bool) : State :=
  if edge ∧ ¬(s.locked ∧ s.bus.latch = false) then s.setTiming { s.timing with keptEdge := some 0 } else s

/-- The evaluation's results take their places, the WFN advances and the FS drive begins (R13, R17, R7, R9). -/
def State.applyEvaluation (s : State) (e : Evaluation) : State :=
  s.setTiming { s.timing with
    pixel := 0
    line := 0
    wfn := s.timing.wfn + 1
    lock := e.lock
    phaseError := e.error
    shortening := min e.error s.cfg.slew
    lockStreak := e.lockStreak
    unlockStreak := e.unlockStreak
    loneWait := e.loneWait
    fsDrive := e.lock == .locked && !s.bus.latch }

/-- The lock events of an evaluation (R15, R16). -/
def State.reportLock (s : State) (before after : Lock) : State :=
  match before, after with
  | .seek, .locked => s.raise .lockChange
  | .locked, .seek => (s.count .lockLosses).raise .lockChange
  | _, _ => s

/-- The same edge after the evaluation: where the station begins no drive of its own at this pixel, the edge is foreign,
the most recent one, and kept (R10; notes/assumptions/6.md). -/
def State.keepUndriven (s : State) (edge : Bool) : State :=
  if edge ∧ s.timing.fsDrive = false then s.setTiming { s.timing with keptEdge := some 0 } else s

/-- The moment of the frame start, before its evaluation: the last line has run to its end. -/
def State.endFrame (s : State) (edge : Bool) : State := (s.passPixels s.toLineEnd).edgeAtStart edge

/-- The generator's own work at an evaluated frame start (R17, R10). -/
def State.generatorFrameStart (s : State) (edge : Bool) : State :=
  let t := s.endFrame edge
  let e := evaluation t.cfg t.timing
  ((t.applyEvaluation e).keepUndriven edge).reportLock t.timing.lock e.lock

/-! ## The blocks at the frame start -/

/-- The membership controller's frame-start work, in its order (R103). -/
def State.memberFrameStart (s : State) : State :=
  let a := if s.port.inFlight = some .hold then s.takeHold else s
  let lost := a.member.station = .member ∧ a.locked = false
  let b := if lost then a.realign else a
  let c := b.joinTest
  let d := if lost then c else c.countHoldTimer
  d.ageRoster

/-- One block's frame-start work. -/
def State.blockFrameStart (s : State) : Block → State
  | .store => s.switch
  | .mode => s.modeFrameStart
  | .membership => s.memberFrameStart
  | .picture => s.pictureFrameStart

/-- Every block once: those that an order names, in that order and once each, then the others. -/
def fullOrder (order : List Block) : List Block :=
  let l := order.dedup
  l ++ [Block.store, .mode, .membership, .picture].filter (fun b => !l.contains b)

/-- The blocks take the frame-start event in an order (R5, R103, R139). -/
def State.blocksFrameStart (s : State) (order : List Block) : State :=
  (fullOrder order).foldl State.blockFrameStart s

/-- A whole frame start (R17, R103). -/
def State.frameStarts (s : State) (edge : Bool) (order : List Block) : State :=
  (s.generatorFrameStart edge).blocksFrameStart order

/-- A frame start is due: the generator runs and the last line of its frame is in progress (R2, R13). -/
def State.frameEnds (s : State) : Bool := s.timing.running && s.inLastLine

/-! ## Start and stop of the generator (R4) -/

/-- The generator starts, and with it the blocks that are active while it runs, each from its reset values; the station
becomes DETACHED and the blocks take the first frame start (R4, R42, R60, R97, R166). -/
def State.startGenerator (s : State) : State :=
  let t := (s.setTiming { Timing.initial with running := true, lock := .seek }).setBus
    { Bus.initial with active := true }
  let u := (t.setInput { Input.initial with active := true }).setStation .detached
  u.blocksFrameStart []

end Sys2Proof.Machine
end

