-- ==== Sys2Proof/Machine/LoaderOps.lean ====
section
/-! DEFINITION. The configuration loader: reading copies, acceptance and rejection, FAULT, and what a hard reset and a
RESTART leave in every block (Chapter 9, R177). -/

namespace Sys2Proof.Machine

/-- What a hard reset leaves: every block at its hard-reset values (R154). The waiting commands are the sender's. -/
def State.hardReset (s : State) : State := State.reset.setPending s.pending

/-- The values that RESTART and entry to FAULT leave in every block but loader, membership and port: counters and
memory contents are kept (R19, R42, R60, R78, R96, R120, R136, R153). Of a write that is cut off no pixel is in memory
(DESIGN CHOICE, notes/assumptions/53.md). -/
def State.blocksReset (s : State) : State :=
  { State.reset with pending := s.pending, counters := s.counters, mem := s.mem, port := s.port }

/-- A RESTART is taken (R155, R177, R182). The snapshot last taken is kept though no read is in progress (DESIGN CHOICE,
notes/assumptions/50.md). -/
def State.takeRestart (s : State) : State :=
  let t := s.blocksReset.setLoader { Loader.initial with phase := .wait }
  (t.setPort { s.port with tx := .waiting, lastCode := none, result := .none, inFlight := none }).raise .restarted

/-- Entry to FAULT with a cause (R167, R182). The two delay counts become 0 (DESIGN CHOICE, notes/assumptions/56.md). -/
def State.enterFault (s : State) (c : Cause) : State :=
  let t := s.blocksReset.setLoader { Loader.initial with phase := .fault, cause := c }
  let u := (t.setMember { Membership.initial with station := .fault }).setPort { s.port with inFlight := none }
  (u.raise .fault).raise .stateChange

/-- The reading of a copy begins (R156). The count of the delay or wait that has ended stands (DESIGN CHOICE,
notes/assumptions/56.md). -/
def State.startRead (s : State) (c : Copy) : State :=
  s.setLoader { s.loader with
    phase := match c with | .primary => .primary | .backup => .backup
    reading := some c
    spiClock := 0
    bytes := []
    bits := [] }

/-- A copy is rejected with a cause: the primary's transaction is over, and the backup is read after the gap between two
transactions; a rejected backup takes the station to FAULT (R156, R157). -/
def State.rejectCopy (s : State) (c : Copy) (cause : Cause) : State :=
  match c with
  | .primary => s.setLoader { s.loader with
      cause := cause, phase := .backup, reading := none, spiClock := 0, bytes := [], bits := [], gap := 0 }
  | .backup => s.enterFault cause

/-- A copy is accepted: its configuration, gamma tables and mode record are taken, and the PLL is started
(R157, R164, R165). The roster entry that the SELF entry leaves becomes ABSENT (R107). -/
def State.acceptCopy (s : State) (c : Copy) (k : Candidate) : State :=
  let a := s.setEntry s.tile (fun _ => .absent)
  let t := a.setLoader { a.loader with
    phase := .pll, reading := none, spiClock := 0, bytes := [], bits := [], copyInUse := some c,
    settings := k.settings,
    pllRunning := true, pllCount := 0, pllOver := false }
  let u := t.setPicture { t.picture with gammaR := k.gammaR, gammaG := k.gammaG, gammaB := k.gammaB }
  u.setModes { u.modes with record := ⟨k.settings.initialMode, 0, k.settings.tile⟩ }

/-- The read of a copy has ended, and the copy is checked (R157, R158 to R163). -/
def State.copyChecked (s : State) : State :=
  match s.loader.reading with
  | none => s
  | some c =>
    match checkCopy s.loader.bytes with
    | .rejected cause => s.rejectCopy c cause
    | .accepted k => s.acceptCopy c k

/-- A copy's read has ended: the header was rejected, or every image byte has been read (R158). -/
def State.copyReadEnded (s : State) : Bool :=
  (s.loader.phase == .primary || s.loader.phase == .backup) && s.loader.reading.isSome && readEnded s.loader.bytes

/-- No lock within the limit: the PLL stops and the copy is given up. FL_CSn has been high for longer than the gap, so the
backup's read begins at once (R156, R165). -/
def State.pllTimeout (s : State) : State :=
  match s.loader.copyInUse with
  | some .primary =>
    (s.setLoader { s.loader with pllRunning := false, cause := .pllNoLock, copyInUse := none }).startRead .backup
  | _ => s.enterFault .pllNoLock

/-- The PLL has locked: RUN, and the generator starts (R165, R166). The count of the wait stands (DESIGN CHOICE,
notes/assumptions/56.md). -/
def State.enterRun (s : State) : State :=
  (s.setLoader { s.loader with phase := .run }).startGenerator

/-- The start delay has run out (R154, R156). -/
def State.firstRead (s : State) : State := s.startRead .primary

/-- RESETn has risen: the straps are sampled and the start delay begins (R154, R169). -/
def State.resetReleased (s : State) (straps : BitVec 2) : State :=
  (s.setLoader { s.loader with phase := .wait, startCount := 0 }).setPort
    { s.port with address := 0x5A#7 + straps.zeroExtend 7 }

end Sys2Proof.Machine
end

