-- ==== Sys2Proof/Machine/Operands.lean ====
section
/-! DEFINITION. The operand that every command carries, its Span of clock time and of sampled inputs; what is found
again at the end of every command; the shape that most commands share (notes/assumptions/1.md and 2.md). -/

namespace Sys2Proof.Machine

/-! ## What a Span does to each part -/

/-- FL_MISO as it is at each XREF clock of a Span; low at a clock for which the Span lists no level, and so read as data
(R156; DESIGN CHOICE, notes/assumptions/28.md). -/
def misoLevels (w : Span) : List Bool := w.miso.take w.xref ++ List.replicate (w.xref - w.miso.length) false

/-- FL_SCK rises at the beginning of this XREF clock of a transaction: its low half of the period is over (R156). -/
def sckRises (clock : Nat) : Bool := clock % Config.flashPeriod == Config.flashPeriod / 2

/-- A period of FL_SCK ends with this XREF clock of a transaction (R156). -/
def sckEnds (clock : Nat) : Bool := clock % Config.flashPeriod + 1 == Config.flashPeriod

/-- The period of FL_SCK in progress carries a bit of the data: the 32 of command and address are over (R156). -/
def dataPeriod (clock : Nat) : Bool := 32 ≤ clock / Config.flashPeriod

/-- The bits of the data byte in progress after an XREF clock: FL_MISO is sampled at each rising edge of FL_SCK after the
address (R156). -/
def Loader.sampled (x : Loader) (miso : Bool) : List Bool :=
  if sckRises x.spiClock && dataPeriod x.spiClock then x.bits ++ [miso] else x.bits

/-- One XREF clock of the transaction in progress, with FL_MISO: eight bits make a byte, most significant first, taken at
the end of the eighth period; with the last byte that the copy calls for, the transaction is over (R156, R158). -/
def Loader.flashTick (x : Loader) (miso : Bool) : Loader :=
  if x.reading.isSome && !readEnded x.bytes then
    let b := x.sampled miso
    if sckEnds x.spiClock && b.length == 8 then
      { x with spiClock := x.spiClock + 1, bits := [], bytes := x.bytes ++ [bitsByte b] }
    else { x with spiClock := x.spiClock + 1, bits := b }
  else x

/-- XREF clocks at the transaction in progress, with FL_MISO at each (R156). -/
def Loader.clockFlash (x : Loader) (miso : List Bool) : Loader :=
  if x.reading.isSome then miso.foldl Loader.flashTick x else x

/-- FL_CSn is high between the primary's transaction and the backup's (R156). -/
def Loader.inGap (x : Loader) : Bool := x.phase == .backup && x.reading.isNone

/-- XREF clocks in the start delay and in the PLL wait (R154, R165). Outside its phase each count stands (DESIGN CHOICE,
notes/assumptions/56.md). -/
def Loader.countDelays (x : Loader) (n : Nat) : Loader :=
  { x with
    startCount := if x.phase = .wait then min Config.startDelay (x.startCount + n) else x.startCount
    pllCount := if x.phase = .pll then min Config.pllWait (x.pllCount + n) else x.pllCount
    pllOver := if x.phase = .pll then x.pllOver || Config.pllWait < x.pllCount + n else x.pllOver }

/-- XREF clocks at the loader, with FL_MISO at each: the two delays, the copy being read, and the gap after which the backup's
read begins (R154, R165, R156). -/
def Loader.pass (x : Loader) (w : Span) : Loader :=
  let y := x.countDelays w.xref
  if y.inGap then
    if y.gap + w.xref < Config.flashGap then { y with gap := y.gap + w.xref }
    else Loader.clockFlash
      { y with gap := Config.flashGap, reading := some .backup, spiClock := 0, bytes := [], bits := [] }
      ((misoLevels w).drop (Config.flashGap - y.gap))
  else y.clockFlash (misoLevels w)

/-- A run of a sync line grows by some clocks (R43). -/
def Sync.pass (y : Sync) (n : Nat) : Sync := { y with run := y.run + n }

/-- XREF clocks in the counts of the frame in progress, each holding at the top of its range (R46). -/
def FrameCount.pass (k : FrameCount) (n : Nat) : FrameCount :=
  { k with time := min 16777215 (k.time + n), sinceHs := min 65535 (k.sinceHs + n) }

/-- Input pixel clocks and XREF clocks at the input monitor: runs, the VS hold, the frame in progress, the two timers
(R43, R44, R46, R49). -/
def Input.pass (n : Input) (w : Span) : Input :=
  if n.active then
    { n with
      hs := n.hs.pass w.vi
      vs := n.vs.pass w.xref
      heldVs := n.heldVs.map (fun a => min Config.vsHold (a + w.vi))
      count := n.count.pass w.xref
      hsTimer := min Config.hsLimit (n.hsTimer + w.xref)
      vsTimer := min Config.vsLimit (n.vsTimer + w.xref) }
  else n

/-- TD as the other stations leave it at each XREF clock of a Span (R20). -/
def tdLevels (w : Span) : List Level := w.td.take w.xref ++ List.replicate (w.xref - w.td.length) .recessive

/-- XREF clocks of TD at the Tile Bus controller, which reads it while it is active (R20, R21, R27, R28, R41). -/
def Bus.pass (u : Bus) (locked : Bool) (t : Tile) (ballot : Level) (w : Span) : Bus :=
  if u.active then (tdLevels w).foldl (Bus.clock locked t ballot) u else u

/-- Panel pixel clocks that pass in the line in progress: none past its last pixel, which OUTPUT_LINE_END and the frame
start pass (R2). -/
def State.pixelsPassed (s : State) (w : Span) : Nat := min w.pix (s.toLineEnd - 1)

/-- The number of ballot bits whose middle has been reached (R83). -/
def bitsDue (htot edge : Nat) : Nat := (List.range 10).countP (fun k => htot * k + htot / 2 ≤ edge)

/-- The levels read go on with more samples, as many as are due; after a fault the rest is not read (R83, R89). -/
def Ballot.read (b : Ballot) (due : Nat) : List Level → Ballot
  | [] => b
  | x :: rest =>
    if b.lineResult.length < due ∧ b.fault = none then
      Ballot.read { b with lineResult := b.lineResult ++ [x] } due rest
    else b

/-- Ballot samples at a voter (R83). -/
def Ballot.pass (b : Ballot) (htot : Nat) (w : Span) : Ballot :=
  match b.phase, b.edge with
  | .voting, some a => b.read (bitsDue htot a) w.ballot
  | _, _ => b

/-- The pixel clocks of a Span pass while the generator runs (R2). -/
def State.passPanel (w : Span) (s : State) : State :=
  if s.timing.running then
    (s.setTiming { s.timing with pixel := s.timing.pixel + s.pixelsPassed w }).passPixels (s.pixelsPassed w)
  else s

/-- A Span passes at the whole station: its pixel clocks first, and its XREF clocks with the ballot bit that is driven at
their end (notes/assumptions/1.md). -/
def State.pass (w : Span) (s : State) : State :=
  let a := s.passPanel w
  let b := (a.setLoader (a.loader.pass w)).setInput (a.input.pass w)
  (b.setBus (b.bus.pass a.locked a.tile a.tdBallot w)).setBallot (b.ballot.pass b.cfg.htot w)

/-! ## The end of a command -/

/-- What holds at the end of every command: the stuck count is 0 outside its conditions (R41), the selection for the
following lines has been found from its inputs (R138, R139), and a free memory port has been granted (R73). -/
def State.settle (s : State) : State :=
  let a := if s.bus.stuckWatch s.locked then s else s.setBus { s.bus with stuckCount := 0 }
  let b := a.setPicture { a.picture with nextSelection := a.findSelection }
  b.arbitrate

/-- A command for an event: its Span passes; where the event is then due, it has its effect; where it is not, nothing
else happens (notes/assumptions/2.md). -/
def event (w : Span) (due : State → Bool) (effect : State → State) (s : State) : Out State :=
  let t := s.pass w
  .next (if due t then effect t else t).settle

end Sys2Proof.Machine
end

