-- ==== Sys2Proof/Machine/BusEvents.lean ====
section
/-! DEFINITION. Meanings of the commands of the Tile Bus controller: idle and start edges, sending, receiving, the stuck
line (Chapter 2). -/

namespace Sys2Proof.Machine

/-- The idle detector has completed 11 recessive bit times with the receive path in WAIT_IDLE (R27, R28). -/
def State.idleDue (s : State) : Bool := s.bus.active && s.bus.idle == 11 && s.bus.rx == .waitIdle

/-- The receive path enters IDLE (R28). -/
def State.enterIdle (s : State) : State := s.setBus { s.bus with rx := .idle }

/-- BUS_IDLE (R27, R28). -/
def execBusIdle (w : Span) (s : State) : Out State := event w State.idleDue State.enterIdle s

/-- The receive path takes falling edges outside messages (R27, R28). -/
def State.edgeDue (s : State) : Bool :=
  s.bus.active && (s.bus.rx == .waitIdle || s.bus.rx == .idle)

/-- A falling edge outside messages: a start edge, which a ready sender takes as its own start bit, or, after fewer than
10 recessive bit times, nothing but an end of the idle count (R27, R34). -/
def State.fallingEdge (s : State) : State :=
  if 10 ≤ s.bus.idle ∨ s.bus.rx = .idle then
    s.beginMessage (if s.maySend then s.nextToSend else none)
  else s.setBus { s.bus with idle := 0 }

/-- START_EDGE (R27, R28, R34). -/
def execStartEdge (w : Span) (s : State) : Out State := event w State.edgeDue State.fallingEdge s

/-- Every condition of R33 for a start of the station's own holds. -/
def State.startDue (s : State) : Bool :=
  s.maySend && s.bus.idle == 11 && s.edgeDue && s.nextToSend.isSome

/-- MESSAGE_START (R33). -/
def execMessageStart (w : Span) (s : State) : Out State :=
  event w State.startDue (fun t => t.beginMessage t.nextToSend) s

/-- Where, in the message being sent, a bit driven recessive has first been read dominant (R35, R36). -/
def State.lostAt (s : State) : Option Nat :=
  match s.sendingLevels with
  | none => none
  | some l => firstDifference l s.bus.rxBits

/-- The length of the message being sent, in bits (R22). -/
def State.sendingLength (s : State) : Nat :=
  match s.sendingLevels with
  | none => 0
  | some l => l.length

/-- The station has lost arbitration: the bit is no end bit (R35). -/
def State.lossDue (s : State) : Bool :=
  match s.sendingLevels, s.lostAt with
  | some l, some i => l[i]? == some Level.recessive && i + 2 < l.length
  | _, _ => false

/-- It goes on as a receiver of the same message; the lost one waits (R35, R37). -/
def State.loseArbitration (s : State) : State := (s.count .arbLosses).sendingEnded false

/-- ARBITRATION_LOSS (R35). -/
def execArbitrationLoss (w : Span) (s : State) : Out State := event w State.lossDue State.loseArbitration s

/-- Both end bits have been driven to their ends and read as driven, and so has every bit before (R30, R36). -/
def State.sentDue (s : State) : Bool :=
  match s.sendingLevels with
  | none => false
  | some l => l.isPrefixOf s.bus.rxBits && s.bus.bitsOver l.length

/-- The message has been sent whole. The receive path applies the field checks to it in the same way (R29, R36). -/
def State.messageWhole (s : State) : State :=
  let bad := match s.verdict with
    | .whole k _ p => (decodePayload s.cfg.vtot k p).isNone
    | _ => false
  let t := ((s.count .msgsSent).sendingEnded true).rxWaitIdle
  if bad then t.count .rxErrors else t

/-- MESSAGE_SENT (R36). -/
def execMessageSent (w : Span) (s : State) : Out State := event w State.sentDue State.messageWhole s

/-- An end bit has read dominant and has run to its end (R36, R37; notes/assumptions/46.md). -/
def State.endBitDue (s : State) : Bool :=
  match s.sendingLevels, s.lostAt with
  | some l, some i => l.length ≤ i + 2 && s.bus.bitsOver (i + 1)
  | _, _ => false

/-- The message is not sent whole, and the receive path counts a wrong length (R36, R28). -/
def State.endBitFails (s : State) : State := (s.sendingEnded false).rxDiscard

/-- END_BIT_FAILURE (R36, R37). -/
def execEndBitFailure (w : Span) (s : State) : Out State := event w State.endBitDue State.endBitFails s

/-- MESSAGE_DISCARDED (R28, R29). -/
def execMessageDiscarded (w : Span) (s : State) : Out State := event w State.receiveFailed State.rxDiscard s

/-- A good foreign message of a kind has been received whole (R30). -/
def State.receivedKind (s : State) (k : MsgKind) : Bool :=
  match s.receivedGood with
  | some (_, m) => m.kind == k
  | none => false

/-- A good foreign message is handed to its consumers, and to duplicate detection (R30, R39). -/
def State.handOver (s : State) : State :=
  match s.receivedGood with
  | none => s
  | some (t, m) =>
    let u := s.rxWaitIdle
    let v := match m with
      | .status x => (u.rosterStatus t x).joinFrameSet t x
      | .mode x => u.takeMode t x
      | .leave r => u.rosterLeave t r
    v.detectDuplicate t

/-- STATUS_RECEIVED (R30, R108, R112, R39). -/
def execStatusReceived (w : Span) (s : State) : Out State :=
  event w (fun t => t.receivedKind .status) State.handOver s

/-- MODE_RECEIVED (R30, R128, R129, R39). -/
def execModeReceived (w : Span) (s : State) : Out State :=
  event w (fun t => t.receivedKind .mode) State.handOver s

/-- LEAVE_RECEIVED (R30, R109, R39). -/
def execLeaveReceived (w : Span) (s : State) : Out State :=
  event w (fun t => t.receivedKind .leave) State.handOver s

/-- The stuck count has passed 64 (R41). -/
def State.stuckDue (s : State) : Bool := s.bus.stuckWatch s.locked && 65 ≤ s.bus.stuckCount && !s.bus.stuck

/-- The stuck indication is set (R41). -/
def State.becomeStuck (s : State) : State :=
  ((s.setBus { s.bus with stuck := true }).count .busStuck).raise .busStuck

/-- BUS_STUCK (R41). -/
def execBusStuck (w : Span) (s : State) : Out State := event w State.stuckDue State.becomeStuck s

/-- A recessive bit time has been read in a stuck episode (R41). -/
def State.unstuckDue (s : State) : Bool := s.bus.stuck && s.bus.tdLevel == .recessive

/-- The stuck indication is cleared (R41). -/
def State.clearStuck (s : State) : State := s.setBus { s.bus with stuck := false }

/-- STUCK_CLEAR (R41). -/
def execStuckClear (w : Span) (s : State) : Out State := event w State.unstuckDue State.clearStuck s

end Sys2Proof.Machine
end

