-- ==== Sys2Proof/Machine/Items.lean ====
section
/-! DEFINITION. The observation items: the bytes of Figure 27, read from the owners at one moment (R171, R172). -/

namespace Sys2Proof.Machine

/-- A number in one byte. -/
def natByte (n : Nat) : Byte := BitVec.ofNat 8 n

/-- A flag in bit `k` of a byte. -/
def bitAt (k : Nat) (b : Bool) : Byte := if b then 1#8 <<< k else 0#8

/-- A tile number in one byte. -/
def tileByte (t : Tile) : Byte := t.zeroExtend 8

/-- Station state codes of the STATION item (Figure 27). -/
def Station.code : Station → Byte
  | .starting => 0
  | .fault => 1
  | .detached => 2
  | .joining => 3
  | .member => 4

/-- Load phase codes (Figure 27). -/
def LoadPhase.code : LoadPhase → Byte
  | .held => 0
  | .wait => 1
  | .primary => 2
  | .backup => 3
  | .pll => 4
  | .run => 5
  | .fault => 6

/-- Copy in use codes (Figure 27). -/
def copyCode : Option Copy → Byte
  | none => 0
  | some .primary => 1
  | some .backup => 2

/-- Fault cause codes (Figure 27). -/
def Cause.code : Cause → Byte
  | .none => 0
  | .noImage => 1
  | .badCrc => 2
  | .missingRecord => 3
  | .range => 4
  | .constraint => 5
  | .pllNoLock => 6

/-- Slot state codes (Figure 27). -/
def SlotState.code : SlotState → Byte
  | .free => 0
  | .filling => 1
  | .ready => 2
  | .chosen => 3
  | .showing => 4

/-- Entry state codes of the entries of other tiles (Figure 27). -/
def EntryState.code : EntryState → Byte
  | .absent => 0
  | .joining => 1
  | .member => 2
  | .lapsed => 3
  | .left => 4

/-- Leave reason in the ROSTER item, 0 when absent (Figure 27). -/
def reasonCode : Option LeaveReason → Byte
  | none => 0
  | some r => r.code

/-- Command result codes (Figure 27). -/
def CmdResult.code : CmdResult → Byte
  | .none => 0
  | .accepted => 1
  | .done => 2
  | .refusedState => 3
  | .refusedArg => 4
  | .busy => 5
  | .late => 6
  | .abandoned => 7

/-- IDENT: part code 2410, family code 1 (Figure 27). -/
def identItem : List Byte := [0x09, 0x6A, 0x01]

/-- STATION (Figure 27). -/
def stationItem (s : State) : List Byte :=
  [s.member.station.code, s.loader.phase.code, copyCode s.loader.copyInUse, s.loader.cause.code,
   bitAt 0 s.member.hostHold ||| bitAt 1 s.bus.latch ||| bitAt 2 s.bus.stuck, natByte s.member.holdTimer]
  ++ natWordBytes s.member.quiet ++ [tileByte s.tile] ++ wordBytes s.timing.wfn ++ natWordBytes s.timing.line
  ++ [s.timing.lock.code, modeByte s.modes.record.mode] ++ wordBytes s.modes.record.effective
  ++ [tileByte s.modes.record.origin, natByte s.modes.queue.length]

/-- INPUT (Figure 27). -/
def inputItem (s : State) : List Byte :=
  let r := s.input.record
  [s.input.state.code, bitAt 0 s.usable ||| bitAt 1 s.regionMiss]
  ++ wordBytes s.input.lcs ++ natWordBytes r.hsPeriod ++ natWordBytes r.lines ++ natWordBytes r.activePixels
  ++ natWordBytes r.activeLines ++ natWordBytes r.hsWidth ++ natWordBytes r.vsWidth
  ++ [bitAt 0 r.hsHigh ||| bitAt 1 r.vsHigh, natByte (r.frameTime / 65536)] ++ natWordBytes (r.frameTime % 65536)

/-- One record of SLOTS (Figure 27). -/
def slotBytesOf (r : Slot) : List Byte :=
  [r.state.code, bitAt 0 r.torn ||| bitAt 1 r.pledged] ++ wordBytes r.lcs ++ wordBytes r.stamp.wfn
  ++ natWordBytes r.stamp.line ++ natWordBytes r.lines

/-- SLOTS (Figure 27). -/
def slotsItem (s : State) : List Byte := s.store.slots.toList.flatMap (fun e => slotBytesOf e.2)

/-- The bytes of a roster entry after its first (Figure 27). -/
def entryTail (e : Entry) : List Byte :=
  [natByte e.heard] ++ wordBytes e.wfn
  ++ [bitAt 0 e.stamp.isSome ||| (e.lock.code <<< 1) ||| (e.input.code <<< 3) ||| (reasonCode e.reason <<< 5)]
  ++ stampBytes e.stamp ++ [modeByte e.mode] ++ wordBytes e.effective

/-- The SELF entry mirrors the station (R107). Its state is shown by the code SELF, so the field is not read. -/
def State.selfEntry (s : State) : Entry :=
  { state := .absent
    heard := 0
    wfn := s.timing.wfn
    stamp := if s.member.station = .member then s.presented else none
    mode := s.modes.record.mode
    effective := s.modes.record.effective
    lock := s.timing.lock
    input := s.input.state
    reason := if s.bus.latch then some .silenced else none }

/-- One entry of ROSTER (Figure 27). -/
def rosterEntryBytes (s : State) (t : Nat) : List Byte :=
  if t = s.tile.toNat then (5#8 ||| (s.member.station.code <<< 4)) :: entryTail s.selfEntry
  else
    let e := (s.member.roster[t]?).getD .absent
    e.state.code :: entryTail e

/-- ROSTER (Figure 27). -/
def rosterItem (s : State) : List Byte := (List.range 32).flatMap (rosterEntryBytes s)

/-- COUNTERS (Figure 27). -/
def countersItem (s : State) : List Byte := Counter.all.flatMap (fun c => wordBytes (s.counters.get c))

/-- EVENTS (Figure 27). -/
def eventsItem (s : State) : List Byte := wordBytes s.port.flags ++ wordBytes s.enableMask

/-- COMMAND (Figure 27). -/
def commandItem (s : State) : List Byte := [s.port.lastCode.getD 0, s.port.result.code]

/-- The whole of an item, as a snapshot takes it (R171, R172). -/
def State.item (s : State) : Item → List Byte
  | .ident => identItem
  | .station => stationItem s
  | .input => inputItem s
  | .slots => slotsItem s
  | .roster => rosterItem s
  | .counters => countersItem s
  | .events => eventsItem s
  | .command => commandItem s

/-- The item of a number; 8 to 255 are unknown (section 12.4). -/
def Item.ofByte (b : Byte) : Option Item :=
  match b.toNat with
  | 0 => some .ident
  | 1 => some .station
  | 2 => some .input
  | 3 => some .slots
  | 4 => some .roster
  | 5 => some .counters
  | 6 => some .events
  | 7 => some .command
  | _ => none

/-- The number of an item. -/
def Item.byte : Item → Byte
  | .ident => 0
  | .station => 1
  | .input => 2
  | .slots => 3
  | .roster => 4
  | .counters => 5
  | .events => 6
  | .command => 7

/-- How many bytes the port acknowledges after an item number (R170, R184). -/
def Item.bytesTaken : Item → Nat
  | .command => 3
  | .events => 2
  | _ => 0

end Sys2Proof.Machine
end

