-- ==== Sys2Proof/Machine/PortOps.lean ====
section
/-! DEFINITION. The observation port: write and read transactions, commands with their checks and results, clear
writes (Chapter 10, R184). -/

namespace Sys2Proof.Machine

/-! ## Commands (R173 to R177) -/

/-- The commands (Figure 28). -/
inductive Command where
  | hold
  | release
  | setMode (mode : Byte)
  | clearEvents (mask : Word)
  | clearCounters
  | restart
  deriving DecidableEq, Repr

/-- The command of the bytes of a write, code first, or nothing where the code is unknown or the count is not the
code's (R173 check 1, R184). -/
def decodeCommand : List Byte → Option Command
  | [c] =>
    if c = 0x01#8 then some .hold
    else if c = 0x02#8 then some .release
    else if c = 0x05#8 then some .clearCounters
    else if c = 0x06#8 then some .restart
    else none
  | [c, a] => if c = 0x03#8 then some (.setMode a) else none
  | [c, a, b] => if c = 0x04#8 then some (.clearEvents (bytesWord a b)) else none
  | _ => none

/-- The bytes of a command (Figure 28). -/
def Command.bytes : Command → List Byte
  | .hold => [0x01]
  | .release => [0x02]
  | .setMode m => [0x03, m]
  | .clearEvents w => 0x04 :: wordBytes w
  | .clearCounters => [0x05]
  | .restart => [0x06]

/-- A command that has passed the checks of R173 is carried out (R174 to R177). -/
def State.carryOut (s : State) : Command → State
  | .hold => s.setPort { s.port with result := .accepted, inFlight := some .hold }
  | .release => (s.setMember { s.member with hostHold := false }).setResult .done
  | .setMode b => s.takeSetMode b
  | .clearEvents w => (s.clearFlags w).setResult .done
  | .clearCounters => (s.setCounters .zero).setResult .done
  | .restart => s.takeRestart

/-- The station state is STARTING or FAULT. -/
def State.notRunning (s : State) : Bool := s.member.station == .starting || s.member.station == .fault

/-- A command is taken: its code is recorded, and it is checked in order (R173). -/
def State.takeCommand (s : State) (bytes : List Byte) : State :=
  let t := s.setPort { s.port with lastCode := bytes.head? }
  match decodeCommand bytes with
  | none => t.setResult .refusedArg
  | some .restart => t.carryOut .restart
  | some c =>
    if t.notRunning then t.setResult .refusedState
    else if t.port.inFlight.isSome then t.setResult .busy
    else t.carryOut c

/-! ## Transactions (R169 to R171) -/

/-- The end of the transaction in progress: a write to COMMAND that carried a byte issues its command, and a write to
EVENTS that carried two clears the flags they mark (R170, R180, R184). The snapshot of a read stays held when its read is
over (DESIGN CHOICE, notes/assumptions/50.md). -/
def State.endTransaction (s : State) : State :=
  let t := s.setPort { s.port with tx := .waiting }
  match s.port.tx with
  | .waiting => t
  | .reading _ => t
  | .writing bytes =>
    match s.port.selected, bytes with
    | .command, b :: rest => t.takeCommand (b :: rest)
    | .events, [a, b] => t.clearFlags (bytesWord a b)
    | _, _ => t

/-- The bytes of a write after its address: a known item number is selected, and the bytes after it are taken up; an
unknown number selects nothing and the rest is ignored (R170). The transaction state is then waiting from the item number
on: R169 returns it there at the STOP or START, and nothing of the transaction is taken in between (DESIGN CHOICE,
notes/assumptions/49.md). -/
def State.writeBytes (s : State) (bytes : List Byte) : State :=
  match bytes with
  | [] => s.setPort { s.port with tx := .writing [], acks := [true] }
  | b :: rest =>
    match Item.ofByte b with
    | none => s.setPort { s.port with
        tx := .waiting, acks := true :: (b :: rest).map (fun _ => false) }
    | some i => s.setPort { s.port with
        selected := i, tx := .writing rest
        acks := true :: true :: (List.range rest.length).map (fun k => k < i.bytesTaken) }

/-- A read of `n` bytes: its address byte is acknowledged after the bytes that were acknowledged before it, the snapshot
is taken there, and every byte past the item's end is 00h (R171). -/
def State.readBytes (s : State) (n : Nat) (before : List Bool) : State :=
  let snap := s.item s.port.selected
  s.setPort { s.port with
    snapshot := some snap, tx := .reading n
    acks := before ++ [true]
    returned := (List.range n).map (fun k => (snap[k]?).getD 0) }

/-- The acknowledgements before a read's own address byte: those of the write that a repeated START ended, and none
where no byte was written, for then the read's address byte is the only one (R170, R171). -/
def State.acksBefore (s : State) : List Byte → List Bool
  | [] => []
  | _ :: _ => s.port.acks

/-- An addressed transaction goes on after its bytes as `fin` says (R170, R171). -/
def State.finishTransaction (s : State) (bytes : List Byte) : TxEnd → State
  | .stop => s.endTransaction
  | .unfinished => s
  | .read n => (s.endTransaction.readBytes n (s.acksBefore bytes)).endTransaction
  | .readUnfinished n => s.endTransaction.readBytes n (s.acksBefore bytes)

/-- A transaction from its START: an open one is ended by it; another address, the general call included, is not
acknowledged. While RESETn is low the port answers nothing (R169). -/
def State.transaction (s : State) (address : BitVec 7) (bytes : List Byte) (fin : TxEnd) : State :=
  if s.loader.phase = .held then s
  else
    let t := s.endTransaction
    if address = t.port.address then (t.writeBytes bytes).finishTransaction bytes fin
    else t.setPort { t.port with acks := [false] }

/-- The board controller writes bytes to an item of this station, and ends the write with a STOP. -/
def State.hostWrite (s : State) (i : Item) (bytes : List Byte) : State :=
  s.transaction s.port.address (i.byte :: bytes) .stop

end Sys2Proof.Machine
end

