-- ==== Sys2Proof/Machine/Commands.lean ====
section
/-! DEFINITION. Meanings of the commands of the observation port (Chapter 10). The six commands and the clear write are
writes to this station's COMMAND or EVENTS item (notes/assumptions/17.md). -/

namespace Sys2Proof.Machine

/-- A command of the board controller, written to COMMAND. -/
def issue (w : Span) (c : Command) (s : State) : Out State :=
  event w (fun _ => true) (fun t => t.hostWrite .command c.bytes) s

/-- HOLD (R173, R174). -/
def execHold (w : Span) (s : State) : Out State := issue w .hold s

/-- RELEASE (R173, R174). -/
def execRelease (w : Span) (s : State) : Out State := issue w .release s

/-- SET_MODE (R173, R175, R124, R125). -/
def execSetMode (w : Span) (mode : Byte) (s : State) : Out State := issue w (.setMode mode) s

/-- CLEAR_EVENTS (R173, R176). -/
def execClearEvents (w : Span) (mask : Word) (s : State) : Out State := issue w (.clearEvents mask) s

/-- CLEAR_COUNTERS (R173, R176). -/
def execClearCounters (w : Span) (s : State) : Out State := issue w .clearCounters s

/-- RESTART (R173, R177, R155). -/
def execRestart (w : Span) (s : State) : Out State := issue w .restart s

/-- EVENTS_CLEAR_WRITE (R180, R184). -/
def execEventsClearWrite (w : Span) (mask : Word) (s : State) : Out State :=
  event w (fun _ => true) (fun t => t.hostWrite .events (wordBytes mask)) s

/-- ITEM_SELECT: any transaction of the board controller on the port (R169 to R171, R184; notes/assumptions/16.md). -/
def execItemSelect (w : Span) (address : BitVec 7) (bytes : List Byte) (fin : TxEnd) (s : State) : Out State :=
  event w (fun _ => true) (fun t => t.transaction address bytes fin) s

end Sys2Proof.Machine
end

