-- ==== Sys2Proof/Machine/Frames.lean ====
section
/-! DEFINITION. Meanings of the commands of the timing generator: frame starts, lines, edges of FS (Chapter 1), with
what other blocks do at them. -/

namespace Sys2Proof.Machine

/-- FRAME_START (R17, R103). -/
def execFrameStart (w : Span) (edge : Bool) (order : List Block) (s : State) : Out State :=
  event w State.frameEnds (fun t => t.frameStarts edge order) s

/-- The frame start that is due is the one at which the lone-wait count reaches LONEWAIT (R15). -/
def State.loneLockDue (s : State) : Bool :=
  s.frameEnds && (evaluation s.cfg (s.endFrame false).timing).lone

/-- LONE_LOCK: the frame start that locks without a foreign edge (R15; notes/assumptions/4.md). -/
def execLoneLock (w : Span) (order : List Block) (s : State) : Out State :=
  event w State.loneLockDue (fun t => t.frameStarts false order) s

/-- The frame start that is due is the one at which the hold-picture timer reaches 0 (R105). -/
def State.holdTimerDue (s : State) : Bool :=
  s.frameEnds && s.member.station != .member && s.member.holdTimer == 1 && s.port.inFlight != some .hold

/-- HOLD_PICTURE_TIMER_EXPIRY (R105, R71; notes/assumptions/4.md). -/
def execHoldPictureTimerExpiry (w : Span) (edge : Bool) (order : List Block) (s : State) : Out State :=
  event w State.holdTimerDue (fun t => t.frameStarts edge order) s

/-- The frame start that is due is one at which a roster entry lapses (R110). -/
def State.lapseDue (s : State) : Bool := s.frameEnds && s.someLapse

/-- ROSTER_LAPSE (R110; notes/assumptions/4.md). -/
def execRosterLapse (w : Span) (edge : Bool) (order : List Block) (s : State) : Out State :=
  event w State.lapseDue (fun t => t.frameStarts edge order) s

/-- Two lines have passed since the FS drive began (R9). -/
def State.fsPulseOver (s : State) : Bool := s.timing.running && s.timing.fsDrive && 2 ≤ s.timing.line

/-- FS is released (R9). -/
def State.releaseFs (s : State) : State := s.setTiming { s.timing with fsDrive := false }

/-- FS_PULSE_END (R9). -/
def execFsPulseEnd (w : Span) (s : State) : Out State := event w State.fsPulseOver State.releaseFs s

/-- A falling edge of FS is foreign: the station does not drive FS low (R10). -/
def State.seesForeign (s : State) : Bool := s.timing.running && !s.timing.fsDrive

/-- The edge at the present pixel is kept (R10). -/
def State.keepEdge (s : State) : State := s.setTiming { s.timing with keptEdge := some 0 }

/-- FOREIGN_EDGE (R10). -/
def execForeignEdge (w : Span) (s : State) : Out State := event w State.seesForeign State.keepEdge s

/-- The kept edge lies a nominal frame or more back (R10). -/
def State.edgeTooOld (s : State) : Bool :=
  match s.timing.keptEdge with
  | some a => s.timing.running && s.cfg.nominal ≤ a
  | none => false

/-- The kept edge is dropped (R10). -/
def State.dropEdge (s : State) : State := s.setTiming { s.timing with keptEdge := none }

/-- KEPT_EDGE_EXPIRY (R10). -/
def execKeptEdgeExpiry (w : Span) (s : State) : Out State := event w State.edgeTooOld State.dropEdge s

/-- The line in progress is followed by another of its frame (R2). -/
def State.lineFollows (s : State) : Bool :=
  s.timing.running && s.timing.line < lastLine s.cfg s.timing.shortening

/-- The next line of the frame begins (R2, R139, R140). -/
def State.nextLine (s : State) : State :=
  let t := s.passPixels s.toLineEnd
  (t.setTiming { t.timing with pixel := 0, line := t.timing.line + 1 }).pictureLineEnd

/-- OUTPUT_LINE_END (R2, R139, R140). -/
def execOutputLineEnd (w : Span) (s : State) : Out State := event w State.lineFollows State.nextLine s

end Sys2Proof.Machine
end

