-- ==== Sys2Proof/Machine/InputEvents.lean ====
section
/-! DEFINITION. Meanings of the commands of the input monitor and capture (Chapter 3). -/

namespace Sys2Proof.Machine

/-- The level of a sync line becomes another (R43). -/
def State.syncChange (s : State) : SyncLine → Pol → State
  | .hs, v => s.setInput { s.input with hs := s.input.hs.transition v }
  | .vs, v => s.setInput { s.input with vs := s.input.vs.transition v }

/-- The level a sync line has held since its last transition. -/
def State.syncLevel (s : State) : SyncLine → Option Pol
  | .hs => s.input.hs.level
  | .vs => s.input.vs.level

/-- SYNC_TRANSITION (R43). A transition is into a level that the line does not hold. -/
def execSyncTransition (w : Span) (line : SyncLine) (level : Pol) (s : State) : Out State :=
  event w (fun t => t.input.active && t.syncLevel line != some level) (fun t => t.syncChange line level) s

/-- A leading edge of HS has come and has not been taken (R43). -/
def State.hsDue (s : State) : Bool := s.input.active && s.input.hs.leading

/-- HS_EDGE (R44 to R46, R49, R54). -/
def execHsEdge (w : Span) (s : State) : Out State := event w State.hsDue State.takeHs s

/-- A leading edge of VS has come and is not yet held (R43, R44). -/
def State.vsDue (s : State) : Bool := s.input.active && s.input.vs.leading

/-- The VS leading edge is held (R44). -/
def State.holdVs (s : State) : State :=
  s.setInput { s.input with heldVs := some 0, vs := { s.input.vs with leading := false } }

/-- VS_EDGE (R44). -/
def execVsEdge (w : Span) (s : State) : Out State := event w State.vsDue State.holdVs s

/-- The hold of a VS has run out (R44). -/
def State.vsHoldOver (s : State) : Bool :=
  match s.input.heldVs with
  | some a => Config.vsHold ≤ a
  | none => false

/-- VS_HOLD_EXPIRY (R44, R46 to R51). -/
def execVsHoldExpiry (w : Span) (s : State) : Out State := event w State.vsHoldOver State.takeHeldVs s

/-- A timer of the input state machine has expired (R49). -/
def State.inputTimerDue (s : State) : Bool := s.input.active && s.input.timerExpired

/-- INPUT_TIMER_EXPIRY (R49, R58, R99). -/
def execInputTimerExpiry (w : Span) (s : State) : Out State := event w State.inputTimerDue State.loseSignal s

/-- REGION_PIXEL_ENTRY: an input pixel clock with DE asserted (R45, R46, R54; notes/assumptions/33.md). -/
def execRegionPixelEntry (w : Span) (pixel : Rgb) (s : State) : Out State :=
  event w (fun t => t.input.active) (fun t => t.takePixel pixel) s

/-- The next DE pixel is a region pixel, and the write FIFO has no place for it (R56). -/
def State.overflowDue (s : State) : Bool :=
  s.input.active &&
  (match s.input.progress with
   | none => false
   | some p =>
     inRegion s.cfg p && Config.fifoSize ≤ s.store.writeFifo.length && !(s.store.slots.get p.slot).torn)

/-- WRITE_FIFO_OVERFLOW: the entry of a region pixel that is lost (R56, R54; notes/assumptions/4.md). -/
def execWriteFifoOverflow (w : Span) (pixel : Rgb) (s : State) : Out State :=
  event w State.overflowDue (fun t => t.takePixel pixel) s

/-- CAPTURE_COMPLETE (R55, R63). -/
def execCaptureComplete (w : Span) (s : State) : Out State := event w State.captureFull State.completeCapture s

end Sys2Proof.Machine
end

