-- ==== Sys2Proof/Machine/Schedule.lean ====
section
/-! DEFINITION. Meanings of the commands at the schedule lines of a frame: the status window, its cut-off, the ballot
window and the ballot (R5, Chapters 2, 5 and 6). -/

namespace Sys2Proof.Machine

/-- Pixel 0 of line SOPEN, its event not yet taken (R5, R33). -/
def State.openDue (s : State) : Bool := s.atLine s.cfg.sopen && !s.bus.windowOpen

/-- STATUS_OPEN (R5, R33, R111 to R113). -/
def execStatusOpen (w : Span) (s : State) : Out State := event w State.openDue State.openWindow s

/-- Pixel 0 of line SCUT, its event not yet taken (R5, R37). -/
def State.cutoffDue (s : State) : Bool := s.atLine s.cfg.scut && s.bus.windowOpen

/-- The status cut-off: the window closes, and the deadline of a SET_MODE and the evaluation come in either order
(R37, R113 to R117, R126, R133; notes/assumptions/31.md). -/
def State.cutoff (modeFirst : Bool) (s : State) : State :=
  let t := s.closeWindow
  if modeFirst then t.modeDeadline.cutoffEvaluation else t.cutoffEvaluation.modeDeadline

/-- STATUS_CUTOFF (R37, R113 to R117, R126, R133). -/
def execStatusCutoff (w : Span) (modeFirst : Bool) (s : State) : Out State :=
  event w State.cutoffDue (State.cutoff modeFirst) s

/-- The cut-off that is due is one at which the station founds a wall (R117). -/
def State.foundingDue (s : State) : Bool :=
  let t := s.closeWindow.takeReference
  s.cutoffDue && t.member.reference.isNone && t.foundDue && !t.store.slots.ready.isEmpty

/-- FOUND: the status cut-off that founds a wall (R117; notes/assumptions/4.md). -/
def execFound (w : Span) (s : State) : Out State := event w State.foundingDue (State.cutoff true) s

/-- Pixel 0 of line BLINE - 1, outside the ballot window (R38). -/
def State.windowDue (s : State) : Bool := s.atLine (s.cfg.bline - 1) && !s.bus.ballotWindow

/-- The ballot window begins: a message in progress is discarded, the receive path enters BALLOT, the engine enters
WATCH (R38, R81). A message of the station's own has always ended before (R33, condition 4); were one under way, it
would wait again. -/
def State.enterBallotWindow (s : State) : State :=
  let t := s.sendingEnded false
  let u := if t.bus.rx = .frame then t.rxDiscard else t
  let v := u.setBus { u.bus with rx := .ballot, rxBits := [], ballotWindow := true }
  if v.ballot.phase = .idle then v.setBallot v.ballot.watch else v

/-- BALLOT_WINDOW_START (R38, R81). -/
def execBallotWindowStart (w : Span) (s : State) : Out State := event w State.windowDue State.enterBallotWindow s

/-- Pixel 0 of line BLINE, with the engine in WATCH (R5, R79). -/
def State.ballotLineDue (s : State) : Bool := s.atLine s.cfg.bline && s.ballot.phase == .watch

/-- BALLOT_LINE, with the level of TD at its pixel (R79 to R82, R90). -/
def execBallotLine (w : Span) (td : Level) (s : State) : Out State :=
  event w State.ballotLineDue (fun t => t.ballotLineEvent td) s

/-- The engine is in WATCH and has caught no edge (R81). -/
def State.watching (s : State) : Bool :=
  s.timing.running && s.ballot.phase == .watch && s.ballot.edge.isNone

/-- The ballot edge is caught at the present pixel (R81). -/
def State.catchEdge (s : State) : State := s.setBallot { s.ballot with edge := some 0 }

/-- BALLOT_EDGE (R81). -/
def execBallotEdge (w : Span) (s : State) : Out State := event w State.watching State.catchEdge s

/-- BALLOT_END (R87 to R89, R66, R67). -/
def execBallotEnd (w : Span) (s : State) : Out State := event w State.ballotEnds State.endBallot s

/-- Pixel 0 of line BLINE + 12, in the ballot window (R38). A frame shortened to end with line BLINE + 11 has that pixel
at its end, which is pixel 0 of the next frame (R13; notes/assumptions/41.md). -/
def State.windowEndDue (s : State) : Bool :=
  (s.atLine (s.cfg.bline + 12) || (s.atLine 0 && 2 ≤ s.cfg.bline)) && s.bus.ballotWindow

/-- The ballot window ends (R38, Figure 10). -/
def State.leaveBallotWindow (s : State) : State :=
  let t := s.setBus { s.bus with rx := .waitIdle, rxBits := [], idle := 0, ballotWindow := false }
  if t.ballot.phase = .spent then t.setBallot { t.ballot with phase := .idle } else t

/-- BALLOT_WINDOW_END (R38). -/
def execBallotWindowEnd (w : Span) (s : State) : Out State := event w State.windowEndDue State.leaveBallotWindow s

end Sys2Proof.Machine
end

