-- ==== Sys2Proof/Machine/StartUp.lean ====
section
/-! DEFINITION. Meanings of the commands of reset and start-up (Chapter 9). -/

namespace Sys2Proof.Machine

/-- HARD_RESET (R154). What passed before it has no trace. -/
def execHardReset (_w : Span) (s : State) : Out State := .next s.hardReset

/-- RESETN_RISE (R154, R169). -/
def execResetnRise (w : Span) (straps : BitVec 2) (s : State) : Out State :=
  event w (fun t => t.loader.phase == .held) (fun t => t.resetReleased straps) s

/-- The start delay has run out (R154). -/
def State.startDelayOver (s : State) : Bool := s.loader.phase == .wait && s.loader.startCount == Config.startDelay

/-- START_DELAY_EXPIRY (R154, R156). -/
def execStartDelayExpiry (w : Span) (s : State) : Out State := event w State.startDelayOver State.firstRead s

/-- COPY_READ_END (R157 to R164, R167). -/
def execCopyReadEnd (w : Span) (s : State) : Out State := event w State.copyReadEnded State.copyChecked s

/-- The lock indication is read in the phase PLL, up to the moment at which the wait reaches its limit (R165). -/
def State.lockRead (s : State) : Bool := s.loader.phase == .pll && !s.loader.pllOver

/-- PLL_LOCK (R165, R166, R4). -/
def execPllLock (w : Span) (s : State) : Out State := event w State.lockRead State.enterRun s

/-- The PLL wait has reached its limit (R165). -/
def State.pllWaitOver (s : State) : Bool := s.loader.phase == .pll && s.loader.pllCount == Config.pllWait

/-- PLL_WAIT_EXPIRY (R165, R167). -/
def execPllWaitExpiry (w : Span) (s : State) : Out State := event w State.pllWaitOver State.pllTimeout s

end Sys2Proof.Machine
end

