-- ==== Sys2Proof/Machine/StoreEvents.lean ====
section
/-! DEFINITION. Meanings of the commands of the memory port, and of the read underflow (R73 to R76, R145). -/

namespace Sys2Proof.Machine

/-- One more refresh waits to be granted (R73). -/
def State.wantRefresh (s : State) : State := s.setStore { s.store with refreshWaiting := s.store.refreshWaiting + 1 }

/-- REFRESH_REQUEST (R73). -/
def execRefreshRequest (w : Span) (s : State) : Out State := event w (fun t => t.timing.running) State.wantRefresh s

/-- MEMORY_TRANSFER_END: the transfer has its effect and the arbiter grants the next (R73 to R75). A transfer that
leaves its slot's area of the memory is a fault. -/
def execMemoryTransferEnd (w : Span) (s : State) : Out State :=
  match (s.pass w).finishTransfer with
  | some t => .next t.settle
  | none => .fault .transferOutsideSlot

/-- A line that was arriving when the underflow came is incomplete (R144, R145; notes/assumptions/32.md). -/
def StoreLine.cut (l : StoreLine) : StoreLine :=
  { l with status := if l.status = .arriving then .incomplete else l.status }

/-- The rest of the output line shows fill colour, counted once; what the line still waits for is discarded as it arrives,
so that the next row's lines are named and fetched afresh (R76, R145). -/
def State.underflow (s : State) : State :=
  let t := s.drainFifo.discardFetches
  (t.setPicture { t.picture with
    fillFrom := some t.column, lineStore := t.picture.lineStore.map StoreLine.cut }).count .readUnderflow

/-- READ_UNDERFLOW (R76, R145). -/
def execReadUnderflow (w : Span) (s : State) : Out State := event w State.pixelMissing State.underflow s

end Sys2Proof.Machine
end

