-- ==== Sys2Proof/Machine/Dispatch.lean ====
section
/-! DEFINITION. The meaning of each command. -/

namespace Sys2Proof.Machine

/-- The effect of a command on everything but the waiting commands. -/
def exec (i : Instr) (s : State) : Host.Outcome State Fault Refusal :=
  match i with
  | .hardReset w => Sys2Proof.Machine.execHardReset w s
  | .resetnRise w straps => Sys2Proof.Machine.execResetnRise w straps s
  | .startDelayExpiry w => Sys2Proof.Machine.execStartDelayExpiry w s
  | .copyReadEnd w => Sys2Proof.Machine.execCopyReadEnd w s
  | .pllLock w => Sys2Proof.Machine.execPllLock w s
  | .pllWaitExpiry w => Sys2Proof.Machine.execPllWaitExpiry w s
  | .frameStart w edge order => Sys2Proof.Machine.execFrameStart w edge order s
  | .loneLock w order => Sys2Proof.Machine.execLoneLock w order s
  | .holdPictureTimerExpiry w edge order => Sys2Proof.Machine.execHoldPictureTimerExpiry w edge order s
  | .rosterLapse w edge order => Sys2Proof.Machine.execRosterLapse w edge order s
  | .fsPulseEnd w => Sys2Proof.Machine.execFsPulseEnd w s
  | .foreignEdge w => Sys2Proof.Machine.execForeignEdge w s
  | .keptEdgeExpiry w => Sys2Proof.Machine.execKeptEdgeExpiry w s
  | .outputLineEnd w => Sys2Proof.Machine.execOutputLineEnd w s
  | .statusOpen w => Sys2Proof.Machine.execStatusOpen w s
  | .statusCutoff w modeFirst => Sys2Proof.Machine.execStatusCutoff w modeFirst s
  | .found w => Sys2Proof.Machine.execFound w s
  | .ballotWindowStart w => Sys2Proof.Machine.execBallotWindowStart w s
  | .ballotLine w td => Sys2Proof.Machine.execBallotLine w td s
  | .ballotEnd w => Sys2Proof.Machine.execBallotEnd w s
  | .ballotWindowEnd w => Sys2Proof.Machine.execBallotWindowEnd w s
  | .busIdle w => Sys2Proof.Machine.execBusIdle w s
  | .startEdge w => Sys2Proof.Machine.execStartEdge w s
  | .messageStart w => Sys2Proof.Machine.execMessageStart w s
  | .arbitrationLoss w => Sys2Proof.Machine.execArbitrationLoss w s
  | .messageSent w => Sys2Proof.Machine.execMessageSent w s
  | .endBitFailure w => Sys2Proof.Machine.execEndBitFailure w s
  | .messageDiscarded w => Sys2Proof.Machine.execMessageDiscarded w s
  | .statusReceived w => Sys2Proof.Machine.execStatusReceived w s
  | .modeReceived w => Sys2Proof.Machine.execModeReceived w s
  | .leaveReceived w => Sys2Proof.Machine.execLeaveReceived w s
  | .busStuck w => Sys2Proof.Machine.execBusStuck w s
  | .stuckClear w => Sys2Proof.Machine.execStuckClear w s
  | .hsEdge w => Sys2Proof.Machine.execHsEdge w s
  | .vsEdge w => Sys2Proof.Machine.execVsEdge w s
  | .vsHoldExpiry w => Sys2Proof.Machine.execVsHoldExpiry w s
  | .inputTimerExpiry w => Sys2Proof.Machine.execInputTimerExpiry w s
  | .captureComplete w => Sys2Proof.Machine.execCaptureComplete w s
  | .writeFifoOverflow w pixel => Sys2Proof.Machine.execWriteFifoOverflow w pixel s
  | .refreshRequest w => Sys2Proof.Machine.execRefreshRequest w s
  | .memoryTransferEnd w => Sys2Proof.Machine.execMemoryTransferEnd w s
  | .readUnderflow w => Sys2Proof.Machine.execReadUnderflow w s
  | .hold w => Sys2Proof.Machine.execHold w s
  | .release w => Sys2Proof.Machine.execRelease w s
  | .setMode w mode => Sys2Proof.Machine.execSetMode w mode s
  | .clearEvents w mask => Sys2Proof.Machine.execClearEvents w mask s
  | .clearCounters w => Sys2Proof.Machine.execClearCounters w s
  | .restart w => Sys2Proof.Machine.execRestart w s
  | .eventsClearWrite w mask => Sys2Proof.Machine.execEventsClearWrite w mask s
  | .itemSelect w address bytes fin => Sys2Proof.Machine.execItemSelect w address bytes fin s
  | .syncTransition w line level => Sys2Proof.Machine.execSyncTransition w line level s
  | .regionPixelEntry w pixel => Sys2Proof.Machine.execRegionPixelEntry w pixel s
  | .ballotEdge w => Sys2Proof.Machine.execBallotEdge w s

end Sys2Proof.Machine
end

