-- ==== Sys2Proof/Machine/Step.lean ====
section
/-! DEFINITION. One step: the command at the front of the queue; an empty queue idles. -/

namespace Sys2Proof.Machine

/-- Take the command at the front and carry it out on the station with the rest of the queue. With nothing waiting the
station idles, its state unchanged (DESIGN CHOICE, notes/assumptions/3.md). -/
def step (s : State) : Host.Outcome State Fault Refusal :=
  match s.pending with
  | [] => .next s
  | c :: rest => exec c (s.setPending rest)

/-- A command put at the front of the queue. -/
def State.withCommand (s : State) (c : Instr) : State := s.setPending (c :: s.pending)

/-- The command that a table word spells, put at the front of the queue; `s` where the word spells none. -/
def State.withFetchWord (s : State) (nbits w : Nat) : State :=
  match decodeTableWord nbits w with
  | some c => s.withCommand c
  | none => s

end Sys2Proof.Machine
end

