-- ==== Sys2Proof/Machine/Pins.lean ====
section
/-! DEFINITION. What the station shows on its pins, as functions of its state: the Tile Bus, the panel port, the flash
pins, ATTN (R9, R20, R3, R137, R152, R154, R156, R181). -/

namespace Sys2Proof.Machine

/-- FS is driven low (R9). -/
def State.fsLow (s : State) : Bool := s.timing.fsDrive

/-- The level that the message being sent drives in the bit time in progress (R22, R34, R35, R38). -/
def State.tdMessage (s : State) : Level := s.bus.drive s.tile

/-- The level the station drives on TD (R20): dominant when either part does. -/
def State.tdDrive (s : State) : Level :=
  lineLevel s.tdMessage s.tdBallot

/-- The sync and data-enable outputs of the panel port; `true` is a high level. -/
structure PanelSync where
  hs : Bool
  vs : Bool
  de : Bool
  deriving DecidableEq, Repr

/-- The panel port's sync outputs: low while the generator is stopped (R3, R152). -/
def State.panelSync (s : State) : PanelSync :=
  let c := s.cfg
  if s.timing.running then
    ⟨(decide (s.timing.pixel < c.hsw)) == c.hsHigh, (decide (s.timing.line < c.vsw)) == c.vsHigh,
     inActiveArea c s.timing.pixel s.timing.line == c.deHigh⟩
  else ⟨false, false, false⟩

/-- PO_CLK carries the pixel clock (R3, R152). -/
def State.panelClock (s : State) : Bool := s.timing.running

/-- PO_R, PO_G and PO_B at the present pixel: 0 where PO_DE is not asserted (R3, R137, R152). -/
def State.panelData (s : State) : Rgb :=
  let c := s.cfg
  if s.timing.running && inActiveArea c s.timing.pixel s.timing.line then
    panelPixel s (s.timing.pixel - c.hstart) (s.timing.line - c.vstart)
  else 0

/-- The content column of the present pixel (R141, R153). Outside the content window's columns, where the rules define
none, it is the first before the window and the last after it (DESIGN CHOICE, notes/assumptions/48.md). -/
def State.contentColumn (s : State) : Nat := min (s.column - s.cfg.cx) (s.cfg.cw - 1)

/-- FL_CSn is low: a copy is being read, and the reader has not stopped (R154, R156, R158). -/
def State.flashSelected (s : State) : Bool := s.loader.reading.isSome && !readEnded s.loader.bytes

/-- The bytes FL_MOSI carries at the head of a read: the command 03h and the copy's 24-bit address (R156). -/
def Copy.readCommand : Copy → List Byte
  | .primary => [0x03, 0x00, 0x00, 0x00]
  | .backup => [0x03, 0x00, 0x08, 0x00]

/-- The bytes FL_MOSI carries in the transaction in progress before the data (R156). -/
def State.flashCommand (s : State) : List Byte :=
  match s.loader.reading with
  | some c => c.readCommand
  | none => []

/-- FL_SCK is high: in the second half of each period of a transaction, and low outside transactions (R154, R156). -/
def State.flashClock (s : State) : Bool :=
  s.flashSelected && Config.flashPeriod / 2 ≤ s.loader.spiClock % Config.flashPeriod

/-- FL_MOSI is high: the bits of the command and the address, most significant first, one in each period of FL_SCK; low
after the address and outside transactions (R154, R156). -/
def State.flashData (s : State) : Bool :=
  s.flashSelected
  && (((s.flashCommand.flatMap byteBits)[s.loader.spiClock / Config.flashPeriod]?).getD false)

end Sys2Proof.Machine
end

