-- ==== Sys2Proof/WellFormed.lean ====
section
/-! DEFINITION. Commands that the station's surroundings can send. The step carries out any command; these checks say
which operands mean something. -/

namespace Sys2Proof

/-- The Span of a command. -/
def Instr.span : Instr → Span
  | .hardReset w => w
  | .resetnRise w _ => w
  | .startDelayExpiry w => w
  | .copyReadEnd w => w
  | .pllLock w => w
  | .pllWaitExpiry w => w
  | .frameStart w _ _ => w
  | .loneLock w _ => w
  | .holdPictureTimerExpiry w _ _ => w
  | .rosterLapse w _ _ => w
  | .fsPulseEnd w => w
  | .foreignEdge w => w
  | .keptEdgeExpiry w => w
  | .outputLineEnd w => w
  | .statusOpen w => w
  | .statusCutoff w _ => w
  | .found w => w
  | .ballotWindowStart w => w
  | .ballotLine w _ => w
  | .ballotEnd w => w
  | .ballotWindowEnd w => w
  | .busIdle w => w
  | .startEdge w => w
  | .messageStart w => w
  | .arbitrationLoss w => w
  | .messageSent w => w
  | .endBitFailure w => w
  | .messageDiscarded w => w
  | .statusReceived w => w
  | .modeReceived w => w
  | .leaveReceived w => w
  | .busStuck w => w
  | .stuckClear w => w
  | .hsEdge w => w
  | .vsEdge w => w
  | .vsHoldExpiry w => w
  | .inputTimerExpiry w => w
  | .captureComplete w => w
  | .writeFifoOverflow w _ => w
  | .refreshRequest w => w
  | .memoryTransferEnd w => w
  | .readUnderflow w => w
  | .hold w => w
  | .release w => w
  | .setMode w _ => w
  | .clearEvents w _ => w
  | .clearCounters w => w
  | .restart w => w
  | .eventsClearWrite w _ => w
  | .itemSelect w _ _ _ => w
  | .syncTransition w _ _ => w
  | .regionPixelEntry w _ => w
  | .ballotEdge w => w

/-- The order in which a frame-start command names the blocks. -/
def Instr.order : Instr → List Block
  | .frameStart _ _ o => o
  | .loneLock _ o => o
  | .holdPictureTimerExpiry _ _ o => o
  | .rosterLapse _ _ o => o
  | _ => []

/-- A Span that can be: TD and FL_MISO have one level at an XREF clock (R20, R156), and a ballot has ten bits (R83). -/
def Span.wellFormed (w : Span) : Bool :=
  w.td.length ≤ w.xref && w.ballot.length ≤ 10 && w.miso.length ≤ w.xref

/-- A command that can be sent: its Span can be, and it names no block twice. -/
def Instr.wellFormed (i : Instr) : Bool := i.span.wellFormed && decide i.order.Nodup

end Sys2Proof
end

