-- ==== Sys2Proof/Safety.lean ====
section
/-! DEFINITION. What it means that a step leaves parts of the station as they are, and the laws that the spec calls the
laws of the machine, as predicates of a state. -/

namespace Sys2Proof.Machine

/-! ## Frames -/

/-- The parts of the state. -/
inductive Part where
  | pending
  | loader
  | timing
  | bus
  | input
  | store
  | ballot
  | member
  | modes
  | picture
  | port
  | counters
  | mem
  deriving DecidableEq, Repr

/-- A part is the same in two states; of the memory, every byte reads the same. -/
def Part.same (s t : State) : Part → Prop
  | .pending => t.pending = s.pending
  | .loader => t.loader = s.loader
  | .timing => t.timing = s.timing
  | .bus => t.bus = s.bus
  | .input => t.input = s.input
  | .store => t.store = s.store
  | .ballot => t.ballot = s.ballot
  | .member => t.member = s.member
  | .modes => t.modes = s.modes
  | .picture => t.picture = s.picture
  | .port => t.port = s.port
  | .counters => t.counters = s.counters
  | .mem => ∀ a, memRead t.mem a = memRead s.mem a

/-- Every part but those listed is the same. -/
def SameBut (l : List Part) (s t : State) : Prop := ∀ p, p ∉ l → Part.same s t p

/-- What is found again at the end of a command (State.settle) is all that differs: the stuck count where it is not
counted, the selection for the following lines, and a grant of the free memory port, which takes from the write FIFO or
from what is named to the reader. -/
def Settled (s t : State) : Prop :=
  SameBut [.bus, .store, .picture] s t
  ∧ t.bus = { s.bus with stuckCount := if s.bus.stuckWatch s.locked then s.bus.stuckCount else 0 }
  ∧ t.picture = { s.picture with nextSelection := s.findSelection }
  ∧ t.store.slots = s.store.slots
  ∧ t.store.dropPending = s.store.dropPending
  ∧ t.store.readFifo = s.store.readFifo

/-! ## Laws of the machine -/

/-- How many slots are in a state. -/
def Slots.number (x : Slots) (st : SlotState) : Nat := x.toList.countP (fun e => e.2.state == st)

/-- The first law of the frame store: at most one slot is FILLING, at most one CHOSEN, at most one SHOWING; with it, that
a slot is FILLING only while the input is STABLE (R51, R58). -/
def State.SlotLaw (s : State) : Prop :=
  s.store.slots.number .filling ≤ 1 ∧ s.store.slots.number .chosen ≤ 1 ∧ s.store.slots.number .showing ≤ 1
  ∧ (0 < s.store.slots.number .filling → s.input.state = .stable)

/-- The law of the FS drive: FS is driven low only in LOCKED and unsilenced (R9). -/
def State.FsLaw (s : State) : Prop :=
  s.timing.fsDrive = true → s.timing.lock = .locked ∧ s.bus.latch = false

/-- The memory's list is in its canonical form. -/
def State.MemLaw (s : State) : Prop := Memory.wf s.mem = true

/-- Outside the phase RUN every block that the generator drives holds its reset values, and nothing is in flight (R19,
R42, R60, R78, R96, R97, R120, R136). -/
def State.RestLaw (s : State) : Prop :=
  s.loader.phase ≠ .run →
    s.timing = .initial ∧ s.bus = .initial ∧ s.input = .initial ∧ s.store = .initial ∧ s.ballot = .initial
    ∧ (s.member.station = .starting ∨ s.member.station = .fault)
    ∧ s.modes.queue = [] ∧ s.modes.outstanding = none ∧ s.port.inFlight = none

/-- The law of membership, as far as lock and silence go: a MEMBER is LOCKED, and no JOINING or MEMBER station is
silenced (R40, R101, R103, R116). -/
def State.MemberLaw (s : State) : Prop :=
  (s.member.station = .member → s.timing.lock = .locked)
  ∧ (s.member.station = .joining ∨ s.member.station = .member → s.bus.latch = false)

/-- The sizes of what is held: 32 roster entries (R107), at most 2048 pixels in the write FIFO (R74). -/
def State.SizeLaw (s : State) : Prop :=
  s.member.roster.length = 32 ∧ s.store.writeFifo.length ≤ Config.fifoSize

/-- The law of the pending-mode queue: at most 4 entries with strictly increasing targets, each 1 to 128 frames ahead of
the WFN, and none outside MEMBER (R123); with it, that a SET_MODE aims 4 to 64 frames ahead (R125, R162). -/
def State.QueueLaw (s : State) : Prop :=
  s.modes.queue.length ≤ 4
  ∧ (s.member.station ≠ .member → s.modes.queue = [])
  ∧ s.modes.queue.Pairwise (fun a b => targetDistance s.timing.wfn a.target < targetDistance s.timing.wfn b.target)
  ∧ (∀ e ∈ s.modes.queue, 1 ≤ targetDistance s.timing.wfn e.target ∧ targetDistance s.timing.wfn e.target ≤ 128)
  ∧ 4 ≤ s.cfg.modelead ∧ s.cfg.modelead ≤ 64

/-- A slot holds a frame that has not been shown: FILLING, READY or CHOSEN (R61). -/
def Slot.ahead (r : Slot) : Prop := r.state = .filling ∨ r.state = .ready ∨ r.state = .chosen

/-- The second law of the frame store: the frames not yet shown hold pairwise distinct LCS values, and every READY slot's
LCS is later than the SHOWING slot's (R62); with it, that the FILLING slot, which is the one being captured, holds the LCS
of the newest input frame, later than the SHOWING slot's (R51, R52, R63). -/
def State.OrderLaw (s : State) : Prop :=
  (∀ i j, i ≠ j → (s.store.slots.get i).ahead → (s.store.slots.get j).ahead →
    (s.store.slots.get i).lcs ≠ (s.store.slots.get j).lcs)
  ∧ (∀ i j, (s.store.slots.get i).state = .showing →
      (s.store.slots.get j).state = .ready ∨ (s.store.slots.get j).state = .filling →
      later (s.store.slots.get j).lcs (s.store.slots.get i).lcs = true)
  ∧ (∀ j, (s.store.slots.get j).state = .filling → (s.store.slots.get j).lcs = s.input.lcs)
  ∧ (∀ p, s.input.progress = some p → (s.store.slots.get p.slot).state = .filling)

/-- Every frame held is less than half of the LCS circle old, so that modular order compares them (R1, R62). -/
def State.FramesNear (s : State) : Prop :=
  ∀ j, (s.store.slots.get j).state ≠ .free → (s.input.lcs - (s.store.slots.get j).lcs).toNat ≤ 32766

/-- The law of membership, as far as the picture goes: a MEMBER has a SHOWING slot (R116). -/
def State.PictureLaw (s : State) : Prop := s.member.station = .member → 1 ≤ s.store.slots.number .showing

/-- The position in the frame: the generator never counts past the last pixel of the frame as shortening has fixed it;
stopped, it holds line 0, pixel 0 and WFN 0 (R2, R7, R13). -/
def State.PositionLaw (s : State) : Prop :=
  (s.timing.running = true →
    s.timing.line ≤ lastLine s.cfg s.timing.shortening ∧ s.timing.pixel ≤ s.lineLen - 1)
  ∧ (s.timing.running = false → s.timing.line = 0 ∧ s.timing.pixel = 0 ∧ s.timing.wfn = 0)

/-! ## Runs that do not stop -/

/-- The transfer in progress stays in its slot's area of the memory. -/
def State.transferInside (s : State) : Bool :=
  match s.store.transfer with
  | some (.write _ l c px) => insideSlot l c px.length
  | some (.read _ l c n _) => insideSlot l c n
  | _ => true

/-- A step that goes on. -/
def State.SafeStep (s : State) : Prop := ∃ t, step s = .next t

end Sys2Proof.Machine
end

