-- ==== Sys2Proof/Certificates/Slice0/Obligations.lean ====
section
/-! DEFINITION. The statements for the provers. In each, `u` is the station as the command finds it, its Span passed. -/

open Sys2Proof Sys2Proof.Machine

/-! ## The queue, the outcomes, the memory -/

/-- A step carries out the command at the front of the queue on the station with the rest of the queue. -/
def Obligations.StepRunsFront : Prop :=
  ∀ (s : State) (c : Instr) (rest : List Instr), s.pending = c :: rest → step s = exec c (s.setPending rest)

/-- No command touches the commands that wait; with none waiting the station idles. The idling is the model's choice
(notes/assumptions/3.md), and so is that a HARD_RESET and a RESTART leave the queue to its sender
(notes/assumptions/26.md). -/
def Obligations.QueueWaits : Prop :=
  (∀ (c : Instr) (s t : State), exec c s = .next t → t.pending = s.pending)
  ∧ ∀ s : State, s.pending = [] → step s = .next s

/-- Every command goes on, but for the end of a memory transfer that leaves its slot's area, which faults. The fault is
the model's choice (notes/assumptions/29.md). Only the end of a memory transfer stores to the external memory: after
every other command every byte reads as before; that a RESTART stores nothing of a write that it cuts off is the model's
choice (notes/assumptions/53.md). A hard reset leaves the contents undefined. -/
def Obligations.OnlyTransferEndStopsOrStores : Prop :=
  ∀ (c : Instr) (s : State),
    ((∃ t, exec c s = .next t) ∨
      (∃ w, c = .memoryTransferEnd w ∧ (s.pass w).transferInside = false ∧ exec c s = .fault .transferOutsideSlot))
    ∧ ((∀ w, c ≠ .memoryTransferEnd w) → (∀ w, c ≠ .hardReset w) → ∀ t, exec c s = .next t →
        ∀ a, memRead t.mem a = memRead s.mem a)

/-- Every step keeps the memory's list in its canonical form. -/
def Obligations.MemoryStaysCanonical : Prop := ∀ s t : State, s.MemLaw → step s = .next t → t.MemLaw

/-- The station at a hard reset: HARD_RESET gives every block its hard-reset values, which are those listed; that
station keeps the laws of the machine, with nothing waiting. That the commands that wait stay the sender's
(notes/assumptions/26.md), that memory lists nothing (notes/assumptions/9.md) and the port's address
(notes/assumptions/15.md) are the model's choices. -/
def Obligations.HardResetGivesResetValues : Prop :=
  (∀ (w : Span) (s : State), exec (.hardReset w) s = .next (State.reset.setPending s.pending))
  ∧ (State.reset.MemLaw ∧ State.reset.RestLaw ∧ State.reset.FsLaw ∧ State.reset.MemberLaw ∧ State.reset.SlotLaw
    ∧ State.reset.SizeLaw ∧ State.reset.QueueLaw ∧ State.reset.OrderLaw ∧ State.reset.PictureLaw
    ∧ State.reset.PositionLaw ∧ State.reset.pending = [])
  ∧ (State.reset.loader.phase = .held ∧ State.reset.loader.copyInUse = none ∧ State.reset.loader.cause = .none
    ∧ State.reset.loader.pllRunning = false ∧ State.reset.cfg = Settings.startUp
    ∧ State.reset.timing.running = false ∧ State.reset.timing.wfn = 0 ∧ State.reset.timing.lock = .off
    ∧ State.reset.timing.keptEdge = none ∧ State.reset.timing.fsDrive = false
    ∧ State.reset.bus.active = false ∧ State.reset.bus.rx = .waitIdle ∧ State.reset.bus.latch = false
    ∧ State.reset.bus.modePlace = none ∧ State.reset.bus.leavePlace = none ∧ State.reset.bus.statusPlace = none
    ∧ State.reset.input.state = .noSignal ∧ State.reset.input.lcs = 0 ∧ State.reset.input.progress = none
    ∧ (∀ i, State.reset.store.slots.get i = .free) ∧ State.reset.store.transfer = none
    ∧ State.reset.store.writeFifo = [] ∧ State.reset.store.readFifo = []
    ∧ State.reset.ballot.phase = .idle ∧ State.reset.member.station = .starting
    ∧ (∀ k, k < 32 → State.reset.member.roster[k]? = some .absent)
    ∧ State.reset.modes.record = ⟨.live, 0, 0⟩ ∧ State.reset.modes.queue = []
    ∧ State.reset.picture.selection = .inactive ∧ State.reset.picture.lineStore = []
    ∧ State.reset.port.flags = 0 ∧ State.reset.port.selected = .ident ∧ State.reset.port.result = .none
    ∧ (∀ k, State.reset.counters.get k = 0))

/-- The end of a write transfer stores its pixels at their places in its slot, from the address that section 4.6 gives
the first of them, and every byte outside them reads as before. The end of a read transfer brings the slot's pixels into
the read FIFO, unless they are no longer wanted; a refresh, or a port with no transfer, brings nothing. None of them
stores. That an unwanted read runs to its end and its pixels are discarded is read from the rules by inference
(notes/assumptions/12.md); that a transfer end at a port with no transfer changes nothing is the model's choice
(notes/assumptions/2.md). -/
def Obligations.TransfersStoreAndFetch : Prop :=
  ∀ (w : Span) (s u : State), s.pass w = u →
    (∀ (i : Fin 5) (l c : Nat) (px : List Rgb), u.MemLaw → u.store.transfer = some (.write i l c px) →
      insideSlot l c px.length = true →
      ∃ t, exec (.memoryTransferEnd w) s = .next t
        ∧ (∀ (k : Nat) (v : Rgb), px[k]? = some v → loadPixel t.mem i l (c + k) = v)
        ∧ (∀ a, a < pixelAddress i l c ∨ pixelAddress i l c + 4 * px.length ≤ a → memRead t.mem a = memRead u.mem a)
        ∧ SameBut [.bus, .store, .picture, .mem] u t
        ∧ t.store.slots = u.store.slots ∧ t.store.readFifo = u.store.readFifo)
    ∧ (∀ (i : Fin 5) (l c n : Nat) (live : Bool), u.store.transfer = some (.read i l c n live) →
      insideSlot l c n = true →
      ∃ t, exec (.memoryTransferEnd w) s = .next t ∧ SameBut [.bus, .store, .picture] u t
        ∧ t.store.slots = u.store.slots
        ∧ t.store.readFifo = u.store.readFifo ++ (if live then loadPixels u.mem i l c n else []))
    ∧ (u.store.transfer = some .refresh ∨ u.store.transfer = none →
      ∃ t, exec (.memoryTransferEnd w) s = .next t ∧ SameBut [.bus, .store, .picture] u t
        ∧ t.store.slots = u.store.slots ∧ t.store.readFifo = u.store.readFifo)

/-- The port serves by rank. A refresh request waits with those that came before it; a free port grants one refresh,
ahead of reader and writer, at the request and at the end of a transfer, and takes nothing from the FIFOs; a busy port
grants nothing. At the end of a command, with no refresh waiting, a free port serves the reader: with a slot SHOWING, a
line named, room for 64 pixels, a picture taken from the slot and none of the transfer's pixels still in the write FIFO,
the next 64 pixels of the line or its last ones. With nothing to read it serves the writer: 64 pixels of one region line
or the last ones, which leave the FIFO; that the rest of a TORN line, without the line's last pixel, asks for nothing is
the model's choice (notes/assumptions/43.md). -/
def Obligations.PortServesByRank : Prop :=
  (∀ (w : Span) (s u : State), s.pass w = u → u.timing.running = true →
    ∃ t, exec (.refreshRequest w) s = .next t ∧ SameBut [.bus, .store, .picture] u t
      ∧ t.store.slots = u.store.slots ∧ t.store.writeFifo = u.store.writeFifo ∧ t.store.readFifo = u.store.readFifo
      ∧ (u.store.transfer = none →
          t.store.transfer = some .refresh ∧ t.store.refreshWaiting = u.store.refreshWaiting)
      ∧ (u.store.transfer ≠ none →
          t.store.transfer = u.store.transfer ∧ t.store.refreshWaiting = u.store.refreshWaiting + 1))
  ∧ (∀ (w : Span) (s u : State), s.pass w = u → u.timing.running = true → 0 < u.store.refreshWaiting →
      u.transferInside = true →
      ∃ t, exec (.memoryTransferEnd w) s = .next t ∧ t.store.transfer = some .refresh
        ∧ t.store.refreshWaiting = u.store.refreshWaiting - 1
        ∧ t.store.writeFifo = u.store.writeFifo ∧ t.store.named = u.store.named ∧ t.store.fetchCol = u.store.fetchCol)
  ∧ (∀ u : State, u.timing.running = true → u.store.transfer = none → 0 < u.store.refreshWaiting →
      u.settle.store = { u.store with transfer := some .refresh, refreshWaiting := u.store.refreshWaiting - 1 })
  ∧ ∀ u : State, u.timing.running = true →
      (u.store.transfer ≠ none → u.settle.store = u.store)
      ∧ (∀ r, u.store.refreshWaiting = 0 → u.store.transfer = none → u.readRequest = some r →
          u.settle.store.transfer = some r ∧ u.settle.store.writeFifo = u.store.writeFifo)
      ∧ (u.store.refreshWaiting = 0 → u.store.transfer = none → u.readRequest = none →
          writerWants u.cfg.rw u.store.writeFifo = true →
          ∃ x run, headRun u.store.writeFifo = x :: run
            ∧ u.settle.store.transfer = some (.write x.slot x.line x.col (((x :: run).take 64).map (·.rgb)))
            ∧ u.settle.store.writeFifo = u.store.writeFifo.drop ((x :: run).take 64).length)
      ∧ (u.store.refreshWaiting = 0 → u.store.transfer = none → u.readRequest = none →
          writerWants u.cfg.rw u.store.writeFifo = false → u.settle.store = u.store)
      ∧ (∀ r, u.readRequest = some r ↔ ∃ (i : Fin 5) (line n : Nat) (live : Bool) (rest : List NamedLine),
          u.store.slots.first .showing = some i ∧ u.store.named = ⟨line, live⟩ :: rest
          ∧ min 64 (u.cfg.rw - u.store.fetchCol) = n ∧ n ≠ 0
          ∧ (u.picture.selection = .slot ∨ u.findSelection = .slot) ∧ u.store.readFifo.length + 64 ≤ 2048
          ∧ (∀ y ∈ u.store.writeFifo, ¬(y.slot = i ∧ y.line = line ∧ u.store.fetchCol ≤ y.col
              ∧ y.col < u.store.fetchCol + n))
          ∧ r = .read i line u.store.fetchCol n live)
      ∧ (∀ i line c n live, u.store.refreshWaiting = 0 → u.store.transfer = none →
          u.readRequest = some (.read i line c n live) →
          (c + n < u.cfg.rw → u.settle.store.fetchCol = c + n ∧ u.settle.store.named = u.store.named)
          ∧ (u.cfg.rw ≤ c + n → u.settle.store.fetchCol = 0 ∧ u.settle.store.named = u.store.named.drop 1))
      ∧ (∀ (rw : Nat) (l : List WritePixel), writerWants rw l = true ↔
          64 ≤ (headRun l).length ∨ ∃ x, (headRun l).getLast? = some x ∧ x.col + 1 = rw)
      ∧ headRun [] = []
      ∧ ∀ (x : WritePixel) (l : List WritePixel),
          headRun (x :: l) = x :: l.takeWhile (fun y => y.slot == x.slot && y.line == x.line)

/-! ## Reset and start-up -/

/-- The rise of RESETn samples the straps, 5Ah to 5Dh, and begins the start delay of 2700 XREF clocks, counted in WAIT
alone; at its end the read of the primary copy begins. Outside a transaction the flash pins are at their idle levels,
FL_CSn high, FL_SCK low and FL_MOSI low; the backup's read begins when FL_CSn has been high for 16 XREF clocks. Within a
transaction FL_SCK has a period of four XREF clocks, its second half high; FL_MOSI carries 03h and the copy's 24-bit
address, most significant bit first, then stays low; after them FL_MISO is sampled at each rising edge, eight bits make
a byte, and the read ends with as many bytes as the header calls for, or the five of a header that does not pass. That
the count holds at 2700 is read from the rules by inference (notes/assumptions/34.md); that it stands when the delay is
over is the model's choice (notes/assumptions/56.md); the rules ask for at least 16 clocks, and that it is 16 is the
model's choice, with the place of the clock's edges in its period, the taking of a byte at the end of its eighth period,
and FL_MISO low at clocks for which the Span lists no level (notes/assumptions/28.md). -/
def Obligations.StartDelayBeginsRead : Prop :=
  (∀ (w : Span) (a : BitVec 2) (s u : State), s.pass w = u →
    (u.loader.phase = .held →
      ∃ t, exec (.resetnRise w a) s = .next t
        ∧ Settled ((u.setLoader { u.loader with phase := .wait, startCount := 0 }).setPort
            { u.port with address := 0x5A#7 + a.zeroExtend 7 }) t)
    ∧ (s.loader.phase = .wait → u.loader.startCount = min 2700 (s.loader.startCount + w.xref))
    ∧ (s.loader.phase ≠ .wait → u.loader.startCount = s.loader.startCount)
    ∧ (u.loader.phase = .wait → u.loader.startCount = 2700 →
      ∃ t, exec (.startDelayExpiry w) s = .next t
        ∧ Settled (u.setLoader { u.loader with
            phase := .primary, reading := some .primary, spiClock := 0, bytes := [], bits := [] }) t)
    ∧ (u.loader.reading = none → u.flashSelected = false)
    ∧ (u.flashSelected = false → u.flashClock = false ∧ u.flashData = false)
    ∧ (∀ l : List Byte, readEnded l = true ↔ 5 ≤ l.length ∧ l.length = if headerGood l then imageLength l else 5)
    ∧ (∀ c, u.loader.reading = some c → (u.flashSelected = true ↔ readEnded u.loader.bytes = false)
        ∧ (u.flashSelected = true →
            u.flashClock = decide (2 ≤ u.loader.spiClock % 4)
            ∧ u.flashData =
              (match c with | .primary => 0x03000000#32 | .backup => 0x03000800#32).getMsbD (u.loader.spiClock / 4)))
    ∧ ∀ m : List Bool, w.miso.take w.xref ++ List.replicate (w.xref - w.miso.length) false = m →
        (s.loader.phase = .primary ∨ s.loader.phase = .backup → s.loader.reading ≠ none →
          u.loader = m.foldl Loader.flashTick s.loader)
        ∧ (s.loader.phase = .backup → s.loader.reading = none →
          (s.loader.gap + w.xref < 16 → u.loader = { s.loader with gap := s.loader.gap + w.xref })
          ∧ (16 ≤ s.loader.gap + w.xref → u.loader = (m.drop (16 - s.loader.gap)).foldl Loader.flashTick
              { s.loader with gap := 16, reading := some .backup, spiClock := 0, bytes := [], bits := [] })))
  ∧ ∀ (x : Loader) (m : Bool) (b : List Bool),
      (if x.spiClock % 4 = 2 ∧ 128 ≤ x.spiClock then x.bits ++ [m] else x.bits) = b →
      (x.reading = none ∨ readEnded x.bytes = true → x.flashTick m = x)
      ∧ (x.reading ≠ none → readEnded x.bytes = false →
          (x.spiClock % 4 = 3 → b.length = 8 → ∃ v : Byte, (∀ k, k < 8 → b[k]? = some (v.getMsbD k))
            ∧ x.flashTick m = { x with spiClock := x.spiClock + 1, bits := [], bytes := x.bytes ++ [v] })
          ∧ (¬(x.spiClock % 4 = 3 ∧ b.length = 8) →
            x.flashTick m = { x with spiClock := x.spiClock + 1, bits := b }))

/-- A copy of n bytes read whole takes 32 + 8n periods of FL_SCK, each of four XREF clocks, and not one clock fewer: its
bytes are FL_MISO's levels at the rising edges after the address, most significant bit first. The end of a copy's read:
a rejected primary ends its transaction and sends the loader to the backup with its cause;
a rejected backup sends the station to FAULT with its own, with start-up configuration and a stopped PLL and generator;
an accepted copy is loaded and starts the PLL. When the bytes are taken within the last period of FL_SCK is the model's
choice (notes/assumptions/28.md), and so is that the counts of the two delays stand at a rejected primary and are 0 in
FAULT (notes/assumptions/56.md). Entry to FAULT stores nothing (notes/assumptions/53.md). -/
def Obligations.CopyReadDecidesLoad : Prop :=
  (∀ (w : Span) (s u : State) (c : Copy) (l : List Byte) (m : List Bool), s.pass w = u →
    s.loader.phase = .primary ∨ s.loader.phase = .backup → s.loader.reading = some c → s.loader.spiClock = 0 →
    s.loader.bytes = [] → s.loader.bits = [] → readEnded l = true →
    w.miso.take w.xref ++ List.replicate (w.xref - w.miso.length) false = m →
    (∀ (k j : Nat) (b : Byte), l[k]? = some b → j < 8 → 128 + 32 * k + 4 * j + 2 < w.xref →
      m[128 + 32 * k + 4 * j + 2]? = some (b.getMsbD j)) →
    (w.xref < 4 * (32 + 8 * l.length) → u.copyReadEnded = false)
    ∧ (4 * (32 + 8 * l.length) ≤ w.xref → u.copyReadEnded = true ∧ u.loader.bytes = l
      ∧ u.loader.spiClock = 4 * (32 + 8 * l.length)))
  ∧ ∀ (w : Span) (s u : State) (c : Copy), s.pass w = u → u.copyReadEnded = true → u.loader.reading = some c →
    (∀ k, checkCopy u.loader.bytes = .rejected k → c = .primary →
      ∃ t, exec (.copyReadEnd w) s = .next t
        ∧ Settled (u.setLoader { u.loader with
            cause := k, phase := .backup, reading := none, spiClock := 0, bytes := [], bits := [], gap := 0 }) t)
    ∧ (∀ k, checkCopy u.loader.bytes = .rejected k → c = .backup →
      ∃ t, exec (.copyReadEnd w) s = .next t
        ∧ t.loader = { Loader.initial with phase := .fault, cause := k }
        ∧ t.member = { Membership.initial with station := .fault }
        ∧ t.timing = Timing.initial ∧ t.bus = Bus.initial ∧ t.input = Input.initial ∧ t.store = Store.initial
        ∧ t.ballot = Ballot.initial ∧ t.modes = Modes.initial
        ∧ t.flag .fault = true ∧ t.flag .stateChange = true ∧ t.port.result = u.port.result
        ∧ t.counters = u.counters ∧ t.mem = u.mem)
    ∧ (∀ k, checkCopy u.loader.bytes = .accepted k →
      ∃ t, exec (.copyReadEnd w) s = .next t
        ∧ t.loader.phase = .pll ∧ t.loader.reading = none ∧ t.loader.copyInUse = some c
        ∧ t.loader.cause = u.loader.cause ∧ t.cfg = k.settings ∧ t.loader.pllRunning = true
        ∧ t.loader.pllCount = 0 ∧ t.loader.pllOver = false ∧ t.picture.gammaR = k.gammaR ∧ t.picture.gammaG = k.gammaG
        ∧ t.picture.gammaB = k.gammaB ∧ t.modes.record = ⟨k.settings.initialMode, 0, k.settings.tile⟩
        ∧ SameBut [.loader, .member, .modes, .bus, .store, .picture] u t)

/-- The CRC-32 of an image: polynomial 04C11DB7h, from FFFFFFFFh, each byte most significant bit first, inverted, over
every byte before the trailer; a copy whose trailer differs is rejected with BAD_CRC before its structure is looked at.
-/
def Obligations.ImageCrcIsChecked : Prop :=
  (∀ l : List Byte, crc32 l = ~~~((l.flatMap (fun b => (List.range 8).map (fun k => b.getLsbD (7 - k)))).foldl
      (fun (c : BitVec 32) b => if c.getLsbD 31 != b then (c <<< 1) ^^^ 0x04C11DB7#32 else c <<< 1) 0xFFFFFFFF#32))
  ∧ (∀ l : List Byte, headerGood l = true →
      (crc32 (l.take (imageLength l - 4))).toNat ≠ bytesNat ((l.drop (imageLength l - 4)).take 4) →
      checkCopy l = .rejected .badCrc)
  ∧ (∀ l : List Byte, checkCopy l = .rejected .badCrc →
      (crc32 (l.take (imageLength l - 4))).toNat ≠ bytesNat ((l.drop (imageLength l - 4)).take 4))

/-- The checks of a copy in order: the header, the CRC-32, the structure of the records and their least bodies, the
mandatory records, each field's own range, the relations between fields; a copy that passes all is accepted with the
fields of the first record of each kind, given or defaulted. That a second record of a kind is passed over unchecked and
that the initial mode is given by two bytes or not at all are read from the rules by inference (notes/assumptions/13.md
and 14.md). -/
def Obligations.ImageChecksDecide : Prop :=
  (∀ l : List Byte, headerGood l = true ↔ ∃ (c d e : Byte) (rest : List Byte),
      l = 0x24#8 :: 0x10#8 :: c :: d :: e :: rest ∧ 9 ≤ c.toNat * 256 + d.toNat ∧ c.toNat * 256 + d.toNat ≤ 2048)
  ∧ (∀ (a b c d : Byte) (rest : List Byte), imageLength (a :: b :: c :: d :: rest) = c.toNat * 256 + d.toNat)
  ∧ (∀ l : List Byte, headerGood l = false → checkCopy l = .rejected .noImage)
  ∧ (∀ (l body : List Byte) (n count : Nat), headerGood l = true → imageLength l = n →
      (crc32 (l.take (n - 4))).toNat = bytesNat ((l.drop (n - 4)).take 4) → (l.take (n - 4)).drop 5 = body →
      (l[4]?).map (·.toNat) = some count →
      (walkRecords count body = none → checkCopy l = .rejected .range)
      ∧ ∀ rs, walkRecords count body = some rs →
          ((∃ k b m, firstOf rs k = some b ∧ minimumBody k = some m ∧ b.length < m) → checkCopy l = .rejected .range)
          ∧ ((∀ k b m, firstOf rs k = some b → minimumBody k = some m → m ≤ b.length) →
            ((∃ k, 1 ≤ k ∧ k ≤ 7 ∧ firstOf rs k = none) → checkCopy l = .rejected .missingRecord)
            ∧ ((∀ k, 1 ≤ k → k ≤ 7 → firstOf rs k ≠ none) →
              (rangesHold (rawFields rs) = false → checkCopy l = .rejected .range)
              ∧ (rangesHold (rawFields rs) = true → relationsHold (settingsOf (rawFields rs)) = false →
                  checkCopy l = .rejected .constraint)
              ∧ (rangesHold (rawFields rs) = true → relationsHold (settingsOf (rawFields rs)) = true →
                  checkCopy l = .accepted (candidateOf (rawFields rs))))))
  ∧ (∀ rs : List ImageRecord, (∀ r ∈ rs, r.kind < 256 ∧ r.body.length < 65536) →
      walkRecords rs.length
        (rs.flatMap (fun r => BitVec.ofNat 8 r.kind :: (natWordBytes r.body.length ++ r.body))) = some rs)
  ∧ (∀ (n : Nat) (body : List Byte) (rs : List ImageRecord), walkRecords n body = some rs →
      rs.length = n ∧ body = rs.flatMap (fun r => BitVec.ofNat 8 r.kind :: (natWordBytes r.body.length ++ r.body)))
  ∧ (List.range 10).map minimumBody = [none, some 1, some 19, some 6, some 0, some 16, some 0, some 0, some 768, none]
  ∧ (∀ (b : List Byte) (i n d : Nat),
      fieldOr b i n d = if i + n ≤ b.length then bytesNat ((b.drop i).take n) else d)
  ∧ (∀ (f : RawFields) (c : Settings), settingsOf f = c → (rangesHold f = true ↔
      fieldOr f.station 0 1 0 ≤ 31 ∧ 1 ≤ c.skew ∧ c.skew ≤ 15 ∧ 1 ≤ c.multiplier ∧ c.multiplier ≤ 255 ∧ 1 ≤ c.divider
      ∧ c.divider ≤ 255 ∧ 256 ≤ c.htot ∧ c.htot ≤ 4095 ∧ 128 ≤ c.vtot ∧ c.vtot ≤ 2047 ∧ c.hstart ≤ 4095 ∧ 16 ≤ c.aw
      ∧ c.aw ≤ 4095 ∧ c.vstart ≤ 2047 ∧ 16 ≤ c.ah ∧ c.ah ≤ 2047 ∧ 1 ≤ c.hsw ∧ c.hsw ≤ 4095 ∧ 1 ≤ c.vsw ∧ c.vsw ≤ 2047
      ∧ fieldOr f.output 18 1 0 ≤ 7 ∧ c.sopen ≤ 2047 ∧ c.scut ≤ 2047 ∧ c.bline ≤ 2047 ∧ 16 ≤ c.lockwin
      ∧ c.lockwin ≤ 1023 ∧ 1 ≤ c.slew ∧ c.slew ≤ 65535 ∧ 2 ≤ c.lonewait ∧ c.lonewait ≤ 255 ∧ c.rx ≤ 4095 ∧ c.ry ≤ 4095
      ∧ 16 ≤ c.rw ∧ c.rw ≤ 2048 ∧ 16 ≤ c.rh ∧ c.rh ≤ 1536 ∧ c.cx ≤ 4095 ∧ c.cy ≤ 2047 ∧ 1 ≤ c.cw ∧ c.cw ≤ 4095
      ∧ 1 ≤ c.ch ∧ c.ch ≤ 2047 ∧ 4 ≤ c.foundwait ∧ c.foundwait ≤ 255 ∧ 2 ≤ c.lapse ∧ c.lapse ≤ 255
      ∧ c.holdframes ≤ 255 ∧ 4 ≤ c.modelead ∧ c.modelead ≤ 64 ∧ fieldOr f.picture 3 1 0 ≤ 1
      ∧ initialModeOf f ≠ none ∧ fieldOr f.picture 6 1 0 ≤ 1))
  ∧ (∀ c : Settings, relationsHold c = true ↔
      25 * c.divider ≤ 27 * c.multiplier ∧ 27 * c.multiplier ≤ 165 * c.divider ∧ c.hstart + c.aw ≤ c.htot
      ∧ c.vstart + c.ah ≤ c.vtot ∧ c.hsw + 1 ≤ c.htot ∧ c.vsw + 1 ≤ c.vtot ∧ 2 ≤ c.sopen ∧ c.sopen + 32 ≤ c.scut
      ∧ c.scut + 4 ≤ c.bline ∧ c.bline + 12 + (c.slew + c.htot - 1) / c.htot ≤ c.vtot ∧ 4 * c.lockwin ≤ c.htot
      ∧ c.cx + c.cw ≤ c.aw ∧ c.cy + c.ch ≤ c.ah ∧ c.rw ≤ 2 * c.cw ∧ c.cw ≤ 8 * c.rw ∧ c.rh ≤ 2 * c.ch
      ∧ c.ch ≤ 8 * c.rh ∧ c.rx + c.rw ≤ 4095 ∧ c.ry + c.rh ≤ 4095)

/-- The settings that the fields of an image give. The record of each kind that stands is the first of its kind; each
field lies at its place in its body, most significant byte first, given where the body holds all its bytes and
defaulted otherwise; the encoded fields have their codes. Without a GAMMA record each table is the identity. That the
initial mode is given by two bytes or not at all is read from the rules by inference (notes/assumptions/14.md). -/
def Obligations.ImageFieldsGiveSettings : Prop :=
  (∀ (rs : List ImageRecord) (k : Nat),
    (firstOf rs k = none ↔ ∀ r ∈ rs, r.kind ≠ k)
    ∧ (∀ b, firstOf rs k = some b ↔ ∃ before rest, rs = before ++ ⟨k, b⟩ :: rest ∧ ∀ r ∈ before, r.kind ≠ k))
  ∧ (∀ rs : List ImageRecord, rawFields rs =
      { station := (firstOf rs 1).getD [], output := (firstOf rs 2).getD [], schedule := (firstOf rs 3).getD [],
        lock := (firstOf rs 4).getD [], region := (firstOf rs 5).getD [], membership := (firstOf rs 6).getD [],
        picture := (firstOf rs 7).getD [], gamma := firstOf rs 8 })
  ∧ (∀ (f : RawFields) (c : Settings), settingsOf f = c →
      c.tile = BitVec.ofNat 5 (fieldOr f.station 0 1 0) ∧ c.skew = fieldOr f.station 1 1 4
      ∧ c.eventMask = BitVec.ofNat 16 (fieldOr f.station 2 2 0x03FF)
      ∧ c.multiplier = fieldOr f.output 0 1 0 ∧ c.divider = fieldOr f.output 1 1 0 ∧ c.htot = fieldOr f.output 2 2 0
      ∧ c.vtot = fieldOr f.output 4 2 0 ∧ c.hstart = fieldOr f.output 6 2 0 ∧ c.aw = fieldOr f.output 8 2 0
      ∧ c.vstart = fieldOr f.output 10 2 0 ∧ c.ah = fieldOr f.output 12 2 0 ∧ c.hsw = fieldOr f.output 14 2 0
      ∧ c.vsw = fieldOr f.output 16 2 0 ∧ (c.hsHigh = true ↔ fieldOr f.output 18 1 0 % 2 = 1)
      ∧ (c.vsHigh = true ↔ fieldOr f.output 18 1 0 / 2 % 2 = 1)
      ∧ (c.deHigh = true ↔ fieldOr f.output 18 1 0 / 4 % 2 = 1)
      ∧ c.sopen = fieldOr f.schedule 0 2 0 ∧ c.scut = fieldOr f.schedule 2 2 0 ∧ c.bline = fieldOr f.schedule 4 2 0
      ∧ c.lockwin = fieldOr f.lock 0 2 256 ∧ c.slew = fieldOr f.lock 2 2 8192 ∧ c.lonewait = fieldOr f.lock 4 1 8
      ∧ c.rx = fieldOr f.region 0 2 0 ∧ c.ry = fieldOr f.region 2 2 0 ∧ c.rw = fieldOr f.region 4 2 0
      ∧ c.rh = fieldOr f.region 6 2 0 ∧ c.cx = fieldOr f.region 8 2 0 ∧ c.cy = fieldOr f.region 10 2 0
      ∧ c.cw = fieldOr f.region 12 2 0 ∧ c.ch = fieldOr f.region 14 2 0
      ∧ c.foundwait = fieldOr f.membership 0 1 16 ∧ c.lapse = fieldOr f.membership 1 1 6
      ∧ c.holdframes = fieldOr f.membership 2 1 60 ∧ c.modelead = fieldOr f.membership 3 1 8
      ∧ c.fillColour = BitVec.ofNat 24 (fieldOr f.picture 0 3 0)
      ∧ c.detachedShow = (if fieldOr f.picture 3 1 0 = 1 then .ident else .fill)
      ∧ c.initialMode = (initialModeOf f).getD .live ∧ (c.dither = true ↔ fieldOr f.picture 6 1 0 = 1))
  ∧ (∀ f : RawFields,
      (f.picture.length < 6 → initialModeOf f = some .live)
      ∧ ∀ (k n : Byte), f.picture[4]? = some k → f.picture[5]? = some n →
          (k = 0 → initialModeOf f = some .live) ∧ (k = 1 → initialModeOf f = some .fill)
          ∧ (∀ h : n.toNat < 12, k = 2 → initialModeOf f = some (.pattern ⟨n.toNat, h⟩))
          ∧ (12 ≤ n.toNat → k = 2 → initialModeOf f = none) ∧ (3 ≤ k.toNat → initialModeOf f = none))
  ∧ ∀ f : RawFields, (candidateOf f).settings = settingsOf f
      ∧ (f.gamma = none → (candidateOf f).gammaR = identityGamma ∧ (candidateOf f).gammaG = identityGamma
          ∧ (candidateOf f).gammaB = identityGamma ∧ ∀ k, k < 256 → identityGamma[k]? = some (BitVec.ofNat 8 k))
      ∧ (∀ g, f.gamma = some g → 768 ≤ g.length → ∀ k, k < 256 → (candidateOf f).gammaR[k]? = g[k]?
          ∧ (candidateOf f).gammaG[k]? = g[256 + k]? ∧ (candidateOf f).gammaB[k]? = g[512 + k]?)

/-- In the phase PLL the lock indication, up to the end of the wait of 54 000 XREF clocks, begins RUN: the generator
starts in SEEK at WFN 0 without an evaluation, the bus and the input monitor become active at their reset values, the
station is DETACHED. A lock indication after the wait is ignored. No lock within the wait: from the primary copy the
loader goes to the backup, from the backup the station goes to FAULT, both with cause PLL_NO_LOCK and the PLL stopped.
That the count holds at 54 000 is read from the rules by inference (notes/assumptions/34.md); so is that an indication
at the count's end is still taken, and that one past it is ignored while the phase is PLL (notes/assumptions/35.md).
That the count stands when the wait is over, and that both counts are 0 in FAULT, is the model's choice
(notes/assumptions/56.md). Entry to FAULT stores nothing (notes/assumptions/53.md). -/
def Obligations.PllWaitDecides : Prop :=
  ∀ (w : Span) (s u : State), s.pass w = u → u.loader.phase = .pll →
    (s.loader.phase = .pll → u.loader.pllCount = min 54000 (s.loader.pllCount + w.xref)
      ∧ (u.loader.pllOver = true ↔ s.loader.pllOver = true ∨ 54000 < s.loader.pllCount + w.xref))
    ∧ (u.loader.pllOver = true → ∃ t, exec (.pllLock w) s = .next t ∧ Settled u t)
    ∧ (u.loader.pllOver = false → ∃ t, exec (.pllLock w) s = .next t
      ∧ t.loader = { u.loader with phase := .run }
      ∧ t.timing = { Timing.initial with running := true, lock := .seek }
      ∧ t.bus = { Bus.initial with active := true } ∧ t.bus.rx = .waitIdle ∧ t.bus.idle = 0
      ∧ t.input = { Input.initial with active := true }
      ∧ t.member.station = .detached ∧ t.flag .stateChange = true ∧ t.ballot = u.ballot ∧ t.mem = u.mem)
    ∧ (u.loader.pllCount = 54000 → u.loader.copyInUse = some .primary →
      ∃ t, exec (.pllWaitExpiry w) s = .next t
        ∧ Settled (u.setLoader { u.loader with
            pllRunning := false, cause := .pllNoLock, copyInUse := none, phase := .backup,
            reading := some .backup, spiClock := 0, bytes := [], bits := [] }) t)
    ∧ (u.loader.pllCount = 54000 → u.loader.copyInUse = some .backup →
      ∃ t, exec (.pllWaitExpiry w) s = .next t
        ∧ t.loader = { Loader.initial with phase := .fault, cause := .pllNoLock }
        ∧ t.member.station = .fault ∧ t.flag .fault = true ∧ t.flag .stateChange = true
        ∧ t.counters = u.counters ∧ t.mem = u.mem)

/-! ## Laws of the machine that every step keeps -/

/-- Outside RUN the blocks that the generator drives hold their reset values: kept by every step. -/
def Obligations.RestValuesHold : Prop := ∀ s t : State, s.RestLaw → step s = .next t → t.RestLaw

/-- The law of the FS drive: FS is driven low only in LOCKED and unsilenced; kept by every step. -/
def Obligations.FsDriveIsLawful : Prop := ∀ s t : State, s.FsLaw → step s = .next t → t.FsLaw

/-- A MEMBER is LOCKED, and a JOINING or MEMBER station is not silenced: kept by every step. -/
def Obligations.MemberIsLocked : Prop := ∀ s t : State, s.MemberLaw → step s = .next t → t.MemberLaw

/-- The first law of the frame store: at most one slot FILLING, one CHOSEN and one SHOWING; kept by every step. -/
def Obligations.OneSlotOfEach : Prop := ∀ s t : State, s.RestLaw → s.SlotLaw → step s = .next t → t.SlotLaw

/-- The law of the pending-mode queue: at most 4 entries with strictly increasing targets, each 1 to 128 frames ahead,
none outside MEMBER; kept by every step, and with it the roster's 32 entries and the write FIFO's 2048 pixels. -/
def Obligations.QueueStaysInOrder : Prop :=
  ∀ s t : State, s.RestLaw → step s = .next t →
    (s.QueueLaw → t.QueueLaw) ∧ (s.SizeLaw → t.SizeLaw)

/-- The second law of the frame store: READY slots hold distinct LCS values, each later than the SHOWING slot's; kept by
every step from a station whose frames held are less than half of the LCS circle old. The window check keeps them so:
another statement says that a grant with nothing pledged or CHOSEN leaves every such slot at most 11 frames behind. -/
def Obligations.FramesStayInOrder : Prop :=
  ∀ s t : State, s.RestLaw → s.SlotLaw → s.OrderLaw → s.FramesNear → step s = .next t → t.OrderLaw

/-- The law of membership for the picture: a MEMBER has a SHOWING slot, and with the first law of the frame store
exactly one; kept by every step from a station with no drop-picture pending. One is pending only from a ballot end to
the next frame start, at a station that has left MEMBER. -/
def Obligations.MemberShowsPicture : Prop :=
  ∀ s t : State, s.RestLaw → s.SlotLaw → s.OrderLaw → s.PictureLaw → s.store.dropPending = false → step s = .next t →
    t.PictureLaw ∧ (t.SlotLaw → t.member.station = .member → t.store.slots.number .showing = 1)

/-- The generator never counts past the last pixel of its frame, and stopped it holds 0: kept by every step. -/
def Obligations.PositionStaysInFrame : Prop :=
  ∀ s t : State, s.RestLaw → s.PositionLaw → step s = .next t → t.PositionLaw

/-! ## Frame starts -/

/-- The evaluation in SEEK and in LOCKED, by the kept foreign edge: the error, the streaks, the lone count and the lock
state after it. -/
def Obligations.LockEvaluationTables : Prop :=
  ∀ (c : Settings) (x : Timing),
    (x.lock = .seek → (∃ a, x.keptEdge = some a ∧ a < c.nominal ∧ evaluation c x =
        ⟨a, if a ≤ c.lockwin ∧ 4 ≤ x.lockStreak + 1 then .locked else .seek,
         if a ≤ c.lockwin ∧ x.lockStreak + 1 < 4 then x.lockStreak + 1 else 0, x.unlockStreak, 0, false⟩)
      ∨ ((∀ a, x.keptEdge = some a → c.nominal ≤ a) ∧ evaluation c x =
        ⟨0, if c.lonewait ≤ x.loneWait + 1 then .locked else .seek, 0, x.unlockStreak,
         if c.lonewait ≤ x.loneWait + 1 then 0 else x.loneWait + 1, decide (c.lonewait ≤ x.loneWait + 1)⟩))
    ∧ (x.lock = .locked → ∃ e,
        (∀ a, x.keptEdge = some a → a < c.nominal - x.shortening → a ≤ c.nominal / 2 → e = a)
        ∧ ((∀ a, x.keptEdge = some a → c.nominal - x.shortening ≤ a ∨ c.nominal / 2 < a) → e = 0)
        ∧ evaluation c x =
          ⟨e, if c.lockwin < e ∧ x.unlockStreak ≠ 0 then .seek else .locked, x.lockStreak,
           if c.lockwin < e ∧ x.unlockStreak = 0 then 1 else 0, x.loneWait, false⟩)

/-- A frame start at the end of the last line, which the shortening moves forward: the frame's evaluation, the new WFN,
the shortening, the FS drive and the lock events. An FS edge at the frame start's own pixel counts in the evaluation
unless the station is locked and not silenced; where the station begins no drive of its own there it is foreign, and
kept after the evaluation with age 0 (the model's reading of R10 and R11, notes/assumptions/6.md). -/
def Obligations.FrameStartEvaluates : Prop :=
  (∀ u : State,
    (u.frameEnds = true ↔ u.timing.running = true
      ∧ u.timing.line = u.cfg.vtot - 1 - u.timing.shortening / u.cfg.htot)
    ∧ u.toLineEnd = (if u.timing.line = u.cfg.vtot - 1 - u.timing.shortening / u.cfg.htot
        then u.cfg.htot - u.timing.shortening % u.cfg.htot else u.cfg.htot) - u.timing.pixel)
  ∧ ∀ (w : Span) (edge : Bool) (order : List Block) (s u : State) (e : Evaluation), s.pass w = u →
    u.frameEnds = true → evaluation u.cfg (u.endFrame edge).timing = e →
    (u.endFrame edge).timing = { u.timing with
        keptEdge := if edge = true ∧ ¬(u.timing.lock = .locked ∧ u.bus.latch = false) then some 0
          else u.timing.keptEdge.map (· + u.toLineEnd) }
    ∧ ∃ t, exec (.frameStart w edge order) s = .next t
      ∧ t.timing = { (u.endFrame edge).timing with
          keptEdge := if edge = true ∧ ¬(e.lock = .locked ∧ u.bus.latch = false) then some 0
            else (u.endFrame edge).timing.keptEdge,
          pixel := 0, line := 0, wfn := u.timing.wfn + 1, lock := e.lock, phaseError := e.error,
          shortening := min e.error u.cfg.slew, lockStreak := e.lockStreak, unlockStreak := e.unlockStreak,
          loneWait := e.loneWait, fsDrive := e.lock == .locked && !u.bus.latch }
      ∧ (u.timing.lock ≠ e.lock → t.flag .lockChange = true)
      ∧ t.counters.get .lockLosses =
          (if u.timing.lock = .locked ∧ e.lock = .seek then satInc (u.counters.get .lockLosses)
           else u.counters.get .lockLosses)
      ∧ SameBut [.timing, .bus, .store, .ballot, .member, .modes, .picture, .port, .counters] u t

/-- LONE_LOCK, HOLD_PICTURE_TIMER_EXPIRY and ROSTER_LAPSE are frame starts (notes/assumptions/4.md): the one that locks
alone, the one at which the hold picture goes, one at which a roster entry lapses. What they do beside is what the
statements of FRAME_START say. -/
def Obligations.NamedFrameStarts : Prop :=
  ∀ (w : Span) (edge : Bool) (order : List Block) (s u : State), s.pass w = u →
    (u.loneLockDue = true → ∃ t, exec (.loneLock w order) s = .next t ∧ exec (.frameStart w false order) s = .next t
      ∧ t.timing.lock = .locked ∧ t.timing.loneWait = 0 ∧ t.timing.shortening = 0 ∧ t.flag .lockChange = true)
    ∧ (u.holdTimerDue = true → ∃ t, exec (.holdPictureTimerExpiry w edge order) s = .next t
      ∧ exec (.frameStart w edge order) s = .next t
      ∧ t.member.holdTimer = 0 ∧ t.store.slots.first .showing = none)
    ∧ (u.lapseDue = true → ∃ t, exec (.rosterLapse w edge order) s = .next t
      ∧ exec (.frameStart w edge order) s = .next t ∧ t.flag .rosterChange = true)

/-- Membership at a frame start: a HOLD in flight is taken, a JOINING or MEMBER station leaving the wall with its STATUS
withdrawn and, where its peers have heard it or are hearing it, a LEAVE HOST_HOLD placed; a MEMBER out of lock is
realigned, a DETACHED station that may join is JOINING, with its quiet counter 0 and a LEAVE withdrawn; a MEMBER in lock
and a JOINING station stay. Outside MEMBER a hold-picture timer above 0 falls by one at each frame start, and the hold
picture goes as it reaches 0; one set at this frame start is not counted. The roster: a JOINING or MEMBER entry of
another tile is one frame older, LAPSED and counted when its count reaches LAPSE; LAPSED and LEFT entries count to 255;
ABSENT entries and the own place stay. -/
def Obligations.MembershipAtFrameStart : Prop :=
  ∀ (w : Span) (edge : Bool) (order : List Block) (s u : State) (e : Evaluation), s.pass w = u →
    u.frameEnds = true → evaluation u.cfg (u.endFrame edge).timing = e →
    ∃ t, exec (.frameStart w edge order) s = .next t
      ∧ (u.port.inFlight = some .hold →
          t.member.hostHold = true ∧ t.member.holdTimer = 0 ∧ t.port.result = .done ∧ t.port.inFlight = none
          ∧ t.store.slots.first .showing = none
          ∧ (u.member.station = .joining ∨ u.member.station = .member →
              t.member.station = .detached ∧ t.flag .stateChange = true ∧ t.member.announced = false
              ∧ (u.sendingStatus = false → t.bus.statusPlace = none)
              ∧ (∀ d, u.bus.sending = some d → d.kind = .status →
                  t.bus.sending = some { d with withdraw := true, nextStatus := none }
                  ∧ t.bus.statusPlace = u.bus.statusPlace)
              ∧ (u.member.announced = true ∨ u.sendingStatus = true → u.bus.latch = false → u.bus.active = true →
                  (u.bus.sendingKind ≠ some .leave → t.bus.leavePlace = some .hostHold)
                  ∧ (∀ d, u.bus.sending = some d → d.kind = .leave →
                      t.bus.sending = some { d with nextLeave := some .hostHold }
                      ∧ t.bus.leavePlace = u.bus.leavePlace))
              ∧ (u.member.announced = false → u.sendingStatus = false → t.bus.leavePlace = u.bus.leavePlace))
          ∧ (u.member.station = .detached → t.member.station = .detached
              ∧ t.bus.leavePlace = u.bus.leavePlace ∧ t.bus.sending = u.bus.sending))
      ∧ (u.port.inFlight ≠ some .hold →
          t.member.hostHold = u.member.hostHold
          ∧ (u.member.station = .member → e.lock = .locked →
              t.member.station = .member ∧ t.member.holdTimer = u.member.holdTimer)
          ∧ (u.member.station ≠ .member → t.member.holdTimer = u.member.holdTimer - 1
              ∧ (u.member.holdTimer = 1 → t.store.slots.first .showing = none))
          ∧ (u.member.station = .member → e.lock ≠ .locked →
              t.member.station = .joining ∧ t.member.holdTimer = u.cfg.holdframes ∧ t.member.quiet = 0
              ∧ t.modes.queue = [] ∧ t.flag .realign = true ∧ t.flag .stateChange = true
              ∧ t.counters.get .realigns = satInc (u.counters.get .realigns))
          ∧ (u.member.station = .joining → t.member.station = .joining ∧ t.member.quiet = u.member.quiet)
          ∧ (u.member.station = .detached → ¬(u.usable = true ∧ u.member.hostHold = false ∧ u.bus.latch = false) →
              t.member.station = .detached)
          ∧ (u.member.station = .detached → u.usable = true → u.member.hostHold = false → u.bus.latch = false →
              t.member.station = .joining ∧ t.member.quiet = 0 ∧ t.flag .stateChange = true
              ∧ (u.bus.sendingKind ≠ some .leave → t.bus.leavePlace = none)
              ∧ (∀ d, u.bus.sending = some d → d.kind = .leave →
                  t.bus.sending = some { d with withdraw := true, nextLeave := none }
                  ∧ t.bus.leavePlace = u.bus.leavePlace)))
      ∧ (t.counters.get .lapses).toNat = min 65535 ((u.counters.get .lapses).toNat + (List.range 32).countP (fun k =>
          k != u.tile.toNat && (match u.member.roster[k]? with
            | some x => (x.state == .joining || x.state == .member) && min 255 (x.heard + 1) == u.cfg.lapse
            | none => false)))
      ∧ ∀ (k : Nat) (x : Entry), u.member.roster[k]? = some x → k < 32 →
          (k = u.tile.toNat ∨ x.state = .absent → t.member.roster[k]? = some x)
          ∧ (k ≠ u.tile.toNat → x.state = .lapsed ∨ x.state = .left →
              t.member.roster[k]? = some { x with heard := min 255 (x.heard + 1) })
          ∧ (k ≠ u.tile.toNat → x.state = .joining ∨ x.state = .member →
              t.member.roster[k]? = some { x with
                heard := min 255 (x.heard + 1),
                state := if min 255 (x.heard + 1) = u.cfg.lapse then .lapsed else x.state }
              ∧ (min 255 (x.heard + 1) = u.cfg.lapse → t.flag .rosterChange = true))

/-- The mode record at the frame start of a MEMBER that stays one: a held repair, then the queue's first entry where its
target is the new WFN, then the advance of an old effective WFN. Outside MEMBER the mode controller does nothing. -/
def Obligations.ModesAtFrameStart : Prop :=
  ∀ (w : Span) (edge : Bool) (order : List Block) (s u : State) (e : Evaluation) (n : Word), s.pass w = u →
    u.frameEnds = true → evaluation u.cfg (u.endFrame edge).timing = e → u.timing.wfn + 1 = n →
    ∃ t, exec (.frameStart w edge order) s = .next t
      ∧ (u.member.station ≠ .member → t.modes = u.modes)
      ∧ (u.member.station = .member → e.lock = .locked → u.port.inFlight ≠ some .hold →
          ∃ r : ModeRecord,
            (∀ q rest, u.modes.queue = q :: rest → q.target = n →
              r = ⟨q.mode, n, q.origin⟩ ∧ t.modes.queue = rest ∧ t.flag .modeApplied = true)
            ∧ ((∀ q rest, u.modes.queue = q :: rest → q.target ≠ n) →
              r = u.modes.repair.getD u.modes.record ∧ t.modes.queue = u.modes.queue)
            ∧ (u.modes.repair.isSome = true → t.flag .modeApplied = true
                ∧ t.counters.get .modeRepairs = satInc (u.counters.get .modeRepairs))
            ∧ t.modes.repair = none ∧ t.modes.outstanding = u.modes.outstanding
            ∧ t.modes.record = { r with
                effective := if n - r.effective = 0x8000#16 then r.effective + 1 else r.effective })

/-- The switch at a frame start that brings no drop-picture: the CHOSEN slot becomes SHOWING, the old SHOWING slot and
the older READY slots become FREE, and a pending drop frees the new one. With nothing CHOSEN no slot changes. Picture
output at any frame start: the dither phase and the pattern generator take the new WFN, the content row is 0, the read
FIFO is emptied, and a read in progress is no longer wanted. Where its work comes after the other blocks', line 0 has
the selection found from what they leave; the line store is emptied, and with selection SLOT the region lines of content
row 0 are named, to be fetched from their first pixel on, if that row's line is in the frame. Where it comes first, line
0 has the selection found before their changes; where the SHOWING slot then changes, what line 0 would take of it is
fill colour. That the order of the blocks is the sender's is the model's form of R139's either order
(notes/assumptions/5.md); that a read in progress runs to its end, its pixels discarded, is read from the rules by
inference (notes/assumptions/12.md). -/
def Obligations.SwitchAtFrameStart : Prop :=
  (∀ (w : Span) (edge : Bool) (order : List Block) (s u : State) (e : Evaluation), s.pass w = u →
    u.frameEnds = true → evaluation u.cfg (u.endFrame edge).timing = e →
    u.port.inFlight ≠ some .hold → (u.member.station = .member → e.lock = .locked) →
    (u.member.station ≠ .member → u.member.holdTimer ≠ 1) →
    ∃ t, exec (.frameStart w edge order) s = .next t
      ∧ (u.store.slots.first .chosen = none → t.store.slots = u.store.slots)
      ∧ (∀ i j, u.store.slots.first .chosen = some i → t.store.dropPending = false
          ∧ t.store.slots.get j =
            (if j = i then
               (if u.store.dropPending then .free
                else { u.store.slots.get i with state := .showing, pledged := false })
             else if (u.store.slots.get j).state = .showing then .free
             else if (u.store.slots.get j).state = .ready
                 ∧ later (u.store.slots.get i).lcs (u.store.slots.get j).lcs = true then .free
             else u.store.slots.get j)))
  ∧ ∀ (w : Span) (edge : Bool) (order : List Block) (s u : State) (e : Evaluation) (n : Word), s.pass w = u →
    u.frameEnds = true → evaluation u.cfg (u.endFrame edge).timing = e → u.timing.wfn + 1 = n →
    ∃ v : State, exec (.frameStart w edge order) s = .next v.settle
      ∧ v.picture.dither = n.toNat % 4 ∧ v.picture.patternWfn = n ∧ v.picture.nextPatternWfn = n ∧ v.picture.row = 0
      ∧ v.store.readFifo = [] ∧ v.store.fetchCol = 0
      ∧ v.store.transfer = (match u.store.transfer with
          | some (.read i l c k _) => some (.read i l c k false)
          | x => x)
      ∧ ∀ lines : List Nat,
          (if v.picture.selection = .slot ∧ 0 < u.cfg.ch
              ∧ u.cfg.vstart + u.cfg.cy ≤ u.cfg.vtot - 1 - min e.error u.cfg.slew / u.cfg.htot
            then (if u.cfg.rh = 1 then [0] else [0, 1]) else []) = lines →
          (.picture ∉ order ∨ (order.Nodup ∧ order.length = 4 ∧ order.getLast? = some .picture) →
            v.picture.selection = v.findSelection ∧ v.picture.field = v.identityField ∧ v.picture.fillFrom = none
            ∧ v.picture.lineStore = lines.map (fun k => ⟨k, [], .arriving⟩)
            ∧ v.store.named = lines.map (fun k => ⟨k, true⟩))
          ∧ (order.Nodup → order.head? = some .picture →
            v.picture.selection = u.findSelection ∧ v.picture.field = u.identityField
            ∧ (v.store.slots.first .showing = u.store.slots.first .showing → v.picture.fillFrom = none
              ∧ v.picture.lineStore = lines.map (fun k => ⟨k, [], .arriving⟩)
              ∧ v.store.named = lines.map (fun k => ⟨k, true⟩))
            ∧ (v.store.slots.first .showing ≠ u.store.slots.first .showing →
              v.picture.fillFrom = if u.findSelection = .slot then some 0 else none))

/-- Within a frame. The FS drive ends after two lines; a falling edge while the station does not drive is kept, and one
while it drives is not; a kept edge of a nominal frame or more is dropped. Over a Span the pixel position, the kept edge
and the ballot edge advance by its panel pixel clocks while the generator runs, up to the line's last pixel (the Span is
the model's, notes/assumptions/1.md). The end of a line that another line of the frame follows: pixel 0 of the next, the
kept edge and the ballot edge as much older, and the selection found from the station now holding for the new line.
Naming for a content row that is in the window and whose line is in the frame: the complete lines that it needs are
kept, the others released, and the missing ones named and arriving. At a line's end with SLOT taking effect, or standing
with nothing named, the store and the read FIFO are emptied, which where the slot has not changed is the model's choice
(notes/assumptions/57.md), and the first row still to be output is named; else, where a content row has been output, the
next one, unless it is named. Outside the window's lines the row held is the model's choice (notes/assumptions/48.md).
An underflow comes where the line's selection is SLOT, not yet at fill colour, and a pixel of the window has not
arrived; it shows fill colour from the present column on, counted once; the scaler has taken all that the read FIFO
held, which is the model's choice (notes/assumptions/11.md); every line still arriving is incomplete (read from the
rules by inference, notes/assumptions/32.md), and what is named and not yet fetched is discarded as it arrives
(notes/assumptions/12.md). -/
def Obligations.LinesAndEdges : Prop :=
  (∀ (w : Span) (s u : State) (n : Nat), s.pass w = u →
    (if s.timing.running then min w.pix (s.toLineEnd - 1) else 0) = n →
    u.timing = { s.timing with pixel := s.timing.pixel + n, keptEdge := s.timing.keptEdge.map (· + n) }
    ∧ u.ballot.edge = s.ballot.edge.map (· + n))
  ∧ (∀ (w : Span) (s u : State), s.pass w = u → u.timing.running = true →
    (u.timing.fsDrive = true → 2 ≤ u.timing.line →
      ∃ t, exec (.fsPulseEnd w) s = .next t ∧ Settled (u.setTiming { u.timing with fsDrive := false }) t)
    ∧ (u.timing.fsDrive = false →
      ∃ t, exec (.foreignEdge w) s = .next t ∧ Settled (u.setTiming { u.timing with keptEdge := some 0 }) t)
    ∧ (u.timing.fsDrive = true → ∃ t, exec (.foreignEdge w) s = .next t ∧ Settled u t)
    ∧ (∀ a, u.timing.keptEdge = some a → u.cfg.nominal ≤ a →
      ∃ t, exec (.keptEdgeExpiry w) s = .next t ∧ Settled (u.setTiming { u.timing with keptEdge := none }) t))
  ∧ (∀ u : State, u.lineFollows = true ↔ u.timing.running = true
      ∧ u.timing.line < u.cfg.vtot - 1 - u.timing.shortening / u.cfg.htot)
  ∧ (∀ (c : Settings) (j b : Nat), j * (65536 * c.rh / c.ch) / 65536 = b →
      rowLines c j = if b + 1 = c.rh then [b] else [b, b + 1])
  ∧ (∀ (u : State) (j : Nat) (kept : List StoreLine) (missing : List Nat),
      u.picture.lineStore.filter (fun l => decide (l.status = .complete ∧ l.line ∈ rowLines u.cfg j)) = kept →
      (rowLines u.cfg j).filter (fun n => decide (n ∉ kept.map (·.line))) = missing →
      (j < u.cfg.ch ∧ u.cfg.vstart + u.cfg.cy + j ≤ u.cfg.vtot - 1 - u.timing.shortening / u.cfg.htot →
        u.nameRow j = (u.setPicture { u.picture with
            lineStore := kept ++ missing.map (fun n => ⟨n, [], .arriving⟩), namedRow := some j }).setStore
          { u.store with named := u.store.named ++ missing.map (fun n => ⟨n, true⟩) })
      ∧ (¬(j < u.cfg.ch ∧ u.cfg.vstart + u.cfg.cy + j ≤ u.cfg.vtot - 1 - u.timing.shortening / u.cfg.htot) →
        u.nameRow j = u))
  ∧ (∀ (rw : Nat) (l : StoreLine) (ls : List StoreLine) (x : ReadPixel),
      takePixel rw [] x = [] ∧ takePixel rw (l :: ls) x =
        (if l.status = .arriving ∧ l.line = x.line ∧ l.pixels.length = x.col then
          { l with pixels := l.pixels ++ [x.rgb], status := if x.col + 1 = rw then .complete else .arriving }
         else l) :: takePixel rw ls x)
  ∧ (∀ (w : Span) (s u x : State) (first line : Nat), s.pass w = u → u.lineFollows = true →
      u.cfg.vstart + u.cfg.cy = first → u.timing.line = line →
      { u with
          timing := { u.timing with
            pixel := 0, line := line + 1, keptEdge := u.timing.keptEdge.map (· + u.toLineEnd) }
          ballot := { u.ballot with edge := u.ballot.edge.map (· + u.toLineEnd) }
          picture := { u.picture with
            selection := u.findSelection, nextSelection := u.findSelection, field := u.identityField, fillFrom := none,
            row := min (line + 1 - first) (u.cfg.ch - 1), patternWfn := u.picture.nextPatternWfn,
            lineStore := if u.toLineEnd ≠ 0 ∧ (u.picture.selection = .slot ∨ u.findSelection = .slot)
              then u.store.readFifo.foldl (takePixel u.cfg.rw) u.picture.lineStore else u.picture.lineStore }
          store := { u.store with
            readFifo := if u.toLineEnd ≠ 0 ∧ (u.picture.selection = .slot ∨ u.findSelection = .slot)
              then [] else u.store.readFifo } } = x →
      ∃ y : State, exec (.outputLineEnd w) s = .next y.settle
        ∧ (u.findSelection ≠ .slot → y = x)
        ∧ (u.findSelection = .slot → u.picture.selection ≠ .slot ∨ u.picture.namedRow = none →
            y = ((x.setPicture { x.picture with lineStore := [], namedRow := none }).setStore
              { x.store with
                readFifo := [], named := u.store.named.map (fun l => { l with live := false }),
                transfer := match u.store.transfer with
                  | some (.read i l c k _) => some (.read i l c k false)
                  | z => z }).nameRow (line + 1 - first))
        ∧ (u.findSelection = .slot → u.picture.selection = .slot → u.picture.namedRow ≠ none →
            (first ≤ line → line < first + u.cfg.ch → u.picture.namedRow ≠ some (line - first + 1) →
              y = x.nameRow (line - first + 1))
            ∧ (¬(first ≤ line ∧ line < first + u.cfg.ch) ∨ u.picture.namedRow = some (line - first + 1) → y = x)))
  ∧ (∀ u : State, u.pixelMissing = true ↔ u.timing.running = true ∧ u.picture.selection = .slot
      ∧ u.picture.fillFrom = none
      ∧ (u.cfg.hstart ≤ u.timing.pixel ∧ u.timing.pixel < u.cfg.hstart + u.cfg.aw
        ∧ u.cfg.vstart ≤ u.timing.line ∧ u.timing.line < u.cfg.vstart + u.cfg.ah)
      ∧ ∃ i j : Nat, u.timing.pixel = u.cfg.hstart + u.cfg.cx + i ∧ i < u.cfg.cw
        ∧ u.timing.line = u.cfg.vstart + u.cfg.cy + j ∧ j < u.cfg.ch
        ∧ scaledPixel u.cfg (u.store.readFifo.foldl (takePixel u.cfg.rw) u.picture.lineStore) i j = none)
  ∧ ∀ (w : Span) (s u : State), s.pass w = u →
    (u.lineFollows = true → ∃ t, exec (.outputLineEnd w) s = .next t
      ∧ t.timing = { u.timing with
          pixel := 0, line := u.timing.line + 1, keptEdge := u.timing.keptEdge.map (· + u.toLineEnd) }
      ∧ t.ballot = { u.ballot with edge := u.ballot.edge.map (· + u.toLineEnd) }
      ∧ t.picture.selection = u.findSelection ∧ t.picture.fillFrom = none ∧ t.picture.field = u.identityField
      ∧ t.picture.patternWfn = u.picture.nextPatternWfn ∧ t.store.slots = u.store.slots
      ∧ SameBut [.timing, .bus, .store, .ballot, .picture] u t)
    ∧ (u.pixelMissing = true → ∃ t, exec (.readUnderflow w) s = .next t
      ∧ t.picture.fillFrom = some u.column ∧ t.store.readFifo = [] ∧ (∀ l ∈ t.store.named, l.live = false)
      ∧ t.picture.lineStore = (u.store.readFifo.foldl (takePixel u.cfg.rw) u.picture.lineStore).map (fun l =>
          { l with status := if l.status = .arriving then .incomplete else l.status })
      ∧ t.counters = u.counters.bump .readUnderflow ∧ t.store.slots = u.store.slots
      ∧ SameBut [.bus, .store, .picture, .counters] u t)

/-! ## The status window and the cut-off -/

/-- The status window. Status open, at pixel 0 of line SOPEN: the window opens, frame set and reference are emptied; a
JOINING or MEMBER station places its STATUS, made from its own state, in the STATUS place, where it replaces one that
waits and counts it dropped; behind one that is being sent it is held, the one being sent goes on, and none is dropped
(read from the rules by inference, notes/assumptions/24.md); with the conflict latch set or the controller inactive the
placement is refused and changes nothing. The cut-off, at pixel 0 of line SCUT: the window closes, a waiting STATUS is
dropped and counted while one being sent goes on, the reference of the frame is found and the quiet-frame counter
updated; of the timing generator only the WFN can change. -/
def Obligations.StatusWindowOpensAndCloses : Prop :=
  (∀ (w : Span) (s u : State), s.pass w = u → u.timing.running = true → u.timing.line = u.cfg.sopen →
    u.timing.pixel = 0 → u.bus.windowOpen = false →
    ∃ t, exec (.statusOpen w) s = .next t
      ∧ t.bus.windowOpen = true ∧ t.member = { u.member with frameSet := [], reference := none }
      ∧ ((u.member.station ≠ .joining ∧ u.member.station ≠ .member) ∨ u.bus.latch = true ∨ u.bus.active = false →
          t.bus.statusPlace = u.bus.statusPlace ∧ t.bus.sending = u.bus.sending ∧ t.counters = u.counters)
      ∧ (∀ m : StatusMsg, u.member.station = .joining ∨ u.member.station = .member →
          u.bus.latch = false → u.bus.active = true →
          m = { isMember := u.member.station == .member, lock := u.timing.lock, input := u.input.state,
                wfn := u.timing.wfn,
                stamp := if u.member.station = .member then u.store.slots.showing.map (·.stamp) else none,
                mode := u.modes.record.mode, effective := u.modes.record.effective } →
          (u.bus.statusPlace = none →
            t.bus.statusPlace = some m ∧ t.bus.sending = u.bus.sending ∧ t.counters = u.counters)
          ∧ (u.bus.statusPlace ≠ none → u.sendingStatus = false →
            t.bus.statusPlace = some m ∧ t.bus.sending = u.bus.sending ∧ t.counters = u.counters.bump .statusDropped)
          ∧ (∀ d, u.bus.statusPlace ≠ none → u.bus.sending = some d → d.kind = .status →
            t.bus.statusPlace = u.bus.statusPlace ∧ t.bus.sending = some { d with nextStatus := some m }
            ∧ t.counters = u.counters))
      ∧ t.store.slots = u.store.slots ∧ SameBut [.bus, .store, .member, .picture, .counters] u t)
  ∧ (∀ u : State, u.cutoffDue = true ↔ u.timing.running = true ∧ u.timing.line = u.cfg.scut ∧ u.timing.pixel = 0
      ∧ u.bus.windowOpen = true)
  ∧ ∀ (w : Span) (modeFirst : Bool) (s u : State), s.pass w = u → u.cutoffDue = true →
    ∃ t, exec (.statusCutoff w modeFirst) s = .next t
      ∧ t.bus.windowOpen = false
      ∧ (u.sendingStatus = false → t.bus.statusPlace = none)
      ∧ (u.sendingStatus = true → t.bus.statusPlace = u.bus.statusPlace ∧ t.bus.sending = u.bus.sending)
      ∧ t.counters.get .statusDropped =
          (if u.bus.statusPlace.isSome = true ∧ u.sendingStatus = false then satInc (u.counters.get .statusDropped)
           else u.counters.get .statusDropped)
      ∧ t.member.reference = u.findReference
      ∧ t.member.quiet = (if u.findReference = none ∧ u.member.station = .joining ∧ u.timing.lock = .locked
          then min 511 (u.member.quiet + 1) else 0)
      ∧ t.timing = { u.timing with wfn := t.timing.wfn }
      ∧ SameBut [.timing, .bus, .store, .member, .modes, .picture, .port, .counters] u t

/-- What the evaluation picks. Modular order, the distance of two stamps and their match. The reference is the lowest
tile among the MEMBER messages of the frame set, with the station itself counted when it is MEMBER. The match of an
align request is a READY or SHOWING slot whose stamp matches within SKEW, none closer, and between equally close ones
none with a later LCS; where no match is taken, no such slot matches. The order of LCS values is said of slots within
half of the LCS circle, as the window check keeps them. -/
def Obligations.EvaluationPicks : Prop :=
  (∀ a b : Word, later a b = true ↔ 1 ≤ (a - b).toNat ∧ (a - b).toNat ≤ 32767)
  ∧ (∀ (v : Nat) (a b : Stamp),
    (a.wfn = b.wfn → stampDistance v a b = some ((a.line - b.line) + (b.line - a.line)))
    ∧ (a.wfn = b.wfn + 1 → stampDistance v a b = some (v - b.line + a.line))
    ∧ (b.wfn = a.wfn + 1 → stampDistance v a b = some (v - a.line + b.line))
    ∧ (a.wfn ≠ b.wfn → a.wfn ≠ b.wfn + 1 → b.wfn ≠ a.wfn + 1 → stampDistance v a b = none))
  ∧ (∀ (c : Settings) (a b : Stamp), stampsMatch c a b = true ↔ ∃ d, stampDistance c.vtot a b = some d ∧ d ≤ c.skew)
  ∧ (∀ u : State,
    (u.findReference = none ↔ u.member.station ≠ .member ∧ ∀ e ∈ u.member.frameSet, e.2.isMember = false)
    ∧ (∀ r, u.findReference = some r →
        ((u.member.station = .member ∧ r = u.tile) ∨ ∃ e ∈ u.member.frameSet, e.2.isMember = true ∧ e.1 = r)
        ∧ (u.member.station = .member → r.toNat ≤ u.tile.toNat)
        ∧ (∀ e ∈ u.member.frameSet, e.2.isMember = true → r.toNat ≤ e.1.toNat)))
  ∧ ∀ (c : Settings) (x : Slots) (p : Stamp),
    (∀ d i l, bestMatch (matchesOf c x p) = some (d, i, l) →
      ((x.get i).state = .ready ∨ (x.get i).state = .showing) ∧ (x.get i).lcs = l
      ∧ stampDistance c.vtot (x.get i).stamp p = some d ∧ d ≤ c.skew
      ∧ ∀ j e, (x.get j).state = .ready ∨ (x.get j).state = .showing →
          stampDistance c.vtot (x.get j).stamp p = some e →
          d ≤ e ∧ (e = d → (∃ n : Word, ∀ k, (x.get k).state = .ready ∨ (x.get k).state = .showing →
              (n - (x.get k).lcs).toNat ≤ 32767) → later (x.get j).lcs l = false))
    ∧ (bestMatch (matchesOf c x p) = none → ∀ j e, (x.get j).state = .ready ∨ (x.get j).state = .showing →
        stampDistance c.vtot (x.get j).stamp p = some e → c.skew < e)

/-- A LOCKED joiner with usable input and a reference adopts its WFN, every stamp it holds is shifted by the offset, and
it aligns: with a matching READY or SHOWING slot it is MEMBER with that slot shown, the slot that was SHOWING and the
READY slots older than the new one freed, and with the reference's mode record; without one it stays JOINING. -/
def Obligations.JoinerAligns : Prop :=
  (∀ (x : Slots) (i j : Fin 5), (showSlot x i).get j =
    if j = i then { x.get i with state := .showing, pledged := false }
    else if (x.get j).state = .showing then .free
    else if (x.get j).state = .ready ∧ later (x.get i).lcs (x.get j).lcs = true then .free else x.get j)
  ∧ ∀ (w : Span) (modeFirst : Bool) (s u : State) (r : Tile) (m : StatusMsg) (x : Slots), s.pass w = u →
    u.cutoffDue = true → u.member.station = .joining → u.timing.lock = .locked → u.usable = true →
    u.findReference = some r → u.memberMessages.find? (fun e => e.1 == r) = some (r, m) →
    x = u.store.slots.map (fun _ q => if q.state = .free then q
      else { q with stamp := { q.stamp with wfn := q.stamp.wfn + (m.wfn - u.timing.wfn) } }) →
    ∃ t, exec (.statusCutoff w modeFirst) s = .next t
      ∧ t.timing.wfn = m.wfn
      ∧ (∀ p d i l, m.stamp = some p → bestMatch (matchesOf u.cfg x p) = some (d, i, l) →
          t.member.station = .member ∧ t.member.holdTimer = 0 ∧ t.flag .stateChange = true
          ∧ t.store.slots = showSlot x i ∧ t.modes.record = ⟨m.mode, m.effective, r⟩
          ∧ t.counters.get .joins = satInc (u.counters.get .joins))
      ∧ ((∀ p, m.stamp = some p → bestMatch (matchesOf u.cfg x p) = none) →
          t.member.station = .joining ∧ t.store.slots = x
          ∧ t.counters.get .alignMisses = satInc (u.counters.get .alignMisses))

/-- A MEMBER whose reference is a peer checks itself: where the WFN differs or the stamps do not match, it is realigned,
losing its picture at once where HOLDFRAMES is 0, and then, LOCKED and with usable input, attempts to align at the same
cut-off: it adopts the WFN, its stamps are shifted, and with a match it is MEMBER again, without one JOINING. Where the
check passes, it stays MEMBER with its slots and its WFN. -/
def Obligations.MemberChecksReference : Prop :=
  ∀ (w : Span) (modeFirst : Bool) (s u : State) (r : Tile) (m : StatusMsg) (a b : Stamp) (x y : Slots), s.pass w = u →
    u.cutoffDue = true → u.member.station = .member → u.findReference = some r → r ≠ u.tile →
    u.memberMessages.find? (fun e => e.1 == r) = some (r, m) → m.stamp = some a → u.presented = some b →
    x = u.store.slots.map (fun _ q =>
      if u.cfg.holdframes = 0 ∧ (q.state = .showing ∨ (q.state = .ready ∧
          ∃ k, u.store.slots.first .chosen = some k ∧ later (u.store.slots.get k).lcs q.lcs = true)) then .free
      else q) →
    y = x.map (fun _ q => if q.state = .free then q
      else { q with stamp := { q.stamp with wfn := q.stamp.wfn + (m.wfn - u.timing.wfn) } }) →
    ∃ t, exec (.statusCutoff w modeFirst) s = .next t
      ∧ (m.wfn ≠ u.timing.wfn ∨ stampsMatch u.cfg a b = false →
          t.flag .realign = true ∧ t.flag .stateChange = true
          ∧ t.counters.get .realigns = satInc (u.counters.get .realigns)
          ∧ (t.member.station = .joining ∨ t.member.station = .member)
          ∧ t.modes.queue = []
          ∧ t.store.dropPending = (u.store.dropPending
              || decide (u.cfg.holdframes = 0 ∧ u.store.slots.first .chosen ≠ none))
          ∧ (u.timing.lock ≠ .locked ∨ u.usable = false →
              t.member.station = .joining ∧ t.member.quiet = 0 ∧ t.member.holdTimer = u.cfg.holdframes
              ∧ t.store.slots = x ∧ t.timing = u.timing ∧ t.modes.record = u.modes.record)
          ∧ (u.timing.lock = .locked → u.usable = true →
              t.timing = { u.timing with wfn := m.wfn }
              ∧ (∀ d i l, bestMatch (matchesOf u.cfg y a) = some (d, i, l) →
                  t.member.station = .member ∧ t.member.holdTimer = 0 ∧ t.store.slots = showSlot y i
                  ∧ t.modes.record = ⟨m.mode, m.effective, r⟩
                  ∧ t.counters.get .joins = satInc (u.counters.get .joins)
                  ∧ t.counters.get .alignMisses = u.counters.get .alignMisses)
              ∧ (bestMatch (matchesOf u.cfg y a) = none →
                  t.member.station = .joining ∧ t.member.quiet = 0 ∧ t.member.holdTimer = u.cfg.holdframes
                  ∧ t.store.slots = y ∧ t.modes.record = u.modes.record
                  ∧ t.counters.get .joins = u.counters.get .joins
                  ∧ t.counters.get .alignMisses = satInc (u.counters.get .alignMisses))))
      ∧ (m.wfn = u.timing.wfn → stampsMatch u.cfg a b = true →
          t.member.station = .member ∧ t.store.slots = u.store.slots ∧ t.timing = u.timing
          ∧ t.modes.record = u.modes.record ∧ t.counters.get .realigns = u.counters.get .realigns)

/-- FOUND is the status cut-off at which a LOCKED joiner with usable input, no reference and its quiet wait over, this
cut-off's quiet frame counted, FOUNDWAIT and twice its tile number, shows
its newest READY slot, the one whose LCS every other READY slot's is earlier than, frees the others, and is MEMBER with
the initial mode at its own WFN. That FOUND is the whole cut-off, with the deadline of a SET_MODE first, is read from
the rules by inference (notes/assumptions/4.md). -/
def Obligations.FoundingShowsNewest : Prop :=
  (∀ u : State, u.foundingDue = true ↔ u.cutoffDue = true ∧ u.findReference = none ∧ u.member.station = .joining
    ∧ u.timing.lock = .locked ∧ u.usable = true
    ∧ u.cfg.foundwait + 2 * u.tile.toNat ≤ min 511 (u.member.quiet + 1)
    ∧ ∃ j, (u.store.slots.get j).state = .ready)
  ∧ ∀ (w : Span) (s u : State) (i : Fin 5) (q : Slot), s.pass w = u → u.foundingDue = true →
    u.store.slots.get i = q → q.state = .ready →
    (∀ j, j ≠ i → (u.store.slots.get j).state = .ready → later q.lcs (u.store.slots.get j).lcs = true) →
    ∃ t, exec (.found w) s = .next t ∧ exec (.statusCutoff w true) s = .next t
      ∧ t.member.station = .member ∧ t.member.holdTimer = 0 ∧ t.flag .stateChange = true
      ∧ t.modes.record = ⟨u.cfg.initialMode, u.timing.wfn, u.tile⟩ ∧ t.timing = u.timing
      ∧ t.counters.get .foundings = satInc (u.counters.get .foundings)
      ∧ t.store.slots.get i = { q with state := .showing, pledged := false }
      ∧ ∀ j, j ≠ i → t.store.slots.get j =
          if (u.store.slots.get j).state = .ready ∨ (u.store.slots.get j).state = .showing then .free
          else u.store.slots.get j

/-- The mode controller at the cut-off. A station that is MEMBER after the evaluation, whether it was or has just
aligned or founded, holds as repair the newest record of another member's STATUS of its wall frame that is newer than
its own, or as new with another mode from a lower tile, the lowest tile among equals; that it is the newest is said of a
record at most 32767 frames behind the WFN, as a MEMBER keeps it. A MEMBER that is its own reference, or whose check
against a peer passes, keeps its record, and at the cut-off of frame t - 2 its SET_MODE ends: a waiting MODE is
withdrawn, the own entry removed and the command LATE; of one being sent the withdrawal is held. -/
def Obligations.CutoffModeWork : Prop :=
  (∀ (held : ModeRecord) (wfn : Word) (own r : Tile) (m : StatusMsg), repairCandidate held wfn own (r, m) = true ↔
    m.wfn = wfn ∧ later m.effective wfn = false
    ∧ (later m.effective held.effective = true
      ∨ (m.effective = held.effective ∧ m.mode ≠ held.mode ∧ r.toNat < own.toNat)))
  ∧ (∀ (u : State) (m : StatusMsg), u.checkFails m = true ↔
      ¬(m.wfn = u.timing.wfn ∧ ∃ a b, m.stamp = some a ∧ u.presented = some b ∧ stampsMatch u.cfg a b = true))
  ∧ ∀ (w : Span) (modeFirst : Bool) (s u : State), s.pass w = u → u.cutoffDue = true →
    ∃ t, exec (.statusCutoff w modeFirst) s = .next t
      ∧ (t.member.station = .member →
          (t.modes.repair = none → ∀ e ∈ u.member.frameSet, e.2.isMember = true →
              repairCandidate t.modes.record t.timing.wfn u.tile e = false)
          ∧ (∀ x, t.modes.repair = some x →
              ∃ e ∈ u.member.frameSet, e.2.isMember = true
                ∧ repairCandidate t.modes.record t.timing.wfn u.tile e = true
                ∧ x = ⟨e.2.mode, e.2.effective, e.1⟩)
          ∧ (∀ x e, t.modes.repair = some x → (t.timing.wfn - t.modes.record.effective).toNat ≤ 32767 →
              e ∈ u.member.frameSet → e.2.isMember = true →
              repairCandidate t.modes.record t.timing.wfn u.tile e = true →
              later e.2.effective x.effective = false
              ∧ (e.2.effective = x.effective → x.origin.toNat ≤ e.1.toNat)))
      ∧ (u.member.station = .member →
          u.findReference = some u.tile
            ∨ (∃ r m, u.findReference = some r ∧ r ≠ u.tile
                ∧ u.memberMessages.find? (fun e => e.1 == r) = some (r, m) ∧ u.checkFails m = false) →
          t.member.station = .member ∧ t.modes.record = u.modes.record ∧ t.timing = u.timing
          ∧ ∀ o, u.modes.outstanding = some o → o.ending = .none → u.timing.wfn = o.target - 2 →
              (u.bus.sendingKind ≠ some .mode →
                t.bus.modePlace = none ∧ t.modes.outstanding = none ∧ t.port.result = .late
                ∧ t.port.inFlight ≠ some .setMode
                ∧ t.modes.queue = u.modes.queue.filter (fun e => !(e.target == o.target && e.origin == u.tile)))
              ∧ (∀ d, u.bus.sending = some d → d.kind = .mode →
                t.bus.sending = some { d with withdraw := true } ∧ t.bus.modePlace = u.bus.modePlace
                ∧ t.modes.outstanding = some { o with ending := .late } ∧ t.port.result = u.port.result))

/-! ## The ballot -/

/-- The ballot window, from line BLINE - 1 to line BLINE + 12, or line 0 of the next frame where the frame is shortened
to end before, which is read from the rules by inference (notes/assumptions/41.md): at its start a message in progress
is discarded and counted, the receive path is in BALLOT and the engine in WATCH, where the first falling edge is the
ballot edge and later ones are ignored; at its end the receive path is in WAIT_IDLE with the idle count 0. -/
def Obligations.BallotWindowBeginsAndEnds : Prop :=
  (∀ u : State,
    (u.windowDue = true ↔ u.timing.running = true ∧ u.timing.line = u.cfg.bline - 1 ∧ u.timing.pixel = 0
      ∧ u.bus.ballotWindow = false)
    ∧ (u.windowEndDue = true ↔ u.timing.running = true ∧ u.timing.pixel = 0 ∧ u.bus.ballotWindow = true
        ∧ (u.timing.line = u.cfg.bline + 12 ∨ (u.timing.line = 0 ∧ 2 ≤ u.cfg.bline))))
  ∧ ∀ (w : Span) (s u : State), s.pass w = u →
    (u.windowDue = true → u.bus.sending = none →
      ∃ t, exec (.ballotWindowStart w) s = .next t
        ∧ t.bus.rx = .ballot ∧ t.bus.rxBits = [] ∧ t.bus.ballotWindow = true ∧ t.bus.idle = u.bus.idle
        ∧ t.ballot = (if u.ballot.phase = .idle then
            { u.ballot with phase := .watch, edge := none, lineResult := [], pledged := [], mask := [], dStar := 0 }
          else u.ballot)
        ∧ t.counters = (if u.bus.rx = .frame then u.counters.bump .rxErrors else u.counters)
        ∧ t.store.slots = u.store.slots ∧ SameBut [.bus, .store, .ballot, .picture, .counters] u t)
    ∧ (u.windowEndDue = true →
      ∃ t, exec (.ballotWindowEnd w) s = .next t
        ∧ Settled ((u.setBus { u.bus with rx := .waitIdle, rxBits := [], idle := 0, ballotWindow := false }).setBallot
            { u.ballot with phase := if u.ballot.phase = .spent then .idle else u.ballot.phase }) t)
    ∧ (u.timing.running = true → u.ballot.phase = .watch → u.ballot.edge = none →
      ∃ t, exec (.ballotEdge w) s = .next t ∧ Settled (u.setBallot { u.ballot with edge := some 0 }) t)
    ∧ (u.timing.running = true → u.ballot.phase = .watch → u.ballot.edge ≠ none →
      ∃ t, exec (.ballotEdge w) s = .next t ∧ Settled u t)

/-- The ballot line: a station that is no voter goes to IDLE; a voter on a stuck line, or a late one, is SPENT with d*
0, counted and realigned; any other voter takes its pledge, p and its mask and begins to vote: every READY slot is
pledged, or of four the three newest. That the stuck indication is read before lateness is read from the rules by
inference (notes/assumptions/8.md). -/
def Obligations.BallotLineDecides : Prop :=
  (∀ u : State,
    (u.isVoter = true ↔ u.member.station = .member ∧ u.bus.latch = false ∧ u.timing.lock = .locked)
    ∧ (u.ballotLineDue = true ↔ u.timing.running = true ∧ u.timing.line = u.cfg.bline ∧ u.timing.pixel = 0
        ∧ u.ballot.phase = .watch))
  ∧ ∀ (w : Span) (td : Level) (s u : State) (h : Nat), s.pass w = u → u.ballotLineDue = true → u.cfg.htot / 2 = h →
    (u.isVoter = false →
      ∃ t, exec (.ballotLine w td) s = .next t
        ∧ Settled (u.setBallot { u.ballot with phase := .idle, voter := false }) t)
    ∧ (u.isVoter = true → u.bus.stuck = true →
      ∃ t, exec (.ballotLine w td) s = .next t ∧ t.ballot.phase = .spent ∧ t.ballot.dStar = 0
        ∧ t.member.station = .joining ∧ t.flag .realign = true
        ∧ t.counters.get .ballotFaults = satInc (u.counters.get .ballotFaults)
        ∧ t.counters.get .realigns = satInc (u.counters.get .realigns))
    ∧ (u.isVoter = true → u.bus.stuck = false →
      (td = .dominant ∧ u.ballot.edge = none) ∨ (∃ a, u.ballot.edge = some a ∧ h < a) →
      ∃ t, exec (.ballotLine w td) s = .next t ∧ t.ballot.phase = .spent ∧ t.ballot.dStar = 0
        ∧ t.member.station = .joining ∧ t.flag .realign = true
        ∧ t.counters.get .ballotLate = satInc (u.counters.get .ballotLate)
        ∧ t.counters.get .realigns = satInc (u.counters.get .realigns))
    ∧ (∀ a, u.isVoter = true → u.bus.stuck = false →
      (td = .recessive ∧ a = 0 ∧ ∀ b, u.ballot.edge = some b → b ≤ h)
        ∨ (td = .dominant ∧ u.ballot.edge = some a ∧ a ≤ h) →
      ∃ t, exec (.ballotLine w td) s = .next t
        ∧ t.ballot.phase = .voting ∧ t.ballot.edge = some a ∧ t.ballot.voter = true ∧ t.ballot.lineResult = []
        ∧ t.ballot.p = (u.store.slots.showing.map (·.lcs)).getD 0
        ∧ (t.ballot.freeze = true ↔ u.modes.record.mode = .freeze)
        ∧ (∀ d, d ∈ t.ballot.mask ↔ 1 ≤ d ∧ d ≤ 8 ∧ t.ballot.p + BitVec.ofNat 16 d ∈ t.ballot.pledged)
        ∧ t.ballot.pledged.length = min 3 u.store.slots.ready.length
        ∧ (∀ v ∈ t.ballot.pledged, ∃ j, (u.store.slots.get j).state = .ready ∧ (u.store.slots.get j).lcs = v
            ∧ t.store.slots.get j = { u.store.slots.get j with pledged := true })
        ∧ (∀ j, (u.store.slots.get j).state ≠ .ready → t.store.slots.get j = u.store.slots.get j)
        ∧ ((∀ j, (u.store.slots.get j).pledged = false) →
            t.store.slots.toList.countP (fun e => e.2.pledged) = min 3 u.store.slots.ready.length
            ∧ ∀ n : Word, (∀ j, (u.store.slots.get j).state = .ready → (n - (u.store.slots.get j).lcs).toNat ≤ 32767) →
                ∀ i j, (u.store.slots.get i).state = .ready → (u.store.slots.get j).state = .ready →
                  (t.store.slots.get i).pledged = false → (t.store.slots.get j).pledged = true →
                  later (u.store.slots.get i).lcs (u.store.slots.get j).lcs = false)
        ∧ SameBut [.bus, .store, .ballot, .picture] u t)

/-- The ten bits: a voter in VOTING drives the start bit and the positions it does not hold dominant, leaves the close
bit and, outside FREEZE, the positions it holds recessive; in every other phase, after a fault and past bit 9 the ballot
engine drives nothing. The faulted bit is the first that reads recessive where it is driven dominant, or dominant at the
close bit. Over a Span the ballot edge falls behind by the pixel clocks that pass; outside VOTING, and with no ballot
edge, nothing else of the ballot changes; a voter reads the Span's samples in order, each into the next bit, at that
bit's middle and once, up to bit 9 and no further than a fault. -/
def Obligations.VoterDrivesItsBits : Prop :=
  ∀ u : State,
    (u.ballot.phase ≠ .voting → u.tdBallot = .recessive)
    ∧ (u.ballot.fault ≠ none → u.tdBallot = .recessive)
    ∧ (∀ a, u.ballot.phase = .voting → u.ballot.edge = some a → u.ballot.fault = none →
        (a / u.cfg.htot = 0 → u.tdBallot = .dominant)
        ∧ (∀ d, 1 ≤ d → d ≤ 8 → a / u.cfg.htot = d →
            (u.tdBallot = .recessive ↔ d ∈ u.ballot.mask ∧ u.ballot.freeze = false))
        ∧ (9 ≤ a / u.cfg.htot → u.tdBallot = .recessive))
    ∧ (u.ballot.fault = none ↔ ∀ k x, u.ballot.lineResult[k]? = some x →
        ¬(u.ballot.drive k = .dominant ∧ x = .recessive) ∧ ¬(k = 9 ∧ x = .dominant))
    ∧ (∀ k, u.ballot.fault = some k ↔
        (∃ x, u.ballot.lineResult[k]? = some x
          ∧ ((u.ballot.drive k = .dominant ∧ x = .recessive) ∨ (k = 9 ∧ x = .dominant)))
        ∧ ∀ j x, j < k → u.ballot.lineResult[j]? = some x →
            ¬(u.ballot.drive j = .dominant ∧ x = .recessive) ∧ ¬(j = 9 ∧ x = .dominant))
    ∧ ∀ (w : Span) (s : State) (n : Nat), s.pass w = u →
      (if s.timing.running then min w.pix (s.toLineEnd - 1) else 0) = n →
      u.ballot.edge = s.ballot.edge.map (· + n)
      ∧ (s.ballot.phase ≠ .voting ∨ s.ballot.edge = none → u.ballot = { s.ballot with edge := u.ballot.edge })
      ∧ (∀ a, s.ballot.phase = .voting → s.ballot.edge = some a → ∃ k, k ≤ w.ballot.length
          ∧ u.ballot = { s.ballot with
              edge := some (a + n), lineResult := s.ballot.lineResult ++ w.ballot.take k }
          ∧ (∀ m, m < k → s.ballot.lineResult.length + m < 10
              ∧ s.cfg.htot * (s.ballot.lineResult.length + m) + s.cfg.htot / 2 ≤ a + n
              ∧ { s.ballot with lineResult := s.ballot.lineResult ++ w.ballot.take m }.fault = none)
          ∧ (k < w.ballot.length → 10 ≤ s.ballot.lineResult.length + k
              ∨ a + n < s.cfg.htot * (s.ballot.lineResult.length + k) + s.cfg.htot / 2 ∨ u.ballot.fault ≠ none))

/-- The end of a ballot, at the end of bit 9 or the middle of a faulted bit. Read whole: d* is the largest position read
recessive, ADVANCES or REPEATS is counted, the READY slot with LCS p + d* becomes CHOSEN where a slot is SHOWING, and
every pledge is released. Faulted: d* is 0, nothing becomes CHOSEN, every pledge is released, BALLOT_FAULTS is counted,
and a MEMBER is realigned; a station that has left MEMBER keeps its state. -/
def Obligations.BallotEndDecides : Prop :=
  (∀ u : State, u.ballotEnds = true ↔ u.ballot.phase = .voting ∧ ∃ a, u.ballot.edge = some a
    ∧ (∀ k, u.ballot.fault = some k → u.cfg.htot * k + u.cfg.htot / 2 ≤ a)
    ∧ (u.ballot.fault = none → u.ballot.lineResult.length = 10 ∧ u.cfg.htot * 10 ≤ a))
  ∧ (∀ (w : Span) (s u : State), s.pass w = u → u.ballotEnds = true → u.ballot.fault = none →
      u.store.slots.first .chosen = none →
      ∃ (t : State) (d : Nat), exec (.ballotEnd w) s = .next t
        ∧ d ≤ 8 ∧ (d ≠ 0 → u.ballot.lineResult[d]? = some Level.recessive)
        ∧ (∀ k, d < k → k ≤ 8 → u.ballot.lineResult[k]? ≠ some Level.recessive)
        ∧ t.ballot.phase = .spent ∧ t.ballot.dStar = d
        ∧ t.counters = u.counters.bump (if d = 0 then .repeats else .advances)
        ∧ (∀ j, (t.store.slots.get j).pledged = false)
        ∧ (∀ j, (d = 0 ∨ u.store.slots.first .showing = none ∨ (u.store.slots.get j).state ≠ .ready
              ∨ (u.store.slots.get j).lcs ≠ u.ballot.p + BitVec.ofNat 16 d) →
            t.store.slots.get j = { u.store.slots.get j with pledged := false })
        ∧ (d ≠ 0 → u.store.slots.first .showing ≠ none →
            (∃ j, (u.store.slots.get j).state = .ready
              ∧ (u.store.slots.get j).lcs = u.ballot.p + BitVec.ofNat 16 d) →
            t.store.slots.first .chosen ≠ none)
        ∧ SameBut [.bus, .store, .ballot, .picture, .counters] u t)
  ∧ ∀ (w : Span) (s u : State), s.pass w = u → u.ballotEnds = true → u.ballot.fault ≠ none →
    ∃ t, exec (.ballotEnd w) s = .next t ∧ t.ballot.phase = .spent ∧ t.ballot.dStar = 0
      ∧ t.counters.get .ballotFaults = satInc (u.counters.get .ballotFaults)
      ∧ (∀ j, (t.store.slots.get j).pledged = false)
      ∧ (u.store.slots.first .chosen = none → t.store.slots.first .chosen = none)
      ∧ (u.member.station = .member → t.member.station = .joining ∧ t.flag .realign = true
          ∧ t.counters.get .realigns = satInc (u.counters.get .realigns))
      ∧ (u.member.station ≠ .member → t.member = u.member ∧ t.modes = u.modes ∧ t.port = u.port
          ∧ t.counters.get .realigns = u.counters.get .realigns)

/-! ## The Tile Bus -/

/-- Outside messages: idle after 11 recessive bit times; a falling edge after fewer than 10 only ends the count; a start
edge begins a message, as a sender where the station has one ready; in an idle bus the station begins its own; a line
dominant past 64 bit times is stuck until it reads recessive. What a station may send and when: only while active,
unsilenced, LOCKED and inside its status window, and of the waiting messages that would end before line BLINE - 2 the
one of lowest kind, by the durations of the kinds. -/
def Obligations.BusOutsideMessages : Prop :=
  (∀ (w : Span) (s u : State), s.pass w = u → u.bus.active = true →
    (u.bus.rx = .waitIdle → u.bus.idle = 11 →
      ∃ t, exec (.busIdle w) s = .next t ∧ Settled (u.setBus { u.bus with rx := .idle }) t)
    ∧ (u.bus.rx = .waitIdle → u.bus.idle < 10 →
      ∃ t, exec (.startEdge w) s = .next t ∧ Settled (u.setBus { u.bus with idle := 0 }) t)
    ∧ (u.bus.rx = .idle ∨ (u.bus.rx = .waitIdle ∧ 10 ≤ u.bus.idle) → u.bus.sending = none →
        (u.maySend = false ∨ u.nextToSend = none →
          ∃ t, exec (.startEdge w) s = .next t
            ∧ Settled (u.setBus { u.bus with rx := .frame, rxBits := [], bitPhase := 0, bitClock := 0 }) t)
        ∧ (∀ k, u.maySend = true → u.nextToSend = some k →
          (∃ t, exec (.startEdge w) s = .next t
            ∧ Settled (u.setBus { u.bus with
                rx := .frame, rxBits := [], bitPhase := 0, bitClock := 0, sending := some ⟨k, false, none, none⟩ }) t)
          ∧ (u.bus.idle = 11 → ∃ t, exec (.messageStart w) s = .next t
            ∧ Settled (u.setBus { u.bus with
                rx := .frame, rxBits := [], bitPhase := 0, bitClock := 0, sending := some ⟨k, false, none, none⟩ }) t)))
    ∧ (u.timing.lock = .locked → u.bus.rx = .waitIdle ∨ u.bus.rx = .idle → u.bus.ballotWindow = false →
        u.bus.stuckCount = 65 → u.bus.stuck = false →
        ∃ t, exec (.busStuck w) s = .next t
          ∧ Settled (((u.setBus { u.bus with stuck := true }).count .busStuck).raise .busStuck) t)
    ∧ (u.bus.stuck = true → u.bus.tdLevel = .recessive →
        ∃ t, exec (.stuckClear w) s = .next t ∧ Settled (u.setBus { u.bus with stuck := false }) t))
  ∧ ∀ u : State,
    (u.maySend = true ↔ u.bus.active = true ∧ u.bus.latch = false ∧ u.timing.lock = .locked ∧ u.bus.windowOpen = true
      ∧ u.bus.sending = none ∧ u.bus.ballotWindow = false)
    ∧ (∀ k, u.startsInTime k = true ↔
        (u.timing.line * u.cfg.htot + u.timing.pixel) * u.cfg.divider
          + (match k with | .mode => 307 | .leave => 210 | .status => 648) * u.cfg.multiplier
          < (u.cfg.bline - 2) * u.cfg.htot * u.cfg.divider)
    ∧ (u.nextToSend = some .mode ↔ u.bus.modePlace.isSome = true ∧ u.startsInTime .mode = true)
    ∧ (u.nextToSend = some .leave ↔ ¬(u.bus.modePlace.isSome = true ∧ u.startsInTime .mode = true)
        ∧ u.bus.leavePlace.isSome = true ∧ u.startsInTime .leave = true)
    ∧ (u.nextToSend = some .status ↔ ¬(u.bus.modePlace.isSome = true ∧ u.startsInTime .mode = true)
        ∧ ¬(u.bus.leavePlace.isSome = true ∧ u.startsInTime .leave = true)
        ∧ u.bus.statusPlace.isSome = true ∧ u.startsInTime .status = true)

/-- TD, clock by clock, at each clock the level that the other stations leave, recessive where the Span lists none, with
what the ballot engine drives at the Span's end, which is the model's choice (notes/assumptions/1.md). The line is
recessive only when all release it, and the station reads the line with its own drive in it; outside the message it
sends, in the ballot window and from the bit it loses on, the controller drives nothing. Bit times last 5, 5, 6, 5 and 6
XREF clocks and are sampled at clock 2 or 3; at its end a bit time enters the idle count and the stuck count, which
counts dominant bit times while the controller is active, the station LOCKED, and the receive path outside messages and
the ballot window, stopping at 65, and is 0 otherwise; that the conditions are judged at the bit time's end is the
model's choice (notes/assumptions/47.md). The falling edge of a mark bit after a recessive bit begins the mark's bit
time; that an edge before the end of the bit before it ends that bit is read from the rules by inference
(notes/assumptions/40.md). A mark bit is due after the start bit and after every eight bits of a byte, up to the last
byte of the kind whose code bits 2 to 4 show; the bit driven is the one in progress: the last sampled up to its end,
then the one after it. -/
def Obligations.TdIsReadByClock : Prop :=
  (∀ a b, lineLevel a b = .recessive ↔ a = .recessive ∧ b = .recessive)
  ∧ (∀ u : State, u.settle.bus = { u.bus with
      stuckCount := if u.bus.active = true ∧ u.timing.lock = .locked ∧ (u.bus.rx = .waitIdle ∨ u.bus.rx = .idle)
        ∧ u.bus.ballotWindow = false then u.bus.stuckCount else 0 })
  ∧ (List.range 5).map bitLength = [5, 5, 6, 5, 6] ∧ (List.range 5).map sampleClock = [2, 2, 3, 2, 3]
  ∧ (∀ (w : Span) (s : State) (n : Nat),
      (if s.timing.running then min w.pix (s.toLineEnd - 1) else 0) = n →
      (s.pass w).bus = s.bus.pass s.locked s.tile
        (s.setBallot { s.ballot with edge := s.ballot.edge.map (· + n) }).tdBallot w)
  ∧ (∀ (u : Bus) (locked : Bool) (t : Tile) (d : Level) (w : Span),
      (u.active = false → u.pass locked t d w = u)
      ∧ (u.active = true → u.pass locked t d w =
          ((List.range w.xref).map (fun k => (w.td[k]?).getD .recessive)).foldl (Bus.clock locked t d) u))
  ∧ (∀ (u : Bus) (t : Tile),
      (u.active = false ∨ u.ballotWindow = true ∨ u.sending = none → u.drive t = .recessive)
      ∧ (∀ l : List Level, u.active = true → u.ballotWindow = false → u.sendingLevels t = some l →
          ((∃ (k : Nat) (a b : Level), l[k]? = some a ∧ u.rxBits[k]? = some b ∧ a ≠ b) → u.drive t = .recessive)
          ∧ ((∀ (k : Nat) (a b : Level), l[k]? = some a → u.rxBits[k]? = some b → a = b) →
              u.drive t = (l[u.bitIndex]?).getD .recessive)))
  ∧ (∀ (u : Bus) (b : Level),
      u.bitIndex = (if u.bitClock ≤ sampleClock u.bitPhase then u.rxBits.length else u.rxBits.length - 1)
      ∧ (u.aligns b = true ↔ u.rx = .frame ∧ u.tdClock = .recessive ∧ b = .dominant
        ∧ u.rxBits.getLast? = some .recessive
        ∧ ∃ j, u.rxBits.length = 9 * j + 1 ∧ (j = 0
          ∨ ((u.rxBits.drop 2).take 3 = [.dominant, .dominant, .dominant] ∧ j < 6)
          ∨ ((u.rxBits.drop 2).take 3 = [.dominant, .dominant, .recessive] ∧ j < 4)
          ∨ ((u.rxBits.drop 2).take 3 = [.dominant, .recessive, .dominant] ∧ j < 13))))
  ∧ ∀ (locked : Bool) (t : Tile) (d others b : Level) (u v : Bus), lineLevel others (lineLevel d (u.drive t)) = b →
      u.clock locked t d others = v →
      v.tdClock = b
      ∧ (u.drive t = .dominant → b = .dominant)
      ∧ (u.aligns b = false → u.bitPhase < 5 → u.bitClock < bitLength u.bitPhase →
          (u.bitClock = sampleClock u.bitPhase → v.sample = b
            ∧ (u.rx = .frame → ¬(u.rxBits = [] ∧ b = .recessive) → v.rx = .frame ∧ v.rxBits = u.rxBits ++ [b])
            ∧ (u.rx = .frame → u.rxBits = [] → b = .recessive → v.rx = .waitIdle ∧ v.rxBits = [])
            ∧ (u.rx ≠ .frame → v.rx = u.rx ∧ v.rxBits = u.rxBits))
          ∧ (u.bitClock ≠ sampleClock u.bitPhase →
              v.sample = u.sample ∧ v.rx = u.rx ∧ v.rxBits = u.rxBits ∧ v.sending = u.sending)
          ∧ (u.bitClock + 1 < bitLength u.bitPhase →
              v.bitClock = u.bitClock + 1 ∧ v.bitPhase = u.bitPhase ∧ v.idle = u.idle ∧ v.tdLevel = u.tdLevel
              ∧ v.stuckCount = u.stuckCount)
          ∧ (u.bitClock + 1 = bitLength u.bitPhase →
              v.bitClock = 0 ∧ v.bitPhase = (u.bitPhase + 1) % 5 ∧ v.tdLevel = u.sample
              ∧ v.idle = (if u.sample = .recessive then min 11 (u.idle + 1) else 0)
              ∧ v.stuckCount = if u.active = true ∧ locked = true ∧ (u.rx = .waitIdle ∨ u.rx = .idle)
                  ∧ u.ballotWindow = false ∧ u.sample = .dominant then min 65 (u.stuckCount + 1) else 0))
      ∧ (u.aligns b = true → v.stuckCount = if u.bitClock ≤ sampleClock u.bitPhase then u.stuckCount else 0)
      ∧ (u.aligns b = true → u.bitPhase < 5 → v.bitClock = 1 ∧ v.rxBits = u.rxBits
          ∧ v.bitPhase = if u.bitClock ≤ sampleClock u.bitPhase then u.bitPhase else (u.bitPhase + 1) % 5)

/-- Messages on the line. A message's bytes: the header with kind code and tile number, the payload of its kind, and the
CRC-16 of x^16 + x^12 + x^5 + 1 from FFFFh. On the line: the start bit, each byte after its mark bit and most
significant bit first, two end bits. The message that a station sends is the one in its place. Received whole, a message
gives its sender's tile number and the message back, for every message that a station can make. -/
def Obligations.MessagesRoundTrip : Prop :=
  (∀ (k : Fin 12), modeByte .live = 0x00#8 ∧ modeByte .fill = 0x40#8 ∧ modeByte .freeze = 0xC0#8
    ∧ modeByte (.pattern k) = BitVec.ofNat 8 (128 + k.val))
  ∧ (∀ l : List Byte, crc16 l = (l.flatMap (fun b => (List.range 8).map (fun k => b.getLsbD (7 - k)))).foldl
      (fun (c : Word) b => if c.getLsbD 15 != b then (c <<< 1) ^^^ 0x1021#16 else c <<< 1) 0xFFFF#16)
  ∧ (∀ (t : Tile) (m : Message) (body : List Byte),
      (match m with
        | .mode x => (0#3 ++ t) :: (wordBytes x.target ++ [modeByte x.mode])
        | .leave r => [1#3 ++ t, match r with | .hostHold => 1 | .inputLost => 2 | .silenced => 3]
        | .status x => (2#3 ++ t) :: BitVec.ofNat 8 ((if x.isMember then 128 else 64)
              + 16 * (match x.lock with | .off => 0 | .seek => 1 | .locked => 2)
              + 4 * (match x.input with | .noSignal => 0 | .acquiring => 1 | .stable => 2)
              + (if x.stamp.isSome then 2 else 0))
            :: (wordBytes x.wfn
              ++ (match x.stamp with
                | none => [0, 0, 0, 0] | some p => wordBytes p.wfn ++ wordBytes (BitVec.ofNat 16 p.line))
              ++ [modeByte x.mode] ++ wordBytes x.effective)) = body →
      messageBytes t m = body ++ wordBytes (crc16 body))
  ∧ (∀ v : Word, wordBytes v = [BitVec.ofNat 8 (v.toNat / 256), BitVec.ofNat 8 (v.toNat % 256)])
  ∧ (∀ (t : Tile) (m : Message), messageLevels t m = .dominant :: ((messageBytes t m).flatMap (fun b => .dominant ::
      (List.range 8).map (fun k => if b.getLsbD (7 - k) then Level.recessive else .dominant))
      ++ [.recessive, .recessive]))
  ∧ (∀ (u : Bus) (t : Tile),
      (u.sending = none → u.sendingLevels t = none)
      ∧ ∀ d, u.sending = some d →
        (d.kind = .mode → u.sendingLevels t = u.modePlace.map (fun x => messageLevels t (.mode x)))
        ∧ (d.kind = .leave → u.sendingLevels t = u.leavePlace.map (fun x => messageLevels t (.leave x)))
        ∧ (d.kind = .status → u.sendingLevels t = u.statusPlace.map (fun x => messageLevels t (.status x))))
  ∧ ∀ (u : State) (t : Tile) (m : Message),
      (∀ x, m = .status x → x.isMember = x.stamp.isSome ∧ ∀ p, x.stamp = some p → p.line < u.cfg.vtot) →
      u.cfg.vtot ≤ 65536 → u.bus.rx = .frame → u.bus.sending = none → u.bus.rxBits = messageLevels t m →
      u.bus.bitClock ≤ sampleClock u.bus.bitPhase →
      u.receivedGood = some (t, m) ∧ u.receiveFailed = false

/-- The checks of reception. A message in progress that the station does not send fails at a missing mark bit, an
unknown kind, a wrong CRC-16 or a dominant end bit; one received whole fails at the end of its last bit where a field of
its payload is undefined, and is the message received, with its sender's tile number, otherwise. The fields: mode byte,
LEAVE reason, station state with its stamp, lock state, input state; spare bits are not checked. -/
def Obligations.ReceptionIsChecked : Prop :=
  (∀ (u : Bus) (n : Nat), u.bitsOver n = true ↔
    n < u.rxBits.length ∨ (n = u.rxBits.length ∧ u.bitClock ≤ sampleClock u.bitPhase))
  ∧ (∀ b : Byte, byteLevels b =
      .dominant :: (List.range 8).map (fun k => if b.getLsbD (7 - k) then Level.recessive else .dominant))
  ∧ (∀ u : State, u.bus.rx ≠ .frame ∨ u.bus.sending ≠ none → u.receivedGood = none ∧ u.receiveFailed = false)
  ∧ (∀ (u : State) (h : Byte) (rest : List Level), u.bus.rx = .frame → u.bus.sending = none →
      (u.bus.rxBits = .dominant :: .recessive :: rest → u.receiveFailed = true)
      ∧ (3 ≤ h.toNat / 32 → u.bus.rxBits = .dominant :: (byteLevels h ++ rest) → u.receiveFailed = true)
      ∧ ∀ (k : MsgKind) (n : Nat),
          (k, h.toNat / 32, n) ∈ [(MsgKind.mode, 0, 3), (MsgKind.leave, 1, 1), (MsgKind.status, 2, 10)] →
          (∀ bytes : List Byte, bytes.length < n + 2 →
            u.bus.rxBits = .dominant :: ((h :: bytes).flatMap byteLevels ++ .recessive :: rest) →
            u.receiveFailed = true)
          ∧ ∀ (p : List Byte) (crc : Word), p.length = n →
            u.bus.rxBits = .dominant :: ((h :: (p ++ wordBytes crc)).flatMap byteLevels ++ rest) →
            (crc ≠ crc16 (h :: p) → u.receiveFailed = true)
            ∧ (crc = crc16 (h :: p) →
              (∀ e, rest = .dominant :: e ∨ rest = .recessive :: .dominant :: e → u.receiveFailed = true)
              ∧ (rest = [.recessive, .recessive] → u.bus.bitClock ≤ sampleClock u.bus.bitPhase →
                (decodePayload u.cfg.vtot k p = none → u.receiveFailed = true ∧ u.receivedGood = none)
                ∧ ∀ m, decodePayload u.cfg.vtot k p = some m →
                    u.receiveFailed = false ∧ u.receivedGood = some (h.extractLsb' 0 5, m))))
  ∧ (∀ b : Byte, decodeMode b =
      if b.toNat / 64 = 0 then some .live else if b.toNat / 64 = 1 then some .fill
      else if b.toNat / 64 = 3 then some .freeze
      else if hn : b.toNat % 16 < 12 then some (.pattern ⟨b.toNat % 16, hn⟩) else none)
  ∧ (∀ (v : Nat) (a b c : Byte),
      decodePayload v .mode [a, b, c] = (decodeMode c).map (fun m => .mode ⟨a ++ b, m⟩)
      ∧ decodePayload v .leave [a] = if a = 1#8 then some (.leave .hostHold) else if a = 2#8 then some (.leave .inputLost)
          else if a = 3#8 then some (.leave .silenced) else none)
  ∧ ∀ (v : Nat) (b w1 w0 s1 s0 l1 l0 md e1 e0 : Byte),
      (∀ m, decodePayload v .status [b, w1, w0, s1, s0, l1, l0, md, e1, e0] = some m → ∃ x, m = .status x)
      ∧ ∀ x : StatusMsg, decodePayload v .status [b, w1, w0, s1, s0, l1, l0, md, e1, e0] = some (.status x) ↔
          b.toNat / 64 = (if x.isMember then 2 else 1)
          ∧ b.toNat / 16 % 4 = (match x.lock with | .off => 0 | .seek => 1 | .locked => 2)
          ∧ b.toNat / 4 % 4 = (match x.input with | .noSignal => 0 | .acquiring => 1 | .stable => 2)
          ∧ b.getLsbD 1 = x.isMember ∧ x.wfn = w1 ++ w0
          ∧ (x.isMember = true → (l1 ++ l0).toNat < v)
          ∧ x.stamp = (if x.isMember then some ⟨s1 ++ s0, (l1 ++ l0).toNat⟩ else none)
          ∧ decodeMode md = some x.mode ∧ x.effective = e1 ++ e0

/-- The end of a message of the station's own, no withdrawal or replacement held: lost at the first bit driven recessive
and read dominant, before the end bits, it waits in its place and the station goes on receiving; whole, read as driven
to the end of its last bit, it has left its place; failed at an end bit, it waits and RX_ERRORS is counted. A STATUS
lost or failed after the cut-off is dropped and counted. A message that fails reception is discarded and counted. With a
withdrawal or a replacement held: a STATUS or LEAVE sent whole, or ended otherwise with a withdrawal held, leaves its
place to the replacement, if one is held; one ended otherwise without a withdrawal is replaced, a STATUS counted as
dropped. A MODE sent whole is DONE though a withdrawal is held; one ended otherwise with it held is withdrawn, LATE with
the own entry removed, or ABANDONED; without it, it waits. That a replaced STATUS is counted is read from the rules by
inference (notes/assumptions/24.md); that a withdrawn STATUS is not counted though the cut-off has passed
(notes/assumptions/42.md) and which of two endings held against a MODE stands (notes/assumptions/44.md, 52.md) are the
model's choices. -/
def Obligations.MessagesEnd : Prop :=
  (∀ (u : State) (l : List Level), u.bus.sendingLevels u.tile = some l →
    (u.lossDue = true ↔ ∃ i, i + 2 < l.length ∧ l[i]? = some .recessive ∧ u.bus.rxBits[i]? = some .dominant
      ∧ ∀ k, k < i → l[k]? = u.bus.rxBits[k]?)
    ∧ (u.endBitDue = true ↔ ∃ i, l.length ≤ i + 2 ∧ l[i]? = some .recessive ∧ u.bus.rxBits[i]? = some .dominant
        ∧ (∀ k, k < i → l[k]? = u.bus.rxBits[k]?) ∧ u.bus.bitsOver (i + 1) = true)
    ∧ (u.sentDue = true ↔ (∃ rest, u.bus.rxBits = l ++ rest) ∧ u.bus.bitsOver l.length = true))
  ∧ ∀ (w : Span) (s u : State), s.pass w = u →
    (u.receiveFailed = true →
      ∃ t, exec (.messageDiscarded w) s = .next t
        ∧ Settled ((u.setBus { u.bus with rx := .waitIdle, rxBits := [] }).count .rxErrors) t)
    ∧ (∀ k, u.bus.sending = some ⟨k, false, none, none⟩ →
      (u.lossDue = true →
        ∃ t, exec (.arbitrationLoss w) s = .next t ∧ t.bus.sending = none
          ∧ t.bus.rx = u.bus.rx ∧ t.bus.rxBits = u.bus.rxBits
          ∧ t.counters.get .arbLosses = satInc (u.counters.get .arbLosses)
          ∧ t.bus.modePlace = u.bus.modePlace ∧ t.bus.leavePlace = u.bus.leavePlace
          ∧ t.bus.statusPlace = (if k = .status ∧ u.bus.windowOpen = false then none else u.bus.statusPlace)
          ∧ t.counters.get .statusDropped = (if k = .status ∧ u.bus.windowOpen = false
              then satInc (u.counters.get .statusDropped) else u.counters.get .statusDropped)
          ∧ t.store.slots = u.store.slots ∧ SameBut [.bus, .store, .picture, .counters] u t)
      ∧ (u.endBitDue = true →
        ∃ t, exec (.endBitFailure w) s = .next t ∧ t.bus.sending = none ∧ t.bus.rx = .waitIdle ∧ t.bus.rxBits = []
          ∧ t.counters.get .rxErrors = satInc (u.counters.get .rxErrors)
          ∧ t.bus.modePlace = u.bus.modePlace ∧ t.bus.leavePlace = u.bus.leavePlace
          ∧ t.bus.statusPlace = (if k = .status ∧ u.bus.windowOpen = false then none else u.bus.statusPlace)
          ∧ t.counters.get .statusDropped = (if k = .status ∧ u.bus.windowOpen = false
              then satInc (u.counters.get .statusDropped) else u.counters.get .statusDropped)
          ∧ t.store.slots = u.store.slots ∧ SameBut [.bus, .store, .picture, .counters] u t)
      ∧ (u.sentDue = true →
        ∃ t, exec (.messageSent w) s = .next t ∧ t.bus.sending = none ∧ t.bus.rx = .waitIdle ∧ t.bus.rxBits = []
          ∧ t.counters.get .msgsSent = satInc (u.counters.get .msgsSent)
          ∧ t.bus.modePlace = (if k = .mode then none else u.bus.modePlace)
          ∧ t.bus.leavePlace = (if k = .leave then none else u.bus.leavePlace)
          ∧ t.bus.statusPlace = (if k = .status then none else u.bus.statusPlace)
          ∧ t.member = { u.member with announced := u.member.announced || k == .status }
          ∧ (k = .mode → u.modes.outstanding ≠ none → t.modes.outstanding = none ∧ t.port.result = .done)
          ∧ (k ≠ .mode → t.modes = u.modes ∧ t.port = u.port)
          ∧ t.store.slots = u.store.slots ∧ SameBut [.bus, .store, .member, .modes, .picture, .port, .counters] u t))
    ∧ ∀ (c : Instr) (whole : Bool) (d : Sending), u.bus.sending = some d →
      (c = .messageSent w ∧ u.sentDue = true ∧ whole = true)
        ∨ (c = .arbitrationLoss w ∧ u.lossDue = true ∧ whole = false)
        ∨ (c = .endBitFailure w ∧ u.endBitDue = true ∧ whole = false) →
      ∃ t, exec c s = .next t ∧ t.bus.sending = none
        ∧ (d.kind ≠ .status → t.bus.statusPlace = u.bus.statusPlace
            ∧ t.counters.get .statusDropped = u.counters.get .statusDropped)
        ∧ (d.kind ≠ .leave → t.bus.leavePlace = u.bus.leavePlace)
        ∧ (d.kind ≠ .mode → t.bus.modePlace = u.bus.modePlace ∧ t.modes = u.modes ∧ t.port = u.port)
        ∧ (d.kind = .status → whole = true ∨ d.withdraw = true → t.bus.statusPlace = d.nextStatus
            ∧ t.counters.get .statusDropped = u.counters.get .statusDropped)
        ∧ (d.kind = .status → whole = false → d.withdraw = false →
            (∀ m, d.nextStatus = some m → t.bus.statusPlace = some m
              ∧ t.counters.get .statusDropped = satInc (u.counters.get .statusDropped))
            ∧ (d.nextStatus = none →
              t.bus.statusPlace = (if u.bus.windowOpen = true then u.bus.statusPlace else none)
              ∧ t.counters.get .statusDropped = (if u.bus.windowOpen = true then u.counters.get .statusDropped
                  else satInc (u.counters.get .statusDropped))))
        ∧ (d.kind = .leave → t.bus.leavePlace = (if whole = true ∨ d.withdraw = true then d.nextLeave
            else match d.nextLeave with | some r => some r | none => u.bus.leavePlace))
        ∧ (d.kind = .mode →
            (whole = true ∨ d.withdraw = true → t.bus.modePlace = none
              ∧ (u.modes.outstanding = none → t.modes = u.modes ∧ t.port = u.port)
              ∧ ∀ o, u.modes.outstanding = some o →
                  t.port = { u.port with
                    result := if whole then .done else if o.ending = .late then .late else .abandoned,
                    inFlight := if u.port.inFlight = some .setMode then none else u.port.inFlight }
                  ∧ t.modes = { u.modes with
                    outstanding := none,
                    queue := if whole = false ∧ o.ending = .late
                      then u.modes.queue.filter (fun e => !(e.target == o.target && e.origin == u.tile))
                      else u.modes.queue })
            ∧ (whole = false → d.withdraw = false →
              t.bus.modePlace = u.bus.modePlace ∧ t.modes = u.modes ∧ t.port = u.port))
        ∧ t.member.announced = (u.member.announced || (whole && d.kind == .status))

/-- A good foreign STATUS of another tile: its roster entry takes the fields, ROSTER_CHANGE when the state changes, and
in the status window it is the one message of that tile in the frame set. -/
def Obligations.StatusIsHeard : Prop :=
  ∀ (w : Span) (s u : State) (r : Tile) (m : StatusMsg), s.pass w = u → u.receivedGood = some (r, .status m) →
    r ≠ u.tile → u.member.roster.length = 32 →
    ∃ t, exec (.statusReceived w) s = .next t ∧ t.bus.rx = .waitIdle ∧ t.bus.rxBits = [] ∧ t.bus.idle = u.bus.idle
      ∧ t.member.roster[r.toNat]? = some
          ⟨if m.isMember then .member else .joining, 0, m.wfn, m.stamp, m.mode, m.effective, m.lock, m.input, none⟩
      ∧ (∀ k, k ≠ r.toNat → t.member.roster[k]? = u.member.roster[k]?)
      ∧ t.member = { u.member with
          roster := t.member.roster,
          frameSet := if u.bus.windowOpen then u.member.frameSet.filter (fun e => e.1 != r) ++ [(r, m)]
            else u.member.frameSet }
      ∧ (∀ e, u.member.roster[r.toNat]? = some e →
          (e.state ≠ (if m.isMember then .member else .joining) → t.flag .rosterChange = true)
          ∧ (e.state = (if m.isMember then .member else .joining) → t.port = u.port))
      ∧ SameBut [.bus, .store, .member, .picture, .port] u t

/-- A good foreign LEAVE in the roster, and the STATUS that brings the entry back. -/
def Obligations.LeaveIsHeard : Prop :=
  ∀ (w : Span) (s u : State) (r : Tile), s.pass w = u → u.member.roster.length = 32 →
    (∀ x, u.receivedGood = some (r, .leave x) →
      ∃ t, exec (.leaveReceived w) s = .next t
        ∧ (r = u.tile → t.member.roster = u.member.roster)
        ∧ (r ≠ u.tile → ∀ e, u.member.roster[r.toNat]? = some e →
            t.member.roster[r.toNat]? = some { e with state := .left, heard := 0, reason := some x }
            ∧ (e.state ≠ .left → t.flag .rosterChange = true)
            ∧ (e.state = .left → t.port = u.port)
            ∧ (∀ k, k ≠ r.toNat → t.member.roster[k]? = u.member.roster[k]?)
            ∧ t.member = { u.member with roster := t.member.roster }
            ∧ SameBut [.bus, .store, .member, .picture, .port] u t))
    ∧ (∀ m e, r ≠ u.tile → u.receivedGood = some (r, .status m) → u.member.roster[r.toNat]? = some e → e.state = .left →
      ∃ (t : State) (f : Entry), exec (.statusReceived w) s = .next t ∧ t.member.roster[r.toNat]? = some f
        ∧ f.state = if m.isMember then .member else .joining)

/-- A good foreign MODE of another tile: outside MEMBER it is discarded; in MEMBER a target not 1 to 128 frames ahead is
stale; any other is compared with the queue, which stays in order. -/
def Obligations.ModeIsScheduled : Prop :=
  ∀ (w : Span) (s u : State) (r : Tile) (m : ModeMsg) (d : Nat), s.pass w = u → u.receivedGood = some (r, .mode m) →
    r ≠ u.tile → (m.target - u.timing.wfn).toNat = d →
    ∃ t, exec (.modeReceived w) s = .next t ∧ t.bus.rx = .waitIdle ∧ t.bus.rxBits = []
      ∧ t.modes = { u.modes with queue := t.modes.queue } ∧ t.store.slots = u.store.slots
      ∧ SameBut [.bus, .store, .modes, .picture, .counters] u t
      ∧ (u.member.station ≠ .member → t.modes = u.modes ∧ t.counters = u.counters)
      ∧ (u.member.station = .member →
          (d = 0 ∨ 128 < d → t.modes = u.modes ∧ t.counters = u.counters.bump .modeStale)
          ∧ (1 ≤ d → d ≤ 128 →
              (∀ x, u.modes.queue.find? (fun e => e.target == m.target) = some x →
                (x.origin = r → t.counters = u.counters
                  ∧ t.modes.queue = u.modes.queue.map (fun e => if e.target = m.target then ⟨m.target, m.mode, r⟩ else e))
                ∧ (x.origin.toNat < r.toNat → t.modes = u.modes ∧ t.counters = u.counters.bump .modeConflicts)
                ∧ (r.toNat < x.origin.toNat → t.counters = u.counters.bump .modeConflicts
                  ∧ t.modes.queue = u.modes.queue.map (fun e => if e.target = m.target then ⟨m.target, m.mode, r⟩ else e)))
              ∧ (u.modes.queue.find? (fun e => e.target == m.target) = none →
                (4 ≤ u.modes.queue.length → t.modes = u.modes ∧ t.counters = u.counters.bump .modeOverflow)
                ∧ (u.modes.queue.length < 4 → t.counters = u.counters
                  ∧ t.modes.queue.length = u.modes.queue.length + 1
                  ∧ (∀ e, e ∈ t.modes.queue ↔ e = ⟨m.target, m.mode, r⟩ ∨ e ∈ u.modes.queue))))
          ∧ (u.modes.queue.Pairwise (fun a b =>
                targetDistance u.timing.wfn a.target < targetDistance u.timing.wfn b.target) →
              t.modes.queue.Pairwise (fun a b =>
                targetDistance u.timing.wfn a.target < targetDistance u.timing.wfn b.target)))

/-- A good message with the station's own tile number that it did not send: CONFLICT; and, the latch not yet set, the
station is silenced: holding area emptied, FS released, off the wall without a LEAVE. The roster does not change. -/
def Obligations.DuplicateSilences : Prop :=
  ∀ (c : Instr) (w : Span) (s u : State) (m : Message), s.pass w = u → u.receivedGood = some (u.tile, m) →
    (c = .statusReceived w ∧ m.kind = .status) ∨ (c = .modeReceived w ∧ m.kind = .mode)
      ∨ (c = .leaveReceived w ∧ m.kind = .leave) →
    ∃ t, exec c s = .next t ∧ t.flag .conflict = true ∧ t.bus.latch = true
      ∧ t.member.roster = u.member.roster ∧ t.member.frameSet = u.member.frameSet
      ∧ (u.bus.latch = true → t.member = u.member ∧ t.timing = u.timing ∧ t.modes = u.modes
          ∧ t.store.slots = u.store.slots ∧ t.counters = u.counters)
      ∧ (u.bus.latch = false → t.bus.modePlace = none ∧ t.bus.leavePlace = none ∧ t.bus.statusPlace = none
          ∧ t.bus.sending = none ∧ t.timing = { u.timing with fsDrive := false }
          ∧ t.modes.outstanding = none
          ∧ (u.modes.outstanding ≠ none → t.port.result = .abandoned)
          ∧ (u.member.station = .joining ∨ u.member.station = .member →
              t.member.station = .detached ∧ t.member.announced = false ∧ t.flag .stateChange = true)
          ∧ (u.member.station = .member → t.member.holdTimer = u.cfg.holdframes ∧ t.modes.queue = [])
          ∧ (u.member.station = .detached → t.member = u.member ∧ t.store.slots = u.store.slots))

/-! ## The input -/

/-- A sync transition keeps the run just ended for its level and finds the pulse level again; HS and VS leading edges in
the counts. At an HS edge the active line in progress ends: a region line whose entry has not finished is entered as
000000h from its next column on, is finished and counted, and its slot is TORN where the write FIFO has no place for all
of it. An HS edge that meets a held VS is taken first, and the VS after it. Over a Span the runs, the VS hold of 8 input
pixel clocks, the frame time, the HS period and the two timers count its clocks, each up to the top of its range, while
the input monitor is active. The Span is the model's (notes/assumptions/1.md). That a leading edge is judged by the
pulse level before the transition is read from the rules by inference (notes/assumptions/18.md), and so is that the
counts hold at the top of their ranges, the VS hold at 8 (notes/assumptions/34.md). -/
def Obligations.SyncEdges : Prop :=
  (∀ (y : Sync) (v : Pol),
    (y.transition v).level = some v ∧ (y.transition v).run = 0
    ∧ (y.transition v).keptHigh = (if v = .low ∧ y.whole = true then some y.run else y.keptHigh)
    ∧ (y.transition v).keptLow = (if v = .high ∧ y.whole = true then some y.run else y.keptLow)
    ∧ ((y.transition v).leading = true ↔ y.pulse = some v)
    ∧ ((y.transition v).keptHigh = none ∨ (y.transition v).keptLow = none → (y.transition v).pulse = none)
    ∧ (∀ h l, (y.transition v).keptHigh = some h → (y.transition v).keptLow = some l →
        (h < l → (y.transition v).pulse = some .high) ∧ (l < h → (y.transition v).pulse = some .low)
        ∧ (h = l → (y.transition v).pulse = y.pulse)))
  ∧ (∀ (w : Span) (s u : State), s.pass w = u →
      (s.input.active = false → u.input = s.input)
      ∧ (s.input.active = true → u.input = { s.input with
          hs := { s.input.hs with run := s.input.hs.run + w.vi }
          vs := { s.input.vs with run := s.input.vs.run + w.xref }
          heldVs := s.input.heldVs.map (fun a => min 8 (a + w.vi))
          count := { s.input.count with
            time := min 16777215 (s.input.count.time + w.xref)
            sinceHs := min 65535 (s.input.count.sinceHs + w.xref) }
          hsTimer := min 4096 (s.input.hsTimer + w.xref)
          vsTimer := min 4194304 (s.input.vsTimer + w.xref) }))
  ∧ (∀ (w : Span) (s u : State), s.pass w = u → u.input.active = true →
      (∀ v, u.input.hs.level ≠ some v → ∃ t, exec (.syncTransition w .hs v) s = .next t
        ∧ Settled (u.setInput { u.input with hs := u.input.hs.transition v }) t)
      ∧ (∀ v, u.input.vs.level ≠ some v → ∃ t, exec (.syncTransition w .vs v) s = .next t
        ∧ Settled (u.setInput { u.input with vs := u.input.vs.transition v }) t)
      ∧ (u.input.vs.leading = true → ∃ t, exec (.vsEdge w) s = .next t
        ∧ Settled (u.setInput { u.input with heldVs := some 0, vs := { u.input.vs with leading := false } }) t)
      ∧ (u.input.hs.leading = true → u.input.heldVs = none → exec (.hsEdge w) s = .next u.takeHs.settle)
      ∧ (u.input.hs.leading = true → u.input.heldVs ≠ none → exec (.hsEdge w) s =
          .next (u.setInput { u.input with heldVs := none }).takeHs.inputVs.settle))
  ∧ ∀ u t : State, u.input.heldVs = none → u.takeHs = t →
      t.input.hsTimer = 0 ∧ t.input.hsSeen = true ∧ t.input.state = u.input.state ∧ t.input.lcs = u.input.lcs
      ∧ t.input.record = u.input.record ∧ t.input.heldVs = none ∧ t.input.hs = { u.input.hs with leading := false }
      ∧ t.input.vs = u.input.vs ∧ t.input.vsTimer = u.input.vsTimer ∧ t.input.candidate = u.input.candidate
      ∧ t.input.agreement = u.input.agreement ∧ t.input.stable = u.input.stable
      ∧ t.input.count = { u.input.count with
          lines := min 4095 (u.input.count.lines + 1)
          hsPeriod := if u.input.count.hsTaken then min 65535 u.input.count.sinceHs else u.input.count.hsPeriod
          vsWidth := if u.input.vs.inPulse then min 4095 (u.input.count.vsWidth + 1) else u.input.count.vsWidth
          sinceHs := 0, hsTaken := true, lineActive := false }
      ∧ SameBut [.input, .store] u t
      ∧ (u.input.progress = none → t.input.progress = none ∧ t.store = u.store)
      ∧ ∀ p, u.input.progress = some p →
          (p.lineActive = false → t.input.progress = some p ∧ t.store = u.store)
          ∧ (p.lineActive = true →
            (¬(u.cfg.ry ≤ p.line ∧ p.line < u.cfg.ry + u.cfg.rh ∧ p.pixel < u.cfg.rx + u.cfg.rw) →
              t.input.progress = some { p with line := min 4095 (p.line + 1), pixel := 0, lineActive := false }
              ∧ t.store = u.store)
            ∧ (∀ e, u.cfg.ry ≤ p.line → p.line < u.cfg.ry + u.cfg.rh → p.pixel < u.cfg.rx + u.cfg.rw →
              min u.cfg.rw (p.pixel - u.cfg.rx) = e →
              t.input.progress = some
                { p with line := min 4095 (p.line + 1), pixel := 0, lineActive := false, entered := p.entered + 1 }
              ∧ (∀ j, j ≠ p.slot → t.store.slots.get j = u.store.slots.get j)
              ∧ t.store.slots.get p.slot = { u.store.slots.get p.slot with
                  lines := (u.store.slots.get p.slot).lines + 1,
                  torn := (u.store.slots.get p.slot).torn
                    || decide (e < u.cfg.rw ∧ 2048 < u.store.writeFifo.length + (u.cfg.rw - e)) }
              ∧ t.store = { u.store with slots := t.store.slots, writeFifo := t.store.writeFifo }
              ∧ ((u.store.slots.get p.slot).torn = true → t.store.writeFifo = u.store.writeFifo)
              ∧ ((u.store.slots.get p.slot).torn = false → u.store.writeFifo.length ≤ 2048 →
                  t.store.writeFifo = (u.store.writeFifo ++ (List.range (u.cfg.rw - e)).map (fun k =>
                    (⟨p.slot, p.line - u.cfg.ry, e + k, 0⟩ : WritePixel))).take 2048)))

/-- An input VS taken at the end of its hold, or with an HS edge that meets it, after that edge, by the input state: the
measured frame, field by field, the candidate, three frames that agree, the loss of STABLE, the count of frames and the
stamp of the one granted. In STABLE the line in progress ends as at an HS edge, a frame with all its region lines is
complete, and one without them is short; with a usable input the grant is then made, for the new count and the present
WFN and line, of the slots as that leaves them, and its slot is the capture in progress; the pixels that wait in the
write FIFO for a FILLING slot freed so leave it. Usable input and REGION_MISS. That NO_SIGNAL is left only with an HS
leading edge in the last 4096 XREF clocks is read from the rules by inference (notes/assumptions/19.md). That a frame
closed while a pulse level is undetermined has HS width 0 and that polarity active high is the model's choice
(notes/assumptions/54.md). -/
def Obligations.InputVsIsTaken : Prop :=
  (∀ u : State,
    (u.usable = true ↔ u.input.state = .stable ∧ ∃ r, u.input.stable = some r
      ∧ u.cfg.rx + u.cfg.rw ≤ r.activePixels ∧ u.cfg.ry + u.cfg.rh ≤ r.activeLines)
    ∧ (u.regionMiss = true ↔ u.input.state = .stable ∧ u.usable = false))
  ∧ (∀ n : Input, n.close =
      { hsPeriod := min 65535 n.count.hsPeriod, lines := min 4095 n.count.lines,
        activePixels := min 4095 n.count.activePixels, activeLines := min 4095 n.count.activeLines,
        hsWidth := min 65535 (match n.hs.pulse with
          | some .high => n.hs.keptHigh.getD 0 | some .low => n.hs.keptLow.getD 0 | none => 0),
        vsWidth := min 4095 n.count.vsWidth, hsHigh := decide (n.hs.pulse ≠ some .low),
        vsHigh := decide (n.vs.pulse ≠ some .low), frameTime := min 16777215 n.count.time })
  ∧ (∀ a b, recordsAgree a b = true ↔ a.lines = b.lines ∧ a.activePixels = b.activePixels
    ∧ a.activeLines = b.activeLines ∧ a.hsPeriod ≤ b.hsPeriod + 8 ∧ b.hsPeriod ≤ a.hsPeriod + 8)
  ∧ ∀ (w : Span) (c : Instr) (s u x : State) (r : Record), s.pass w = u →
      (c = .vsHoldExpiry w ∧ (∃ n, u.input.heldVs = some n ∧ 8 ≤ n) ∧ x = u.setInput { u.input with heldVs := none })
        ∨ (c = .hsEdge w ∧ u.input.active = true ∧ u.input.hs.leading = true ∧ u.input.heldVs ≠ none
          ∧ x = (u.setInput { u.input with heldVs := none }).takeHs) →
      x.input.close = r →
      ∃ t, exec c s = .next t ∧ t.input.heldVs = none ∧ t.input.vsTimer = 0
        ∧ (x.input.state = .noSignal → t.input.record = x.input.record ∧ t.input.lcs = x.input.lcs
            ∧ t.input.state = (if x.input.hsSeen = true ∧ x.input.hsTimer < 4096 then .acquiring else .noSignal))
        ∧ (x.input.state ≠ .noSignal → t.input.record = r ∧ t.input.count = .zero)
        ∧ (x.input.state = .acquiring →
            ((∀ k, x.input.candidate = some k → recordsAgree r k = false) →
              t.input.state = .acquiring ∧ t.input.candidate = some r ∧ t.input.agreement = 1
              ∧ t.input.lcs = x.input.lcs)
            ∧ (∀ k, x.input.candidate = some k → recordsAgree r k = true → x.input.agreement < 2 →
              t.input.state = .acquiring ∧ t.input.candidate = some k
              ∧ t.input.agreement = x.input.agreement + 1 ∧ t.input.lcs = x.input.lcs)
            ∧ (∀ k, x.input.candidate = some k → recordsAgree r k = true → 2 ≤ x.input.agreement →
              t.input.state = .stable ∧ t.input.stable = some k ∧ t.input.candidate = none
              ∧ t.input.lcs = x.input.lcs + 1 ∧ t.flag .inputChange = true
              ∧ (∀ g o, x.grant (x.input.lcs + 1) ⟨x.timing.wfn, x.timing.line⟩ = (g, o) →
                  x.cfg.rx + x.cfg.rw ≤ k.activePixels → x.cfg.ry + x.cfg.rh ≤ k.activeLines →
                  t.store.slots = g.store.slots ∧ t.counters = g.counters
                  ∧ (o = none → t.input.progress = x.input.progress)
                  ∧ ∀ i, o = some i → t.input.progress = some ⟨i, 0, 0, 0, false⟩)))
        ∧ (x.input.state = .stable →
            (∀ k, x.input.stable = some k → recordsAgree r k = true →
              t.input.state = .stable ∧ t.input.stable = some k ∧ t.input.lcs = x.input.lcs + 1
              ∧ (x.usable = true → x.input.progress = none → x.store.slots.first .free ≠ none →
                  ∃ i, t.input.progress = some ⟨i, 0, 0, 0, false⟩
                    ∧ t.store.slots.get i =
                        ⟨.filling, x.input.lcs + 1, ⟨x.timing.wfn, x.timing.line⟩, 0, false, false⟩))
            ∧ (∀ k, x.input.stable = some k → recordsAgree r k = false →
              t.input.state = .acquiring ∧ t.input.stable = none ∧ t.input.candidate = some r
              ∧ t.input.agreement = 1 ∧ t.input.lcs = x.input.lcs ∧ t.flag .inputChange = true
              ∧ (x.member.station = .joining ∨ x.member.station = .member → t.member.station = .detached)))
        ∧ (∀ p, x.input.state = .stable → x.input.progress = some p → p.lineActive = false → p.entered < x.cfg.rh →
            x.store.slots.first .filling ≠ none →
            t.counters.get .captureShort = satInc (x.counters.get .captureShort)
            ∧ (∀ y ∈ t.store.writeFifo, (x.store.slots.get y.slot).state ≠ .filling)
            ∧ (x.store.transfer ≠ none → t.store.writeFifo =
                x.store.writeFifo.filter (fun y => (x.store.slots.get y.slot).state != .filling)))
        ∧ (∀ k z g o, x.input.state = .stable → x.input.stable = some k → recordsAgree r k = true → x.usable = true →
            (x.setSlots z).grant (x.input.lcs + 1) ⟨x.timing.wfn, x.timing.line⟩ = (g, o) →
            (x.input.progress = none ∧ x.store.slots.first .filling = none ∧ z = x.store.slots)
              ∨ (∃ p d e, x.input.progress = some p
                ∧ (∀ j, (x.store.slots.get j).state = .filling ↔ j = p.slot)
                ∧ d = (if p.lineActive = true ∧ x.cfg.ry ≤ p.line ∧ p.line < x.cfg.ry + x.cfg.rh
                    ∧ p.pixel < x.cfg.rx + x.cfg.rw then 1 else 0)
                ∧ e = d * (x.cfg.rw - min x.cfg.rw (p.pixel - x.cfg.rx))
                ∧ z = x.store.slots.modify p.slot (fun q =>
                    if p.entered + d < x.cfg.rh ∨ q.torn = true ∨ (e ≠ 0 ∧ 2048 < x.store.writeFifo.length + e) then .free
                    else { q with state := .ready, lines := q.lines + d })) →
            t.store.slots = g.store.slots ∧ t.counters.get .rebases = g.counters.get .rebases
            ∧ t.counters.get .slotsOverwritten = g.counters.get .slotsOverwritten
            ∧ t.input.progress = o.map (fun i => ⟨i, 0, 0, 0, false⟩))
        ∧ (x.input.state ≠ .stable → x.store.transfer ≠ none → t.store.writeFifo = x.store.writeFifo)
        ∧ (∀ p d k, x.input.state = .stable → x.input.progress = some p →
            (∀ j, (x.store.slots.get j).state = .filling ↔ j = p.slot) →
            (if p.lineActive = true ∧ x.cfg.ry ≤ p.line ∧ p.line < x.cfg.ry + x.cfg.rh ∧ p.pixel < x.cfg.rx + x.cfg.rw
              then 1 else 0) = d →
            d * (x.cfg.rw - min x.cfg.rw (p.pixel - x.cfg.rx)) = k →
            (p.entered + d < x.cfg.rh →
              t.counters.get .captureShort = satInc (x.counters.get .captureShort)
              ∧ t.counters.get .captureDone = x.counters.get .captureDone
              ∧ t.counters.get .captureTorn = x.counters.get .captureTorn
              ∧ (∀ y ∈ t.store.writeFifo, y.slot ≠ p.slot)
              ∧ (x.store.transfer ≠ none →
                  t.store.writeFifo = x.store.writeFifo.filter (fun y => y.slot != p.slot)))
            ∧ (x.cfg.rh ≤ p.entered + d →
              t.counters.get .captureShort = x.counters.get .captureShort
              ∧ ((x.store.slots.get p.slot).torn = false → k = 0 ∨ x.store.writeFifo.length + k ≤ 2048 →
                  t.counters.get .captureDone = satInc (x.counters.get .captureDone)
                  ∧ t.counters.get .captureTorn = x.counters.get .captureTorn)
              ∧ ((x.store.slots.get p.slot).torn = true ∨ (k ≠ 0 ∧ 2048 < x.store.writeFifo.length + k) →
                  t.counters.get .captureTorn = satInc (x.counters.get .captureTorn)
                  ∧ t.counters.get .captureDone = x.counters.get .captureDone
                  ∧ (∀ y ∈ t.store.writeFifo, y.slot ≠ p.slot)
                  ∧ (x.store.transfer ≠ none →
                      t.store.writeFifo = x.store.writeFifo.filter (fun y => y.slot != p.slot)))))

/-- A grant. The window check: where the SHOWING slot's gap lies outside 1 to 11 and nothing is pledged or CHOSEN, its
LCS is advanced by 11 as often as brings the gap into that range and no oftener, every READY slot not later than the new
value is freed, and REBASES counts one; then every READY slot that is not pledged and not 1 to 11 frames old is freed.
The slot granted is then the lowest-numbered FREE one; with none FREE it is the oldest READY one that is not pledged,
and SLOTS_OVERWRITTEN counts one. That a gap of 0 counts as 65536 is read from the rules by inference
(notes/assumptions/22.md). -/
def Obligations.GrantTakesSlot : Prop :=
  ∀ (s : State) (n : Word) (st : Stamp) (t : State) (o : Option (Fin 5)), s.grant n st = (t, o) →
    ∃ x : Slots,
      ((∀ q, s.store.slots.showing = some q → gapInWindow (n - q.lcs).toNat = false →
          (∀ j, (s.store.slots.get j).pledged = false ∧ (s.store.slots.get j).state ≠ .chosen) →
          ∃ (v : Word) (k : Nat), v = q.lcs + BitVec.ofNat 16 (11 * k)
            ∧ 11 * k + (n - v).toNat = (if (n - q.lcs).toNat = 0 then 65536 else (n - q.lcs).toNat)
            ∧ (n - v).toNat = rebasedGap (n - q.lcs).toNat ∧ 1 ≤ (n - v).toNat ∧ (n - v).toNat ≤ 11
            ∧ t.counters.get .rebases = satInc (s.counters.get .rebases)
            ∧ ∀ j, x.get j =
              (if (s.store.slots.get j).state = .showing then { s.store.slots.get j with lcs := v }
               else if (s.store.slots.get j).state = .ready
                   ∧ (later (s.store.slots.get j).lcs v = false
                     ∨ gapInWindow (n - (s.store.slots.get j).lcs).toNat = false) then .free
               else s.store.slots.get j))
      ∧ ((s.store.slots.showing = none ∨ (∃ q, s.store.slots.showing = some q ∧ gapInWindow (n - q.lcs).toNat = true)
            ∨ (∃ j, (s.store.slots.get j).pledged = true ∨ (s.store.slots.get j).state = .chosen)) →
          t.counters.get .rebases = s.counters.get .rebases
          ∧ ∀ j, x.get j =
            (if (s.store.slots.get j).state = .ready ∧ (s.store.slots.get j).pledged = false
                ∧ gapInWindow (n - (s.store.slots.get j).lcs).toNat = false then .free
             else s.store.slots.get j)))
      ∧ (∀ i, o = some i → t.store.slots.get i = ⟨.filling, n, st, 0, false, false⟩
          ∧ (∀ j, j ≠ i → t.store.slots.get j = x.get j)
          ∧ (((x.get i).state = .free ∧ (∀ j, j < i → (x.get j).state ≠ .free)
                ∧ t.counters.get .slotsOverwritten = s.counters.get .slotsOverwritten)
            ∨ ((∀ j, (x.get j).state ≠ .free) ∧ (x.get i).state = .ready ∧ (x.get i).pledged = false
                ∧ (∀ j, (x.get j).state = .ready → (x.get j).pledged = false →
                    later (x.get i).lcs (x.get j).lcs = false)
                ∧ t.counters.get .slotsOverwritten = satInc (s.counters.get .slotsOverwritten))))
      ∧ (o = none → t.store.slots = x
          ∧ t.counters.get .slotsOverwritten = s.counters.get .slotsOverwritten
          ∧ ∀ j, (x.get j).state ≠ .free ∧ ((x.get j).state = .ready → (x.get j).pledged = true))
      ∧ SameBut [.store, .counters] s t

/-- A timer of the input expires: NO_SIGNAL with nothing measured; from STABLE the FILLING slot is freed uncounted, and
its pixels leave the write FIFO; a station on the wall or joining is DETACHED, with a LEAVE where its peers have heard
it. -/
def Obligations.InputTimerExpires : Prop :=
  ∀ (w : Span) (s u : State), s.pass w = u → u.input.active = true → u.input.state ≠ .noSignal →
    4096 ≤ u.input.hsTimer ∨ 4194304 ≤ u.input.vsTimer →
    ∃ t, exec (.inputTimerExpiry w) s = .next t
      ∧ t.input.state = .noSignal ∧ t.input.record = .zero ∧ t.input.count = .zero ∧ t.input.heldVs = none
      ∧ t.input.candidate = none ∧ t.input.stable = none ∧ t.input.lcs = u.input.lcs
      ∧ t.input.hs.pulse = none ∧ t.input.vs.pulse = none ∧ t.input.hs.keptHigh = none ∧ t.input.hs.keptLow = none
      ∧ t.input.vs.keptHigh = none ∧ t.input.vs.keptLow = none
      ∧ (u.input.state = .stable → t.flag .inputChange = true ∧ t.input.progress = none
          ∧ t.store.slots.first .filling = none
          ∧ (∀ y ∈ t.store.writeFifo, (u.store.slots.get y.slot).state ≠ .filling)
          ∧ (u.store.transfer ≠ none → t.store.writeFifo =
              u.store.writeFifo.filter (fun y => (u.store.slots.get y.slot).state != .filling)))
      ∧ (u.input.state ≠ .stable → u.store.transfer ≠ none → t.store.writeFifo = u.store.writeFifo)
      ∧ t.counters = u.counters ∧ t.timing = u.timing ∧ t.ballot = u.ballot
      ∧ (u.member.station = .joining ∨ u.member.station = .member →
          t.member.station = .detached ∧ t.member.announced = false ∧ t.flag .stateChange = true
          ∧ (u.member.station = .member → t.member.holdTimer = u.cfg.holdframes ∧ t.modes.queue = [])
          ∧ (u.sendingStatus = false → t.bus.statusPlace = none)
          ∧ (u.member.announced = true ∨ u.sendingStatus = true → u.bus.latch = false → u.bus.active = true →
              u.bus.sendingKind ≠ some .leave → t.bus.leavePlace = some .inputLost)
          ∧ (u.member.announced = false → u.sendingStatus = false → t.bus.leavePlace = u.bus.leavePlace))
      ∧ (u.member.station = .detached → t.member = u.member)

/-- A DE pixel in the counts, the first of a line opening an active line and those of the first active line counted in
its width; a region pixel into the write FIFO, one offered to a full FIFO lost with the slot TORN, and the completion of
a capture, at which a TORN slot is freed and its pixels leave the write FIFO. A DE pixel outside the region is a pixel
entry too (notes/assumptions/33.md), and WRITE_FIFO_OVERFLOW is the whole entry of the pixel that is lost, read from the
rules by inference (notes/assumptions/4.md). What the FIFO holds is said while a transfer is in progress; a free port
may take from it at once. -/
def Obligations.RegionPixelsEnter : Prop :=
  (∀ (n : FrameCount) (a : Nat), (if n.lineActive then n.activeLines else min 4095 (n.activeLines + 1)) = a →
    n.pixel = { n with
      lineActive := true, activeLines := a,
      activePixels := if a = 1 then min 4095 (n.activePixels + 1) else n.activePixels })
  ∧ (∀ (c : Settings) (p : Progress), inRegion c p = true ↔
      c.ry ≤ p.line ∧ p.line < c.ry + c.rh ∧ c.rx ≤ p.pixel ∧ p.pixel < c.rx + c.rw)
  ∧ ∀ (w : Span) (v : Rgb) (s u : State), s.pass w = u →
    (u.input.active = true → u.input.progress = none →
      ∃ t, exec (.regionPixelEntry w v) s = .next t
        ∧ Settled (u.setInput { u.input with count := u.input.count.pixel }) t)
    ∧ (∀ p, u.input.active = true → u.input.progress = some p →
      ∃ t, exec (.regionPixelEntry w v) s = .next t ∧ t.input.count = u.input.count.pixel
        ∧ SameBut [.bus, .input, .store, .picture] u t
        ∧ (inRegion u.cfg p = false → t.store.slots = u.store.slots
            ∧ t.input.progress = some { p with pixel := min 4095 (p.pixel + 1), lineActive := true })
        ∧ (inRegion u.cfg p = true → (u.store.slots.get p.slot).torn = false → u.store.writeFifo.length < 2048 →
            u.store.transfer ≠ none →
            t.store.writeFifo = u.store.writeFifo ++ [⟨p.slot, p.line - u.cfg.ry, p.pixel - u.cfg.rx, v⟩])
        ∧ (inRegion u.cfg p = true → p.pixel + 1 = u.cfg.rx + u.cfg.rw →
            (t.store.slots.get p.slot).lines = (u.store.slots.get p.slot).lines + 1
            ∧ ∃ q, t.input.progress = some q ∧ q.entered = p.entered + 1)
        ∧ (inRegion u.cfg p = true → p.pixel + 1 ≠ u.cfg.rx + u.cfg.rw →
            (t.store.slots.get p.slot).lines = (u.store.slots.get p.slot).lines
            ∧ t.input.progress = some { p with pixel := min 4095 (p.pixel + 1), lineActive := true }))
    ∧ (∀ p, u.input.active = true → u.input.progress = some p → inRegion u.cfg p = true →
      2048 ≤ u.store.writeFifo.length → (u.store.slots.get p.slot).torn = false →
      ∃ t, exec (.writeFifoOverflow w v) s = .next t ∧ exec (.regionPixelEntry w v) s = .next t
        ∧ (t.store.slots.get p.slot).torn = true
        ∧ (u.store.transfer ≠ none → t.store.writeFifo = u.store.writeFifo))
    ∧ (∀ p, u.input.progress = some p → u.cfg.rh ≤ p.entered →
      ∃ t, exec (.captureComplete w) s = .next t ∧ t.input = { u.input with progress := none }
        ∧ SameBut [.bus, .input, .store, .picture, .counters] u t
        ∧ (∀ j, j ≠ p.slot → t.store.slots.get j = u.store.slots.get j)
        ∧ ((u.store.slots.get p.slot).torn = false →
            t.store.slots.get p.slot = { u.store.slots.get p.slot with state := .ready }
            ∧ t.counters = u.counters.bump .captureDone)
        ∧ ((u.store.slots.get p.slot).torn = true →
            t.store.slots.get p.slot = .free ∧ t.counters = u.counters.bump .captureTorn
            ∧ (∀ y ∈ t.store.writeFifo, y.slot ≠ p.slot)
            ∧ (u.store.transfer ≠ none →
                t.store.writeFifo = u.store.writeFifo.filter (fun y => y.slot != p.slot)))
        ∧ ((u.store.slots.get p.slot).torn = false → u.store.transfer ≠ none →
            t.store.writeFifo = u.store.writeFifo))

/-! ## The panel -/

/-- What a panel pixel holds. The content source by station state, SHOWING slot and mode; under each source the content
of the window and of the border; the scaler's indices and weights and its two blends of the pixels that have arrived;
the gamma tables; the 6-bit dither; 0 outside the active area. The panel port's syncs and data enable, each asserted in
its own range at its configured polarity, and its clock; all low while the generator is stopped. That a MEMBER with no
SHOWING slot selects FILL is the model's choice (notes/assumptions/20.md), and so is that a SLOT pixel is judged from
the line store with all that the read FIFO holds taken into it (notes/assumptions/11.md). -/
def Obligations.PanelPixelPath : Prop :=
  (∀ u : State,
    (u.member.station = .starting ∨ u.member.station = .fault → u.findSelection = .inactive)
    ∧ (u.member.station = .detached ∨ u.member.station = .joining →
        (u.store.slots.first .showing ≠ none → u.findSelection = .slot)
        ∧ (u.store.slots.first .showing = none →
            u.findSelection = match u.cfg.detachedShow with | .fill => .fill | .ident => .pattern 10))
    ∧ (u.member.station = .member →
        (u.store.slots.first .showing ≠ none →
            u.findSelection = match u.modes.record.mode with
              | .live => .slot | .freeze => .slot | .fill => .fill | .pattern n => .pattern n)
        ∧ (u.store.slots.first .showing = none → u.findSelection = .fill)))
  ∧ (∀ (u : State) (x y : Nat),
    (u.picture.selection = .inactive → contentPixel u x y = 0)
    ∧ (u.picture.selection = .fill → contentPixel u x y = u.cfg.fillColour)
    ∧ (∀ n, u.picture.selection = .pattern n → contentPixel u x y = patternPixel u n x y)
    ∧ (u.picture.selection = .slot →
        (¬(u.cfg.cx ≤ x ∧ x < u.cfg.cx + u.cfg.cw ∧ u.cfg.cy ≤ y ∧ y < u.cfg.cy + u.cfg.ch) →
          contentPixel u x y = u.cfg.fillColour)
        ∧ (∀ k, u.picture.fillFrom = some k → k ≤ x → contentPixel u x y = u.cfg.fillColour)
        ∧ (u.cfg.cx ≤ x → x < u.cfg.cx + u.cfg.cw → u.cfg.cy ≤ y → y < u.cfg.cy + u.cfg.ch →
            (∀ k, u.picture.fillFrom = some k → x < k) →
            contentPixel u x y =
              (scaledPixel u.cfg (u.store.readFifo.foldl (takePixel u.cfg.rw) u.picture.lineStore)
                (x - u.cfg.cx) (y - u.cfg.cy)).getD u.cfg.fillColour)))
  ∧ (∀ (c : Settings) (store : List StoreLine) (i j a a2 f b b2 g : Nat),
      i * (65536 * c.rw / c.cw) / 65536 = a → i * (65536 * c.rw / c.cw) % 65536 = f →
      (if a + 1 = c.rw then c.rw - 1 else a + 1) = a2 →
      j * (65536 * c.rh / c.ch) / 65536 = b → j * (65536 * c.rh / c.ch) % 65536 = g →
      (if b + 1 = c.rh then c.rh - 1 else b + 1) = b2 →
      (storedPixel store b a = none ∨ storedPixel store b a2 = none ∨ storedPixel store b2 a = none
          ∨ storedPixel store b2 a2 = none → scaledPixel c store i j = none)
      ∧ ∀ p q r t : Rgb, storedPixel store b a = some p → storedPixel store b a2 = some q →
          storedPixel store b2 a = some r → storedPixel store b2 a2 = some t →
          ∃ v, scaledPixel c store i j = some v
            ∧ ∀ comp : Rgb → Nat, comp = redOf ∨ comp = greenOf ∨ comp = blueOf →
                comp v = ((comp p * (65536 - f) + comp q * f + 32768) / 65536 * (65536 - g)
                  + (comp r * (65536 - f) + comp t * f + 32768) / 65536 * g + 32768) / 65536)
  ∧ (∀ (u : State) (x y m : Nat),
      (if (y + u.picture.dither / 2) % 2 = 0 then (if (x + u.picture.dither % 2) % 2 = 0 then 0 else 2)
        else (if (x + u.picture.dither % 2) % 2 = 0 then 3 else 1)) = m →
      ∀ (comp : Rgb → Nat) (table : List Byte) (v : Byte),
        (comp = redOf ∧ table = u.picture.gammaR) ∨ (comp = greenOf ∧ table = u.picture.gammaG)
          ∨ (comp = blueOf ∧ table = u.picture.gammaB) →
        table[comp (contentPixel u x y)]? = some v →
        comp (panelPixel u x y) = if u.cfg.dither then 4 * min 63 ((v.toNat + m) / 4) else v.toNat)
  ∧ (∀ (c : Settings) (x y : Nat), inActiveArea c x y = true ↔
      c.hstart ≤ x ∧ x < c.hstart + c.aw ∧ c.vstart ≤ y ∧ y < c.vstart + c.ah)
  ∧ (∀ u : State,
      (u.timing.running = true → u.panelClock = true
        ∧ (u.panelSync.hs = true ↔ (u.timing.pixel < u.cfg.hsw ↔ u.cfg.hsHigh = true))
        ∧ (u.panelSync.vs = true ↔ (u.timing.line < u.cfg.vsw ↔ u.cfg.vsHigh = true))
        ∧ (u.panelSync.de = true ↔
            (inActiveArea u.cfg u.timing.pixel u.timing.line = true ↔ u.cfg.deHigh = true)))
      ∧ (u.timing.running = false → u.panelClock = false ∧ u.panelSync = ⟨false, false, false⟩))
  ∧ (∀ u : State,
      (u.timing.running = true → inActiveArea u.cfg u.timing.pixel u.timing.line = true →
        u.panelData = panelPixel u (u.timing.pixel - u.cfg.hstart) (u.timing.line - u.cfg.vstart))
      ∧ (u.timing.running = false ∨ inActiveArea u.cfg u.timing.pixel u.timing.line = false → u.panelData = 0))

/-- The panel patterns and the solid patterns, pixel by pixel. -/
def Obligations.PanelPatterns : Prop :=
  ∀ (u : State) (x y : Nat), x < u.cfg.aw → y < u.cfg.ah →
    patternPixel u 0 x y =
      (([0xFFFFFF#24, 0xFFFF00#24, 0x00FFFF#24, 0x00FF00#24, 0xFF00FF#24, 0xFF0000#24, 0x0000FF#24, 0x000000#24]
        : List Rgb)[8 * x / u.cfg.aw]?).getD 0
    ∧ redOf (patternPixel u 1 x y) = 256 * x / u.cfg.aw ∧ greenOf (patternPixel u 1 x y) = 256 * x / u.cfg.aw
    ∧ blueOf (patternPixel u 1 x y) = 256 * x / u.cfg.aw
    ∧ patternPixel u 2 x y = (if x % 32 = 0 ∨ y % 32 = 0 ∨ x = u.cfg.aw - 1 ∨ y = u.cfg.ah - 1 then 0xFFFFFF#24 else 0)
    ∧ patternPixel u 4 x y = 0xFF0000#24 ∧ patternPixel u 5 x y = 0x00FF00#24 ∧ patternPixel u 6 x y = 0x0000FF#24
    ∧ patternPixel u 7 x y = 0xFFFFFF#24
    ∧ patternPixel u 8 x y = (if (x / 32 + y / 32) % 2 = 0 then 0xFFFFFF#24 else 0)
    ∧ patternPixel u 11 x y =
        (if x < 2 ∨ u.cfg.aw - 2 ≤ x ∨ y < 2 ∨ u.cfg.ah - 2 ≤ y
            ∨ ((x = u.cfg.cx ∨ x = u.cfg.cx + u.cfg.cw - 1) ∧ u.cfg.cy ≤ y ∧ y ≤ u.cfg.cy + u.cfg.ch - 1)
            ∨ ((y = u.cfg.cy ∨ y = u.cfg.cy + u.cfg.ch - 1) ∧ u.cfg.cx ≤ x ∧ x ≤ u.cfg.cx + u.cfg.cw - 1)
          then 0xFFFFFF#24 else 0)

/-- The canvas grid, the moving bar and the identity pattern, pixel by pixel. The canvas width is read from the stable
record at the pixel (notes/assumptions/45.md); on a canvas of width 0, where the rules state no result, the bar is
either colour (notes/assumptions/21.md). -/
def Obligations.CanvasAndIdentityPatterns : Prop :=
  (∀ (u : State) (x y : Nat) (U V : Int → Int),
      (∀ z, U z = 65536 * u.cfg.rx + (z - u.cfg.cx) * (65536 * u.cfg.rw / u.cfg.cw : Nat)) →
      (∀ z, V z = 65536 * u.cfg.ry + (z - u.cfg.cy) * (65536 * u.cfg.rh / u.cfg.ch : Nat)) →
      patternPixel u 3 x y =
        (if U x / 4194304 ≠ U (x - 1) / 4194304 ∨ V y / 4194304 ≠ V (y - 1) / 4194304 then 0xFFFFFF#24 else 0)
      ∧ (u.input.stable = none → patternPixel u 9 x y = 0)
      ∧ (∀ r, u.input.stable = some r → r.activePixels ≠ 0 →
          patternPixel u 9 x y =
            (if (U x / 65536 - ((u.picture.patternWfn.toNat * 8) % r.activePixels : Nat)) % (r.activePixels : Int) ≤ 15
              then 0xFFFFFF#24 else 0))
      ∧ (patternPixel u 9 x y = 0xFFFFFF#24 ∨ patternPixel u 9 x y = 0))
  ∧ (∀ u : State, (u.bus.latch = true → u.identityField = 0x600000#24)
      ∧ (u.bus.latch = false → (u.member.station = .detached → u.identityField = 0x000060#24)
        ∧ (u.member.station = .joining → u.identityField = 0x604000#24)
        ∧ (u.member.station = .member → u.identityField = 0x006000#24)))
  ∧ (∀ (u : State) (k x y : Nat) (x0 y0 : Int), max 1 (min u.cfg.aw u.cfg.ah / 32) = k →
      ((u.cfg.aw : Int) - 10 * k) / 2 = x0 → ((u.cfg.ah : Int) - 7 * k) / 2 = y0 →
      ((x : Int) < x0 ∨ x0 + 10 * k ≤ x ∨ (y : Int) < y0 ∨ y0 + 7 * k ≤ y → patternPixel u 10 x y = u.picture.field)
      ∧ ∀ col r dx dy : Nat, col < 10 → r < 7 → dx < k → dy < k →
          (x : Int) = x0 + k * col + dx → (y : Int) = y0 + k * r + dy →
          (col < 4 → patternPixel u 10 x y =
            if dotLit (u.tile.toNat / 10) col r then 0xFFFFFF#24 else u.picture.field)
          ∧ (col = 4 ∨ col = 5 → patternPixel u 10 x y = u.picture.field)
          ∧ (6 ≤ col → patternPixel u 10 x y =
            if dotLit (u.tile.toNat % 10) (col - 6) r then 0xFFFFFF#24 else u.picture.field))
  ∧ (∀ d, d < 10 → ∀ c, c < 4 → ∀ r, r < 7 → (dotLit d c r = true ↔
      (r = 0 ∧ d ∈ [0, 2, 3, 5, 6, 7, 8, 9]) ∨ (c = 3 ∧ r ≤ 3 ∧ d ∈ [0, 1, 2, 3, 4, 7, 8, 9])
      ∨ (c = 3 ∧ 3 ≤ r ∧ d ∈ [0, 1, 3, 4, 5, 6, 7, 8, 9]) ∨ (r = 6 ∧ d ∈ [0, 2, 3, 5, 6, 8, 9])
      ∨ (c = 0 ∧ 3 ≤ r ∧ d ∈ [0, 2, 6, 8]) ∨ (c = 0 ∧ r ≤ 3 ∧ d ∈ [0, 4, 5, 6, 8, 9])
      ∨ (r = 3 ∧ d ∈ [2, 3, 4, 5, 6, 8, 9])))

/-! ## The observation port -/

/-- HOLD, RELEASE, SET_MODE, CLEAR_EVENTS and CLEAR_COUNTERS at a port that answers and has no transaction open: refused
in STARTING and FAULT, BUSY while a command is in flight, with nothing else changed but the port's record; carried out
otherwise. SET_MODE's own checks are another statement. That each leaves COMMAND selected, being a write to it, is read
from the rules by inference (notes/assumptions/17.md). -/
def Obligations.HostCommandsAreChecked : Prop :=
  ∀ (w : Span) (b : Byte) (k : Word) (c : Instr) (code : Byte) (s u : State), s.pass w = u → u.loader.phase ≠ .held →
    u.port.tx = .waiting →
    (c, code) ∈ [(.hold w, 0x01#8), (.release w, 0x02#8), (.setMode w b, 0x03#8), (.clearEvents w k, 0x04#8),
      (.clearCounters w, 0x05#8)] →
    ∃ t, exec c s = .next t ∧ t.port.lastCode = some code ∧ t.port.selected = .command ∧ t.port.tx = .waiting
      ∧ (u.member.station = .starting ∨ u.member.station = .fault →
          t.port.result = .refusedState ∧ t.port.inFlight = u.port.inFlight ∧ t.port.flags = u.port.flags
          ∧ t.store.slots = u.store.slots ∧ SameBut [.bus, .store, .picture, .port] u t)
      ∧ (u.member.station ≠ .starting → u.member.station ≠ .fault → u.port.inFlight ≠ none →
          t.port.result = .busy ∧ t.port.inFlight = u.port.inFlight ∧ t.port.flags = u.port.flags
          ∧ t.store.slots = u.store.slots ∧ SameBut [.bus, .store, .picture, .port] u t)
      ∧ (u.member.station ≠ .starting → u.member.station ≠ .fault → u.port.inFlight = none →
          (c = .hold w → t.port.result = .accepted ∧ t.port.inFlight = some .hold ∧ t.port.flags = u.port.flags
            ∧ SameBut [.bus, .store, .picture, .port] u t)
          ∧ (c = .release w → t.port.result = .done ∧ t.member = { u.member with hostHold := false }
            ∧ SameBut [.bus, .store, .member, .picture, .port] u t)
          ∧ (c = .clearEvents w k → t.port.result = .done ∧ t.port.flags = u.port.flags &&& ~~~k
            ∧ SameBut [.bus, .store, .picture, .port] u t)
          ∧ (c = .clearCounters w → t.port.result = .done ∧ (∀ n, t.counters.get n = 0)
            ∧ SameBut [.bus, .store, .picture, .port, .counters] u t))

/-- SET_MODE past the port's checks: a bad index, a station that is not MEMBER, an outstanding SET_MODE and a full queue
are refused; otherwise it is accepted and its MODE stands in the MODE place with the target MODELEAD frames ahead. Its
entry joins a queue without that target, replaces an own entry there, and against another tile's counts MODE_CONFLICTS,
replacing that of a higher tile and yielding to that of a lower. A refused placement ends the command ABANDONED, its own
entry removed. -/
def Obligations.SetModeIsChecked : Prop :=
  ∀ (w : Span) (b : Byte) (s u : State), s.pass w = u → u.loader.phase ≠ .held → u.port.tx = .waiting →
    u.member.station ≠ .starting → u.member.station ≠ .fault → u.port.inFlight = none →
    ∃ t, exec (.setMode w b) s = .next t ∧ t.port.lastCode = some 0x03#8
      ∧ SameBut [.bus, .store, .modes, .picture, .port, .counters] u t
      ∧ (decodeMode b = none → t.port.result = .refusedArg ∧ t.modes = u.modes)
      ∧ (∀ m, decodeMode b = some m →
          (u.member.station ≠ .member → t.port.result = .refusedState ∧ t.modes = u.modes)
          ∧ (u.member.station = .member → u.modes.outstanding ≠ none → t.port.result = .busy ∧ t.modes = u.modes)
          ∧ (∀ tg, u.member.station = .member → u.modes.outstanding = none →
              tg = u.timing.wfn + BitVec.ofNat 16 u.cfg.modelead →
              (4 ≤ u.modes.queue.length → (∀ e ∈ u.modes.queue, e.target ≠ tg) →
                t.port.result = .busy ∧ t.modes = u.modes)
              ∧ (u.modes.queue.length < 4 ∨ (∃ e ∈ u.modes.queue, e.target = tg) →
                  (u.modes.queue.find? (fun e => e.target == tg) = none → t.counters = u.counters)
                  ∧ (∀ x, u.modes.queue.find? (fun e => e.target == tg) = some x →
                      t.counters = if x.origin = u.tile then u.counters else u.counters.bump .modeConflicts)
                  ∧ (u.bus.latch = false → u.bus.active = true → u.bus.modePlace = none →
                    t.port.result = .accepted ∧ t.port.inFlight = some .setMode
                    ∧ t.modes.outstanding = some ⟨tg, m, .none⟩ ∧ t.bus.modePlace = some ⟨tg, m⟩
                    ∧ (u.modes.queue.find? (fun e => e.target == tg) = none →
                        t.modes.queue.length = u.modes.queue.length + 1
                        ∧ ∀ e, e ∈ t.modes.queue ↔ e = ⟨tg, m, u.tile⟩ ∨ e ∈ u.modes.queue)
                    ∧ (∀ x, u.modes.queue.find? (fun e => e.target == tg) = some x →
                        (x.origin.toNat < u.tile.toNat → t.modes.queue = u.modes.queue)
                        ∧ (u.tile.toNat ≤ x.origin.toNat → t.modes.queue =
                            u.modes.queue.map (fun e => if e.target = tg then ⟨tg, m, u.tile⟩ else e))))
                  ∧ (u.bus.latch = true ∨ u.bus.active = false ∨ u.bus.modePlace ≠ none →
                    t.port.result = .abandoned ∧ t.port.inFlight = none ∧ t.modes.outstanding = none
                    ∧ t.bus.modePlace = u.bus.modePlace
                    ∧ (∀ e ∈ t.modes.queue, ¬(e.target = tg ∧ e.origin = u.tile))
                    ∧ (∀ e, e.target ≠ tg → (e ∈ t.modes.queue ↔ e ∈ u.modes.queue))))))

/-- RESTART, in every load phase in which the port answers: the load begins anew at WAIT, every block is at its RESTART
values, picture output and the port's own part included, and counters, flags, memory, address and selected item are
kept, with RESTARTED set. The selected item is then COMMAND: a RESTART keeps the selection, and its own write has
selected COMMAND before it is taken, which is read from the rules by inference (notes/assumptions/17.md). That the port
holds the acknowledgements of that write (notes/assumptions/30.md), that the snapshot last taken is kept
(notes/assumptions/50.md) and that nothing is stored of a write to the memory that is cut off (notes/assumptions/53.md)
are the model's choices. -/
def Obligations.RestartBeginsLoad : Prop :=
  ∀ (w : Span) (s u : State), s.pass w = u → u.loader.phase ≠ .held → u.port.tx = .waiting →
    ∃ t, exec (.restart w) s = .next t
      ∧ t.loader = { Loader.initial with phase := .wait } ∧ t.timing = .initial ∧ t.bus = .initial ∧ t.input = .initial
      ∧ t.store = .initial ∧ t.ballot = .initial ∧ t.member = .initial ∧ t.modes = .initial
      ∧ t.picture = .initial
      ∧ t.port = { u.port with
          tx := .waiting, selected := .command, lastCode := none, result := .none, inFlight := none,
          flags := u.port.flags ||| Event.mark .restarted, acks := [true, true, true] }
      ∧ t.counters = u.counters ∧ t.mem = u.mem

/-- The clear write to EVENTS clears the flags marked and touches no result; a read after a selection returns the item's
bytes as they stand, 00h past its end, and the read's address is acknowledged after the two bytes written; a read alone
returns the item selected before. A write of a command's bytes to COMMAND is that command; a write to COMMAND that is
none of the commands of Figure 28, whatever the station state, is recorded by its first byte and refused for its
arguments, and does nothing else; without a byte it only selects. An unknown item number selects nothing and it and what
follows are not acknowledged. Another address is not acknowledged; with RESETn low the port answers nothing.
ATTN is driven low exactly while a flag is set whose event the mask in use enables. That the snapshot stands after the
read's STOP (notes/assumptions/50.md) and that the port holds the acknowledgements of the last transaction, a single
refusal for another address (notes/assumptions/30.md), are the model's choices; that EVENTS is selected after the clear
write is read from the rules by inference (notes/assumptions/17.md). -/
def Obligations.ItemsAreReadAndCleared : Prop :=
  ∀ (w : Span) (s u : State), s.pass w = u → u.port.tx = .waiting →
    (u.loader.phase ≠ .held →
      (∀ k, ∃ t, exec (.eventsClearWrite w k) s = .next t
        ∧ t.port.flags = u.port.flags &&& ~~~k ∧ t.port.result = u.port.result ∧ t.port.lastCode = u.port.lastCode
        ∧ t.port.inFlight = u.port.inFlight ∧ t.port.selected = .events ∧ SameBut [.bus, .store, .picture, .port] u t)
      ∧ (∀ (i : Item) (n : Nat), ∃ t, exec (.itemSelect w u.port.address [i.byte] (.read n)) s = .next t
        ∧ t.port.selected = i ∧ t.port.snapshot = some (u.item i)
        ∧ t.port.returned = (List.range n).map (fun k => ((u.item i)[k]?).getD 0)
        ∧ t.port.acks = [true, true, true] ∧ t.port.lastCode = u.port.lastCode
        ∧ t.port.flags = u.port.flags ∧ t.port.result = u.port.result ∧ SameBut [.bus, .store, .picture, .port] u t)
      ∧ (∀ n : Nat, ∃ t, exec (.itemSelect w u.port.address [] (.read n)) s = .next t
        ∧ t.port = { u.port with
            snapshot := some (u.item u.port.selected), acks := [true],
            returned := (List.range n).map (fun k => ((u.item u.port.selected)[k]?).getD 0) }
        ∧ SameBut [.bus, .store, .picture, .port] u t)
      ∧ (∀ b k c bytes, (c, bytes) ∈ ([(.hold w, [0x01#8]), (.release w, [0x02#8]), (.setMode w b, [0x03#8, b]),
            (.clearEvents w k, 0x04#8 :: wordBytes k), (.clearCounters w, [0x05#8]), (.restart w, [0x06#8])] :
            List (Instr × List Byte)) →
          exec (.itemSelect w u.port.address (0x07#8 :: bytes) .stop) s = exec c s)
      ∧ (∀ (x : Byte) (rest : List Byte), ¬(rest.length = 0 ∧ (x = 0x01#8 ∨ x = 0x02#8 ∨ x = 0x05#8 ∨ x = 0x06#8)) →
          ¬(rest.length = 1 ∧ x = 0x03#8) → ¬(rest.length = 2 ∧ x = 0x04#8) →
          ∃ t, exec (.itemSelect w u.port.address (0x07#8 :: x :: rest) .stop) s = .next t
            ∧ t.port = { u.port with
                selected := .command, lastCode := some x, result := .refusedArg,
                acks := true :: true :: (List.range (rest.length + 1)).map (fun k => decide (k < 3)) }
            ∧ t.store.slots = u.store.slots ∧ SameBut [.bus, .store, .picture, .port] u t)
      ∧ (∀ i : Item, ∃ t, exec (.itemSelect w u.port.address [i.byte] .stop) s = .next t
        ∧ t.port = { u.port with selected := i, acks := [true, true] } ∧ SameBut [.bus, .store, .picture, .port] u t)
      ∧ (∀ (b : Byte) (rest : List Byte), 8 ≤ b.toNat →
          ∃ t, exec (.itemSelect w u.port.address (b :: rest) .stop) s = .next t
            ∧ t.port = { u.port with acks := true :: (b :: rest).map (fun _ => false) }
            ∧ SameBut [.bus, .store, .picture, .port] u t)
      ∧ (∀ a bytes fin, a ≠ u.port.address → ∃ t, exec (.itemSelect w a bytes fin) s = .next t
        ∧ t.port = { u.port with acks := [false] } ∧ SameBut [.bus, .store, .picture, .port] u t))
    ∧ (u.loader.phase = .held → ∀ a bytes fin, ∃ t, exec (.itemSelect w a bytes fin) s = .next t ∧ Settled u t)
    ∧ (u.attnLow = true ↔ ∃ k, k < 10 ∧ u.port.flags.getLsbD k = true ∧ u.cfg.eventMask.getLsbD k = true)

/-- The bytes of the eight items as the port shows them, field by field; numbers most significant byte first; the 25
counters in the order of section 10.5. -/
def Obligations.ItemLayouts : Prop :=
  ∀ (u : State) (num : Item → Nat → Nat → Nat) (bit : Item → Nat → Nat → Bool),
    (∀ i k n, num i k n = bytesNat (((u.item i).drop k).take n)) →
    (∀ i k n, bit i k n = (((u.item i)[k]?).getD 0).getLsbD n) →
    ([.ident, .station, .input, .slots, .roster, .counters, .events, .command] : List Item).map
        (fun i => (u.item i).length) = [3, 19, 20, 50, 384, 50, 4, 2]
    ∧ u.item .ident = [0x09#8, 0x6A#8, 0x01#8]
    ∧ (num .station 0 1 = (match u.member.station with
          | .starting => 0 | .fault => 1 | .detached => 2 | .joining => 3 | .member => 4)
      ∧ num .station 1 1 = (match u.loader.phase with
          | .held => 0 | .wait => 1 | .primary => 2 | .backup => 3 | .pll => 4 | .run => 5 | .fault => 6)
      ∧ num .station 2 1 = (match u.loader.copyInUse with | none => 0 | some .primary => 1 | some .backup => 2)
      ∧ num .station 3 1 = (match u.loader.cause with
          | .none => 0 | .noImage => 1 | .badCrc => 2 | .missingRecord => 3 | .range => 4 | .constraint => 5
          | .pllNoLock => 6)
      ∧ bit .station 4 0 = u.member.hostHold ∧ bit .station 4 1 = u.bus.latch ∧ bit .station 4 2 = u.bus.stuck
      ∧ num .station 5 1 = u.member.holdTimer % 256 ∧ num .station 6 2 = u.member.quiet % 65536
      ∧ num .station 8 1 = u.tile.toNat ∧ num .station 9 2 = u.timing.wfn.toNat
      ∧ num .station 11 2 = u.timing.line % 65536 ∧ num .station 13 1 = u.timing.lock.code.toNat
      ∧ num .station 14 1 = (modeByte u.modes.record.mode).toNat
      ∧ num .station 15 2 = u.modes.record.effective.toNat ∧ num .station 17 1 = u.modes.record.origin.toNat
      ∧ num .station 18 1 = u.modes.queue.length % 256)
    ∧ (num .input 0 1 = u.input.state.code.toNat ∧ bit .input 1 0 = u.usable ∧ bit .input 1 1 = u.regionMiss
      ∧ num .input 2 2 = u.input.lcs.toNat ∧ num .input 4 2 = u.input.record.hsPeriod % 65536
      ∧ num .input 6 2 = u.input.record.lines % 65536 ∧ num .input 8 2 = u.input.record.activePixels % 65536
      ∧ num .input 10 2 = u.input.record.activeLines % 65536 ∧ num .input 12 2 = u.input.record.hsWidth % 65536
      ∧ num .input 14 2 = u.input.record.vsWidth % 65536 ∧ bit .input 16 0 = u.input.record.hsHigh
      ∧ bit .input 16 1 = u.input.record.vsHigh ∧ num .input 17 3 = u.input.record.frameTime % 16777216)
    ∧ (∀ (i : Fin 5) (r : Slot), u.store.slots.get i = r →
        num .slots (10 * i.val) 1 = (match r.state with
          | .free => 0 | .filling => 1 | .ready => 2 | .chosen => 3 | .showing => 4)
        ∧ bit .slots (10 * i.val + 1) 0 = r.torn ∧ bit .slots (10 * i.val + 1) 1 = r.pledged
        ∧ num .slots (10 * i.val + 2) 2 = r.lcs.toNat ∧ num .slots (10 * i.val + 4) 2 = r.stamp.wfn.toNat
        ∧ num .slots (10 * i.val + 6) 2 = r.stamp.line % 65536 ∧ num .slots (10 * i.val + 8) 2 = r.lines % 65536)
    ∧ (∀ (k : Nat) (e : Entry), k < 32 →
        (if k = u.tile.toNat then
            { state := .absent, heard := 0, wfn := u.timing.wfn,
              stamp := if u.member.station = .member then u.store.slots.showing.map (·.stamp) else none,
              mode := u.modes.record.mode, effective := u.modes.record.effective, lock := u.timing.lock,
              input := u.input.state, reason := if u.bus.latch then some .silenced else none }
          else (u.member.roster[k]?).getD .absent) = e →
        num .roster (12 * k) 1 = (if k = u.tile.toNat then 5 + 16 * u.member.station.code.toNat
          else match e.state with | .absent => 0 | .joining => 1 | .member => 2 | .lapsed => 3 | .left => 4)
        ∧ num .roster (12 * k + 1) 1 = e.heard % 256 ∧ num .roster (12 * k + 2) 2 = e.wfn.toNat
        ∧ num .roster (12 * k + 4) 1 = (if e.stamp.isSome then 1 else 0) + 2 * e.lock.code.toNat + 8 * e.input.code.toNat
            + 32 * (match e.reason with | none => 0 | some .hostHold => 1 | some .inputLost => 2 | some .silenced => 3)
        ∧ num .roster (12 * k + 5) 2 = (match e.stamp with | none => 0 | some p => p.wfn.toNat)
        ∧ num .roster (12 * k + 7) 2 = (match e.stamp with | none => 0 | some p => p.line % 65536)
        ∧ num .roster (12 * k + 9) 1 = (modeByte e.mode).toNat ∧ num .roster (12 * k + 10) 2 = e.effective.toNat)
    ∧ (∀ (k : Nat) (c : Counter),
        ([.lockLosses, .msgsSent, .arbLosses, .rxErrors, .statusDropped, .busStuck, .captureDone, .captureShort,
          .captureTorn, .slotsOverwritten, .rebases, .readUnderflow, .advances, .repeats, .ballotLate, .ballotFaults,
          .joins, .alignMisses, .foundings, .realigns, .lapses, .modeStale, .modeConflicts, .modeOverflow,
          .modeRepairs] : List Counter)[k]? = some c → num .counters (2 * k) 2 = (u.counters.get c).toNat)
    ∧ num .events 0 2 = u.port.flags.toNat ∧ num .events 2 2 = (u.cfg.eventMask &&& 0x03FF#16).toNat
    ∧ num .command 0 1 = (u.port.lastCode.getD 0).toNat
    ∧ num .command 1 1 = (match u.port.result with
        | .none => 0 | .accepted => 1 | .done => 2 | .refusedState => 3 | .refusedArg => 4 | .busy => 5 | .late => 6
        | .abandoned => 7)
end

