-- ==== Sys2Proof/Laws/State.lean ====
section
/-! SUPPORT. Each update of one part of the state, seen through each part: one lemma for each, true by definition, so
that no proof unfolds a record update. -/

namespace Sys2Proof.Machine

@[simp] theorem State.setPending_pending (s : State) (x : List Instr) : (s.setPending x).pending = x := rfl
@[simp] theorem State.setPending_loader (s : State) (x : List Instr) : (s.setPending x).loader = s.loader := rfl
@[simp] theorem State.setPending_timing (s : State) (x : List Instr) : (s.setPending x).timing = s.timing := rfl
@[simp] theorem State.setPending_bus (s : State) (x : List Instr) : (s.setPending x).bus = s.bus := rfl
@[simp] theorem State.setPending_input (s : State) (x : List Instr) : (s.setPending x).input = s.input := rfl
@[simp] theorem State.setPending_store (s : State) (x : List Instr) : (s.setPending x).store = s.store := rfl
@[simp] theorem State.setPending_ballot (s : State) (x : List Instr) : (s.setPending x).ballot = s.ballot := rfl
@[simp] theorem State.setPending_member (s : State) (x : List Instr) : (s.setPending x).member = s.member := rfl
@[simp] theorem State.setPending_modes (s : State) (x : List Instr) : (s.setPending x).modes = s.modes := rfl
@[simp] theorem State.setPending_picture (s : State) (x : List Instr) : (s.setPending x).picture = s.picture := rfl
@[simp] theorem State.setPending_port (s : State) (x : List Instr) : (s.setPending x).port = s.port := rfl
@[simp] theorem State.setPending_counters (s : State) (x : List Instr) : (s.setPending x).counters = s.counters := rfl
@[simp] theorem State.setPending_mem (s : State) (x : List Instr) : (s.setPending x).mem = s.mem := rfl

@[simp] theorem State.setLoader_pending (s : State) (x : Loader) : (s.setLoader x).pending = s.pending := rfl
@[simp] theorem State.setLoader_loader (s : State) (x : Loader) : (s.setLoader x).loader = x := rfl
@[simp] theorem State.setLoader_timing (s : State) (x : Loader) : (s.setLoader x).timing = s.timing := rfl
@[simp] theorem State.setLoader_bus (s : State) (x : Loader) : (s.setLoader x).bus = s.bus := rfl
@[simp] theorem State.setLoader_input (s : State) (x : Loader) : (s.setLoader x).input = s.input := rfl
@[simp] theorem State.setLoader_store (s : State) (x : Loader) : (s.setLoader x).store = s.store := rfl
@[simp] theorem State.setLoader_ballot (s : State) (x : Loader) : (s.setLoader x).ballot = s.ballot := rfl
@[simp] theorem State.setLoader_member (s : State) (x : Loader) : (s.setLoader x).member = s.member := rfl
@[simp] theorem State.setLoader_modes (s : State) (x : Loader) : (s.setLoader x).modes = s.modes := rfl
@[simp] theorem State.setLoader_picture (s : State) (x : Loader) : (s.setLoader x).picture = s.picture := rfl
@[simp] theorem State.setLoader_port (s : State) (x : Loader) : (s.setLoader x).port = s.port := rfl
@[simp] theorem State.setLoader_counters (s : State) (x : Loader) : (s.setLoader x).counters = s.counters := rfl
@[simp] theorem State.setLoader_mem (s : State) (x : Loader) : (s.setLoader x).mem = s.mem := rfl

@[simp] theorem State.setTiming_pending (s : State) (x : Timing) : (s.setTiming x).pending = s.pending := rfl
@[simp] theorem State.setTiming_loader (s : State) (x : Timing) : (s.setTiming x).loader = s.loader := rfl
@[simp] theorem State.setTiming_timing (s : State) (x : Timing) : (s.setTiming x).timing = x := rfl
@[simp] theorem State.setTiming_bus (s : State) (x : Timing) : (s.setTiming x).bus = s.bus := rfl
@[simp] theorem State.setTiming_input (s : State) (x : Timing) : (s.setTiming x).input = s.input := rfl
@[simp] theorem State.setTiming_store (s : State) (x : Timing) : (s.setTiming x).store = s.store := rfl
@[simp] theorem State.setTiming_ballot (s : State) (x : Timing) : (s.setTiming x).ballot = s.ballot := rfl
@[simp] theorem State.setTiming_member (s : State) (x : Timing) : (s.setTiming x).member = s.member := rfl
@[simp] theorem State.setTiming_modes (s : State) (x : Timing) : (s.setTiming x).modes = s.modes := rfl
@[simp] theorem State.setTiming_picture (s : State) (x : Timing) : (s.setTiming x).picture = s.picture := rfl
@[simp] theorem State.setTiming_port (s : State) (x : Timing) : (s.setTiming x).port = s.port := rfl
@[simp] theorem State.setTiming_counters (s : State) (x : Timing) : (s.setTiming x).counters = s.counters := rfl
@[simp] theorem State.setTiming_mem (s : State) (x : Timing) : (s.setTiming x).mem = s.mem := rfl

@[simp] theorem State.setBus_pending (s : State) (x : Bus) : (s.setBus x).pending = s.pending := rfl
@[simp] theorem State.setBus_loader (s : State) (x : Bus) : (s.setBus x).loader = s.loader := rfl
@[simp] theorem State.setBus_timing (s : State) (x : Bus) : (s.setBus x).timing = s.timing := rfl
@[simp] theorem State.setBus_bus (s : State) (x : Bus) : (s.setBus x).bus = x := rfl
@[simp] theorem State.setBus_input (s : State) (x : Bus) : (s.setBus x).input = s.input := rfl
@[simp] theorem State.setBus_store (s : State) (x : Bus) : (s.setBus x).store = s.store := rfl
@[simp] theorem State.setBus_ballot (s : State) (x : Bus) : (s.setBus x).ballot = s.ballot := rfl
@[simp] theorem State.setBus_member (s : State) (x : Bus) : (s.setBus x).member = s.member := rfl
@[simp] theorem State.setBus_modes (s : State) (x : Bus) : (s.setBus x).modes = s.modes := rfl
@[simp] theorem State.setBus_picture (s : State) (x : Bus) : (s.setBus x).picture = s.picture := rfl
@[simp] theorem State.setBus_port (s : State) (x : Bus) : (s.setBus x).port = s.port := rfl
@[simp] theorem State.setBus_counters (s : State) (x : Bus) : (s.setBus x).counters = s.counters := rfl
@[simp] theorem State.setBus_mem (s : State) (x : Bus) : (s.setBus x).mem = s.mem := rfl

@[simp] theorem State.setInput_pending (s : State) (x : Input) : (s.setInput x).pending = s.pending := rfl
@[simp] theorem State.setInput_loader (s : State) (x : Input) : (s.setInput x).loader = s.loader := rfl
@[simp] theorem State.setInput_timing (s : State) (x : Input) : (s.setInput x).timing = s.timing := rfl
@[simp] theorem State.setInput_bus (s : State) (x : Input) : (s.setInput x).bus = s.bus := rfl
@[simp] theorem State.setInput_input (s : State) (x : Input) : (s.setInput x).input = x := rfl
@[simp] theorem State.setInput_store (s : State) (x : Input) : (s.setInput x).store = s.store := rfl
@[simp] theorem State.setInput_ballot (s : State) (x : Input) : (s.setInput x).ballot = s.ballot := rfl
@[simp] theorem State.setInput_member (s : State) (x : Input) : (s.setInput x).member = s.member := rfl
@[simp] theorem State.setInput_modes (s : State) (x : Input) : (s.setInput x).modes = s.modes := rfl
@[simp] theorem State.setInput_picture (s : State) (x : Input) : (s.setInput x).picture = s.picture := rfl
@[simp] theorem State.setInput_port (s : State) (x : Input) : (s.setInput x).port = s.port := rfl
@[simp] theorem State.setInput_counters (s : State) (x : Input) : (s.setInput x).counters = s.counters := rfl
@[simp] theorem State.setInput_mem (s : State) (x : Input) : (s.setInput x).mem = s.mem := rfl

@[simp] theorem State.setStore_pending (s : State) (x : Store) : (s.setStore x).pending = s.pending := rfl
@[simp] theorem State.setStore_loader (s : State) (x : Store) : (s.setStore x).loader = s.loader := rfl
@[simp] theorem State.setStore_timing (s : State) (x : Store) : (s.setStore x).timing = s.timing := rfl
@[simp] theorem State.setStore_bus (s : State) (x : Store) : (s.setStore x).bus = s.bus := rfl
@[simp] theorem State.setStore_input (s : State) (x : Store) : (s.setStore x).input = s.input := rfl
@[simp] theorem State.setStore_store (s : State) (x : Store) : (s.setStore x).store = x := rfl
@[simp] theorem State.setStore_ballot (s : State) (x : Store) : (s.setStore x).ballot = s.ballot := rfl
@[simp] theorem State.setStore_member (s : State) (x : Store) : (s.setStore x).member = s.member := rfl
@[simp] theorem State.setStore_modes (s : State) (x : Store) : (s.setStore x).modes = s.modes := rfl
@[simp] theorem State.setStore_picture (s : State) (x : Store) : (s.setStore x).picture = s.picture := rfl
@[simp] theorem State.setStore_port (s : State) (x : Store) : (s.setStore x).port = s.port := rfl
@[simp] theorem State.setStore_counters (s : State) (x : Store) : (s.setStore x).counters = s.counters := rfl
@[simp] theorem State.setStore_mem (s : State) (x : Store) : (s.setStore x).mem = s.mem := rfl

@[simp] theorem State.setBallot_pending (s : State) (x : Ballot) : (s.setBallot x).pending = s.pending := rfl
@[simp] theorem State.setBallot_loader (s : State) (x : Ballot) : (s.setBallot x).loader = s.loader := rfl
@[simp] theorem State.setBallot_timing (s : State) (x : Ballot) : (s.setBallot x).timing = s.timing := rfl
@[simp] theorem State.setBallot_bus (s : State) (x : Ballot) : (s.setBallot x).bus = s.bus := rfl
@[simp] theorem State.setBallot_input (s : State) (x : Ballot) : (s.setBallot x).input = s.input := rfl
@[simp] theorem State.setBallot_store (s : State) (x : Ballot) : (s.setBallot x).store = s.store := rfl
@[simp] theorem State.setBallot_ballot (s : State) (x : Ballot) : (s.setBallot x).ballot = x := rfl
@[simp] theorem State.setBallot_member (s : State) (x : Ballot) : (s.setBallot x).member = s.member := rfl
@[simp] theorem State.setBallot_modes (s : State) (x : Ballot) : (s.setBallot x).modes = s.modes := rfl
@[simp] theorem State.setBallot_picture (s : State) (x : Ballot) : (s.setBallot x).picture = s.picture := rfl
@[simp] theorem State.setBallot_port (s : State) (x : Ballot) : (s.setBallot x).port = s.port := rfl
@[simp] theorem State.setBallot_counters (s : State) (x : Ballot) : (s.setBallot x).counters = s.counters := rfl
@[simp] theorem State.setBallot_mem (s : State) (x : Ballot) : (s.setBallot x).mem = s.mem := rfl

@[simp] theorem State.setMember_pending (s : State) (x : Membership) : (s.setMember x).pending = s.pending := rfl
@[simp] theorem State.setMember_loader (s : State) (x : Membership) : (s.setMember x).loader = s.loader := rfl
@[simp] theorem State.setMember_timing (s : State) (x : Membership) : (s.setMember x).timing = s.timing := rfl
@[simp] theorem State.setMember_bus (s : State) (x : Membership) : (s.setMember x).bus = s.bus := rfl
@[simp] theorem State.setMember_input (s : State) (x : Membership) : (s.setMember x).input = s.input := rfl
@[simp] theorem State.setMember_store (s : State) (x : Membership) : (s.setMember x).store = s.store := rfl
@[simp] theorem State.setMember_ballot (s : State) (x : Membership) : (s.setMember x).ballot = s.ballot := rfl
@[simp] theorem State.setMember_member (s : State) (x : Membership) : (s.setMember x).member = x := rfl
@[simp] theorem State.setMember_modes (s : State) (x : Membership) : (s.setMember x).modes = s.modes := rfl
@[simp] theorem State.setMember_picture (s : State) (x : Membership) : (s.setMember x).picture = s.picture := rfl
@[simp] theorem State.setMember_port (s : State) (x : Membership) : (s.setMember x).port = s.port := rfl
@[simp] theorem State.setMember_counters (s : State) (x : Membership) : (s.setMember x).counters = s.counters := rfl
@[simp] theorem State.setMember_mem (s : State) (x : Membership) : (s.setMember x).mem = s.mem := rfl

@[simp] theorem State.setModes_pending (s : State) (x : Modes) : (s.setModes x).pending = s.pending := rfl
@[simp] theorem State.setModes_loader (s : State) (x : Modes) : (s.setModes x).loader = s.loader := rfl
@[simp] theorem State.setModes_timing (s : State) (x : Modes) : (s.setModes x).timing = s.timing := rfl
@[simp] theorem State.setModes_bus (s : State) (x : Modes) : (s.setModes x).bus = s.bus := rfl
@[simp] theorem State.setModes_input (s : State) (x : Modes) : (s.setModes x).input = s.input := rfl
@[simp] theorem State.setModes_store (s : State) (x : Modes) : (s.setModes x).store = s.store := rfl
@[simp] theorem State.setModes_ballot (s : State) (x : Modes) : (s.setModes x).ballot = s.ballot := rfl
@[simp] theorem State.setModes_member (s : State) (x : Modes) : (s.setModes x).member = s.member := rfl
@[simp] theorem State.setModes_modes (s : State) (x : Modes) : (s.setModes x).modes = x := rfl
@[simp] theorem State.setModes_picture (s : State) (x : Modes) : (s.setModes x).picture = s.picture := rfl
@[simp] theorem State.setModes_port (s : State) (x : Modes) : (s.setModes x).port = s.port := rfl
@[simp] theorem State.setModes_counters (s : State) (x : Modes) : (s.setModes x).counters = s.counters := rfl
@[simp] theorem State.setModes_mem (s : State) (x : Modes) : (s.setModes x).mem = s.mem := rfl

@[simp] theorem State.setPicture_pending (s : State) (x : Picture) : (s.setPicture x).pending = s.pending := rfl
@[simp] theorem State.setPicture_loader (s : State) (x : Picture) : (s.setPicture x).loader = s.loader := rfl
@[simp] theorem State.setPicture_timing (s : State) (x : Picture) : (s.setPicture x).timing = s.timing := rfl
@[simp] theorem State.setPicture_bus (s : State) (x : Picture) : (s.setPicture x).bus = s.bus := rfl
@[simp] theorem State.setPicture_input (s : State) (x : Picture) : (s.setPicture x).input = s.input := rfl
@[simp] theorem State.setPicture_store (s : State) (x : Picture) : (s.setPicture x).store = s.store := rfl
@[simp] theorem State.setPicture_ballot (s : State) (x : Picture) : (s.setPicture x).ballot = s.ballot := rfl
@[simp] theorem State.setPicture_member (s : State) (x : Picture) : (s.setPicture x).member = s.member := rfl
@[simp] theorem State.setPicture_modes (s : State) (x : Picture) : (s.setPicture x).modes = s.modes := rfl
@[simp] theorem State.setPicture_picture (s : State) (x : Picture) : (s.setPicture x).picture = x := rfl
@[simp] theorem State.setPicture_port (s : State) (x : Picture) : (s.setPicture x).port = s.port := rfl
@[simp] theorem State.setPicture_counters (s : State) (x : Picture) : (s.setPicture x).counters = s.counters := rfl
@[simp] theorem State.setPicture_mem (s : State) (x : Picture) : (s.setPicture x).mem = s.mem := rfl

@[simp] theorem State.setPort_pending (s : State) (x : Port) : (s.setPort x).pending = s.pending := rfl
@[simp] theorem State.setPort_loader (s : State) (x : Port) : (s.setPort x).loader = s.loader := rfl
@[simp] theorem State.setPort_timing (s : State) (x : Port) : (s.setPort x).timing = s.timing := rfl
@[simp] theorem State.setPort_bus (s : State) (x : Port) : (s.setPort x).bus = s.bus := rfl
@[simp] theorem State.setPort_input (s : State) (x : Port) : (s.setPort x).input = s.input := rfl
@[simp] theorem State.setPort_store (s : State) (x : Port) : (s.setPort x).store = s.store := rfl
@[simp] theorem State.setPort_ballot (s : State) (x : Port) : (s.setPort x).ballot = s.ballot := rfl
@[simp] theorem State.setPort_member (s : State) (x : Port) : (s.setPort x).member = s.member := rfl
@[simp] theorem State.setPort_modes (s : State) (x : Port) : (s.setPort x).modes = s.modes := rfl
@[simp] theorem State.setPort_picture (s : State) (x : Port) : (s.setPort x).picture = s.picture := rfl
@[simp] theorem State.setPort_port (s : State) (x : Port) : (s.setPort x).port = x := rfl
@[simp] theorem State.setPort_counters (s : State) (x : Port) : (s.setPort x).counters = s.counters := rfl
@[simp] theorem State.setPort_mem (s : State) (x : Port) : (s.setPort x).mem = s.mem := rfl

@[simp] theorem State.setCounters_pending (s : State) (x : Counters) : (s.setCounters x).pending = s.pending := rfl
@[simp] theorem State.setCounters_loader (s : State) (x : Counters) : (s.setCounters x).loader = s.loader := rfl
@[simp] theorem State.setCounters_timing (s : State) (x : Counters) : (s.setCounters x).timing = s.timing := rfl
@[simp] theorem State.setCounters_bus (s : State) (x : Counters) : (s.setCounters x).bus = s.bus := rfl
@[simp] theorem State.setCounters_input (s : State) (x : Counters) : (s.setCounters x).input = s.input := rfl
@[simp] theorem State.setCounters_store (s : State) (x : Counters) : (s.setCounters x).store = s.store := rfl
@[simp] theorem State.setCounters_ballot (s : State) (x : Counters) : (s.setCounters x).ballot = s.ballot := rfl
@[simp] theorem State.setCounters_member (s : State) (x : Counters) : (s.setCounters x).member = s.member := rfl
@[simp] theorem State.setCounters_modes (s : State) (x : Counters) : (s.setCounters x).modes = s.modes := rfl
@[simp] theorem State.setCounters_picture (s : State) (x : Counters) : (s.setCounters x).picture = s.picture := rfl
@[simp] theorem State.setCounters_port (s : State) (x : Counters) : (s.setCounters x).port = s.port := rfl
@[simp] theorem State.setCounters_counters (s : State) (x : Counters) : (s.setCounters x).counters = x := rfl
@[simp] theorem State.setCounters_mem (s : State) (x : Counters) : (s.setCounters x).mem = s.mem := rfl

@[simp] theorem State.setMem_pending (s : State) (x : List Host.Cell) : (s.setMem x).pending = s.pending := rfl
@[simp] theorem State.setMem_loader (s : State) (x : List Host.Cell) : (s.setMem x).loader = s.loader := rfl
@[simp] theorem State.setMem_timing (s : State) (x : List Host.Cell) : (s.setMem x).timing = s.timing := rfl
@[simp] theorem State.setMem_bus (s : State) (x : List Host.Cell) : (s.setMem x).bus = s.bus := rfl
@[simp] theorem State.setMem_input (s : State) (x : List Host.Cell) : (s.setMem x).input = s.input := rfl
@[simp] theorem State.setMem_store (s : State) (x : List Host.Cell) : (s.setMem x).store = s.store := rfl
@[simp] theorem State.setMem_ballot (s : State) (x : List Host.Cell) : (s.setMem x).ballot = s.ballot := rfl
@[simp] theorem State.setMem_member (s : State) (x : List Host.Cell) : (s.setMem x).member = s.member := rfl
@[simp] theorem State.setMem_modes (s : State) (x : List Host.Cell) : (s.setMem x).modes = s.modes := rfl
@[simp] theorem State.setMem_picture (s : State) (x : List Host.Cell) : (s.setMem x).picture = s.picture := rfl
@[simp] theorem State.setMem_port (s : State) (x : List Host.Cell) : (s.setMem x).port = s.port := rfl
@[simp] theorem State.setMem_counters (s : State) (x : List Host.Cell) : (s.setMem x).counters = s.counters := rfl
@[simp] theorem State.setMem_mem (s : State) (x : List Host.Cell) : (s.setMem x).mem = x := rfl

/-- Of two updates of one part the later one stands. -/
@[simp] theorem State.setPending_setPending (s : State) (x y : List Instr) : (s.setPending x).setPending y = s.setPending y := rfl
@[simp] theorem State.setLoader_setLoader (s : State) (x y : Loader) : (s.setLoader x).setLoader y = s.setLoader y := rfl
@[simp] theorem State.setTiming_setTiming (s : State) (x y : Timing) : (s.setTiming x).setTiming y = s.setTiming y := rfl
@[simp] theorem State.setBus_setBus (s : State) (x y : Bus) : (s.setBus x).setBus y = s.setBus y := rfl
@[simp] theorem State.setInput_setInput (s : State) (x y : Input) : (s.setInput x).setInput y = s.setInput y := rfl
@[simp] theorem State.setStore_setStore (s : State) (x y : Store) : (s.setStore x).setStore y = s.setStore y := rfl
@[simp] theorem State.setBallot_setBallot (s : State) (x y : Ballot) : (s.setBallot x).setBallot y = s.setBallot y := rfl
@[simp] theorem State.setMember_setMember (s : State) (x y : Membership) : (s.setMember x).setMember y = s.setMember y := rfl
@[simp] theorem State.setModes_setModes (s : State) (x y : Modes) : (s.setModes x).setModes y = s.setModes y := rfl
@[simp] theorem State.setPicture_setPicture (s : State) (x y : Picture) : (s.setPicture x).setPicture y = s.setPicture y := rfl
@[simp] theorem State.setPort_setPort (s : State) (x y : Port) : (s.setPort x).setPort y = s.setPort y := rfl
@[simp] theorem State.setCounters_setCounters (s : State) (x y : Counters) : (s.setCounters x).setCounters y = s.setCounters y := rfl
@[simp] theorem State.setMem_setMem (s : State) (x y : List Host.Cell) : (s.setMem x).setMem y = s.setMem y := rfl

/-- The loaded configuration is the loader's, so no other update changes it. -/
@[simp] theorem State.setPending_cfg (s : State) (x : List Instr) : (s.setPending x).cfg = s.cfg := rfl
@[simp] theorem State.setTiming_cfg (s : State) (x : Timing) : (s.setTiming x).cfg = s.cfg := rfl
@[simp] theorem State.setBus_cfg (s : State) (x : Bus) : (s.setBus x).cfg = s.cfg := rfl
@[simp] theorem State.setInput_cfg (s : State) (x : Input) : (s.setInput x).cfg = s.cfg := rfl
@[simp] theorem State.setStore_cfg (s : State) (x : Store) : (s.setStore x).cfg = s.cfg := rfl
@[simp] theorem State.setBallot_cfg (s : State) (x : Ballot) : (s.setBallot x).cfg = s.cfg := rfl
@[simp] theorem State.setMember_cfg (s : State) (x : Membership) : (s.setMember x).cfg = s.cfg := rfl
@[simp] theorem State.setModes_cfg (s : State) (x : Modes) : (s.setModes x).cfg = s.cfg := rfl
@[simp] theorem State.setPicture_cfg (s : State) (x : Picture) : (s.setPicture x).cfg = s.cfg := rfl
@[simp] theorem State.setPort_cfg (s : State) (x : Port) : (s.setPort x).cfg = s.cfg := rfl
@[simp] theorem State.setCounters_cfg (s : State) (x : Counters) : (s.setCounters x).cfg = s.cfg := rfl
@[simp] theorem State.setMem_cfg (s : State) (x : List Host.Cell) : (s.setMem x).cfg = s.cfg := rfl
@[simp] theorem State.setLoader_cfg (s : State) (x : Loader) : (s.setLoader x).cfg = x.settings := rfl

end Sys2Proof.Machine
end

