-- ==== Sys2Proof/Laws/StoreFrame.lean ====
section
/-! SUPPORT. For each operation of the counters and flags, picture output and the frame store: the parts of the station it leaves as they are. -/

namespace Sys2Proof.Machine

@[simp] theorem State.count_frame (s : State) (c : Counter) :
    (State.count s c).pending = s.pending ∧ (State.count s c).loader = s.loader ∧
    (State.count s c).timing = s.timing ∧ (State.count s c).bus = s.bus ∧ (State.count s c).input = s.input ∧
    (State.count s c).store = s.store ∧ (State.count s c).ballot = s.ballot ∧ (State.count s c).member = s.member ∧
    (State.count s c).modes = s.modes ∧ (State.count s c).picture = s.picture ∧ (State.count s c).port = s.port ∧
    (State.count s c).mem = s.mem ∧ (State.count s c).cfg = s.cfg := by
  simp [State.count]

@[simp] theorem State.raise_frame (s : State) (e : Event) :
    (State.raise s e).pending = s.pending ∧ (State.raise s e).loader = s.loader ∧
    (State.raise s e).timing = s.timing ∧ (State.raise s e).bus = s.bus ∧ (State.raise s e).input = s.input ∧
    (State.raise s e).store = s.store ∧ (State.raise s e).ballot = s.ballot ∧ (State.raise s e).member = s.member ∧
    (State.raise s e).modes = s.modes ∧ (State.raise s e).picture = s.picture ∧
    (State.raise s e).counters = s.counters ∧ (State.raise s e).mem = s.mem ∧ (State.raise s e).cfg = s.cfg := by
  simp [State.raise]

@[simp] theorem State.clearFlags_frame (s : State) (mask : Word) :
    (State.clearFlags s mask).pending = s.pending ∧ (State.clearFlags s mask).loader = s.loader ∧
    (State.clearFlags s mask).timing = s.timing ∧ (State.clearFlags s mask).bus = s.bus ∧
    (State.clearFlags s mask).input = s.input ∧ (State.clearFlags s mask).store = s.store ∧
    (State.clearFlags s mask).ballot = s.ballot ∧ (State.clearFlags s mask).member = s.member ∧
    (State.clearFlags s mask).modes = s.modes ∧ (State.clearFlags s mask).picture = s.picture ∧
    (State.clearFlags s mask).counters = s.counters ∧ (State.clearFlags s mask).mem = s.mem ∧
    (State.clearFlags s mask).cfg = s.cfg := by
  simp [State.clearFlags]

@[simp] theorem State.setSlots_frame (s : State) (x : Slots) :
    (State.setSlots s x).pending = s.pending ∧ (State.setSlots s x).loader = s.loader ∧
    (State.setSlots s x).timing = s.timing ∧ (State.setSlots s x).bus = s.bus ∧
    (State.setSlots s x).input = s.input ∧ (State.setSlots s x).ballot = s.ballot ∧
    (State.setSlots s x).member = s.member ∧ (State.setSlots s x).modes = s.modes ∧
    (State.setSlots s x).picture = s.picture ∧ (State.setSlots s x).port = s.port ∧
    (State.setSlots s x).counters = s.counters ∧ (State.setSlots s x).mem = s.mem ∧ (State.setSlots s x).cfg = s.cfg := by
  simp [State.setSlots]

@[simp] theorem State.nameRow_frame (s : State) (j : Nat) :
    (State.nameRow s j).pending = s.pending ∧ (State.nameRow s j).loader = s.loader ∧
    (State.nameRow s j).timing = s.timing ∧ (State.nameRow s j).bus = s.bus ∧ (State.nameRow s j).input = s.input ∧
    (State.nameRow s j).ballot = s.ballot ∧ (State.nameRow s j).member = s.member ∧
    (State.nameRow s j).modes = s.modes ∧ (State.nameRow s j).port = s.port ∧
    (State.nameRow s j).counters = s.counters ∧ (State.nameRow s j).mem = s.mem ∧ (State.nameRow s j).cfg = s.cfg := by
  simp only [State.nameRow]
  repeat' split
  all_goals simp

@[simp] theorem State.drainFifo_frame (s : State) :
    (State.drainFifo s).pending = s.pending ∧ (State.drainFifo s).loader = s.loader ∧
    (State.drainFifo s).timing = s.timing ∧ (State.drainFifo s).bus = s.bus ∧ (State.drainFifo s).input = s.input ∧
    (State.drainFifo s).ballot = s.ballot ∧ (State.drainFifo s).member = s.member ∧
    (State.drainFifo s).modes = s.modes ∧ (State.drainFifo s).port = s.port ∧
    (State.drainFifo s).counters = s.counters ∧ (State.drainFifo s).mem = s.mem ∧ (State.drainFifo s).cfg = s.cfg := by
  simp only [State.drainFifo]
  repeat' split
  all_goals simp

/-- Of the frame store the scaler takes the read FIFO alone. -/
@[simp] theorem State.drainFifo_store (s : State) :
    (State.drainFifo s).store.slots = s.store.slots ∧ (State.drainFifo s).store.dropPending = s.store.dropPending ∧
    (State.drainFifo s).store.writeFifo = s.store.writeFifo ∧ (State.drainFifo s).store.transfer = s.store.transfer ∧
    (State.drainFifo s).store.refreshWaiting = s.store.refreshWaiting ∧
    (State.drainFifo s).store.named = s.store.named := by
  simp only [State.drainFifo]
  repeat' split
  all_goals simp

@[simp] theorem State.emptyReader_frame (s : State) :
    (State.emptyReader s).pending = s.pending ∧ (State.emptyReader s).loader = s.loader ∧
    (State.emptyReader s).timing = s.timing ∧ (State.emptyReader s).bus = s.bus ∧
    (State.emptyReader s).input = s.input ∧ (State.emptyReader s).ballot = s.ballot ∧
    (State.emptyReader s).member = s.member ∧ (State.emptyReader s).modes = s.modes ∧
    (State.emptyReader s).picture = s.picture ∧ (State.emptyReader s).port = s.port ∧
    (State.emptyReader s).counters = s.counters ∧ (State.emptyReader s).mem = s.mem ∧
    (State.emptyReader s).cfg = s.cfg := by
  simp [State.emptyReader]

@[simp] theorem State.discardFetches_frame (s : State) :
    (State.discardFetches s).pending = s.pending ∧ (State.discardFetches s).loader = s.loader ∧
    (State.discardFetches s).timing = s.timing ∧ (State.discardFetches s).bus = s.bus ∧
    (State.discardFetches s).input = s.input ∧ (State.discardFetches s).ballot = s.ballot ∧
    (State.discardFetches s).member = s.member ∧ (State.discardFetches s).modes = s.modes ∧
    (State.discardFetches s).picture = s.picture ∧ (State.discardFetches s).port = s.port ∧
    (State.discardFetches s).counters = s.counters ∧ (State.discardFetches s).mem = s.mem ∧
    (State.discardFetches s).cfg = s.cfg ∧ (State.discardFetches s).store.slots = s.store.slots ∧
    (State.discardFetches s).store.dropPending = s.store.dropPending ∧
    (State.discardFetches s).store.writeFifo = s.store.writeFifo := by
  simp [State.discardFetches]

@[simp] theorem State.slotChanged_frame (s : State) :
    (State.slotChanged s).pending = s.pending ∧ (State.slotChanged s).loader = s.loader ∧
    (State.slotChanged s).timing = s.timing ∧ (State.slotChanged s).bus = s.bus ∧
    (State.slotChanged s).input = s.input ∧ (State.slotChanged s).ballot = s.ballot ∧
    (State.slotChanged s).member = s.member ∧ (State.slotChanged s).modes = s.modes ∧
    (State.slotChanged s).port = s.port ∧ (State.slotChanged s).counters = s.counters ∧
    (State.slotChanged s).mem = s.mem ∧ (State.slotChanged s).cfg = s.cfg := by
  simp only [State.slotChanged]
  repeat' split
  all_goals simp

@[simp] theorem State.pictureFrameStart_frame (s : State) :
    (State.pictureFrameStart s).pending = s.pending ∧ (State.pictureFrameStart s).loader = s.loader ∧
    (State.pictureFrameStart s).timing = s.timing ∧ (State.pictureFrameStart s).bus = s.bus ∧
    (State.pictureFrameStart s).input = s.input ∧ (State.pictureFrameStart s).ballot = s.ballot ∧
    (State.pictureFrameStart s).member = s.member ∧ (State.pictureFrameStart s).modes = s.modes ∧
    (State.pictureFrameStart s).port = s.port ∧ (State.pictureFrameStart s).counters = s.counters ∧
    (State.pictureFrameStart s).mem = s.mem ∧ (State.pictureFrameStart s).cfg = s.cfg := by
  simp only [State.pictureFrameStart]
  repeat' split
  all_goals simp

@[simp] theorem State.pictureLineEnd_frame (s : State) :
    (State.pictureLineEnd s).pending = s.pending ∧ (State.pictureLineEnd s).loader = s.loader ∧
    (State.pictureLineEnd s).timing = s.timing ∧ (State.pictureLineEnd s).bus = s.bus ∧
    (State.pictureLineEnd s).input = s.input ∧ (State.pictureLineEnd s).ballot = s.ballot ∧
    (State.pictureLineEnd s).member = s.member ∧ (State.pictureLineEnd s).modes = s.modes ∧
    (State.pictureLineEnd s).port = s.port ∧ (State.pictureLineEnd s).counters = s.counters ∧
    (State.pictureLineEnd s).mem = s.mem ∧ (State.pictureLineEnd s).cfg = s.cfg := by
  simp only [State.pictureLineEnd]
  repeat' split
  all_goals simp

@[simp] theorem State.freeSlot_frame (s : State) (i : Fin 5) :
    (State.freeSlot s i).pending = s.pending ∧ (State.freeSlot s i).loader = s.loader ∧
    (State.freeSlot s i).timing = s.timing ∧ (State.freeSlot s i).bus = s.bus ∧
    (State.freeSlot s i).input = s.input ∧ (State.freeSlot s i).ballot = s.ballot ∧
    (State.freeSlot s i).member = s.member ∧ (State.freeSlot s i).modes = s.modes ∧
    (State.freeSlot s i).picture = s.picture ∧ (State.freeSlot s i).port = s.port ∧
    (State.freeSlot s i).counters = s.counters ∧ (State.freeSlot s i).mem = s.mem ∧ (State.freeSlot s i).cfg = s.cfg := by
  simp [State.freeSlot]

@[simp] theorem State.freeFilling_frame (s : State) :
    (State.freeFilling s).pending = s.pending ∧ (State.freeFilling s).loader = s.loader ∧
    (State.freeFilling s).timing = s.timing ∧ (State.freeFilling s).bus = s.bus ∧
    (State.freeFilling s).input = s.input ∧ (State.freeFilling s).ballot = s.ballot ∧
    (State.freeFilling s).member = s.member ∧ (State.freeFilling s).modes = s.modes ∧
    (State.freeFilling s).picture = s.picture ∧ (State.freeFilling s).port = s.port ∧
    (State.freeFilling s).counters = s.counters ∧ (State.freeFilling s).mem = s.mem ∧
    (State.freeFilling s).cfg = s.cfg := by
  simp [State.freeFilling]

@[simp] theorem State.makeReady_frame (s : State) (i : Fin 5) :
    (State.makeReady s i).pending = s.pending ∧ (State.makeReady s i).loader = s.loader ∧
    (State.makeReady s i).timing = s.timing ∧ (State.makeReady s i).bus = s.bus ∧
    (State.makeReady s i).input = s.input ∧ (State.makeReady s i).ballot = s.ballot ∧
    (State.makeReady s i).member = s.member ∧ (State.makeReady s i).modes = s.modes ∧
    (State.makeReady s i).picture = s.picture ∧ (State.makeReady s i).port = s.port ∧
    (State.makeReady s i).counters = s.counters ∧ (State.makeReady s i).mem = s.mem ∧
    (State.makeReady s i).cfg = s.cfg := by
  simp [State.makeReady]

@[simp] theorem State.lineWritten_frame (s : State) (i : Fin 5) :
    (State.lineWritten s i).pending = s.pending ∧ (State.lineWritten s i).loader = s.loader ∧
    (State.lineWritten s i).timing = s.timing ∧ (State.lineWritten s i).bus = s.bus ∧
    (State.lineWritten s i).input = s.input ∧ (State.lineWritten s i).ballot = s.ballot ∧
    (State.lineWritten s i).member = s.member ∧ (State.lineWritten s i).modes = s.modes ∧
    (State.lineWritten s i).picture = s.picture ∧ (State.lineWritten s i).port = s.port ∧
    (State.lineWritten s i).counters = s.counters ∧ (State.lineWritten s i).mem = s.mem ∧
    (State.lineWritten s i).cfg = s.cfg := by
  simp [State.lineWritten]

@[simp] theorem State.markTorn_frame (s : State) (i : Fin 5) :
    (State.markTorn s i).pending = s.pending ∧ (State.markTorn s i).loader = s.loader ∧
    (State.markTorn s i).timing = s.timing ∧ (State.markTorn s i).bus = s.bus ∧
    (State.markTorn s i).input = s.input ∧ (State.markTorn s i).ballot = s.ballot ∧
    (State.markTorn s i).member = s.member ∧ (State.markTorn s i).modes = s.modes ∧
    (State.markTorn s i).picture = s.picture ∧ (State.markTorn s i).port = s.port ∧
    (State.markTorn s i).counters = s.counters ∧ (State.markTorn s i).mem = s.mem ∧ (State.markTorn s i).cfg = s.cfg := by
  simp [State.markTorn]

@[simp] theorem State.rebase_frame (s : State) (n : Word) :
    (State.rebase s n).pending = s.pending ∧ (State.rebase s n).loader = s.loader ∧
    (State.rebase s n).timing = s.timing ∧ (State.rebase s n).bus = s.bus ∧ (State.rebase s n).input = s.input ∧
    (State.rebase s n).ballot = s.ballot ∧ (State.rebase s n).member = s.member ∧
    (State.rebase s n).modes = s.modes ∧ (State.rebase s n).picture = s.picture ∧ (State.rebase s n).port = s.port ∧
    (State.rebase s n).mem = s.mem ∧ (State.rebase s n).cfg = s.cfg := by
  simp only [State.rebase]
  repeat' split
  all_goals simp

@[simp] theorem State.staleCheck_frame (s : State) (n : Word) :
    (State.staleCheck s n).pending = s.pending ∧ (State.staleCheck s n).loader = s.loader ∧
    (State.staleCheck s n).timing = s.timing ∧ (State.staleCheck s n).bus = s.bus ∧
    (State.staleCheck s n).input = s.input ∧ (State.staleCheck s n).ballot = s.ballot ∧
    (State.staleCheck s n).member = s.member ∧ (State.staleCheck s n).modes = s.modes ∧
    (State.staleCheck s n).picture = s.picture ∧ (State.staleCheck s n).port = s.port ∧
    (State.staleCheck s n).counters = s.counters ∧ (State.staleCheck s n).mem = s.mem ∧
    (State.staleCheck s n).cfg = s.cfg := by
  simp [State.staleCheck]

@[simp] theorem State.grant_frame (s : State) (n : Word) (stamp : Stamp) :
    (s.grant n stamp).1.pending = s.pending ∧ (s.grant n stamp).1.loader = s.loader ∧
    (s.grant n stamp).1.timing = s.timing ∧ (s.grant n stamp).1.bus = s.bus ∧
    (s.grant n stamp).1.input = s.input ∧ (s.grant n stamp).1.ballot = s.ballot ∧
    (s.grant n stamp).1.member = s.member ∧ (s.grant n stamp).1.modes = s.modes ∧
    (s.grant n stamp).1.picture = s.picture ∧ (s.grant n stamp).1.port = s.port ∧
    (s.grant n stamp).1.mem = s.mem ∧ (s.grant n stamp).1.cfg = s.cfg := by
  simp only [State.grant]
  repeat' split
  all_goals simp

@[simp] theorem State.pledge_frame (s : State) :
    s.pledge.1.pending = s.pending ∧ s.pledge.1.loader = s.loader ∧ s.pledge.1.timing = s.timing ∧
    s.pledge.1.bus = s.bus ∧ s.pledge.1.input = s.input ∧ s.pledge.1.ballot = s.ballot ∧
    s.pledge.1.member = s.member ∧ s.pledge.1.modes = s.modes ∧ s.pledge.1.picture = s.picture ∧
    s.pledge.1.port = s.port ∧ s.pledge.1.counters = s.counters ∧ s.pledge.1.mem = s.mem ∧
    s.pledge.1.cfg = s.cfg := by
  simp [State.pledge]

@[simp] theorem State.ballotReport_frame (s : State) (p : Word) (d : Nat) :
    (State.ballotReport s p d).pending = s.pending ∧ (State.ballotReport s p d).loader = s.loader ∧
    (State.ballotReport s p d).timing = s.timing ∧ (State.ballotReport s p d).bus = s.bus ∧
    (State.ballotReport s p d).input = s.input ∧ (State.ballotReport s p d).ballot = s.ballot ∧
    (State.ballotReport s p d).member = s.member ∧ (State.ballotReport s p d).modes = s.modes ∧
    (State.ballotReport s p d).picture = s.picture ∧ (State.ballotReport s p d).port = s.port ∧
    (State.ballotReport s p d).counters = s.counters ∧ (State.ballotReport s p d).mem = s.mem ∧
    (State.ballotReport s p d).cfg = s.cfg := by
  simp only [State.ballotReport]
  repeat' split
  all_goals simp

@[simp] theorem State.switch_frame (s : State) :
    (State.switch s).pending = s.pending ∧ (State.switch s).loader = s.loader ∧ (State.switch s).timing = s.timing ∧
    (State.switch s).bus = s.bus ∧ (State.switch s).input = s.input ∧ (State.switch s).ballot = s.ballot ∧
    (State.switch s).member = s.member ∧ (State.switch s).modes = s.modes ∧ (State.switch s).port = s.port ∧
    (State.switch s).counters = s.counters ∧ (State.switch s).mem = s.mem ∧ (State.switch s).cfg = s.cfg := by
  simp only [State.switch]
  repeat' split
  all_goals simp

theorem State.align_frame {s t : State} {x : Stamp} (h : s.align x = some t) :
    t.pending = s.pending ∧ t.loader = s.loader ∧ t.timing = s.timing ∧ t.bus = s.bus ∧ t.input = s.input ∧
    t.ballot = s.ballot ∧ t.member = s.member ∧ t.modes = s.modes ∧ t.port = s.port ∧ t.counters = s.counters ∧
    t.mem = s.mem ∧ t.cfg = s.cfg := by
  simp only [State.align] at h
  split at h
  · exact absurd h (by simp)
  · injection h with h
    subst h
    split <;> simp

theorem State.foundPicture_frame {s t : State} (h : s.foundPicture = some t) :
    t.pending = s.pending ∧ t.loader = s.loader ∧ t.timing = s.timing ∧ t.bus = s.bus ∧ t.input = s.input ∧
    t.ballot = s.ballot ∧ t.member = s.member ∧ t.modes = s.modes ∧ t.port = s.port ∧ t.counters = s.counters ∧
    t.mem = s.mem ∧ t.cfg = s.cfg := by
  simp only [State.foundPicture] at h
  split at h
  · exact absurd h (by simp)
  · injection h with h
    subst h
    simp

@[simp] theorem State.dropPicture_frame (s : State) :
    (State.dropPicture s).pending = s.pending ∧ (State.dropPicture s).loader = s.loader ∧
    (State.dropPicture s).timing = s.timing ∧ (State.dropPicture s).bus = s.bus ∧
    (State.dropPicture s).input = s.input ∧ (State.dropPicture s).ballot = s.ballot ∧
    (State.dropPicture s).member = s.member ∧ (State.dropPicture s).modes = s.modes ∧
    (State.dropPicture s).port = s.port ∧ (State.dropPicture s).counters = s.counters ∧
    (State.dropPicture s).mem = s.mem ∧ (State.dropPicture s).cfg = s.cfg := by
  simp only [State.dropPicture]
  repeat' split
  all_goals simp

@[simp] theorem State.shiftStamps_frame (s : State) (offset : Word) :
    (State.shiftStamps s offset).pending = s.pending ∧ (State.shiftStamps s offset).loader = s.loader ∧
    (State.shiftStamps s offset).timing = s.timing ∧ (State.shiftStamps s offset).bus = s.bus ∧
    (State.shiftStamps s offset).input = s.input ∧ (State.shiftStamps s offset).ballot = s.ballot ∧
    (State.shiftStamps s offset).member = s.member ∧ (State.shiftStamps s offset).modes = s.modes ∧
    (State.shiftStamps s offset).picture = s.picture ∧ (State.shiftStamps s offset).port = s.port ∧
    (State.shiftStamps s offset).counters = s.counters ∧ (State.shiftStamps s offset).mem = s.mem ∧
    (State.shiftStamps s offset).cfg = s.cfg := by
  simp only [State.shiftStamps]
  repeat' split
  all_goals simp

@[simp] theorem State.offerPixel_frame (s : State) (x : WritePixel) :
    (State.offerPixel s x).pending = s.pending ∧ (State.offerPixel s x).loader = s.loader ∧
    (State.offerPixel s x).timing = s.timing ∧ (State.offerPixel s x).bus = s.bus ∧
    (State.offerPixel s x).input = s.input ∧ (State.offerPixel s x).ballot = s.ballot ∧
    (State.offerPixel s x).member = s.member ∧ (State.offerPixel s x).modes = s.modes ∧
    (State.offerPixel s x).picture = s.picture ∧ (State.offerPixel s x).port = s.port ∧
    (State.offerPixel s x).counters = s.counters ∧ (State.offerPixel s x).mem = s.mem ∧
    (State.offerPixel s x).cfg = s.cfg := by
  simp only [State.offerPixel]
  repeat' split
  all_goals simp

@[simp] theorem State.arbitrate_frame (s : State) :
    (State.arbitrate s).pending = s.pending ∧ (State.arbitrate s).loader = s.loader ∧
    (State.arbitrate s).timing = s.timing ∧ (State.arbitrate s).bus = s.bus ∧ (State.arbitrate s).input = s.input ∧
    (State.arbitrate s).ballot = s.ballot ∧ (State.arbitrate s).member = s.member ∧
    (State.arbitrate s).modes = s.modes ∧ (State.arbitrate s).picture = s.picture ∧
    (State.arbitrate s).port = s.port ∧ (State.arbitrate s).counters = s.counters ∧
    (State.arbitrate s).mem = s.mem ∧ (State.arbitrate s).cfg = s.cfg := by
  simp only [State.arbitrate]
  repeat' split
  all_goals simp

@[simp] theorem State.receiveRead_frame (s : State) (i : Fin 5) (l c n : Nat) (live : Bool) :
    (State.receiveRead s i l c n live).pending = s.pending ∧ (State.receiveRead s i l c n live).loader = s.loader ∧
    (State.receiveRead s i l c n live).timing = s.timing ∧ (State.receiveRead s i l c n live).bus = s.bus ∧
    (State.receiveRead s i l c n live).input = s.input ∧ (State.receiveRead s i l c n live).ballot = s.ballot ∧
    (State.receiveRead s i l c n live).member = s.member ∧ (State.receiveRead s i l c n live).modes = s.modes ∧
    (State.receiveRead s i l c n live).picture = s.picture ∧ (State.receiveRead s i l c n live).port = s.port ∧
    (State.receiveRead s i l c n live).counters = s.counters ∧ (State.receiveRead s i l c n live).mem = s.mem ∧
    (State.receiveRead s i l c n live).cfg = s.cfg := by
  simp only [State.receiveRead]
  repeat' split
  all_goals simp

/-- The end of a transfer writes the memory and the store's own queues, nothing else. -/
theorem State.finishTransfer_frame {s t : State} (h : s.finishTransfer = some t) :
    t.pending = s.pending ∧ t.loader = s.loader ∧ t.timing = s.timing ∧ t.bus = s.bus ∧ t.input = s.input ∧
    t.ballot = s.ballot ∧ t.member = s.member ∧ t.modes = s.modes ∧ t.picture = s.picture ∧ t.port = s.port ∧
    t.counters = s.counters ∧ t.cfg = s.cfg := by
  simp only [State.finishTransfer] at h
  repeat' split at h
  all_goals cases h <;> simp

end Sys2Proof.Machine
end

