-- ==== Sys2Proof/Laws/BusFrame.lean ====
section
/-! SUPPORT. For each operation of the Tile Bus controller: the parts of the station it leaves as they are. -/

namespace Sys2Proof.Machine

@[simp] theorem State.endSetMode_frame (s : State) (r : CmdResult) :
    (State.endSetMode s r).pending = s.pending ∧ (State.endSetMode s r).loader = s.loader ∧
    (State.endSetMode s r).timing = s.timing ∧ (State.endSetMode s r).bus = s.bus ∧
    (State.endSetMode s r).input = s.input ∧ (State.endSetMode s r).store = s.store ∧
    (State.endSetMode s r).ballot = s.ballot ∧ (State.endSetMode s r).member = s.member ∧
    (State.endSetMode s r).picture = s.picture ∧ (State.endSetMode s r).counters = s.counters ∧
    (State.endSetMode s r).mem = s.mem ∧ (State.endSetMode s r).cfg = s.cfg := by
  simp only [State.endSetMode]
  repeat' split
  all_goals simp

@[simp] theorem State.removeOwnEntry_frame (s : State) :
    (State.removeOwnEntry s).pending = s.pending ∧ (State.removeOwnEntry s).loader = s.loader ∧
    (State.removeOwnEntry s).timing = s.timing ∧ (State.removeOwnEntry s).bus = s.bus ∧
    (State.removeOwnEntry s).input = s.input ∧ (State.removeOwnEntry s).store = s.store ∧
    (State.removeOwnEntry s).ballot = s.ballot ∧ (State.removeOwnEntry s).member = s.member ∧
    (State.removeOwnEntry s).picture = s.picture ∧ (State.removeOwnEntry s).port = s.port ∧
    (State.removeOwnEntry s).counters = s.counters ∧ (State.removeOwnEntry s).mem = s.mem ∧
    (State.removeOwnEntry s).cfg = s.cfg := by
  simp only [State.removeOwnEntry]
  repeat' split
  all_goals simp

@[simp] theorem State.modeWithdrawn_frame (s : State) :
    (State.modeWithdrawn s).pending = s.pending ∧ (State.modeWithdrawn s).loader = s.loader ∧
    (State.modeWithdrawn s).timing = s.timing ∧ (State.modeWithdrawn s).bus = s.bus ∧
    (State.modeWithdrawn s).input = s.input ∧ (State.modeWithdrawn s).store = s.store ∧
    (State.modeWithdrawn s).ballot = s.ballot ∧ (State.modeWithdrawn s).member = s.member ∧
    (State.modeWithdrawn s).picture = s.picture ∧ (State.modeWithdrawn s).counters = s.counters ∧
    (State.modeWithdrawn s).mem = s.mem ∧ (State.modeWithdrawn s).cfg = s.cfg := by
  simp only [State.modeWithdrawn]
  repeat' split
  all_goals simp

@[simp] theorem State.placeStatus_frame (s : State) (m : StatusMsg) :
    (State.placeStatus s m).pending = s.pending ∧ (State.placeStatus s m).loader = s.loader ∧
    (State.placeStatus s m).timing = s.timing ∧ (State.placeStatus s m).input = s.input ∧
    (State.placeStatus s m).store = s.store ∧ (State.placeStatus s m).ballot = s.ballot ∧
    (State.placeStatus s m).member = s.member ∧ (State.placeStatus s m).modes = s.modes ∧
    (State.placeStatus s m).picture = s.picture ∧ (State.placeStatus s m).port = s.port ∧
    (State.placeStatus s m).mem = s.mem ∧ (State.placeStatus s m).cfg = s.cfg := by
  simp only [State.placeStatus]
  repeat' split
  all_goals simp

@[simp] theorem State.placeLeave_frame (s : State) (r : LeaveReason) :
    (State.placeLeave s r).pending = s.pending ∧ (State.placeLeave s r).loader = s.loader ∧
    (State.placeLeave s r).timing = s.timing ∧ (State.placeLeave s r).input = s.input ∧
    (State.placeLeave s r).store = s.store ∧ (State.placeLeave s r).ballot = s.ballot ∧
    (State.placeLeave s r).member = s.member ∧ (State.placeLeave s r).modes = s.modes ∧
    (State.placeLeave s r).picture = s.picture ∧ (State.placeLeave s r).port = s.port ∧
    (State.placeLeave s r).counters = s.counters ∧ (State.placeLeave s r).mem = s.mem ∧
    (State.placeLeave s r).cfg = s.cfg := by
  simp only [State.placeLeave]
  repeat' split
  all_goals simp

theorem State.placeMode_frame {s t : State} {m : ModeMsg} (h : s.placeMode m = some t) :
    t = s.setBus { s.bus with modePlace := some m } := by
  simp only [State.placeMode] at h
  split at h
  · exact absurd h (by simp)
  · injection h with h
    exact h.symm

@[simp] theorem State.withdrawStatus_frame (s : State) :
    (State.withdrawStatus s).pending = s.pending ∧ (State.withdrawStatus s).loader = s.loader ∧
    (State.withdrawStatus s).timing = s.timing ∧ (State.withdrawStatus s).input = s.input ∧
    (State.withdrawStatus s).store = s.store ∧ (State.withdrawStatus s).ballot = s.ballot ∧
    (State.withdrawStatus s).member = s.member ∧ (State.withdrawStatus s).modes = s.modes ∧
    (State.withdrawStatus s).picture = s.picture ∧ (State.withdrawStatus s).port = s.port ∧
    (State.withdrawStatus s).counters = s.counters ∧ (State.withdrawStatus s).mem = s.mem ∧
    (State.withdrawStatus s).cfg = s.cfg := by
  simp only [State.withdrawStatus]
  repeat' split
  all_goals simp

@[simp] theorem State.withdrawLeave_frame (s : State) :
    (State.withdrawLeave s).pending = s.pending ∧ (State.withdrawLeave s).loader = s.loader ∧
    (State.withdrawLeave s).timing = s.timing ∧ (State.withdrawLeave s).input = s.input ∧
    (State.withdrawLeave s).store = s.store ∧ (State.withdrawLeave s).ballot = s.ballot ∧
    (State.withdrawLeave s).member = s.member ∧ (State.withdrawLeave s).modes = s.modes ∧
    (State.withdrawLeave s).picture = s.picture ∧ (State.withdrawLeave s).port = s.port ∧
    (State.withdrawLeave s).counters = s.counters ∧ (State.withdrawLeave s).mem = s.mem ∧
    (State.withdrawLeave s).cfg = s.cfg := by
  simp only [State.withdrawLeave]
  repeat' split
  all_goals simp

@[simp] theorem State.withdrawMode_frame (s : State) (e : Ending) :
    (State.withdrawMode s e).pending = s.pending ∧ (State.withdrawMode s e).loader = s.loader ∧
    (State.withdrawMode s e).timing = s.timing ∧ (State.withdrawMode s e).input = s.input ∧
    (State.withdrawMode s e).store = s.store ∧ (State.withdrawMode s e).ballot = s.ballot ∧
    (State.withdrawMode s e).member = s.member ∧ (State.withdrawMode s e).picture = s.picture ∧
    (State.withdrawMode s e).counters = s.counters ∧ (State.withdrawMode s e).mem = s.mem ∧
    (State.withdrawMode s e).cfg = s.cfg := by
  simp only [State.withdrawMode]
  repeat' split
  all_goals simp

@[simp] theorem State.modeLeave_frame (s : State) :
    (State.modeLeave s).pending = s.pending ∧ (State.modeLeave s).loader = s.loader ∧
    (State.modeLeave s).timing = s.timing ∧ (State.modeLeave s).input = s.input ∧
    (State.modeLeave s).store = s.store ∧ (State.modeLeave s).ballot = s.ballot ∧
    (State.modeLeave s).member = s.member ∧ (State.modeLeave s).picture = s.picture ∧
    (State.modeLeave s).counters = s.counters ∧ (State.modeLeave s).mem = s.mem ∧ (State.modeLeave s).cfg = s.cfg := by
  simp [State.modeLeave]

@[simp] theorem State.clearHolding_frame (s : State) :
    (State.clearHolding s).pending = s.pending ∧ (State.clearHolding s).loader = s.loader ∧
    (State.clearHolding s).timing = s.timing ∧ (State.clearHolding s).input = s.input ∧
    (State.clearHolding s).store = s.store ∧ (State.clearHolding s).ballot = s.ballot ∧
    (State.clearHolding s).member = s.member ∧ (State.clearHolding s).picture = s.picture ∧
    (State.clearHolding s).counters = s.counters ∧ (State.clearHolding s).mem = s.mem ∧
    (State.clearHolding s).cfg = s.cfg := by
  simp [State.clearHolding]

@[simp] theorem State.beginMessage_frame (s : State) (k : Option MsgKind) :
    (State.beginMessage s k).pending = s.pending ∧ (State.beginMessage s k).loader = s.loader ∧
    (State.beginMessage s k).timing = s.timing ∧ (State.beginMessage s k).input = s.input ∧
    (State.beginMessage s k).store = s.store ∧ (State.beginMessage s k).ballot = s.ballot ∧
    (State.beginMessage s k).member = s.member ∧ (State.beginMessage s k).modes = s.modes ∧
    (State.beginMessage s k).picture = s.picture ∧ (State.beginMessage s k).port = s.port ∧
    (State.beginMessage s k).counters = s.counters ∧ (State.beginMessage s k).mem = s.mem ∧
    (State.beginMessage s k).cfg = s.cfg := by
  simp [State.beginMessage]

@[simp] theorem State.rxWaitIdle_frame (s : State) :
    (State.rxWaitIdle s).pending = s.pending ∧ (State.rxWaitIdle s).loader = s.loader ∧
    (State.rxWaitIdle s).timing = s.timing ∧ (State.rxWaitIdle s).input = s.input ∧
    (State.rxWaitIdle s).store = s.store ∧ (State.rxWaitIdle s).ballot = s.ballot ∧
    (State.rxWaitIdle s).member = s.member ∧ (State.rxWaitIdle s).modes = s.modes ∧
    (State.rxWaitIdle s).picture = s.picture ∧ (State.rxWaitIdle s).port = s.port ∧
    (State.rxWaitIdle s).counters = s.counters ∧ (State.rxWaitIdle s).mem = s.mem ∧ (State.rxWaitIdle s).cfg = s.cfg := by
  simp [State.rxWaitIdle]

@[simp] theorem State.rxDiscard_frame (s : State) :
    (State.rxDiscard s).pending = s.pending ∧ (State.rxDiscard s).loader = s.loader ∧
    (State.rxDiscard s).timing = s.timing ∧ (State.rxDiscard s).input = s.input ∧
    (State.rxDiscard s).store = s.store ∧ (State.rxDiscard s).ballot = s.ballot ∧
    (State.rxDiscard s).member = s.member ∧ (State.rxDiscard s).modes = s.modes ∧
    (State.rxDiscard s).picture = s.picture ∧ (State.rxDiscard s).port = s.port ∧ (State.rxDiscard s).mem = s.mem ∧
    (State.rxDiscard s).cfg = s.cfg := by
  simp [State.rxDiscard]

@[simp] theorem State.statusEnded_frame (s : State) (d : Sending) (whole : Bool) :
    (State.statusEnded s d whole).pending = s.pending ∧ (State.statusEnded s d whole).loader = s.loader ∧
    (State.statusEnded s d whole).timing = s.timing ∧ (State.statusEnded s d whole).input = s.input ∧
    (State.statusEnded s d whole).store = s.store ∧ (State.statusEnded s d whole).ballot = s.ballot ∧
    (State.statusEnded s d whole).member = s.member ∧ (State.statusEnded s d whole).modes = s.modes ∧
    (State.statusEnded s d whole).picture = s.picture ∧ (State.statusEnded s d whole).port = s.port ∧
    (State.statusEnded s d whole).mem = s.mem ∧ (State.statusEnded s d whole).cfg = s.cfg := by
  simp only [State.statusEnded]
  repeat' split
  all_goals simp

@[simp] theorem State.leaveEnded_frame (s : State) (d : Sending) (whole : Bool) :
    (State.leaveEnded s d whole).pending = s.pending ∧ (State.leaveEnded s d whole).loader = s.loader ∧
    (State.leaveEnded s d whole).timing = s.timing ∧ (State.leaveEnded s d whole).input = s.input ∧
    (State.leaveEnded s d whole).store = s.store ∧ (State.leaveEnded s d whole).ballot = s.ballot ∧
    (State.leaveEnded s d whole).member = s.member ∧ (State.leaveEnded s d whole).modes = s.modes ∧
    (State.leaveEnded s d whole).picture = s.picture ∧ (State.leaveEnded s d whole).port = s.port ∧
    (State.leaveEnded s d whole).counters = s.counters ∧ (State.leaveEnded s d whole).mem = s.mem ∧
    (State.leaveEnded s d whole).cfg = s.cfg := by
  simp only [State.leaveEnded]
  repeat' split
  all_goals simp

@[simp] theorem State.modeEnded_frame (s : State) (d : Sending) (whole : Bool) :
    (State.modeEnded s d whole).pending = s.pending ∧ (State.modeEnded s d whole).loader = s.loader ∧
    (State.modeEnded s d whole).timing = s.timing ∧ (State.modeEnded s d whole).input = s.input ∧
    (State.modeEnded s d whole).store = s.store ∧ (State.modeEnded s d whole).ballot = s.ballot ∧
    (State.modeEnded s d whole).member = s.member ∧ (State.modeEnded s d whole).picture = s.picture ∧
    (State.modeEnded s d whole).counters = s.counters ∧ (State.modeEnded s d whole).mem = s.mem ∧
    (State.modeEnded s d whole).cfg = s.cfg := by
  simp only [State.modeEnded]
  repeat' split
  all_goals simp

@[simp] theorem State.sendingEnded_frame (s : State) (whole : Bool) :
    (State.sendingEnded s whole).pending = s.pending ∧ (State.sendingEnded s whole).loader = s.loader ∧
    (State.sendingEnded s whole).timing = s.timing ∧ (State.sendingEnded s whole).input = s.input ∧
    (State.sendingEnded s whole).store = s.store ∧ (State.sendingEnded s whole).ballot = s.ballot ∧
    (State.sendingEnded s whole).picture = s.picture ∧ (State.sendingEnded s whole).mem = s.mem ∧
    (State.sendingEnded s whole).cfg = s.cfg := by
  simp only [State.sendingEnded]
  repeat' split
  all_goals simp

end Sys2Proof.Machine
end

