-- ==== Sys2Proof/Laws/Flash.lean ====
section
/-! SUPPORT. What XREF clocks do to the transaction that reads a copy: one clock, some clocks, and what they leave of
the loader (R156). -/

namespace Sys2Proof.Machine

/-- An XREF clock moves the transaction's clock, its bits and its bytes, nothing else of the loader. -/
theorem Loader.flashTick_only (x : Loader) (m : Bool) :
    x.flashTick m = { x with
      spiClock := (x.flashTick m).spiClock, bits := (x.flashTick m).bits, bytes := (x.flashTick m).bytes } := by
  simp only [Loader.flashTick]
  repeat' split
  all_goals rfl

/-- Some XREF clocks move the transaction's clock, its bits and its bytes, nothing else of the loader. -/
theorem Loader.foldl_flashTick_only (l : List Bool) (x : Loader) :
    l.foldl Loader.flashTick x = { x with
      spiClock := (l.foldl Loader.flashTick x).spiClock
      bits := (l.foldl Loader.flashTick x).bits
      bytes := (l.foldl Loader.flashTick x).bytes } := by
  induction l generalizing x with
  | nil => rfl
  | cons m l ih =>
    rw [List.foldl_cons, ih, Loader.flashTick_only x m]

/-- A transaction's XREF clocks move its clock, its bits and its bytes, nothing else of the loader. -/
theorem Loader.clockFlash_only (x : Loader) (l : List Bool) :
    x.clockFlash l = { x with
      spiClock := (x.clockFlash l).spiClock, bits := (x.clockFlash l).bits, bytes := (x.clockFlash l).bytes } := by
  simp only [Loader.clockFlash]
  split
  · exact Loader.foldl_flashTick_only l x
  · rfl

/-- Once the read has ended FL_SCK no longer runs: a clock changes nothing. -/
theorem Loader.flashTick_ended {x : Loader} (h : readEnded x.bytes = true) (m : Bool) : x.flashTick m = x := by
  simp [Loader.flashTick, h]

/-- Once the read has ended no number of clocks changes anything. -/
theorem Loader.clockFlash_ended {x : Loader} (h : readEnded x.bytes = true) (l : List Bool) : x.clockFlash l = x := by
  have : l.foldl Loader.flashTick x = x := by
    induction l with
    | nil => rfl
    | cons m l ih => rw [List.foldl_cons, Loader.flashTick_ended h, ih]
  simp [Loader.clockFlash, this]

/-- Clocks come one after another: those of two lists are those of the first and then those of the second. -/
theorem Loader.clockFlash_append (x : Loader) (l r : List Bool) :
    x.clockFlash (l ++ r) = (x.clockFlash l).clockFlash r := by
  by_cases h : x.reading.isSome
  · have hk : (l.foldl Loader.flashTick x).reading.isSome := by rw [Loader.foldl_flashTick_only]; exact h
    simp [Loader.clockFlash, h, hk, List.foldl_append]
  · simp [Loader.clockFlash, h]

/-- In a phase that reads a copy neither delay counts. -/
theorem Loader.countDelays_reading {x : Loader} (h : x.phase ≠ .wait) (h' : x.phase ≠ .pll) (n : Nat) :
    x.countDelays n = x := by
  simp [Loader.countDelays, h, h']

/-- A Span has FL_MISO at each of its XREF clocks. -/
@[simp] theorem length_misoLevels (w : Span) : (misoLevels w).length = w.xref := by
  simp only [misoLevels, List.length_append, List.length_take, List.length_replicate]
  omega

/-! ## A copy being read -/

/-- The data bits that have been sampled when some clocks of a transaction have passed, of the byte in progress. -/
def sampledBits (n : Nat) : Nat := if n < 128 then 0 else ((n - 128) % 32 + 1) / 4

/-- The bytes that are whole then. -/
def wholeBytes (n : Nat) : Nat := (n / 4 - 32) / 8

/-- Eight bits, most significant first, make the byte that has them. -/
theorem bitsByte_bits (v : Byte) : bitsByte ((List.range 8).map v.getMsbD) = v := by
  have h : ∀ n : Fin 256, bitsByte ((List.range 8).map (BitVec.ofFin n : Byte).getMsbD) = BitVec.ofFin n := by
    decide +kernel
  exact h v.toFin

/-- From the fifth byte on a copy calls for as many bytes as it does whole. -/
theorem bytesWanted_take (l : List Byte) (k : Nat) (h : 5 ≤ k) :
    bytesWanted (l.take k) = bytesWanted l ∨ l.length ≤ k := by
  match l with
  | [] => right; simp
  | [a] => right; simp; omega
  | [a,b] => right; simp; omega
  | [a,b,c] => right; simp; omega
  | [a,b,c,d] => right; simp; omega
  | a::b::c::d::e::r =>
    obtain ⟨m, rfl⟩ := Nat.exists_eq_add_of_le h
    rw [show 5 + m = m+1+1+1+1+1 by omega]
    left
    have h1 : ¬ (min m r.length + 1 + 1 + 1 + 1 + 1 < 5) := by omega
    have h2 : ¬ (r.length + 1 + 1 + 1 + 1 + 1 < 5) := by omega
    simp [bytesWanted, headerGood, imageLength, h1, h2]

/-- A read that ends with some bytes has not ended with fewer of them. -/
theorem readEnded_take {l : List Byte} (hl : readEnded l = true) {k : Nat} (hk : k < l.length) :
    readEnded (l.take k) = false := by
  simp only [readEnded, Bool.and_eq_true, decide_eq_true_eq, beq_iff_eq] at hl
  by_cases h5 : 5 ≤ k
  · rcases bytesWanted_take l k h5 with h | h
    · simp only [readEnded, h, List.length_take]
      have : ¬ (min k l.length = bytesWanted l) := by omega
      simp [this]
    · omega
  · have : ¬ 5 ≤ (l.take k).length := by simp; omega
    simp only [readEnded, this, decide_false, Bool.false_and]

/-- A transaction is so many XREF clocks old, and what it has read are bits of `l`. -/
structure Loader.ReadAt (c : Copy) (l : List Byte) (n : Nat) (x : Loader) : Prop where
  reading : x.reading = some c
  clock : x.spiClock = n
  bytes : x.bytes = l.take (wholeBytes n)
  bits : ∀ b, l[wholeBytes n]? = some b → x.bits = (List.range (sampledBits n)).map b.getMsbD

/-- One clock more, with FL_MISO at the bit of `l` that is due where it is sampled. -/
theorem Loader.ReadAt.next {c : Copy} {l : List Byte} {n : Nat} {x : Loader} (h : Loader.ReadAt c l n x)
    (hl : readEnded l = true)
    (hn : n < 4 * (32 + 8 * l.length)) (m : Bool)
    (hm : ∀ k j b, l[k]? = some b → j < 8 → n = 128 + 32 * k + 4 * j + 2 → m = b.getMsbD j) :
    Loader.ReadAt c l (n + 1) (x.flashTick m) := by
  obtain ⟨hr, hc, hby, hbi⟩ := h
  have h5 : 5 ≤ l.length := by simp only [readEnded, Bool.and_eq_true, decide_eq_true_eq] at hl; exact hl.1
  have hw : wholeBytes n < l.length := by simp only [wholeBytes]; omega
  have hne : readEnded x.bytes = false := by rw [hby]; exact readEnded_take hl hw
  obtain ⟨b, hb⟩ : ∃ b, l[wholeBytes n]? = some b := ⟨_, List.getElem?_eq_getElem hw⟩
  have hx := hbi b hb
  have hs : x.sampled m =
      (List.range (if n % 4 = 2 ∧ 128 ≤ n then sampledBits n + 1 else sampledBits n)).map b.getMsbD := by
    by_cases hq : n % 4 = 2 ∧ 128 ≤ n
    · have h1 : (32:Nat) ≤ n / 4 := by omega
      have := hm (wholeBytes n) (sampledBits n) b hb (by simp only [sampledBits]; split <;> omega)
        (by simp only [wholeBytes, sampledBits]; split <;> omega)
      simp [Loader.sampled, sckRises, dataPeriod, hc, Config.flashPeriod, hq, h1, hx, List.range_succ, this]
    · by_cases h2 : n % 4 = 2
      · have h1 : ¬ (32:Nat) ≤ n / 4 := by omega
        simp [Loader.sampled, sckRises, dataPeriod, hc, Config.flashPeriod, h2, h1, hx, show ¬ 128 ≤ n by omega]
      · simp [Loader.sampled, sckRises, dataPeriod, hc, Config.flashPeriod, h2, hx]
  have key : (sckEnds x.spiClock && (x.sampled m).length == 8) = decide (128 ≤ n ∧ n % 32 = 31) := by
    rw [hs]
    simp only [sckEnds, hc, Config.flashPeriod, List.length_map, List.length_range, sampledBits]
    by_cases h1 : 128 ≤ n ∧ n % 32 = 31
    · have h2 : ¬ (n < 128) := by omega
      have h3 : ¬ (n % 4 = 2 ∧ 128 ≤ n) := by omega
      have h4 : (n - 128) % 32 = 31 := by omega
      have h5 : n % 4 + 1 = 4 := by omega
      have h6 : n % 4 ≠ 2 := by omega
      simp [h1, h2, h4, h5, h6]
    · by_cases h2 : n % 4 = 3
      · have h3 : ¬ (n % 4 = 2 ∧ 128 ≤ n) := by omega
        simp only [h1, h3, if_false, decide_false, Bool.and_eq_false_iff, beq_eq_false_iff_ne]
        right
        split <;> omega
      · have h3 : (n % 4 + 1 == 4) = false := by simp; omega
        simp only [h1, h3, Bool.false_and, decide_false]
  simp only [Loader.flashTick, hr, hne, key]
  by_cases h1 : 128 ≤ n ∧ n % 32 = 31
  · have hs8 : x.sampled m = (List.range 8).map b.getMsbD := by
      have h2 : ¬ (n < 128) := by omega
      have h3 : ¬ (n % 4 = 2 ∧ 128 ≤ n) := by omega
      have h4 : ((n - 128) % 32 + 1) / 4 = 8 := by omega
      rw [hs]; simp only [sampledBits, h2, h3, if_false, h4]
    have hw1 : wholeBytes (n+1) = wholeBytes n + 1 := by simp only [wholeBytes]; omega
    simp only [h1, hs8, bitsByte_bits]
    refine ⟨by simp, by simp [hc], ?_, ?_⟩
    · simp [hby, hw1, List.take_add_one, hb]
    · intro b' hb'
      have : sampledBits (n+1) = 0 := by simp only [sampledBits]; split <;> omega
      simp [this]
  · have hw1 : wholeBytes (n+1) = wholeBytes n := by simp only [wholeBytes]; omega
    simp only [h1]
    refine ⟨by simp, by simp [hc], by simp [hby, hw1], ?_⟩
    intro b' hb'
    rw [hw1, hb] at hb'
    cases hb'
    simp only [Option.isSome_some, Bool.not_false, Bool.and_true, decide_false, if_true]
    simp only [Bool.false_eq_true, if_false, hs]
    congr 2
    simp only [sampledBits]
    repeat' split
    all_goals omega

/-- Some clocks more, none after the last that the copy takes. -/
theorem Loader.ReadAt.run {c : Copy} {l : List Byte} (hl : readEnded l = true) (m : List Bool) (n : Nat)
    {x : Loader} (h : Loader.ReadAt c l n x)
    (hn : n + m.length ≤ 4 * (32 + 8 * l.length))
    (hm : ∀ i k j b, m[i]? ≠ none → l[k]? = some b → j < 8 → n + i = 128 + 32 * k + 4 * j + 2 →
      m[i]? = some (b.getMsbD j)) :
    Loader.ReadAt c l (n + m.length) (m.foldl Loader.flashTick x) := by
  induction m generalizing n x with
  | nil => exact h
  | cons v m ih =>
    have := h.next hl (by simp at hn; omega) v (fun k j b hb hj hk => by
      have := hm 0 k j b (by simp) hb hj (by omega); simpa using this)
    have := ih (n + 1) this (by simp at hn; omega) (fun i k j b hi hb hj hk => by
      have := hm (i + 1) k j b (by simpa using hi) hb hj (by omega); simpa using this)
    simpa [Nat.add_assoc, Nat.add_comm 1] using this

end Sys2Proof.Machine
end

