-- ==== Sys2Proof/Laws/MemberFrame.lean ====
section
/-! SUPPORT. For each operation of membership, modes and the timing generator: the parts of the station it leaves as they are. -/

namespace Sys2Proof.Machine

@[simp] theorem State.setStation_frame (s : State) (x : Station) :
    (State.setStation s x).pending = s.pending ∧ (State.setStation s x).loader = s.loader ∧
    (State.setStation s x).timing = s.timing ∧ (State.setStation s x).bus = s.bus ∧
    (State.setStation s x).input = s.input ∧ (State.setStation s x).store = s.store ∧
    (State.setStation s x).ballot = s.ballot ∧ (State.setStation s x).modes = s.modes ∧
    (State.setStation s x).picture = s.picture ∧ (State.setStation s x).counters = s.counters ∧
    (State.setStation s x).mem = s.mem ∧ (State.setStation s x).cfg = s.cfg := by
  simp [State.setStation]

@[simp] theorem State.outOfMember_frame (s : State) :
    (State.outOfMember s).pending = s.pending ∧ (State.outOfMember s).loader = s.loader ∧
    (State.outOfMember s).timing = s.timing ∧ (State.outOfMember s).input = s.input ∧
    (State.outOfMember s).ballot = s.ballot ∧ (State.outOfMember s).counters = s.counters ∧
    (State.outOfMember s).mem = s.mem ∧ (State.outOfMember s).cfg = s.cfg := by
  simp only [State.outOfMember]
  repeat' split
  all_goals simp

@[simp] theorem State.announceLeave_frame (s : State) (r : LeaveReason) :
    (State.announceLeave s r).pending = s.pending ∧ (State.announceLeave s r).loader = s.loader ∧
    (State.announceLeave s r).timing = s.timing ∧ (State.announceLeave s r).input = s.input ∧
    (State.announceLeave s r).store = s.store ∧ (State.announceLeave s r).ballot = s.ballot ∧
    (State.announceLeave s r).modes = s.modes ∧ (State.announceLeave s r).picture = s.picture ∧
    (State.announceLeave s r).port = s.port ∧ (State.announceLeave s r).counters = s.counters ∧
    (State.announceLeave s r).mem = s.mem ∧ (State.announceLeave s r).cfg = s.cfg := by
  simp only [State.announceLeave]
  repeat' split
  all_goals simp

@[simp] theorem State.inputLost_frame (s : State) :
    (State.inputLost s).pending = s.pending ∧ (State.inputLost s).loader = s.loader ∧
    (State.inputLost s).timing = s.timing ∧ (State.inputLost s).input = s.input ∧
    (State.inputLost s).ballot = s.ballot ∧ (State.inputLost s).counters = s.counters ∧
    (State.inputLost s).mem = s.mem ∧ (State.inputLost s).cfg = s.cfg := by
  simp only [State.inputLost]
  repeat' split
  all_goals simp

@[simp] theorem State.silenceStation_frame (s : State) :
    (State.silenceStation s).pending = s.pending ∧ (State.silenceStation s).loader = s.loader ∧
    (State.silenceStation s).timing = s.timing ∧ (State.silenceStation s).input = s.input ∧
    (State.silenceStation s).ballot = s.ballot ∧ (State.silenceStation s).counters = s.counters ∧
    (State.silenceStation s).mem = s.mem ∧ (State.silenceStation s).cfg = s.cfg := by
  simp only [State.silenceStation]
  repeat' split
  all_goals simp

@[simp] theorem State.realign_frame (s : State) :
    (State.realign s).pending = s.pending ∧ (State.realign s).loader = s.loader ∧
    (State.realign s).timing = s.timing ∧ (State.realign s).input = s.input ∧ (State.realign s).ballot = s.ballot ∧
    (State.realign s).mem = s.mem ∧ (State.realign s).cfg = s.cfg := by
  simp only [State.realign]
  repeat' split
  all_goals simp

@[simp] theorem State.takeHold_frame (s : State) :
    (State.takeHold s).pending = s.pending ∧ (State.takeHold s).loader = s.loader ∧
    (State.takeHold s).timing = s.timing ∧ (State.takeHold s).input = s.input ∧
    (State.takeHold s).ballot = s.ballot ∧ (State.takeHold s).counters = s.counters ∧
    (State.takeHold s).mem = s.mem ∧ (State.takeHold s).cfg = s.cfg := by
  simp only [State.takeHold]
  repeat' split
  all_goals simp

@[simp] theorem State.joinTest_frame (s : State) :
    (State.joinTest s).pending = s.pending ∧ (State.joinTest s).loader = s.loader ∧
    (State.joinTest s).timing = s.timing ∧ (State.joinTest s).input = s.input ∧ (State.joinTest s).store = s.store ∧
    (State.joinTest s).ballot = s.ballot ∧ (State.joinTest s).modes = s.modes ∧
    (State.joinTest s).picture = s.picture ∧ (State.joinTest s).counters = s.counters ∧
    (State.joinTest s).mem = s.mem ∧ (State.joinTest s).cfg = s.cfg := by
  simp only [State.joinTest]
  repeat' split
  all_goals simp

@[simp] theorem State.countHoldTimer_frame (s : State) :
    (State.countHoldTimer s).pending = s.pending ∧ (State.countHoldTimer s).loader = s.loader ∧
    (State.countHoldTimer s).timing = s.timing ∧ (State.countHoldTimer s).bus = s.bus ∧
    (State.countHoldTimer s).input = s.input ∧ (State.countHoldTimer s).ballot = s.ballot ∧
    (State.countHoldTimer s).modes = s.modes ∧ (State.countHoldTimer s).port = s.port ∧
    (State.countHoldTimer s).counters = s.counters ∧ (State.countHoldTimer s).mem = s.mem ∧
    (State.countHoldTimer s).cfg = s.cfg := by
  simp only [State.countHoldTimer]
  repeat' split
  all_goals simp

@[simp] theorem State.countLapses_frame (s : State) (v0 : List (Nat × Entry)) :
    (State.countLapses s v0).pending = s.pending ∧ (State.countLapses s v0).loader = s.loader ∧
    (State.countLapses s v0).timing = s.timing ∧ (State.countLapses s v0).bus = s.bus ∧
    (State.countLapses s v0).input = s.input ∧ (State.countLapses s v0).store = s.store ∧
    (State.countLapses s v0).ballot = s.ballot ∧ (State.countLapses s v0).member = s.member ∧
    (State.countLapses s v0).modes = s.modes ∧ (State.countLapses s v0).picture = s.picture ∧
    (State.countLapses s v0).mem = s.mem ∧ (State.countLapses s v0).cfg = s.cfg := by
  induction v0 generalizing s with
  | nil => simp [State.countLapses]
  | cons e rest ih =>
    simp only [State.countLapses, ih]
    split <;> simp

@[simp] theorem State.setEntry_frame (s : State) (t : Tile) (f : Entry → Entry) :
    (State.setEntry s t f).pending = s.pending ∧ (State.setEntry s t f).loader = s.loader ∧
    (State.setEntry s t f).timing = s.timing ∧ (State.setEntry s t f).bus = s.bus ∧
    (State.setEntry s t f).input = s.input ∧ (State.setEntry s t f).store = s.store ∧
    (State.setEntry s t f).ballot = s.ballot ∧ (State.setEntry s t f).modes = s.modes ∧
    (State.setEntry s t f).picture = s.picture ∧ (State.setEntry s t f).port = s.port ∧
    (State.setEntry s t f).counters = s.counters ∧ (State.setEntry s t f).mem = s.mem ∧
    (State.setEntry s t f).cfg = s.cfg := by
  simp only [State.setEntry]
  repeat' split
  all_goals simp

@[simp] theorem State.ageRoster_frame (s : State) :
    (State.ageRoster s).pending = s.pending ∧ (State.ageRoster s).loader = s.loader ∧
    (State.ageRoster s).timing = s.timing ∧ (State.ageRoster s).bus = s.bus ∧ (State.ageRoster s).input = s.input ∧
    (State.ageRoster s).store = s.store ∧ (State.ageRoster s).ballot = s.ballot ∧
    (State.ageRoster s).modes = s.modes ∧ (State.ageRoster s).picture = s.picture ∧
    (State.ageRoster s).mem = s.mem ∧ (State.ageRoster s).cfg = s.cfg := by
  simp only [State.ageRoster]
  repeat' split
  all_goals simp

@[simp] theorem State.rosterStatus_frame (s : State) (t : Tile) (m : StatusMsg) :
    (State.rosterStatus s t m).pending = s.pending ∧ (State.rosterStatus s t m).loader = s.loader ∧
    (State.rosterStatus s t m).timing = s.timing ∧ (State.rosterStatus s t m).bus = s.bus ∧
    (State.rosterStatus s t m).input = s.input ∧ (State.rosterStatus s t m).store = s.store ∧
    (State.rosterStatus s t m).ballot = s.ballot ∧ (State.rosterStatus s t m).modes = s.modes ∧
    (State.rosterStatus s t m).picture = s.picture ∧ (State.rosterStatus s t m).counters = s.counters ∧
    (State.rosterStatus s t m).mem = s.mem ∧ (State.rosterStatus s t m).cfg = s.cfg := by
  simp only [State.rosterStatus]
  repeat' split
  all_goals simp

@[simp] theorem State.rosterLeave_frame (s : State) (t : Tile) (r : LeaveReason) :
    (State.rosterLeave s t r).pending = s.pending ∧ (State.rosterLeave s t r).loader = s.loader ∧
    (State.rosterLeave s t r).timing = s.timing ∧ (State.rosterLeave s t r).bus = s.bus ∧
    (State.rosterLeave s t r).input = s.input ∧ (State.rosterLeave s t r).store = s.store ∧
    (State.rosterLeave s t r).ballot = s.ballot ∧ (State.rosterLeave s t r).modes = s.modes ∧
    (State.rosterLeave s t r).picture = s.picture ∧ (State.rosterLeave s t r).counters = s.counters ∧
    (State.rosterLeave s t r).mem = s.mem ∧ (State.rosterLeave s t r).cfg = s.cfg := by
  simp only [State.rosterLeave]
  repeat' split
  all_goals simp

@[simp] theorem State.joinFrameSet_frame (s : State) (t : Tile) (m : StatusMsg) :
    (State.joinFrameSet s t m).pending = s.pending ∧ (State.joinFrameSet s t m).loader = s.loader ∧
    (State.joinFrameSet s t m).timing = s.timing ∧ (State.joinFrameSet s t m).bus = s.bus ∧
    (State.joinFrameSet s t m).input = s.input ∧ (State.joinFrameSet s t m).store = s.store ∧
    (State.joinFrameSet s t m).ballot = s.ballot ∧ (State.joinFrameSet s t m).modes = s.modes ∧
    (State.joinFrameSet s t m).picture = s.picture ∧ (State.joinFrameSet s t m).port = s.port ∧
    (State.joinFrameSet s t m).counters = s.counters ∧ (State.joinFrameSet s t m).mem = s.mem ∧
    (State.joinFrameSet s t m).cfg = s.cfg := by
  simp only [State.joinFrameSet]
  repeat' split
  all_goals simp

@[simp] theorem State.detectDuplicate_frame (s : State) (t : Tile) :
    (State.detectDuplicate s t).pending = s.pending ∧ (State.detectDuplicate s t).loader = s.loader ∧
    (State.detectDuplicate s t).input = s.input ∧ (State.detectDuplicate s t).ballot = s.ballot ∧
    (State.detectDuplicate s t).counters = s.counters ∧ (State.detectDuplicate s t).mem = s.mem ∧
    (State.detectDuplicate s t).cfg = s.cfg := by
  simp only [State.detectDuplicate]
  repeat' split
  all_goals simp

@[simp] theorem State.openWindow_frame (s : State) :
    (State.openWindow s).pending = s.pending ∧ (State.openWindow s).loader = s.loader ∧
    (State.openWindow s).timing = s.timing ∧ (State.openWindow s).input = s.input ∧
    (State.openWindow s).store = s.store ∧ (State.openWindow s).ballot = s.ballot ∧
    (State.openWindow s).modes = s.modes ∧ (State.openWindow s).picture = s.picture ∧
    (State.openWindow s).port = s.port ∧ (State.openWindow s).mem = s.mem ∧ (State.openWindow s).cfg = s.cfg := by
  simp only [State.openWindow]
  repeat' split
  all_goals simp

@[simp] theorem State.takeReference_frame (s : State) :
    (State.takeReference s).pending = s.pending ∧ (State.takeReference s).loader = s.loader ∧
    (State.takeReference s).timing = s.timing ∧ (State.takeReference s).bus = s.bus ∧
    (State.takeReference s).input = s.input ∧ (State.takeReference s).store = s.store ∧
    (State.takeReference s).ballot = s.ballot ∧ (State.takeReference s).modes = s.modes ∧
    (State.takeReference s).picture = s.picture ∧ (State.takeReference s).port = s.port ∧
    (State.takeReference s).counters = s.counters ∧ (State.takeReference s).mem = s.mem ∧
    (State.takeReference s).cfg = s.cfg := by
  simp only [State.takeReference]
  repeat' split
  all_goals simp

@[simp] theorem State.adopt_frame (s : State) (w : Word) :
    (State.adopt s w).pending = s.pending ∧ (State.adopt s w).loader = s.loader ∧ (State.adopt s w).bus = s.bus ∧
    (State.adopt s w).input = s.input ∧ (State.adopt s w).ballot = s.ballot ∧ (State.adopt s w).member = s.member ∧
    (State.adopt s w).modes = s.modes ∧ (State.adopt s w).port = s.port ∧ (State.adopt s w).counters = s.counters ∧
    (State.adopt s w).mem = s.mem ∧ (State.adopt s w).cfg = s.cfg := by
  simp only [State.adopt]
  repeat' split
  all_goals simp

@[simp] theorem State.enterMember_frame (s : State) (r : ModeRecord) :
    (State.enterMember s r).pending = s.pending ∧ (State.enterMember s r).loader = s.loader ∧
    (State.enterMember s r).timing = s.timing ∧ (State.enterMember s r).bus = s.bus ∧
    (State.enterMember s r).input = s.input ∧ (State.enterMember s r).store = s.store ∧
    (State.enterMember s r).ballot = s.ballot ∧ (State.enterMember s r).picture = s.picture ∧
    (State.enterMember s r).counters = s.counters ∧ (State.enterMember s r).mem = s.mem ∧
    (State.enterMember s r).cfg = s.cfg := by
  simp [State.enterMember]

@[simp] theorem State.attemptAlign_frame (s : State) (t : Tile) (m : StatusMsg) :
    (State.attemptAlign s t m).pending = s.pending ∧ (State.attemptAlign s t m).loader = s.loader ∧
    (State.attemptAlign s t m).bus = s.bus ∧ (State.attemptAlign s t m).input = s.input ∧
    (State.attemptAlign s t m).ballot = s.ballot ∧ (State.attemptAlign s t m).mem = s.mem ∧
    (State.attemptAlign s t m).cfg = s.cfg := by
  simp only [State.attemptAlign]
  split
  · next v h =>
    obtain ⟨x, _, h⟩ := Option.bind_eq_some_iff.mp h
    obtain ⟨h1, h2, h3, h4, h5, h6, h7, h8, h9, h10, h11, h12⟩ := State.align_frame h
    simp [h1, h2, h4, h5, h6, h11, h12]
  · simp

@[simp] theorem State.foundWall_frame (s : State) :
    (State.foundWall s).pending = s.pending ∧ (State.foundWall s).loader = s.loader ∧
    (State.foundWall s).timing = s.timing ∧ (State.foundWall s).bus = s.bus ∧ (State.foundWall s).input = s.input ∧
    (State.foundWall s).ballot = s.ballot ∧ (State.foundWall s).mem = s.mem ∧ (State.foundWall s).cfg = s.cfg := by
  simp only [State.foundWall]
  split
  · next v h =>
    obtain ⟨h1, h2, h3, h4, h5, h6, h7, h8, h9, h10, h11, h12⟩ := State.foundPicture_frame h
    simp [h1, h2, h3, h4, h5, h6, h11, h12]
  · simp

@[simp] theorem State.evaluate_frame (s : State) :
    (State.evaluate s).pending = s.pending ∧ (State.evaluate s).loader = s.loader ∧
    (State.evaluate s).input = s.input ∧ (State.evaluate s).ballot = s.ballot ∧ (State.evaluate s).mem = s.mem ∧
    (State.evaluate s).cfg = s.cfg := by
  simp only [State.evaluate]
  repeat' split
  all_goals simp

@[simp] theorem State.holdRepair_frame (s : State) :
    (State.holdRepair s).pending = s.pending ∧ (State.holdRepair s).loader = s.loader ∧
    (State.holdRepair s).timing = s.timing ∧ (State.holdRepair s).bus = s.bus ∧
    (State.holdRepair s).input = s.input ∧ (State.holdRepair s).store = s.store ∧
    (State.holdRepair s).ballot = s.ballot ∧ (State.holdRepair s).member = s.member ∧
    (State.holdRepair s).picture = s.picture ∧ (State.holdRepair s).port = s.port ∧
    (State.holdRepair s).counters = s.counters ∧ (State.holdRepair s).mem = s.mem ∧ (State.holdRepair s).cfg = s.cfg := by
  simp only [State.holdRepair]
  repeat' split
  all_goals simp

@[simp] theorem State.modeDeadline_frame (s : State) :
    (State.modeDeadline s).pending = s.pending ∧ (State.modeDeadline s).loader = s.loader ∧
    (State.modeDeadline s).timing = s.timing ∧ (State.modeDeadline s).input = s.input ∧
    (State.modeDeadline s).store = s.store ∧ (State.modeDeadline s).ballot = s.ballot ∧
    (State.modeDeadline s).member = s.member ∧ (State.modeDeadline s).picture = s.picture ∧
    (State.modeDeadline s).counters = s.counters ∧ (State.modeDeadline s).mem = s.mem ∧
    (State.modeDeadline s).cfg = s.cfg := by
  simp only [State.modeDeadline]
  repeat' split
  all_goals simp

@[simp] theorem State.closeWindow_frame (s : State) :
    (State.closeWindow s).pending = s.pending ∧ (State.closeWindow s).loader = s.loader ∧
    (State.closeWindow s).timing = s.timing ∧ (State.closeWindow s).input = s.input ∧
    (State.closeWindow s).store = s.store ∧ (State.closeWindow s).ballot = s.ballot ∧
    (State.closeWindow s).member = s.member ∧ (State.closeWindow s).modes = s.modes ∧
    (State.closeWindow s).picture = s.picture ∧ (State.closeWindow s).port = s.port ∧
    (State.closeWindow s).mem = s.mem ∧ (State.closeWindow s).cfg = s.cfg := by
  simp only [State.closeWindow]
  repeat' split
  all_goals simp

@[simp] theorem State.cutoffEvaluation_frame (s : State) :
    (State.cutoffEvaluation s).pending = s.pending ∧ (State.cutoffEvaluation s).loader = s.loader ∧
    (State.cutoffEvaluation s).input = s.input ∧ (State.cutoffEvaluation s).ballot = s.ballot ∧
    (State.cutoffEvaluation s).mem = s.mem ∧ (State.cutoffEvaluation s).cfg = s.cfg := by
  simp [State.cutoffEvaluation]

@[simp] theorem State.applyRepair_frame (s : State) :
    (State.applyRepair s).pending = s.pending ∧ (State.applyRepair s).loader = s.loader ∧
    (State.applyRepair s).timing = s.timing ∧ (State.applyRepair s).bus = s.bus ∧
    (State.applyRepair s).input = s.input ∧ (State.applyRepair s).store = s.store ∧
    (State.applyRepair s).ballot = s.ballot ∧ (State.applyRepair s).member = s.member ∧
    (State.applyRepair s).picture = s.picture ∧ (State.applyRepair s).mem = s.mem ∧
    (State.applyRepair s).cfg = s.cfg := by
  simp only [State.applyRepair]
  repeat' split
  all_goals simp

@[simp] theorem State.applyEntry_frame (s : State) :
    (State.applyEntry s).pending = s.pending ∧ (State.applyEntry s).loader = s.loader ∧
    (State.applyEntry s).timing = s.timing ∧ (State.applyEntry s).bus = s.bus ∧
    (State.applyEntry s).input = s.input ∧ (State.applyEntry s).store = s.store ∧
    (State.applyEntry s).ballot = s.ballot ∧ (State.applyEntry s).member = s.member ∧
    (State.applyEntry s).picture = s.picture ∧ (State.applyEntry s).counters = s.counters ∧
    (State.applyEntry s).mem = s.mem ∧ (State.applyEntry s).cfg = s.cfg := by
  simp only [State.applyEntry]
  repeat' split
  all_goals simp

@[simp] theorem State.advanceEffective_frame (s : State) :
    (State.advanceEffective s).pending = s.pending ∧ (State.advanceEffective s).loader = s.loader ∧
    (State.advanceEffective s).timing = s.timing ∧ (State.advanceEffective s).bus = s.bus ∧
    (State.advanceEffective s).input = s.input ∧ (State.advanceEffective s).store = s.store ∧
    (State.advanceEffective s).ballot = s.ballot ∧ (State.advanceEffective s).member = s.member ∧
    (State.advanceEffective s).picture = s.picture ∧ (State.advanceEffective s).port = s.port ∧
    (State.advanceEffective s).counters = s.counters ∧ (State.advanceEffective s).mem = s.mem ∧
    (State.advanceEffective s).cfg = s.cfg := by
  simp only [State.advanceEffective]
  repeat' split
  all_goals simp

@[simp] theorem State.modeFrameStart_frame (s : State) :
    (State.modeFrameStart s).pending = s.pending ∧ (State.modeFrameStart s).loader = s.loader ∧
    (State.modeFrameStart s).timing = s.timing ∧ (State.modeFrameStart s).bus = s.bus ∧
    (State.modeFrameStart s).input = s.input ∧ (State.modeFrameStart s).store = s.store ∧
    (State.modeFrameStart s).ballot = s.ballot ∧ (State.modeFrameStart s).member = s.member ∧
    (State.modeFrameStart s).picture = s.picture ∧ (State.modeFrameStart s).mem = s.mem ∧
    (State.modeFrameStart s).cfg = s.cfg := by
  simp only [State.modeFrameStart]
  repeat' split
  all_goals simp

@[simp] theorem State.tieEntry_frame (s : State) (e x : ModeEntry) :
    (State.tieEntry s e x).pending = s.pending ∧ (State.tieEntry s e x).loader = s.loader ∧
    (State.tieEntry s e x).timing = s.timing ∧ (State.tieEntry s e x).bus = s.bus ∧
    (State.tieEntry s e x).input = s.input ∧ (State.tieEntry s e x).store = s.store ∧
    (State.tieEntry s e x).ballot = s.ballot ∧ (State.tieEntry s e x).member = s.member ∧
    (State.tieEntry s e x).picture = s.picture ∧ (State.tieEntry s e x).port = s.port ∧
    (State.tieEntry s e x).mem = s.mem ∧ (State.tieEntry s e x).cfg = s.cfg := by
  simp only [State.tieEntry]
  repeat' split
  all_goals simp

@[simp] theorem State.takeMode_frame (s : State) (t : Tile) (m : ModeMsg) :
    (State.takeMode s t m).pending = s.pending ∧ (State.takeMode s t m).loader = s.loader ∧
    (State.takeMode s t m).timing = s.timing ∧ (State.takeMode s t m).bus = s.bus ∧
    (State.takeMode s t m).input = s.input ∧ (State.takeMode s t m).store = s.store ∧
    (State.takeMode s t m).ballot = s.ballot ∧ (State.takeMode s t m).member = s.member ∧
    (State.takeMode s t m).picture = s.picture ∧ (State.takeMode s t m).port = s.port ∧
    (State.takeMode s t m).mem = s.mem ∧ (State.takeMode s t m).cfg = s.cfg := by
  simp only [State.takeMode]
  repeat' split
  all_goals simp

@[simp] theorem State.setResult_frame (s : State) (r : CmdResult) :
    (State.setResult s r).pending = s.pending ∧ (State.setResult s r).loader = s.loader ∧
    (State.setResult s r).timing = s.timing ∧ (State.setResult s r).bus = s.bus ∧
    (State.setResult s r).input = s.input ∧ (State.setResult s r).store = s.store ∧
    (State.setResult s r).ballot = s.ballot ∧ (State.setResult s r).member = s.member ∧
    (State.setResult s r).modes = s.modes ∧ (State.setResult s r).picture = s.picture ∧
    (State.setResult s r).counters = s.counters ∧ (State.setResult s r).mem = s.mem ∧
    (State.setResult s r).cfg = s.cfg := by
  simp [State.setResult]

@[simp] theorem State.acceptMode_frame (s : State) (m : Mode) :
    (State.acceptMode s m).pending = s.pending ∧ (State.acceptMode s m).loader = s.loader ∧
    (State.acceptMode s m).timing = s.timing ∧ (State.acceptMode s m).input = s.input ∧
    (State.acceptMode s m).store = s.store ∧ (State.acceptMode s m).ballot = s.ballot ∧
    (State.acceptMode s m).member = s.member ∧ (State.acceptMode s m).picture = s.picture ∧
    (State.acceptMode s m).mem = s.mem ∧ (State.acceptMode s m).cfg = s.cfg := by
  simp only [State.acceptMode]
  split
  · next v h =>
    rw [State.placeMode_frame h]
    split <;> simp
  · split <;> simp

@[simp] theorem State.takeSetMode_frame (s : State) (b : Byte) :
    (State.takeSetMode s b).pending = s.pending ∧ (State.takeSetMode s b).loader = s.loader ∧
    (State.takeSetMode s b).timing = s.timing ∧ (State.takeSetMode s b).input = s.input ∧
    (State.takeSetMode s b).store = s.store ∧ (State.takeSetMode s b).ballot = s.ballot ∧
    (State.takeSetMode s b).member = s.member ∧ (State.takeSetMode s b).picture = s.picture ∧
    (State.takeSetMode s b).mem = s.mem ∧ (State.takeSetMode s b).cfg = s.cfg := by
  simp only [State.takeSetMode]
  repeat' split
  all_goals simp

@[simp] theorem State.passPixels_frame (s : State) (d : Nat) :
    (State.passPixels s d).pending = s.pending ∧ (State.passPixels s d).loader = s.loader ∧
    (State.passPixels s d).bus = s.bus ∧ (State.passPixels s d).input = s.input ∧
    (State.passPixels s d).member = s.member ∧ (State.passPixels s d).modes = s.modes ∧
    (State.passPixels s d).port = s.port ∧ (State.passPixels s d).counters = s.counters ∧
    (State.passPixels s d).mem = s.mem ∧ (State.passPixels s d).cfg = s.cfg := by
  simp only [State.passPixels]
  repeat' split
  all_goals simp

@[simp] theorem State.edgeAtStart_frame (s : State) (edge : Bool) :
    (State.edgeAtStart s edge).pending = s.pending ∧ (State.edgeAtStart s edge).loader = s.loader ∧
    (State.edgeAtStart s edge).bus = s.bus ∧ (State.edgeAtStart s edge).input = s.input ∧
    (State.edgeAtStart s edge).store = s.store ∧ (State.edgeAtStart s edge).ballot = s.ballot ∧
    (State.edgeAtStart s edge).member = s.member ∧ (State.edgeAtStart s edge).modes = s.modes ∧
    (State.edgeAtStart s edge).picture = s.picture ∧ (State.edgeAtStart s edge).port = s.port ∧
    (State.edgeAtStart s edge).counters = s.counters ∧ (State.edgeAtStart s edge).mem = s.mem ∧
    (State.edgeAtStart s edge).cfg = s.cfg := by
  simp only [State.edgeAtStart]
  repeat' split
  all_goals simp

@[simp] theorem State.keepUndriven_frame (s : State) (edge : Bool) :
    (State.keepUndriven s edge).pending = s.pending ∧ (State.keepUndriven s edge).loader = s.loader ∧
    (State.keepUndriven s edge).bus = s.bus ∧ (State.keepUndriven s edge).input = s.input ∧
    (State.keepUndriven s edge).store = s.store ∧ (State.keepUndriven s edge).ballot = s.ballot ∧
    (State.keepUndriven s edge).member = s.member ∧ (State.keepUndriven s edge).modes = s.modes ∧
    (State.keepUndriven s edge).picture = s.picture ∧ (State.keepUndriven s edge).port = s.port ∧
    (State.keepUndriven s edge).counters = s.counters ∧ (State.keepUndriven s edge).mem = s.mem ∧
    (State.keepUndriven s edge).cfg = s.cfg := by
  simp only [State.keepUndriven]
  repeat' split
  all_goals simp

@[simp] theorem State.applyEvaluation_frame (s : State) (e : Evaluation) :
    (State.applyEvaluation s e).pending = s.pending ∧ (State.applyEvaluation s e).loader = s.loader ∧
    (State.applyEvaluation s e).bus = s.bus ∧ (State.applyEvaluation s e).input = s.input ∧
    (State.applyEvaluation s e).store = s.store ∧ (State.applyEvaluation s e).ballot = s.ballot ∧
    (State.applyEvaluation s e).member = s.member ∧ (State.applyEvaluation s e).modes = s.modes ∧
    (State.applyEvaluation s e).picture = s.picture ∧ (State.applyEvaluation s e).port = s.port ∧
    (State.applyEvaluation s e).counters = s.counters ∧ (State.applyEvaluation s e).mem = s.mem ∧
    (State.applyEvaluation s e).cfg = s.cfg := by
  simp [State.applyEvaluation]

@[simp] theorem State.reportLock_frame (s : State) (before after : Lock) :
    (State.reportLock s before after).pending = s.pending ∧ (State.reportLock s before after).loader = s.loader ∧
    (State.reportLock s before after).timing = s.timing ∧ (State.reportLock s before after).bus = s.bus ∧
    (State.reportLock s before after).input = s.input ∧ (State.reportLock s before after).store = s.store ∧
    (State.reportLock s before after).ballot = s.ballot ∧ (State.reportLock s before after).member = s.member ∧
    (State.reportLock s before after).modes = s.modes ∧ (State.reportLock s before after).picture = s.picture ∧
    (State.reportLock s before after).mem = s.mem ∧ (State.reportLock s before after).cfg = s.cfg := by
  simp only [State.reportLock]
  repeat' split
  all_goals simp

@[simp] theorem State.endFrame_frame (s : State) (edge : Bool) :
    (State.endFrame s edge).pending = s.pending ∧ (State.endFrame s edge).loader = s.loader ∧
    (State.endFrame s edge).bus = s.bus ∧ (State.endFrame s edge).input = s.input ∧
    (State.endFrame s edge).member = s.member ∧ (State.endFrame s edge).modes = s.modes ∧
    (State.endFrame s edge).port = s.port ∧ (State.endFrame s edge).counters = s.counters ∧
    (State.endFrame s edge).mem = s.mem ∧ (State.endFrame s edge).cfg = s.cfg := by
  simp [State.endFrame]

@[simp] theorem State.generatorFrameStart_frame (s : State) (edge : Bool) :
    (State.generatorFrameStart s edge).pending = s.pending ∧ (State.generatorFrameStart s edge).loader = s.loader ∧
    (State.generatorFrameStart s edge).bus = s.bus ∧ (State.generatorFrameStart s edge).input = s.input ∧
    (State.generatorFrameStart s edge).member = s.member ∧ (State.generatorFrameStart s edge).modes = s.modes ∧
    (State.generatorFrameStart s edge).mem = s.mem ∧ (State.generatorFrameStart s edge).cfg = s.cfg := by
  simp [State.generatorFrameStart]

@[simp] theorem State.memberFrameStart_frame (s : State) :
    (State.memberFrameStart s).pending = s.pending ∧ (State.memberFrameStart s).loader = s.loader ∧
    (State.memberFrameStart s).timing = s.timing ∧ (State.memberFrameStart s).input = s.input ∧
    (State.memberFrameStart s).ballot = s.ballot ∧ (State.memberFrameStart s).mem = s.mem ∧
    (State.memberFrameStart s).cfg = s.cfg := by
  simp only [State.memberFrameStart]
  repeat' split
  all_goals simp

@[simp] theorem State.blockFrameStart_frame (s : State) (v0 : Block) :
    (State.blockFrameStart s v0).pending = s.pending ∧ (State.blockFrameStart s v0).loader = s.loader ∧
    (State.blockFrameStart s v0).timing = s.timing ∧ (State.blockFrameStart s v0).input = s.input ∧
    (State.blockFrameStart s v0).ballot = s.ballot ∧ (State.blockFrameStart s v0).mem = s.mem ∧
    (State.blockFrameStart s v0).cfg = s.cfg := by
  simp only [State.blockFrameStart]
  repeat' split
  all_goals simp

@[simp] theorem State.blocksFrameStart_frame (s : State) (order : List Block) :
    (State.blocksFrameStart s order).pending = s.pending ∧ (State.blocksFrameStart s order).loader = s.loader ∧
    (State.blocksFrameStart s order).timing = s.timing ∧ (State.blocksFrameStart s order).input = s.input ∧
    (State.blocksFrameStart s order).ballot = s.ballot ∧ (State.blocksFrameStart s order).mem = s.mem ∧
    (State.blocksFrameStart s order).cfg = s.cfg := by
  simp only [State.blocksFrameStart]
  induction fullOrder order generalizing s with
  | nil => simp
  | cons b rest ih => simp [ih]

@[simp] theorem State.frameStarts_frame (s : State) (edge : Bool) (order : List Block) :
    (State.frameStarts s edge order).pending = s.pending ∧ (State.frameStarts s edge order).loader = s.loader ∧
    (State.frameStarts s edge order).input = s.input ∧ (State.frameStarts s edge order).mem = s.mem ∧
    (State.frameStarts s edge order).cfg = s.cfg := by
  simp [State.frameStarts]

@[simp] theorem State.startGenerator_frame (s : State) :
    (State.startGenerator s).pending = s.pending ∧ (State.startGenerator s).loader = s.loader ∧
    (State.startGenerator s).ballot = s.ballot ∧ (State.startGenerator s).mem = s.mem ∧
    (State.startGenerator s).cfg = s.cfg := by
  simp [State.startGenerator]

end Sys2Proof.Machine
end

