-- ==== Sys2Proof/Laws/InputFrame.lean ====
section
/-! SUPPORT. For each operation of the input monitor and the ballot engine: the parts of the station it leaves as they are. -/

namespace Sys2Proof.Machine

@[simp] theorem State.reportInput_frame (s : State) :
    (State.reportInput s).pending = s.pending ∧ (State.reportInput s).loader = s.loader ∧
    (State.reportInput s).timing = s.timing ∧ (State.reportInput s).input = s.input ∧
    (State.reportInput s).ballot = s.ballot ∧ (State.reportInput s).counters = s.counters ∧
    (State.reportInput s).mem = s.mem ∧ (State.reportInput s).cfg = s.cfg := by
  simp only [State.reportInput]
  repeat' split
  all_goals simp

@[simp] theorem State.finishRegionLine_frame (s : State) (p : Progress) :
    (State.finishRegionLine s p).pending = s.pending ∧ (State.finishRegionLine s p).loader = s.loader ∧
    (State.finishRegionLine s p).timing = s.timing ∧ (State.finishRegionLine s p).bus = s.bus ∧
    (State.finishRegionLine s p).ballot = s.ballot ∧ (State.finishRegionLine s p).member = s.member ∧
    (State.finishRegionLine s p).modes = s.modes ∧ (State.finishRegionLine s p).picture = s.picture ∧
    (State.finishRegionLine s p).port = s.port ∧ (State.finishRegionLine s p).counters = s.counters ∧
    (State.finishRegionLine s p).mem = s.mem ∧ (State.finishRegionLine s p).cfg = s.cfg := by
  simp [State.finishRegionLine]

@[simp] theorem State.padColumns_frame (s : State) (p : Progress) (v0 : List Nat) :
    (State.padColumns s p v0).pending = s.pending ∧ (State.padColumns s p v0).loader = s.loader ∧
    (State.padColumns s p v0).timing = s.timing ∧ (State.padColumns s p v0).bus = s.bus ∧
    (State.padColumns s p v0).input = s.input ∧ (State.padColumns s p v0).ballot = s.ballot ∧
    (State.padColumns s p v0).member = s.member ∧ (State.padColumns s p v0).modes = s.modes ∧
    (State.padColumns s p v0).picture = s.picture ∧ (State.padColumns s p v0).port = s.port ∧
    (State.padColumns s p v0).counters = s.counters ∧ (State.padColumns s p v0).mem = s.mem ∧
    (State.padColumns s p v0).cfg = s.cfg := by
  induction v0 generalizing s with
  | nil => simp [State.padColumns]
  | cons k rest ih => simp [State.padColumns, ih]

@[simp] theorem State.padLine_frame (s : State) (p : Progress) :
    (State.padLine s p).pending = s.pending ∧ (State.padLine s p).loader = s.loader ∧
    (State.padLine s p).timing = s.timing ∧ (State.padLine s p).bus = s.bus ∧
    (State.padLine s p).ballot = s.ballot ∧ (State.padLine s p).member = s.member ∧
    (State.padLine s p).modes = s.modes ∧ (State.padLine s p).picture = s.picture ∧
    (State.padLine s p).port = s.port ∧ (State.padLine s p).counters = s.counters ∧
    (State.padLine s p).mem = s.mem ∧ (State.padLine s p).cfg = s.cfg := by
  simp only [State.padLine]
  repeat' split
  all_goals simp

@[simp] theorem State.endInputLine_frame (s : State) :
    (State.endInputLine s).pending = s.pending ∧ (State.endInputLine s).loader = s.loader ∧
    (State.endInputLine s).bus = s.bus ∧ (State.endInputLine s).member = s.member ∧
    (State.endInputLine s).modes = s.modes ∧ (State.endInputLine s).port = s.port ∧
    (State.endInputLine s).mem = s.mem ∧ (State.endInputLine s).cfg = s.cfg := by
  simp only [State.endInputLine]
  repeat' split
  all_goals simp

@[simp] theorem State.completeCapture_frame (s : State) :
    (State.completeCapture s).pending = s.pending ∧ (State.completeCapture s).loader = s.loader ∧
    (State.completeCapture s).timing = s.timing ∧ (State.completeCapture s).bus = s.bus ∧
    (State.completeCapture s).ballot = s.ballot ∧ (State.completeCapture s).member = s.member ∧
    (State.completeCapture s).modes = s.modes ∧ (State.completeCapture s).picture = s.picture ∧
    (State.completeCapture s).port = s.port ∧ (State.completeCapture s).mem = s.mem ∧
    (State.completeCapture s).cfg = s.cfg := by
  simp only [State.completeCapture]
  repeat' split
  all_goals simp

@[simp] theorem State.abandonCapture_frame (s : State) :
    (State.abandonCapture s).pending = s.pending ∧ (State.abandonCapture s).loader = s.loader ∧
    (State.abandonCapture s).timing = s.timing ∧ (State.abandonCapture s).bus = s.bus ∧
    (State.abandonCapture s).ballot = s.ballot ∧ (State.abandonCapture s).member = s.member ∧
    (State.abandonCapture s).modes = s.modes ∧ (State.abandonCapture s).picture = s.picture ∧
    (State.abandonCapture s).port = s.port ∧ (State.abandonCapture s).counters = s.counters ∧
    (State.abandonCapture s).mem = s.mem ∧ (State.abandonCapture s).cfg = s.cfg := by
  simp [State.abandonCapture]

@[simp] theorem State.enterPixel_frame (s : State) (p : Progress) (v : Rgb) :
    (State.enterPixel s p v).pending = s.pending ∧ (State.enterPixel s p v).loader = s.loader ∧
    (State.enterPixel s p v).timing = s.timing ∧ (State.enterPixel s p v).bus = s.bus ∧
    (State.enterPixel s p v).ballot = s.ballot ∧ (State.enterPixel s p v).member = s.member ∧
    (State.enterPixel s p v).modes = s.modes ∧ (State.enterPixel s p v).picture = s.picture ∧
    (State.enterPixel s p v).port = s.port ∧ (State.enterPixel s p v).counters = s.counters ∧
    (State.enterPixel s p v).mem = s.mem ∧ (State.enterPixel s p v).cfg = s.cfg := by
  simp only [State.enterPixel]
  repeat' split
  all_goals simp

@[simp] theorem State.takePixel_frame (s : State) (v : Rgb) :
    (State.takePixel s v).pending = s.pending ∧ (State.takePixel s v).loader = s.loader ∧
    (State.takePixel s v).timing = s.timing ∧ (State.takePixel s v).bus = s.bus ∧
    (State.takePixel s v).ballot = s.ballot ∧ (State.takePixel s v).member = s.member ∧
    (State.takePixel s v).modes = s.modes ∧ (State.takePixel s v).picture = s.picture ∧
    (State.takePixel s v).port = s.port ∧ (State.takePixel s v).mem = s.mem ∧ (State.takePixel s v).cfg = s.cfg := by
  simp only [State.takePixel]
  repeat' split
  all_goals simp

@[simp] theorem State.openFrame_frame (s : State) :
    (State.openFrame s).pending = s.pending ∧ (State.openFrame s).loader = s.loader ∧
    (State.openFrame s).timing = s.timing ∧ (State.openFrame s).bus = s.bus ∧ (State.openFrame s).store = s.store ∧
    (State.openFrame s).ballot = s.ballot ∧ (State.openFrame s).member = s.member ∧
    (State.openFrame s).modes = s.modes ∧ (State.openFrame s).picture = s.picture ∧
    (State.openFrame s).port = s.port ∧ (State.openFrame s).counters = s.counters ∧
    (State.openFrame s).mem = s.mem ∧ (State.openFrame s).cfg = s.cfg := by
  simp [State.openFrame]

@[simp] theorem State.beginFrame_frame (s : State) :
    (State.beginFrame s).pending = s.pending ∧ (State.beginFrame s).loader = s.loader ∧
    (State.beginFrame s).timing = s.timing ∧ (State.beginFrame s).bus = s.bus ∧
    (State.beginFrame s).ballot = s.ballot ∧ (State.beginFrame s).member = s.member ∧
    (State.beginFrame s).modes = s.modes ∧ (State.beginFrame s).picture = s.picture ∧
    (State.beginFrame s).port = s.port ∧ (State.beginFrame s).mem = s.mem ∧ (State.beginFrame s).cfg = s.cfg := by
  simp only [State.beginFrame]
  split
  · split <;> simp
  · simp

@[simp] theorem State.vsInNoSignal_frame (s : State) :
    (State.vsInNoSignal s).pending = s.pending ∧ (State.vsInNoSignal s).loader = s.loader ∧
    (State.vsInNoSignal s).timing = s.timing ∧ (State.vsInNoSignal s).ballot = s.ballot ∧
    (State.vsInNoSignal s).counters = s.counters ∧ (State.vsInNoSignal s).mem = s.mem ∧
    (State.vsInNoSignal s).cfg = s.cfg := by
  simp only [State.vsInNoSignal]
  repeat' split
  all_goals simp

@[simp] theorem State.vsInAcquiring_frame (s : State) :
    (State.vsInAcquiring s).pending = s.pending ∧ (State.vsInAcquiring s).loader = s.loader ∧
    (State.vsInAcquiring s).timing = s.timing ∧ (State.vsInAcquiring s).ballot = s.ballot ∧
    (State.vsInAcquiring s).mem = s.mem ∧ (State.vsInAcquiring s).cfg = s.cfg := by
  simp only [State.vsInAcquiring]
  repeat' split
  all_goals simp

@[simp] theorem State.shortCheck_frame (s : State) :
    (State.shortCheck s).pending = s.pending ∧ (State.shortCheck s).loader = s.loader ∧
    (State.shortCheck s).bus = s.bus ∧ (State.shortCheck s).member = s.member ∧
    (State.shortCheck s).modes = s.modes ∧ (State.shortCheck s).port = s.port ∧ (State.shortCheck s).mem = s.mem ∧
    (State.shortCheck s).cfg = s.cfg := by
  simp only [State.shortCheck]
  repeat' split
  all_goals simp

@[simp] theorem State.vsInStable_frame (s : State) :
    (State.vsInStable s).pending = s.pending ∧ (State.vsInStable s).loader = s.loader ∧
    (State.vsInStable s).mem = s.mem ∧ (State.vsInStable s).cfg = s.cfg := by
  simp only [State.vsInStable]
  repeat' split
  all_goals simp

@[simp] theorem State.inputVs_frame (s : State) :
    (State.inputVs s).pending = s.pending ∧ (State.inputVs s).loader = s.loader ∧ (State.inputVs s).mem = s.mem ∧
    (State.inputVs s).cfg = s.cfg := by
  simp only [State.inputVs]
  repeat' split
  all_goals simp

@[simp] theorem State.takeHeldVs_frame (s : State) :
    (State.takeHeldVs s).pending = s.pending ∧ (State.takeHeldVs s).loader = s.loader ∧
    (State.takeHeldVs s).mem = s.mem ∧ (State.takeHeldVs s).cfg = s.cfg := by
  simp [State.takeHeldVs]

@[simp] theorem State.takeHs_frame (s : State) :
    (State.takeHs s).pending = s.pending ∧ (State.takeHs s).loader = s.loader ∧ (State.takeHs s).mem = s.mem ∧
    (State.takeHs s).cfg = s.cfg := by
  simp only [State.takeHs]
  repeat' split
  all_goals simp

@[simp] theorem State.loseSignal_frame (s : State) :
    (State.loseSignal s).pending = s.pending ∧ (State.loseSignal s).loader = s.loader ∧
    (State.loseSignal s).timing = s.timing ∧ (State.loseSignal s).ballot = s.ballot ∧
    (State.loseSignal s).counters = s.counters ∧ (State.loseSignal s).mem = s.mem ∧ (State.loseSignal s).cfg = s.cfg := by
  simp only [State.loseSignal]
  repeat' split
  all_goals simp

@[simp] theorem State.ballotTrouble_frame (s : State) (c : Counter) :
    (State.ballotTrouble s c).pending = s.pending ∧ (State.ballotTrouble s c).loader = s.loader ∧
    (State.ballotTrouble s c).timing = s.timing ∧ (State.ballotTrouble s c).input = s.input ∧
    (State.ballotTrouble s c).mem = s.mem ∧ (State.ballotTrouble s c).cfg = s.cfg := by
  simp [State.ballotTrouble]

@[simp] theorem State.beginVote_frame (s : State) (edge : Nat) :
    (State.beginVote s edge).pending = s.pending ∧ (State.beginVote s edge).loader = s.loader ∧
    (State.beginVote s edge).timing = s.timing ∧ (State.beginVote s edge).bus = s.bus ∧
    (State.beginVote s edge).input = s.input ∧ (State.beginVote s edge).member = s.member ∧
    (State.beginVote s edge).modes = s.modes ∧ (State.beginVote s edge).picture = s.picture ∧
    (State.beginVote s edge).port = s.port ∧ (State.beginVote s edge).counters = s.counters ∧
    (State.beginVote s edge).mem = s.mem ∧ (State.beginVote s edge).cfg = s.cfg := by
  simp [State.beginVote]

@[simp] theorem State.ballotLineEvent_frame (s : State) (td : Level) :
    (State.ballotLineEvent s td).pending = s.pending ∧ (State.ballotLineEvent s td).loader = s.loader ∧
    (State.ballotLineEvent s td).timing = s.timing ∧ (State.ballotLineEvent s td).input = s.input ∧
    (State.ballotLineEvent s td).mem = s.mem ∧ (State.ballotLineEvent s td).cfg = s.cfg := by
  simp only [State.ballotLineEvent]
  repeat' split
  all_goals simp

@[simp] theorem State.endBallot_frame (s : State) :
    (State.endBallot s).pending = s.pending ∧ (State.endBallot s).loader = s.loader ∧
    (State.endBallot s).timing = s.timing ∧ (State.endBallot s).input = s.input ∧ (State.endBallot s).mem = s.mem ∧
    (State.endBallot s).cfg = s.cfg := by
  simp only [State.endBallot]
  repeat' split
  all_goals simp

end Sys2Proof.Machine
end

