-- ==== Sys2Proof/Laws/StationFrame.lean ====
section
/-! SUPPORT. For each operation of the loader, the port, the operands and the events: the parts of the station it leaves as they are. -/

namespace Sys2Proof.Machine

@[simp] theorem State.blocksReset_frame (s : State) :
    (State.blocksReset s).pending = s.pending ∧ (State.blocksReset s).mem = s.mem ∧
    (State.blocksReset s).counters = s.counters ∧ (State.blocksReset s).port = s.port := by
  simp [State.blocksReset]

@[simp] theorem State.takeRestart_frame (s : State) :
    (State.takeRestart s).pending = s.pending ∧ (State.takeRestart s).mem = s.mem ∧
    (State.takeRestart s).counters = s.counters := by
  simp [State.takeRestart]

@[simp] theorem State.enterFault_frame (s : State) (c : Cause) :
    (State.enterFault s c).pending = s.pending ∧ (State.enterFault s c).mem = s.mem ∧
    (State.enterFault s c).counters = s.counters := by
  simp [State.enterFault]

@[simp] theorem State.startRead_frame (s : State) (c : Copy) :
    (State.startRead s c).pending = s.pending ∧ (State.startRead s c).timing = s.timing ∧
    (State.startRead s c).bus = s.bus ∧ (State.startRead s c).input = s.input ∧
    (State.startRead s c).store = s.store ∧ (State.startRead s c).ballot = s.ballot ∧
    (State.startRead s c).member = s.member ∧ (State.startRead s c).modes = s.modes ∧
    (State.startRead s c).picture = s.picture ∧ (State.startRead s c).port = s.port ∧
    (State.startRead s c).counters = s.counters ∧ (State.startRead s c).mem = s.mem := by
  simp only [State.startRead]
  repeat' split
  all_goals simp

@[simp] theorem State.rejectCopy_frame (s : State) (c : Copy) (cause : Cause) :
    (State.rejectCopy s c cause).pending = s.pending ∧ (State.rejectCopy s c cause).mem = s.mem ∧
    (State.rejectCopy s c cause).counters = s.counters := by
  simp only [State.rejectCopy]
  repeat' split
  all_goals simp

@[simp] theorem State.acceptCopy_frame (s : State) (c : Copy) (k : Candidate) :
    (State.acceptCopy s c k).pending = s.pending ∧ (State.acceptCopy s c k).timing = s.timing ∧
    (State.acceptCopy s c k).bus = s.bus ∧ (State.acceptCopy s c k).input = s.input ∧
    (State.acceptCopy s c k).store = s.store ∧ (State.acceptCopy s c k).ballot = s.ballot ∧
    (State.acceptCopy s c k).port = s.port ∧ (State.acceptCopy s c k).counters = s.counters ∧
    (State.acceptCopy s c k).mem = s.mem := by
  simp [State.acceptCopy]

@[simp] theorem State.copyChecked_frame (s : State) :
    (State.copyChecked s).pending = s.pending ∧ (State.copyChecked s).mem = s.mem ∧
    (State.copyChecked s).counters = s.counters := by
  simp only [State.copyChecked]
  repeat' split
  all_goals simp

@[simp] theorem State.pllTimeout_frame (s : State) :
    (State.pllTimeout s).pending = s.pending ∧ (State.pllTimeout s).mem = s.mem ∧
    (State.pllTimeout s).counters = s.counters := by
  simp only [State.pllTimeout]
  repeat' split
  all_goals simp

@[simp] theorem State.enterRun_frame (s : State) :
    (State.enterRun s).pending = s.pending ∧ (State.enterRun s).ballot = s.ballot ∧ (State.enterRun s).mem = s.mem := by
  simp [State.enterRun]

@[simp] theorem State.firstRead_frame (s : State) :
    (State.firstRead s).pending = s.pending ∧ (State.firstRead s).timing = s.timing ∧
    (State.firstRead s).bus = s.bus ∧ (State.firstRead s).input = s.input ∧ (State.firstRead s).store = s.store ∧
    (State.firstRead s).ballot = s.ballot ∧ (State.firstRead s).member = s.member ∧
    (State.firstRead s).modes = s.modes ∧ (State.firstRead s).picture = s.picture ∧
    (State.firstRead s).port = s.port ∧ (State.firstRead s).counters = s.counters ∧ (State.firstRead s).mem = s.mem := by
  simp [State.firstRead]

@[simp] theorem State.resetReleased_frame (s : State) (straps : BitVec 2) :
    (State.resetReleased s straps).pending = s.pending ∧ (State.resetReleased s straps).timing = s.timing ∧
    (State.resetReleased s straps).bus = s.bus ∧ (State.resetReleased s straps).input = s.input ∧
    (State.resetReleased s straps).store = s.store ∧ (State.resetReleased s straps).ballot = s.ballot ∧
    (State.resetReleased s straps).member = s.member ∧ (State.resetReleased s straps).modes = s.modes ∧
    (State.resetReleased s straps).picture = s.picture ∧ (State.resetReleased s straps).counters = s.counters ∧
    (State.resetReleased s straps).mem = s.mem := by
  simp [State.resetReleased]

@[simp] theorem State.carryOut_frame (s : State) (v0 : Command) :
    (State.carryOut s v0).pending = s.pending ∧ (State.carryOut s v0).mem = s.mem := by
  simp only [State.carryOut]
  repeat' split
  all_goals simp

@[simp] theorem State.takeCommand_frame (s : State) (bytes : List Byte) :
    (State.takeCommand s bytes).pending = s.pending ∧ (State.takeCommand s bytes).mem = s.mem := by
  simp only [State.takeCommand]
  repeat' split
  all_goals simp

@[simp] theorem State.endTransaction_frame (s : State) :
    (State.endTransaction s).pending = s.pending ∧ (State.endTransaction s).mem = s.mem := by
  simp only [State.endTransaction]
  repeat' split
  all_goals simp

@[simp] theorem State.writeBytes_frame (s : State) (bytes : List Byte) :
    (State.writeBytes s bytes).pending = s.pending ∧ (State.writeBytes s bytes).loader = s.loader ∧
    (State.writeBytes s bytes).timing = s.timing ∧ (State.writeBytes s bytes).bus = s.bus ∧
    (State.writeBytes s bytes).input = s.input ∧ (State.writeBytes s bytes).store = s.store ∧
    (State.writeBytes s bytes).ballot = s.ballot ∧ (State.writeBytes s bytes).member = s.member ∧
    (State.writeBytes s bytes).modes = s.modes ∧ (State.writeBytes s bytes).picture = s.picture ∧
    (State.writeBytes s bytes).counters = s.counters ∧ (State.writeBytes s bytes).mem = s.mem ∧
    (State.writeBytes s bytes).cfg = s.cfg := by
  simp only [State.writeBytes]
  repeat' split
  all_goals simp

@[simp] theorem State.readBytes_frame (s : State) (n : Nat) (b : List Bool) :
    (State.readBytes s n b).pending = s.pending ∧ (State.readBytes s n b).loader = s.loader ∧
    (State.readBytes s n b).timing = s.timing ∧ (State.readBytes s n b).bus = s.bus ∧
    (State.readBytes s n b).input = s.input ∧ (State.readBytes s n b).store = s.store ∧
    (State.readBytes s n b).ballot = s.ballot ∧ (State.readBytes s n b).member = s.member ∧
    (State.readBytes s n b).modes = s.modes ∧ (State.readBytes s n b).picture = s.picture ∧
    (State.readBytes s n b).counters = s.counters ∧ (State.readBytes s n b).mem = s.mem ∧
    (State.readBytes s n b).cfg = s.cfg := by
  simp [State.readBytes]

@[simp] theorem State.finishTransaction_frame (s : State) (l : List Byte) (v0 : TxEnd) :
    (State.finishTransaction s l v0).pending = s.pending ∧ (State.finishTransaction s l v0).mem = s.mem := by
  simp only [State.finishTransaction]
  repeat' split
  all_goals simp

@[simp] theorem State.transaction_frame (s : State) (address : BitVec 7) (bytes : List Byte) (fin : TxEnd) :
    (State.transaction s address bytes fin).pending = s.pending ∧
    (State.transaction s address bytes fin).mem = s.mem := by
  simp only [State.transaction]
  repeat' split
  all_goals simp

@[simp] theorem State.hostWrite_frame (s : State) (i : Item) (bytes : List Byte) :
    (State.hostWrite s i bytes).pending = s.pending ∧ (State.hostWrite s i bytes).mem = s.mem := by
  simp [State.hostWrite]

@[simp] theorem State.passPanel_frame (w : Span) (s : State) :
    (State.passPanel w s).pending = s.pending ∧ (State.passPanel w s).loader = s.loader ∧
    (State.passPanel w s).bus = s.bus ∧ (State.passPanel w s).input = s.input ∧
    (State.passPanel w s).member = s.member ∧ (State.passPanel w s).modes = s.modes ∧
    (State.passPanel w s).port = s.port ∧ (State.passPanel w s).counters = s.counters ∧
    (State.passPanel w s).mem = s.mem ∧ (State.passPanel w s).cfg = s.cfg := by
  simp only [State.passPanel]
  repeat' split
  all_goals simp

@[simp] theorem State.pass_frame (w : Span) (s : State) :
    (State.pass w s).pending = s.pending ∧ (State.pass w s).member = s.member ∧ (State.pass w s).modes = s.modes ∧
    (State.pass w s).port = s.port ∧ (State.pass w s).counters = s.counters ∧ (State.pass w s).mem = s.mem := by
  simp [State.pass]

@[simp] theorem State.settle_frame (s : State) :
    (State.settle s).pending = s.pending ∧ (State.settle s).loader = s.loader ∧ (State.settle s).timing = s.timing ∧
    (State.settle s).input = s.input ∧ (State.settle s).ballot = s.ballot ∧ (State.settle s).member = s.member ∧
    (State.settle s).modes = s.modes ∧ (State.settle s).port = s.port ∧ (State.settle s).counters = s.counters ∧
    (State.settle s).mem = s.mem ∧ (State.settle s).cfg = s.cfg := by
  simp only [State.settle]
  repeat' split
  all_goals simp

@[simp] theorem State.releaseFs_frame (s : State) :
    (State.releaseFs s).pending = s.pending ∧ (State.releaseFs s).loader = s.loader ∧
    (State.releaseFs s).bus = s.bus ∧ (State.releaseFs s).input = s.input ∧ (State.releaseFs s).store = s.store ∧
    (State.releaseFs s).ballot = s.ballot ∧ (State.releaseFs s).member = s.member ∧
    (State.releaseFs s).modes = s.modes ∧ (State.releaseFs s).picture = s.picture ∧
    (State.releaseFs s).port = s.port ∧ (State.releaseFs s).counters = s.counters ∧
    (State.releaseFs s).mem = s.mem ∧ (State.releaseFs s).cfg = s.cfg := by
  simp [State.releaseFs]

@[simp] theorem State.keepEdge_frame (s : State) :
    (State.keepEdge s).pending = s.pending ∧ (State.keepEdge s).loader = s.loader ∧ (State.keepEdge s).bus = s.bus ∧
    (State.keepEdge s).input = s.input ∧ (State.keepEdge s).store = s.store ∧ (State.keepEdge s).ballot = s.ballot ∧
    (State.keepEdge s).member = s.member ∧ (State.keepEdge s).modes = s.modes ∧
    (State.keepEdge s).picture = s.picture ∧ (State.keepEdge s).port = s.port ∧
    (State.keepEdge s).counters = s.counters ∧ (State.keepEdge s).mem = s.mem ∧ (State.keepEdge s).cfg = s.cfg := by
  simp [State.keepEdge]

@[simp] theorem State.dropEdge_frame (s : State) :
    (State.dropEdge s).pending = s.pending ∧ (State.dropEdge s).loader = s.loader ∧ (State.dropEdge s).bus = s.bus ∧
    (State.dropEdge s).input = s.input ∧ (State.dropEdge s).store = s.store ∧ (State.dropEdge s).ballot = s.ballot ∧
    (State.dropEdge s).member = s.member ∧ (State.dropEdge s).modes = s.modes ∧
    (State.dropEdge s).picture = s.picture ∧ (State.dropEdge s).port = s.port ∧
    (State.dropEdge s).counters = s.counters ∧ (State.dropEdge s).mem = s.mem ∧ (State.dropEdge s).cfg = s.cfg := by
  simp [State.dropEdge]

@[simp] theorem State.nextLine_frame (s : State) :
    (State.nextLine s).pending = s.pending ∧ (State.nextLine s).loader = s.loader ∧ (State.nextLine s).bus = s.bus ∧
    (State.nextLine s).input = s.input ∧ (State.nextLine s).member = s.member ∧ (State.nextLine s).modes = s.modes ∧
    (State.nextLine s).port = s.port ∧ (State.nextLine s).counters = s.counters ∧ (State.nextLine s).mem = s.mem ∧
    (State.nextLine s).cfg = s.cfg := by
  simp [State.nextLine]

@[simp] theorem State.cutoff_frame (modeFirst : Bool) (s : State) :
    (State.cutoff modeFirst s).pending = s.pending ∧ (State.cutoff modeFirst s).loader = s.loader ∧
    (State.cutoff modeFirst s).input = s.input ∧ (State.cutoff modeFirst s).ballot = s.ballot ∧
    (State.cutoff modeFirst s).mem = s.mem ∧ (State.cutoff modeFirst s).cfg = s.cfg := by
  simp only [State.cutoff]
  repeat' split
  all_goals simp

@[simp] theorem State.enterBallotWindow_frame (s : State) :
    (State.enterBallotWindow s).pending = s.pending ∧ (State.enterBallotWindow s).loader = s.loader ∧
    (State.enterBallotWindow s).timing = s.timing ∧ (State.enterBallotWindow s).input = s.input ∧
    (State.enterBallotWindow s).store = s.store ∧ (State.enterBallotWindow s).picture = s.picture ∧
    (State.enterBallotWindow s).mem = s.mem ∧ (State.enterBallotWindow s).cfg = s.cfg := by
  simp only [State.enterBallotWindow]
  repeat' split
  all_goals simp

@[simp] theorem State.catchEdge_frame (s : State) :
    (State.catchEdge s).pending = s.pending ∧ (State.catchEdge s).loader = s.loader ∧
    (State.catchEdge s).timing = s.timing ∧ (State.catchEdge s).bus = s.bus ∧ (State.catchEdge s).input = s.input ∧
    (State.catchEdge s).store = s.store ∧ (State.catchEdge s).member = s.member ∧
    (State.catchEdge s).modes = s.modes ∧ (State.catchEdge s).picture = s.picture ∧
    (State.catchEdge s).port = s.port ∧ (State.catchEdge s).counters = s.counters ∧
    (State.catchEdge s).mem = s.mem ∧ (State.catchEdge s).cfg = s.cfg := by
  simp [State.catchEdge]

@[simp] theorem State.leaveBallotWindow_frame (s : State) :
    (State.leaveBallotWindow s).pending = s.pending ∧ (State.leaveBallotWindow s).loader = s.loader ∧
    (State.leaveBallotWindow s).timing = s.timing ∧ (State.leaveBallotWindow s).input = s.input ∧
    (State.leaveBallotWindow s).store = s.store ∧ (State.leaveBallotWindow s).member = s.member ∧
    (State.leaveBallotWindow s).modes = s.modes ∧ (State.leaveBallotWindow s).picture = s.picture ∧
    (State.leaveBallotWindow s).port = s.port ∧ (State.leaveBallotWindow s).counters = s.counters ∧
    (State.leaveBallotWindow s).mem = s.mem ∧ (State.leaveBallotWindow s).cfg = s.cfg := by
  simp only [State.leaveBallotWindow]
  repeat' split
  all_goals simp

@[simp] theorem State.enterIdle_frame (s : State) :
    (State.enterIdle s).pending = s.pending ∧ (State.enterIdle s).loader = s.loader ∧
    (State.enterIdle s).timing = s.timing ∧ (State.enterIdle s).input = s.input ∧
    (State.enterIdle s).store = s.store ∧ (State.enterIdle s).ballot = s.ballot ∧
    (State.enterIdle s).member = s.member ∧ (State.enterIdle s).modes = s.modes ∧
    (State.enterIdle s).picture = s.picture ∧ (State.enterIdle s).port = s.port ∧
    (State.enterIdle s).counters = s.counters ∧ (State.enterIdle s).mem = s.mem ∧ (State.enterIdle s).cfg = s.cfg := by
  simp [State.enterIdle]

@[simp] theorem State.fallingEdge_frame (s : State) :
    (State.fallingEdge s).pending = s.pending ∧ (State.fallingEdge s).loader = s.loader ∧
    (State.fallingEdge s).timing = s.timing ∧ (State.fallingEdge s).input = s.input ∧
    (State.fallingEdge s).store = s.store ∧ (State.fallingEdge s).ballot = s.ballot ∧
    (State.fallingEdge s).member = s.member ∧ (State.fallingEdge s).modes = s.modes ∧
    (State.fallingEdge s).picture = s.picture ∧ (State.fallingEdge s).port = s.port ∧
    (State.fallingEdge s).counters = s.counters ∧ (State.fallingEdge s).mem = s.mem ∧
    (State.fallingEdge s).cfg = s.cfg := by
  simp only [State.fallingEdge]
  repeat' split
  all_goals simp

@[simp] theorem State.loseArbitration_frame (s : State) :
    (State.loseArbitration s).pending = s.pending ∧ (State.loseArbitration s).loader = s.loader ∧
    (State.loseArbitration s).timing = s.timing ∧ (State.loseArbitration s).input = s.input ∧
    (State.loseArbitration s).store = s.store ∧ (State.loseArbitration s).ballot = s.ballot ∧
    (State.loseArbitration s).picture = s.picture ∧ (State.loseArbitration s).mem = s.mem ∧
    (State.loseArbitration s).cfg = s.cfg := by
  simp [State.loseArbitration]

@[simp] theorem State.messageWhole_frame (s : State) :
    (State.messageWhole s).pending = s.pending ∧ (State.messageWhole s).loader = s.loader ∧
    (State.messageWhole s).timing = s.timing ∧ (State.messageWhole s).input = s.input ∧
    (State.messageWhole s).store = s.store ∧ (State.messageWhole s).ballot = s.ballot ∧
    (State.messageWhole s).picture = s.picture ∧ (State.messageWhole s).mem = s.mem ∧
    (State.messageWhole s).cfg = s.cfg := by
  simp only [State.messageWhole]
  repeat' split
  all_goals simp

@[simp] theorem State.endBitFails_frame (s : State) :
    (State.endBitFails s).pending = s.pending ∧ (State.endBitFails s).loader = s.loader ∧
    (State.endBitFails s).timing = s.timing ∧ (State.endBitFails s).input = s.input ∧
    (State.endBitFails s).store = s.store ∧ (State.endBitFails s).ballot = s.ballot ∧
    (State.endBitFails s).picture = s.picture ∧ (State.endBitFails s).mem = s.mem ∧
    (State.endBitFails s).cfg = s.cfg := by
  simp [State.endBitFails]

@[simp] theorem State.handOver_frame (s : State) :
    (State.handOver s).pending = s.pending ∧ (State.handOver s).loader = s.loader ∧
    (State.handOver s).input = s.input ∧ (State.handOver s).ballot = s.ballot ∧ (State.handOver s).mem = s.mem ∧
    (State.handOver s).cfg = s.cfg := by
  simp only [State.handOver]
  repeat' split
  all_goals simp

@[simp] theorem State.becomeStuck_frame (s : State) :
    (State.becomeStuck s).pending = s.pending ∧ (State.becomeStuck s).loader = s.loader ∧
    (State.becomeStuck s).timing = s.timing ∧ (State.becomeStuck s).input = s.input ∧
    (State.becomeStuck s).store = s.store ∧ (State.becomeStuck s).ballot = s.ballot ∧
    (State.becomeStuck s).member = s.member ∧ (State.becomeStuck s).modes = s.modes ∧
    (State.becomeStuck s).picture = s.picture ∧ (State.becomeStuck s).mem = s.mem ∧
    (State.becomeStuck s).cfg = s.cfg := by
  simp [State.becomeStuck]

@[simp] theorem State.clearStuck_frame (s : State) :
    (State.clearStuck s).pending = s.pending ∧ (State.clearStuck s).loader = s.loader ∧
    (State.clearStuck s).timing = s.timing ∧ (State.clearStuck s).input = s.input ∧
    (State.clearStuck s).store = s.store ∧ (State.clearStuck s).ballot = s.ballot ∧
    (State.clearStuck s).member = s.member ∧ (State.clearStuck s).modes = s.modes ∧
    (State.clearStuck s).picture = s.picture ∧ (State.clearStuck s).port = s.port ∧
    (State.clearStuck s).counters = s.counters ∧ (State.clearStuck s).mem = s.mem ∧ (State.clearStuck s).cfg = s.cfg := by
  simp [State.clearStuck]

@[simp] theorem State.syncChange_frame (s : State) (v0 : SyncLine) (v1 : Pol) :
    (State.syncChange s v0 v1).pending = s.pending ∧ (State.syncChange s v0 v1).loader = s.loader ∧
    (State.syncChange s v0 v1).timing = s.timing ∧ (State.syncChange s v0 v1).bus = s.bus ∧
    (State.syncChange s v0 v1).store = s.store ∧ (State.syncChange s v0 v1).ballot = s.ballot ∧
    (State.syncChange s v0 v1).member = s.member ∧ (State.syncChange s v0 v1).modes = s.modes ∧
    (State.syncChange s v0 v1).picture = s.picture ∧ (State.syncChange s v0 v1).port = s.port ∧
    (State.syncChange s v0 v1).counters = s.counters ∧ (State.syncChange s v0 v1).mem = s.mem ∧
    (State.syncChange s v0 v1).cfg = s.cfg := by
  simp only [State.syncChange]
  repeat' split
  all_goals simp

@[simp] theorem State.holdVs_frame (s : State) :
    (State.holdVs s).pending = s.pending ∧ (State.holdVs s).loader = s.loader ∧ (State.holdVs s).timing = s.timing ∧
    (State.holdVs s).bus = s.bus ∧ (State.holdVs s).store = s.store ∧ (State.holdVs s).ballot = s.ballot ∧
    (State.holdVs s).member = s.member ∧ (State.holdVs s).modes = s.modes ∧ (State.holdVs s).picture = s.picture ∧
    (State.holdVs s).port = s.port ∧ (State.holdVs s).counters = s.counters ∧ (State.holdVs s).mem = s.mem ∧
    (State.holdVs s).cfg = s.cfg := by
  simp [State.holdVs]

@[simp] theorem State.wantRefresh_frame (s : State) :
    (State.wantRefresh s).pending = s.pending ∧ (State.wantRefresh s).loader = s.loader ∧
    (State.wantRefresh s).timing = s.timing ∧ (State.wantRefresh s).bus = s.bus ∧
    (State.wantRefresh s).input = s.input ∧ (State.wantRefresh s).ballot = s.ballot ∧
    (State.wantRefresh s).member = s.member ∧ (State.wantRefresh s).modes = s.modes ∧
    (State.wantRefresh s).picture = s.picture ∧ (State.wantRefresh s).port = s.port ∧
    (State.wantRefresh s).counters = s.counters ∧ (State.wantRefresh s).mem = s.mem ∧
    (State.wantRefresh s).cfg = s.cfg := by
  simp [State.wantRefresh]

@[simp] theorem State.underflow_frame (s : State) :
    (State.underflow s).pending = s.pending ∧ (State.underflow s).loader = s.loader ∧
    (State.underflow s).timing = s.timing ∧ (State.underflow s).bus = s.bus ∧ (State.underflow s).input = s.input ∧
    (State.underflow s).store.slots = s.store.slots ∧ (State.underflow s).ballot = s.ballot ∧
    (State.underflow s).member = s.member ∧ (State.underflow s).modes = s.modes ∧
    (State.underflow s).port = s.port ∧ (State.underflow s).mem = s.mem ∧ (State.underflow s).cfg = s.cfg := by
  simp [State.underflow]

end Sys2Proof.Machine
end

