-- ==== Sys2Proof/Laws/Event.lean ====
section
/-! SUPPORT. What the shape that most commands share can do: `event`, the Span, the end of a command, and one step. -/

namespace Sys2Proof.Machine

/-- A command whose event is due has its effect. -/
theorem event_due {w : Span} {due : State → Bool} {effect : State → State} {s : State} (h : due (s.pass w) = true) :
    event w due effect s = .next (effect (s.pass w)).settle := by
  simp [event, h]

/-- A command whose event is not due lets its Span pass. -/
theorem event_not_due {w : Span} {due : State → Bool} {effect : State → State} {s : State}
    (h : due (s.pass w) = false) : event w due effect s = .next (s.pass w).settle := by
  simp [event, h]

/-- What a command for an event answers, due or not. -/
theorem event_next {w : Span} {due : State → Bool} {effect : State → State} {s t : State}
    (h : event w due effect s = .next t) :
    (due (s.pass w) = true ∧ t = (effect (s.pass w)).settle) ∨ (due (s.pass w) = false ∧ t = (s.pass w).settle) := by
  cases hd : due (s.pass w)
  · rw [event_not_due hd] at h
    exact .inr ⟨rfl, (Host.Outcome.next.inj h).symm⟩
  · rw [event_due hd] at h
    exact .inl ⟨rfl, (Host.Outcome.next.inj h).symm⟩

/-- The parts that two states share, but for some, are shared but for more. -/
theorem SameBut.mono {l m : List Part} {s t : State} (h : SameBut l s t) (hl : ∀ p, p ∈ l → p ∈ m) : SameBut m s t :=
  fun p hp => h p (fun hq => hp (hl p hq))

/-- A grant keeps slots, the pending drop and the read FIFO. -/
@[simp] theorem Store.granted_keeps (rw : Nat) (r : Option Transfer) (x : Store) :
    (x.granted rw r).slots = x.slots ∧ (x.granted rw r).dropPending = x.dropPending ∧
    (x.granted rw r).readFifo = x.readFifo := by
  simp only [Store.granted, advanceFetch]
  repeat' split
  all_goals simp

/-- A granted port keeps slots, the pending drop and the read FIFO. -/
@[simp] theorem State.arbitrate_store (s : State) :
    s.arbitrate.store.slots = s.store.slots ∧ s.arbitrate.store.dropPending = s.store.dropPending ∧
    s.arbitrate.store.readFifo = s.store.readFifo := by
  simp only [State.arbitrate]
  split <;> simp

/-- The selection does not read the bus. -/
@[simp] theorem State.findSelection_setBus (s : State) (x : Bus) : (s.setBus x).findSelection = s.findSelection := rfl

/-- What the end of a command finds again, and nothing else, may differ after it. -/
theorem State.settle_settled (s : State) : Settled s s.settle := by
  refine ⟨?_, ?_, ?_, ?_, ?_, ?_⟩
  · intro p hp
    cases p <;> simp_all [Part.same]
  all_goals
    simp only [State.settle]
    split <;> simp_all

/-- The reader's request does not depend on what settling changes. -/
theorem State.readRequest_settled (s : State) (x : Bus) (y : Selection) :
    (s.setBus x).readRequest = s.readRequest ∧
    (s.setPicture { s.picture with nextSelection := y }).readRequest = s.readRequest := ⟨rfl, rfl⟩

/-- What the arbiter makes of the store. -/
theorem State.arbitrate_eq (s : State) : s.arbitrate.store =
    if (s.timing.running && s.store.transfer.isNone) = true then s.store.granted s.cfg.rw s.readRequest
    else s.store := by
  unfold State.arbitrate
  split <;> rfl

/-- The arbiter's grant is all that settling changes of the store. -/
theorem State.settle_store (s : State) : s.settle.store = s.arbitrate.store := by
  unfold State.settle
  split <;> (rw [State.arbitrate_eq, State.arbitrate_eq]; rfl)

/-- MEMORY_TRANSFER_END whose transfer stays inside its slot. -/
theorem exec_memoryTransferEnd {w : Span} {s u : State} (h : (s.pass w).finishTransfer = some u) :
    exec (.memoryTransferEnd w) s = .next u.settle := by
  simp [exec, execMemoryTransferEnd, h]

/-- The pixel clocks of a Span move the pixel count and the age of the kept edge, nothing else of the timing generator. -/
theorem State.passPanel_timing (w : Span) (s : State) :
    (s.passPanel w).timing = { s.timing with
      pixel := (s.passPanel w).timing.pixel, keptEdge := (s.passPanel w).timing.keptEdge } := by
  simp only [State.passPanel]
  split
  · simp only [State.passPixels]
    split <;> simp
  · simp

/-- What a Span makes of each part that it changes. -/
@[simp] theorem State.pass_parts (w : Span) (s : State) :
    (s.pass w).loader = s.loader.pass w ∧ (s.pass w).input = s.input.pass w ∧
    (s.pass w).timing = (s.passPanel w).timing ∧ (s.pass w).store = (s.passPanel w).store ∧
    (s.pass w).picture = (s.passPanel w).picture := by
  simp [State.pass]

/-- The Tile Bus controller takes a Span's XREF clocks, with the ballot bit driven after its pixel clocks. -/
theorem State.pass_bus (w : Span) (s : State) :
    (s.pass w).bus = s.bus.pass s.locked s.tile (s.passPanel w).tdBallot w := by
  have h : (s.passPanel w).locked = s.locked := by
    simp only [State.locked]
    rw [State.passPanel_timing]
  simp [State.pass, h, State.tile]

/-- A Span moves the pixel count and the age of the kept edge, nothing else of the timing generator. -/
theorem State.pass_timing (w : Span) (s : State) :
    (s.pass w).timing = { s.timing with
      pixel := (s.pass w).timing.pixel, keptEdge := (s.pass w).timing.keptEdge } := by
  simp only [State.pass_parts]
  exact State.passPanel_timing w s

/-- What a Span leaves of the loader. -/
@[simp] theorem Loader.pass_keeps (x : Loader) (w : Span) :
    (x.pass w).phase = x.phase ∧ (x.pass w).copyInUse = x.copyInUse ∧ (x.pass w).cause = x.cause ∧
    (x.pass w).settings = x.settings ∧ (x.pass w).pllRunning = x.pllRunning := by
  simp only [Loader.pass]
  repeat' split
  all_goals (try rw [Loader.clockFlash_only]); exact ⟨rfl, rfl, rfl, rfl, rfl⟩

/-- The configuration does not change as a Span passes. -/
@[simp] theorem State.pass_cfg (w : Span) (s : State) : (s.pass w).cfg = s.cfg := by simp [State.cfg]

/-- With nothing waiting the station idles. -/
theorem step_nil {s : State} (h : s.pending = []) : step s = .next s := by simp [step, h]

end Sys2Proof.Machine
end

