-- ==== Sys2Proof/Laws/Flags.lean ====
section
/-! SUPPORT. Counters and event flags: what counting, raising and clearing leave to be read. -/

namespace Sys2Proof.Machine

/-- A mark is a mark. -/
theorem Event.mark_ne_zero (e : Event) : e.mark ≠ 0 := by cases e <;> decide

/-- A raised event's flag is set. -/
@[simp] theorem State.flag_raise (s : State) (e : Event) : (s.raise e).flag e = true := by
  have h : (s.port.flags ||| e.mark) &&& e.mark = e.mark := by
    apply BitVec.eq_of_getLsbD_eq
    intro i _
    simp only [BitVec.getLsbD_and, BitVec.getLsbD_or]
    cases s.port.flags.getLsbD i <;> simp
  simp only [State.flag, State.raise, State.setPort_port, h, bne_iff_ne]
  exact Event.mark_ne_zero e

/-- Raising an event leaves set flags set. -/
theorem State.flag_raise_of_flag {s : State} {e : Event} (d : Event) (h : s.flag e = true) :
    (s.raise d).flag e = true := by
  simp only [State.flag, State.raise, State.setPort_port, bne_iff_ne, ne_eq] at h ⊢
  intro h0
  apply h
  apply BitVec.eq_of_getLsbD_eq
  intro i hi
  have := congrArg (fun x => BitVec.getLsbD x i) h0
  simp only [BitVec.getLsbD_and, BitVec.getLsbD_or] at this ⊢
  cases h1 : s.port.flags.getLsbD i <;> simp_all

/-- A flag depends on the port alone. -/
theorem State.flag_of_port {s t : State} (h : t.port = s.port) (e : Event) : t.flag e = s.flag e := by
  simp [State.flag, h]

/-- A counted counter has risen by one, or holds at 65535; the others are as they were. -/
theorem Counters.get_bump (c : Counters) (k j : Counter) :
    (c.bump k).get j = if j = k then satInc (c.get j) else c.get j := by
  cases k <;> cases j <;> rfl

/-- Counting never lowers a value. -/
theorem satInc_le (v : Word) : v.toNat ≤ (satInc v).toNat := by
  simp only [satInc]
  split
  · exact Nat.le_refl _
  · next h =>
    have : v.toNat ≠ 0xFFFF := fun e => h (BitVec.eq_of_toNat_eq e)
    rw [BitVec.toNat_add]
    have hlt := v.isLt
    have h1 : (1 : Word).toNat = 1 := rfl
    omega

end Sys2Proof.Machine
end

