-- ==== Sys2Proof/Laws/Latch.lean ====
section
/-! SUPPORT. The conflict latch: every operation that writes the Tile Bus controller, but for the detection of a duplicate
and the resets, leaves it as it is. -/

namespace Sys2Proof.Machine

@[simp] theorem State.placeStatus_latch (s : State) (m : StatusMsg) :
    (State.placeStatus s m).bus.latch = s.bus.latch := by
  simp only [State.placeStatus]
  repeat' split
  all_goals simp

@[simp] theorem State.placeLeave_latch (s : State) (r : LeaveReason) :
    (State.placeLeave s r).bus.latch = s.bus.latch := by
  simp only [State.placeLeave]
  repeat' split
  all_goals simp

@[simp] theorem State.withdrawStatus_latch (s : State) :
    (State.withdrawStatus s).bus.latch = s.bus.latch := by
  simp only [State.withdrawStatus]
  repeat' split
  all_goals simp

@[simp] theorem State.withdrawLeave_latch (s : State) :
    (State.withdrawLeave s).bus.latch = s.bus.latch := by
  simp only [State.withdrawLeave]
  repeat' split
  all_goals simp

@[simp] theorem State.withdrawMode_latch (s : State) (e : Ending) :
    (State.withdrawMode s e).bus.latch = s.bus.latch := by
  simp only [State.withdrawMode]
  repeat' split
  all_goals simp

@[simp] theorem State.modeLeave_latch (s : State) :
    (State.modeLeave s).bus.latch = s.bus.latch := by
  simp only [State.modeLeave]
  repeat' split
  all_goals simp

@[simp] theorem State.clearHolding_latch (s : State) :
    (State.clearHolding s).bus.latch = s.bus.latch := by
  simp only [State.clearHolding]
  repeat' split
  all_goals simp

@[simp] theorem State.beginMessage_latch (s : State) (k : Option MsgKind) :
    (State.beginMessage s k).bus.latch = s.bus.latch := by
  simp only [State.beginMessage]
  repeat' split
  all_goals simp

@[simp] theorem State.rxWaitIdle_latch (s : State) :
    (State.rxWaitIdle s).bus.latch = s.bus.latch := by
  simp only [State.rxWaitIdle]
  repeat' split
  all_goals simp

@[simp] theorem State.rxDiscard_latch (s : State) :
    (State.rxDiscard s).bus.latch = s.bus.latch := by
  simp only [State.rxDiscard]
  repeat' split
  all_goals simp

@[simp] theorem State.statusEnded_latch (s : State) (d : Sending) (whole : Bool) :
    (State.statusEnded s d whole).bus.latch = s.bus.latch := by
  simp only [State.statusEnded]
  repeat' split
  all_goals simp

@[simp] theorem State.leaveEnded_latch (s : State) (d : Sending) (whole : Bool) :
    (State.leaveEnded s d whole).bus.latch = s.bus.latch := by
  simp only [State.leaveEnded]
  repeat' split
  all_goals simp

@[simp] theorem State.modeEnded_latch (s : State) (d : Sending) (whole : Bool) :
    (State.modeEnded s d whole).bus.latch = s.bus.latch := by
  simp only [State.modeEnded]
  repeat' split
  all_goals simp

@[simp] theorem State.sendingEnded_latch (s : State) (whole : Bool) :
    (State.sendingEnded s whole).bus.latch = s.bus.latch := by
  simp only [State.sendingEnded]
  repeat' split
  all_goals simp

@[simp] theorem State.outOfMember_latch (s : State) :
    (State.outOfMember s).bus.latch = s.bus.latch := by
  simp only [State.outOfMember]
  repeat' split
  all_goals simp

@[simp] theorem State.announceLeave_latch (s : State) (r : LeaveReason) :
    (State.announceLeave s r).bus.latch = s.bus.latch := by
  simp only [State.announceLeave]
  repeat' split
  all_goals simp

@[simp] theorem State.inputLost_latch (s : State) :
    (State.inputLost s).bus.latch = s.bus.latch := by
  simp only [State.inputLost]
  repeat' split
  all_goals simp

@[simp] theorem State.silenceStation_latch (s : State) :
    (State.silenceStation s).bus.latch = s.bus.latch := by
  simp only [State.silenceStation]
  repeat' split
  all_goals simp

@[simp] theorem State.realign_latch (s : State) :
    (State.realign s).bus.latch = s.bus.latch := by
  simp only [State.realign]
  repeat' split
  all_goals simp

@[simp] theorem State.takeHold_latch (s : State) :
    (State.takeHold s).bus.latch = s.bus.latch := by
  simp only [State.takeHold]
  repeat' split
  all_goals simp

@[simp] theorem State.joinTest_latch (s : State) :
    (State.joinTest s).bus.latch = s.bus.latch := by
  simp only [State.joinTest]
  repeat' split
  all_goals simp

@[simp] theorem State.openWindow_latch (s : State) :
    (State.openWindow s).bus.latch = s.bus.latch := by
  simp only [State.openWindow]
  repeat' split
  all_goals simp

@[simp] theorem State.evaluate_latch (s : State) :
    (State.evaluate s).bus.latch = s.bus.latch := by
  simp only [State.evaluate]
  repeat' split
  all_goals simp

@[simp] theorem State.modeDeadline_latch (s : State) :
    (State.modeDeadline s).bus.latch = s.bus.latch := by
  simp only [State.modeDeadline]
  repeat' split
  all_goals simp

@[simp] theorem State.closeWindow_latch (s : State) :
    (State.closeWindow s).bus.latch = s.bus.latch := by
  simp only [State.closeWindow]
  repeat' split
  all_goals simp

@[simp] theorem State.cutoffEvaluation_latch (s : State) : s.cutoffEvaluation.bus.latch = s.bus.latch := by
  simp [State.cutoffEvaluation]

/-- A MODE that is placed leaves the latch as it is. -/
theorem State.placeMode_latch {s t : State} {m : ModeMsg} (h : s.placeMode m = some t) :
    t.bus.latch = s.bus.latch := by
  simp only [State.placeMode] at h
  split at h
  · cases h
  · cases h
    rfl

@[simp] theorem State.acceptMode_latch (s : State) (m : Mode) :
    (State.acceptMode s m).bus.latch = s.bus.latch := by
  simp only [State.acceptMode]
  split
  · next v h =>
    rw [State.placeMode_latch h]
    split <;> simp
  · split <;> simp

@[simp] theorem State.takeSetMode_latch (s : State) (b : Byte) :
    (State.takeSetMode s b).bus.latch = s.bus.latch := by
  simp only [State.takeSetMode]
  repeat' split
  all_goals simp

@[simp] theorem State.memberFrameStart_latch (s : State) :
    (State.memberFrameStart s).bus.latch = s.bus.latch := by
  simp only [State.memberFrameStart]
  repeat' split
  all_goals simp

@[simp] theorem State.blockFrameStart_latch (s : State) (v0 : Block) :
    (State.blockFrameStart s v0).bus.latch = s.bus.latch := by
  simp only [State.blockFrameStart]
  repeat' split
  all_goals simp

@[simp] theorem State.blocksFrameStart_latch (s : State) (order : List Block) :
    (State.blocksFrameStart s order).bus.latch = s.bus.latch := by
  simp only [State.blocksFrameStart]
  generalize fullOrder order = l
  induction l generalizing s with
  | nil => rfl
  | cons b rest ih => simp [ih]

@[simp] theorem State.frameStarts_latch (s : State) (edge : Bool) (order : List Block) :
    (State.frameStarts s edge order).bus.latch = s.bus.latch := by
  simp only [State.frameStarts]
  repeat' split
  all_goals simp

@[simp] theorem State.reportInput_latch (s : State) :
    (State.reportInput s).bus.latch = s.bus.latch := by
  simp only [State.reportInput]
  repeat' split
  all_goals simp

@[simp] theorem State.vsInNoSignal_latch (s : State) :
    (State.vsInNoSignal s).bus.latch = s.bus.latch := by
  simp only [State.vsInNoSignal]
  repeat' split
  all_goals simp

@[simp] theorem State.vsInAcquiring_latch (s : State) :
    (State.vsInAcquiring s).bus.latch = s.bus.latch := by
  simp only [State.vsInAcquiring]
  repeat' split
  all_goals simp

@[simp] theorem State.vsInStable_latch (s : State) :
    (State.vsInStable s).bus.latch = s.bus.latch := by
  simp only [State.vsInStable]
  repeat' split
  all_goals simp

@[simp] theorem State.inputVs_latch (s : State) :
    (State.inputVs s).bus.latch = s.bus.latch := by
  simp only [State.inputVs]
  repeat' split
  all_goals simp

@[simp] theorem State.takeHeldVs_latch (s : State) :
    (State.takeHeldVs s).bus.latch = s.bus.latch := by
  simp only [State.takeHeldVs]
  repeat' split
  all_goals simp

@[simp] theorem State.takeHs_latch (s : State) :
    (State.takeHs s).bus.latch = s.bus.latch := by
  simp only [State.takeHs]
  repeat' split
  all_goals simp

@[simp] theorem State.loseSignal_latch (s : State) :
    (State.loseSignal s).bus.latch = s.bus.latch := by
  simp only [State.loseSignal]
  repeat' split
  all_goals simp

@[simp] theorem State.ballotTrouble_latch (s : State) (c : Counter) :
    (State.ballotTrouble s c).bus.latch = s.bus.latch := by
  simp only [State.ballotTrouble]
  repeat' split
  all_goals simp

@[simp] theorem State.ballotLineEvent_latch (s : State) (td : Level) :
    (State.ballotLineEvent s td).bus.latch = s.bus.latch := by
  simp only [State.ballotLineEvent]
  repeat' split
  all_goals simp

@[simp] theorem State.endBallot_latch (s : State) :
    (State.endBallot s).bus.latch = s.bus.latch := by
  simp only [State.endBallot]
  repeat' split
  all_goals simp

@[simp] theorem State.settle_latch (s : State) :
    (State.settle s).bus.latch = s.bus.latch := by
  simp only [State.settle]
  repeat' split
  all_goals simp

@[simp] theorem State.cutoff_latch (modeFirst : Bool) (s : State) :
    (State.cutoff modeFirst s).bus.latch = s.bus.latch := by
  simp only [State.cutoff]
  repeat' split
  all_goals simp

@[simp] theorem State.enterBallotWindow_latch (s : State) :
    (State.enterBallotWindow s).bus.latch = s.bus.latch := by
  simp only [State.enterBallotWindow]
  repeat' split
  all_goals simp

@[simp] theorem State.leaveBallotWindow_latch (s : State) :
    (State.leaveBallotWindow s).bus.latch = s.bus.latch := by
  simp only [State.leaveBallotWindow]
  repeat' split
  all_goals simp

@[simp] theorem State.enterIdle_latch (s : State) :
    (State.enterIdle s).bus.latch = s.bus.latch := by
  simp only [State.enterIdle]
  repeat' split
  all_goals simp

@[simp] theorem State.fallingEdge_latch (s : State) :
    (State.fallingEdge s).bus.latch = s.bus.latch := by
  simp only [State.fallingEdge]
  repeat' split
  all_goals simp

@[simp] theorem State.loseArbitration_latch (s : State) :
    (State.loseArbitration s).bus.latch = s.bus.latch := by
  simp only [State.loseArbitration]
  repeat' split
  all_goals simp

@[simp] theorem State.messageWhole_latch (s : State) :
    (State.messageWhole s).bus.latch = s.bus.latch := by
  simp only [State.messageWhole]
  repeat' split
  all_goals simp

@[simp] theorem State.endBitFails_latch (s : State) :
    (State.endBitFails s).bus.latch = s.bus.latch := by
  simp only [State.endBitFails]
  repeat' split
  all_goals simp

@[simp] theorem State.becomeStuck_latch (s : State) :
    (State.becomeStuck s).bus.latch = s.bus.latch := by
  simp only [State.becomeStuck]
  repeat' split
  all_goals simp

@[simp] theorem State.clearStuck_latch (s : State) :
    (State.clearStuck s).bus.latch = s.bus.latch := by
  simp only [State.clearStuck]
  repeat' split
  all_goals simp

/-- What the end of a bit time, an alignment and a sample leave of the bus. -/
@[simp] theorem Bus.endBit_keeps (locked : Bool) (u : Bus) :
    (u.endBit locked).active = u.active ∧ (u.endBit locked).windowOpen = u.windowOpen ∧
    (u.endBit locked).ballotWindow = u.ballotWindow ∧ (u.endBit locked).modePlace = u.modePlace ∧
    (u.endBit locked).leavePlace = u.leavePlace ∧ (u.endBit locked).statusPlace = u.statusPlace ∧
    (u.endBit locked).latch = u.latch ∧ (u.endBit locked).stuck = u.stuck := by
  simp [Bus.endBit]

@[simp] theorem Bus.alignMark_keeps (locked : Bool) (u : Bus) :
    (u.alignMark locked).active = u.active ∧ (u.alignMark locked).windowOpen = u.windowOpen ∧
    (u.alignMark locked).ballotWindow = u.ballotWindow ∧ (u.alignMark locked).modePlace = u.modePlace ∧
    (u.alignMark locked).leavePlace = u.leavePlace ∧ (u.alignMark locked).statusPlace = u.statusPlace ∧
    (u.alignMark locked).latch = u.latch ∧ (u.alignMark locked).stuck = u.stuck := by
  simp only [Bus.alignMark]
  split <;> simp

@[simp] theorem Bus.takeSample_keeps (u : Bus) (b : Level) :
    (u.takeSample b).active = u.active ∧ (u.takeSample b).windowOpen = u.windowOpen ∧
    (u.takeSample b).ballotWindow = u.ballotWindow ∧ (u.takeSample b).modePlace = u.modePlace ∧
    (u.takeSample b).leavePlace = u.leavePlace ∧ (u.takeSample b).statusPlace = u.statusPlace ∧
    (u.takeSample b).latch = u.latch ∧ (u.takeSample b).stuck = u.stuck := by
  simp [Bus.takeSample]

/-- What an XREF clock of TD leaves of the bus. -/
@[simp] theorem Bus.clock_keeps (locked : Bool) (t : Tile) (ballot : Level) (u : Bus) (b : Level) :
    (u.clock locked t ballot b).active = u.active ∧ (u.clock locked t ballot b).windowOpen = u.windowOpen ∧
    (u.clock locked t ballot b).ballotWindow = u.ballotWindow ∧ (u.clock locked t ballot b).modePlace = u.modePlace ∧
    (u.clock locked t ballot b).leavePlace = u.leavePlace ∧ (u.clock locked t ballot b).statusPlace = u.statusPlace ∧
    (u.clock locked t ballot b).latch = u.latch ∧ (u.clock locked t ballot b).stuck = u.stuck := by
  simp only [Bus.clock]
  repeat' split
  all_goals simp

/-- So do all the XREF clocks of a Span. -/
@[simp] theorem Bus.pass_keeps (u : Bus) (locked : Bool) (t : Tile) (ballot : Level) (w : Span) :
    (u.pass locked t ballot w).active = u.active ∧ (u.pass locked t ballot w).windowOpen = u.windowOpen ∧
    (u.pass locked t ballot w).ballotWindow = u.ballotWindow ∧ (u.pass locked t ballot w).modePlace = u.modePlace ∧
    (u.pass locked t ballot w).leavePlace = u.leavePlace ∧ (u.pass locked t ballot w).statusPlace = u.statusPlace ∧
    (u.pass locked t ballot w).latch = u.latch ∧ (u.pass locked t ballot w).stuck = u.stuck := by
  simp only [Bus.pass]
  split
  · next h =>
    clear h
    generalize tdLevels w = l
    induction l generalizing u with
    | nil => simp
    | cons b rest ih =>
      obtain ⟨h1, h2, h3, h4, h5, h6, h7, h8⟩ := ih (u.clock locked t ballot b)
      simp only [List.foldl_cons]
      simp [h1, h2, h3, h4, h5, h6, h7, h8]
  · simp

@[simp] theorem State.pass_latch (w : Span) (s : State) : (s.pass w).bus.latch = s.bus.latch := by
  simp [State.pass]

end Sys2Proof.Machine
end

