-- ==== Sys2Proof/Laws/Memory.lean ====
section
/-! SUPPORT. The external memory: what a write leaves to be read, and that every write keeps the canonical form. -/

namespace Sys2Proof.Machine

/-- The canonical form of a list with a first entry. -/
theorem Memory.wf_cons (a : Nat) (v : Byte) (rest : List Host.Cell) :
    Memory.wf ((a, v) :: rest) = true ↔ v ≠ Config.unwritten ∧ (∀ d ∈ rest, a < d.1) ∧ Memory.wf rest = true := by
  simp [Memory.wf, and_assoc]

/-- An address below every listed one reads as unwritten. -/
theorem memRead_below (l : List Host.Cell) (a : Nat) (h : ∀ d ∈ l, a < d.1) : memRead l a = Config.unwritten := by
  induction l with
  | nil => rfl
  | cons d l ih =>
    have h1 := h d (by simp)
    simp only [memRead]
    rw [if_neg (by omega)]
    exact ih (fun e he => h e (by simp [he]))

/-- Reading from a list with a first entry. -/
theorem memRead_cons (a b : Nat) (v : Byte) (m : List Host.Cell) :
    memRead ((a, v) :: m) b = if b = a then v else memRead m b := by
  by_cases hb : a = b
  · rw [memRead, if_pos hb, if_pos hb.symm]
  · rw [memRead, if_neg hb, if_neg (fun e => hb e.symm)]

/-- Reading an address after a write to it or to another. -/
theorem memRead_memWrite (m : List Host.Cell) (a b : Nat) (v : Byte) (h : Memory.wf m = true) :
    memRead (memWrite m a v) b = if b = a then v else memRead m b := by
  induction m with
  | nil =>
    simp only [memWrite]
    by_cases hv : v = Config.unwritten
    · rw [if_pos hv, hv]
      split <;> rfl
    · rw [if_neg hv, memRead_cons]
  | cons c rest ih =>
    obtain ⟨x, u⟩ := c
    obtain ⟨hu, hx, hr⟩ := (Memory.wf_cons x u rest).mp h
    simp only [memWrite]
    by_cases hlt : a < x
    · have hl : memRead ((x, u) :: rest) a = Config.unwritten := memRead_below _ a (by
        intro d hd
        rcases List.mem_cons.mp hd with rfl | hd
        · exact hlt
        · exact lt_trans hlt (hx d hd))
      rw [if_pos hlt]
      by_cases hv : v = Config.unwritten
      · rw [if_pos hv]
        by_cases hb : b = a
        · rw [if_pos hb, hb, hl, hv]
        · rw [if_neg hb]
      · rw [if_neg hv, memRead_cons]
    · rw [if_neg hlt]
      by_cases he : a = x
      · subst he
        rw [if_pos rfl]
        have hl := memRead_below rest a hx
        by_cases hv : v = Config.unwritten
        · rw [if_pos hv]
          by_cases hb : b = a
          · rw [if_pos hb, hb, hl, hv]
          · rw [if_neg hb, memRead_cons, if_neg hb]
        · rw [if_neg hv, memRead_cons, memRead_cons]
          split <;> rfl
      · rw [if_neg he]
        simp only [memRead_cons, ih hr]
        by_cases hb : b = a
        · rw [if_pos hb, if_pos hb, if_neg (fun e => he (hb.symm.trans e))]
        · rw [if_neg hb, if_neg hb]

/-- The addresses that a write lists: the one written and those listed before. -/
theorem memWrite_mem (m : List Host.Cell) (a : Nat) (v : Byte) (d : Host.Cell) (hd : d ∈ memWrite m a v) :
    d.1 = a ∨ d ∈ m := by
  induction m with
  | nil =>
    simp only [memWrite] at hd
    by_cases hv : v = Config.unwritten
    · rw [if_pos hv] at hd
      exact .inr hd
    · rw [if_neg hv] at hd
      exact .inl (by rw [List.mem_singleton.mp hd])
  | cons c rest ih =>
    obtain ⟨x, u⟩ := c
    simp only [memWrite] at hd
    split at hd
    · split at hd
      · exact .inr hd
      · rcases List.mem_cons.mp hd with rfl | hd
        · exact .inl rfl
        · exact .inr hd
    · split at hd
      · split at hd
        · exact .inr (List.mem_cons_of_mem _ hd)
        · rcases List.mem_cons.mp hd with rfl | hd
          · exact .inl rfl
          · exact .inr (List.mem_cons_of_mem _ hd)
      · rcases List.mem_cons.mp hd with rfl | hd
        · exact .inr (by simp)
        · exact (ih hd).imp_right (List.mem_cons_of_mem _)

/-- A write keeps the canonical form. -/
theorem memWrite_wf (m : List Host.Cell) (a : Nat) (v : Byte) (h : Memory.wf m = true) :
    Memory.wf (memWrite m a v) = true := by
  induction m with
  | nil =>
    simp only [memWrite]
    by_cases hv : v = Config.unwritten
    · rw [if_pos hv]; exact h
    · rw [if_neg hv]; exact (Memory.wf_cons a v []).mpr ⟨hv, by simp, h⟩
  | cons c rest ih =>
    obtain ⟨x, u⟩ := c
    obtain ⟨hu, hx, hr⟩ := (Memory.wf_cons x u rest).mp h
    simp only [memWrite]
    split
    · next hlt =>
      split
      · exact h
      · next hv =>
        refine (Memory.wf_cons a v _).mpr ⟨hv, fun d hd => ?_, h⟩
        rcases List.mem_cons.mp hd with rfl | hd
        · exact hlt
        · exact lt_trans hlt (hx d hd)
    · split
      · next he =>
        subst he
        split
        · exact hr
        · next hv => exact (Memory.wf_cons a v rest).mpr ⟨hv, hx, hr⟩
      · next hlt hne =>
        refine (Memory.wf_cons x u _).mpr ⟨hu, fun d hd => ?_, ih hr⟩
        rcases memWrite_mem rest a v d hd with e | hd
        · omega
        · exact hx d hd

/-- Writing bytes keeps the canonical form. -/
theorem memWriteBytes_wf (m : List Host.Cell) (a : Nat) (l : List Byte) (h : Memory.wf m = true) :
    Memory.wf (memWriteBytes m a l) = true := by
  induction l generalizing m a with
  | nil => exact h
  | cons v rest ih => exact ih _ _ (memWrite_wf m a v h)

/-- Bytes written at rising addresses, and every other byte, read back. -/
theorem memRead_memWriteBytes (m : List Host.Cell) (a b : Nat) (l : List Byte) (h : Memory.wf m = true) :
    memRead (memWriteBytes m a l) b = if hb : a ≤ b ∧ b < a + l.length then l[b - a] else memRead m b := by
  induction l generalizing m a with
  | nil =>
    have : ¬(a ≤ b ∧ b < a + ([] : List Byte).length) := by simp
    simp [memWriteBytes]
  | cons v rest ih =>
    simp only [memWriteBytes, ih _ _ (memWrite_wf m a v h), memRead_memWrite m a b v h, List.length_cons]
    by_cases h1 : b = a
    · subst h1
      simp
    · by_cases h2 : a + 1 ≤ b ∧ b < a + 1 + rest.length
      · rw [dif_pos h2, dif_pos (by omega)]
        have : b - a = (b - (a + 1)) + 1 := by omega
        simp [this]
      · rw [dif_neg h2, if_neg h1, dif_neg (by omega)]

/-- Storing pixels keeps the canonical form. -/
theorem storePixels_wf (m : List Host.Cell) (i : Fin 5) (l c : Nat) (px : List Rgb) (h : Memory.wf m = true) :
    Memory.wf (storePixels m i l c px) = true := by
  induction px generalizing m c with
  | nil => exact h
  | cons v rest ih => exact ih _ _ (memWriteBytes_wf m _ _ h)

/-- Every byte outside the stored pixels reads as before. -/
theorem memRead_storePixels_other (m : List Host.Cell) (i : Fin 5) (l c a : Nat) (px : List Rgb)
    (h : Memory.wf m = true) (ha : a < pixelAddress i l c ∨ pixelAddress i l c + 4 * px.length ≤ a) :
    memRead (storePixels m i l c px) a = memRead m a := by
  induction px generalizing m c with
  | nil => rfl
  | cons v rest ih =>
    have hp : pixelAddress i l (c + 1) = pixelAddress i l c + 4 := by simp [pixelAddress]; omega
    have hl : (pixelBytes v).length = 4 := rfl
    rw [storePixels, ih _ _ (memWriteBytes_wf m _ _ h) (by simp only [List.length_cons] at ha; omega),
      memRead_memWriteBytes m _ _ _ h, dif_neg (by simp only [List.length_cons, hl] at ha ⊢; omega)]

end Sys2Proof.Machine
end

