-- ==== Sys2Proof/Laws/Messages.lean ====
section
/-! SUPPORT. What the framing of messages does: bytes taken from the line, the checks over a whole frame's bits, and where
a sender's levels first differ from the bits read. -/

namespace Sys2Proof.Machine

/-- The eight levels of a byte read back as the byte. -/
theorem levelsByte_byteBits (b : Byte) : levelsByte ((byteBits b).map bitLevel) = b := by
  have h : ∀ n : Fin 256, levelsByte ((byteBits (BitVec.ofFin n)).map bitLevel) = BitVec.ofFin n := by decide +kernel
  exact h b.toFin

/-- A mark bit and a byte's levels are taken as that byte. -/
theorem readByte_byteLevels (b : Byte) (rest : List Level) : readByte (byteLevels b ++ rest) = .byte b rest := by
  have h := levelsByte_byteBits b
  simp only [byteLevels, byteBits, List.map_cons, List.map_nil, List.cons_append, List.nil_append, readByte] at h ⊢
  rw [h]

/-- The levels of some bytes are taken as those bytes. -/
theorem readBytes_flatMap (bs : List Byte) (rest : List Level) :
    readBytes bs.length (bs.flatMap byteLevels ++ rest) = .bytes bs rest := by
  induction bs with
  | nil => rfl
  | cons b bs ih => simp only [List.flatMap_cons, List.append_assoc, List.length_cons, readBytes, readByte_byteLevels, ih]

/-- A recessive level in the place of a mark bit is a missing mark. -/
theorem readBytes_missingMark (n : Nat) (bs : List Byte) (rest : List Level) (h : bs.length < n) :
    readBytes n (bs.flatMap byteLevels ++ .recessive :: rest) = .missingMark := by
  induction bs generalizing n with
  | nil => cases n with
    | zero => simp at h
    | succ n => simp [readBytes, readByte]
  | cons b bs ih => cases n with
    | zero => simp at h
    | succ n => simp only [List.flatMap_cons, List.append_assoc, readBytes, readByte_byteLevels, ih n (by simpa using h)]

/-- The two bytes of a word spell the word. -/
theorem wordBytes_injective {a b : Word} (h : wordBytes a = wordBytes b) : a = b := by
  simp only [wordBytes, List.cons.injEq, and_true] at h
  have hi := congrArg BitVec.toNat h.1
  have lo := congrArg BitVec.toNat h.2
  simp only [BitVec.extractLsb'_toNat, Nat.shiftRight_eq_div_pow] at hi lo
  apply BitVec.eq_of_toNat_eq
  have := a.isLt
  have := b.isLt
  omega

/-- The word that its two bytes make. -/
theorem bytesWord_wordBytes (v : Word) : bytesWord (v.extractLsb' 8 8) (v.extractLsb' 0 8) = v := by
  apply BitVec.eq_of_getLsbD_eq
  intro i hi
  simp only [bytesWord, BitVec.getLsbD_append, BitVec.getLsbD_extractLsb']
  by_cases h : i < 8
  · simp [h]
  · have : i - 8 < 8 := by omega
    simp [h, this, show 8 + (i - 8) = i by omega]

/-- The kind that a header byte carries. -/
theorem ofCode_header (h : Byte) : MsgKind.ofCode (h.extractLsb' 5 3) =
    if h.toNat / 32 = 0 then some .mode else if h.toNat / 32 = 1 then some .leave
    else if h.toNat / 32 = 2 then some .status else none := by
  have hf : ∀ n : Fin 256, MsgKind.ofCode ((BitVec.ofFin n : Byte).extractLsb' 5 3) =
      if (BitVec.ofFin n : Byte).toNat / 32 = 0 then some .mode else if (BitVec.ofFin n : Byte).toNat / 32 = 1 then
        some .leave else if (BitVec.ofFin n : Byte).toNat / 32 = 2 then some .status else none := by decide +kernel
  exact hf h.toFin

/-- The header byte carries its kind and its tile number. -/
theorem headerByte_fields (k : MsgKind) (t : Tile) :
    (headerByte k t).extractLsb' 5 3 = k.code ∧ (headerByte k t).extractLsb' 0 5 = t := by
  have h : ∀ n : Fin 32, (headerByte k (BitVec.ofFin n)).extractLsb' 5 3 = k.code
      ∧ (headerByte k (BitVec.ofFin n)).extractLsb' 0 5 = BitVec.ofFin n := by cases k <;> decide +kernel
  exact h t.toFin

/-- The verdict on the bits of header, payload, CRC and what follows: the CRC is checked first, then the end bits. -/
theorem frameVerdict_bytes {h : Byte} {k : MsgKind} (hk : MsgKind.ofCode (h.extractLsb' 5 3) = some k)
    {p : List Byte} (hp : p.length = k.payload) (crc : Word) (rest : List Level) :
    frameVerdict (.dominant :: ((h :: (p ++ wordBytes crc)).flatMap byteLevels ++ rest)) =
      if crc ≠ crc16 (h :: p) then .failed
      else match rest with
        | [] => .arriving
        | .dominant :: _ => .failed
        | [.recessive] => .arriving
        | .recessive :: .dominant :: _ => .failed
        | .recessive :: .recessive :: _ => .whole k (h.extractLsb' 0 5) p := by
  simp only [frameVerdict, List.flatMap_cons, List.append_assoc, readByte_byteLevels, hk]
  have hl : k.payload + 2 = (p ++ wordBytes crc).length := by simp [wordBytes, hp]
  rw [hl, readBytes_flatMap]
  simp only [← hp, List.take_left, List.drop_left]
  by_cases hc : crc = crc16 (h :: p)
  · rcases rest with _ | ⟨_ | _, _ | ⟨_ | _, _⟩⟩ <;> simp [hc]
  · have hw : wordBytes crc ≠ wordBytes (crc16 (h :: p)) := fun e => hc (wordBytes_injective e)
    simp [hc, hw]

/-- A mode byte decodes to the mode it encodes. -/
theorem decodeMode_modeByte (m : Mode) : decodeMode (modeByte m) = some m := by
  cases m with
  | pattern n => revert n; decide
  | _ => decide

/-- Where two lists of levels first differ. -/
theorem firstDifference_eq_some (l b : List Level) (i : Nat) : firstDifference l b = some i ↔
    (∃ x y, l[i]? = some x ∧ b[i]? = some y ∧ x ≠ y) ∧ ∀ k, k < i → l[k]? = b[k]? := by
  induction l generalizing b i with
  | nil => simp [firstDifference]
  | cons a as ih =>
    cases b with
    | nil => simp [firstDifference]
    | cons c cs =>
      simp only [firstDifference]
      split
      · subst_vars
        cases i with
        | zero => simp
        | succ i =>
          simp only [Option.map_eq_some_iff, Nat.add_right_cancel_iff, exists_eq_right, ih, List.getElem?_cons_succ]
          refine and_congr_right fun _ => ⟨fun h k hk => ?_, fun h k hk => ?_⟩
          · cases k with
            | zero => simp
            | succ k => simpa using h k (by omega)
          · simpa using h (k + 1) (by omega)
      · cases i with
        | zero => simpa using ‹_›
        | succ i =>
          simp only [Option.some.injEq, Nat.zero_ne_add_one, false_iff, not_and, List.getElem?_cons_succ]
          intro _ h
          have := h 0 (by omega)
          simp at this
          contradiction

/-- The message that a station sends ends with its two end bits. -/
theorem sendingLevels_endBits {u : Bus} {t : Tile} {l : List Level} (h : u.sendingLevels t = some l) :
    ∃ m, l = m ++ [.recessive, .recessive] := by
  unfold Bus.sendingLevels at h
  split at h
  · simp at h
  · simp only [Option.map_eq_some_iff] at h
    obtain ⟨m, _, rfl⟩ := h
    exact ⟨_, by unfold messageLevels; rw [← List.cons_append]⟩

end Sys2Proof.Machine
end

