-- ==== Sys2Proof/Laws/PerInstr.lean ====
section
/-! SUPPORT. What holds of every command as it is written: it carries its Span, and every Span can be put in. -/

namespace Sys2Proof.Laws.Spans

/-- The command with another Span. -/
def retimed (w : Span) : Instr → Instr
  | .hardReset _ => .hardReset w
  | .resetnRise _ straps => .resetnRise w straps
  | .startDelayExpiry _ => .startDelayExpiry w
  | .copyReadEnd _ => .copyReadEnd w
  | .pllLock _ => .pllLock w
  | .pllWaitExpiry _ => .pllWaitExpiry w
  | .frameStart _ edge order => .frameStart w edge order
  | .loneLock _ order => .loneLock w order
  | .holdPictureTimerExpiry _ edge order => .holdPictureTimerExpiry w edge order
  | .rosterLapse _ edge order => .rosterLapse w edge order
  | .fsPulseEnd _ => .fsPulseEnd w
  | .foreignEdge _ => .foreignEdge w
  | .keptEdgeExpiry _ => .keptEdgeExpiry w
  | .outputLineEnd _ => .outputLineEnd w
  | .statusOpen _ => .statusOpen w
  | .statusCutoff _ modeFirst => .statusCutoff w modeFirst
  | .found _ => .found w
  | .ballotWindowStart _ => .ballotWindowStart w
  | .ballotLine _ td => .ballotLine w td
  | .ballotEnd _ => .ballotEnd w
  | .ballotWindowEnd _ => .ballotWindowEnd w
  | .busIdle _ => .busIdle w
  | .startEdge _ => .startEdge w
  | .messageStart _ => .messageStart w
  | .arbitrationLoss _ => .arbitrationLoss w
  | .messageSent _ => .messageSent w
  | .endBitFailure _ => .endBitFailure w
  | .messageDiscarded _ => .messageDiscarded w
  | .statusReceived _ => .statusReceived w
  | .modeReceived _ => .modeReceived w
  | .leaveReceived _ => .leaveReceived w
  | .busStuck _ => .busStuck w
  | .stuckClear _ => .stuckClear w
  | .hsEdge _ => .hsEdge w
  | .vsEdge _ => .vsEdge w
  | .vsHoldExpiry _ => .vsHoldExpiry w
  | .inputTimerExpiry _ => .inputTimerExpiry w
  | .captureComplete _ => .captureComplete w
  | .writeFifoOverflow _ pixel => .writeFifoOverflow w pixel
  | .refreshRequest _ => .refreshRequest w
  | .memoryTransferEnd _ => .memoryTransferEnd w
  | .readUnderflow _ => .readUnderflow w
  | .hold _ => .hold w
  | .release _ => .release w
  | .setMode _ mode => .setMode w mode
  | .clearEvents _ mask => .clearEvents w mask
  | .clearCounters _ => .clearCounters w
  | .restart _ => .restart w
  | .eventsClearWrite _ mask => .eventsClearWrite w mask
  | .itemSelect _ address bytes fin => .itemSelect w address bytes fin
  | .syncTransition _ line level => .syncTransition w line level
  | .regionPixelEntry _ pixel => .regionPixelEntry w pixel
  | .ballotEdge _ => .ballotEdge w

/-- A command with another Span carries that one, orders the blocks as before, and with its own is itself. -/
def Statement (i : Instr) : Prop :=
  ∀ w, (retimed w i).span = w ∧ (retimed w i).order = i.order ∧ retimed i.span i = i

theorem hardReset (w : Span) : Statement (.hardReset w) := fun _ => ⟨rfl, rfl, rfl⟩
theorem resetnRise (w : Span) (straps : BitVec 2) : Statement (.resetnRise w straps) := fun _ => ⟨rfl, rfl, rfl⟩
theorem startDelayExpiry (w : Span) : Statement (.startDelayExpiry w) := fun _ => ⟨rfl, rfl, rfl⟩
theorem copyReadEnd (w : Span) : Statement (.copyReadEnd w) := fun _ => ⟨rfl, rfl, rfl⟩
theorem pllLock (w : Span) : Statement (.pllLock w) := fun _ => ⟨rfl, rfl, rfl⟩
theorem pllWaitExpiry (w : Span) : Statement (.pllWaitExpiry w) := fun _ => ⟨rfl, rfl, rfl⟩
theorem frameStart (w : Span) (edge : Bool) (order : List Block) : Statement (.frameStart w edge order) := fun _ => ⟨rfl, rfl, rfl⟩
theorem loneLock (w : Span) (order : List Block) : Statement (.loneLock w order) := fun _ => ⟨rfl, rfl, rfl⟩
theorem holdPictureTimerExpiry (w : Span) (edge : Bool) (order : List Block) : Statement (.holdPictureTimerExpiry w edge order) := fun _ => ⟨rfl, rfl, rfl⟩
theorem rosterLapse (w : Span) (edge : Bool) (order : List Block) : Statement (.rosterLapse w edge order) := fun _ => ⟨rfl, rfl, rfl⟩
theorem fsPulseEnd (w : Span) : Statement (.fsPulseEnd w) := fun _ => ⟨rfl, rfl, rfl⟩
theorem foreignEdge (w : Span) : Statement (.foreignEdge w) := fun _ => ⟨rfl, rfl, rfl⟩
theorem keptEdgeExpiry (w : Span) : Statement (.keptEdgeExpiry w) := fun _ => ⟨rfl, rfl, rfl⟩
theorem outputLineEnd (w : Span) : Statement (.outputLineEnd w) := fun _ => ⟨rfl, rfl, rfl⟩
theorem statusOpen (w : Span) : Statement (.statusOpen w) := fun _ => ⟨rfl, rfl, rfl⟩
theorem statusCutoff (w : Span) (modeFirst : Bool) : Statement (.statusCutoff w modeFirst) := fun _ => ⟨rfl, rfl, rfl⟩
theorem found (w : Span) : Statement (.found w) := fun _ => ⟨rfl, rfl, rfl⟩
theorem ballotWindowStart (w : Span) : Statement (.ballotWindowStart w) := fun _ => ⟨rfl, rfl, rfl⟩
theorem ballotLine (w : Span) (td : Level) : Statement (.ballotLine w td) := fun _ => ⟨rfl, rfl, rfl⟩
theorem ballotEnd (w : Span) : Statement (.ballotEnd w) := fun _ => ⟨rfl, rfl, rfl⟩
theorem ballotWindowEnd (w : Span) : Statement (.ballotWindowEnd w) := fun _ => ⟨rfl, rfl, rfl⟩
theorem busIdle (w : Span) : Statement (.busIdle w) := fun _ => ⟨rfl, rfl, rfl⟩
theorem startEdge (w : Span) : Statement (.startEdge w) := fun _ => ⟨rfl, rfl, rfl⟩
theorem messageStart (w : Span) : Statement (.messageStart w) := fun _ => ⟨rfl, rfl, rfl⟩
theorem arbitrationLoss (w : Span) : Statement (.arbitrationLoss w) := fun _ => ⟨rfl, rfl, rfl⟩
theorem messageSent (w : Span) : Statement (.messageSent w) := fun _ => ⟨rfl, rfl, rfl⟩
theorem endBitFailure (w : Span) : Statement (.endBitFailure w) := fun _ => ⟨rfl, rfl, rfl⟩
theorem messageDiscarded (w : Span) : Statement (.messageDiscarded w) := fun _ => ⟨rfl, rfl, rfl⟩
theorem statusReceived (w : Span) : Statement (.statusReceived w) := fun _ => ⟨rfl, rfl, rfl⟩
theorem modeReceived (w : Span) : Statement (.modeReceived w) := fun _ => ⟨rfl, rfl, rfl⟩
theorem leaveReceived (w : Span) : Statement (.leaveReceived w) := fun _ => ⟨rfl, rfl, rfl⟩
theorem busStuck (w : Span) : Statement (.busStuck w) := fun _ => ⟨rfl, rfl, rfl⟩
theorem stuckClear (w : Span) : Statement (.stuckClear w) := fun _ => ⟨rfl, rfl, rfl⟩
theorem hsEdge (w : Span) : Statement (.hsEdge w) := fun _ => ⟨rfl, rfl, rfl⟩
theorem vsEdge (w : Span) : Statement (.vsEdge w) := fun _ => ⟨rfl, rfl, rfl⟩
theorem vsHoldExpiry (w : Span) : Statement (.vsHoldExpiry w) := fun _ => ⟨rfl, rfl, rfl⟩
theorem inputTimerExpiry (w : Span) : Statement (.inputTimerExpiry w) := fun _ => ⟨rfl, rfl, rfl⟩
theorem captureComplete (w : Span) : Statement (.captureComplete w) := fun _ => ⟨rfl, rfl, rfl⟩
theorem writeFifoOverflow (w : Span) (pixel : Rgb) : Statement (.writeFifoOverflow w pixel) := fun _ => ⟨rfl, rfl, rfl⟩
theorem refreshRequest (w : Span) : Statement (.refreshRequest w) := fun _ => ⟨rfl, rfl, rfl⟩
theorem memoryTransferEnd (w : Span) : Statement (.memoryTransferEnd w) := fun _ => ⟨rfl, rfl, rfl⟩
theorem readUnderflow (w : Span) : Statement (.readUnderflow w) := fun _ => ⟨rfl, rfl, rfl⟩
theorem hold (w : Span) : Statement (.hold w) := fun _ => ⟨rfl, rfl, rfl⟩
theorem release (w : Span) : Statement (.release w) := fun _ => ⟨rfl, rfl, rfl⟩
theorem setMode (w : Span) (mode : Byte) : Statement (.setMode w mode) := fun _ => ⟨rfl, rfl, rfl⟩
theorem clearEvents (w : Span) (mask : Word) : Statement (.clearEvents w mask) := fun _ => ⟨rfl, rfl, rfl⟩
theorem clearCounters (w : Span) : Statement (.clearCounters w) := fun _ => ⟨rfl, rfl, rfl⟩
theorem restart (w : Span) : Statement (.restart w) := fun _ => ⟨rfl, rfl, rfl⟩
theorem eventsClearWrite (w : Span) (mask : Word) : Statement (.eventsClearWrite w mask) := fun _ => ⟨rfl, rfl, rfl⟩
theorem itemSelect (w : Span) (address : BitVec 7) (bytes : List Byte) (fin : TxEnd) : Statement (.itemSelect w address bytes fin) := fun _ => ⟨rfl, rfl, rfl⟩
theorem syncTransition (w : Span) (line : SyncLine) (level : Pol) : Statement (.syncTransition w line level) := fun _ => ⟨rfl, rfl, rfl⟩
theorem regionPixelEntry (w : Span) (pixel : Rgb) : Statement (.regionPixelEntry w pixel) := fun _ => ⟨rfl, rfl, rfl⟩
theorem ballotEdge (w : Span) : Statement (.ballotEdge w) := fun _ => ⟨rfl, rfl, rfl⟩

end Sys2Proof.Laws.Spans
end

