-- ==== Sys2Proof/Laws/Step.lean ====
section
/-! SUPPORT. What a step can do, said once: every command but HARD_RESET and MEMORY_TRANSFER_END lets its Span pass, has
one effect if its event is due, and settles. A law of the machine is kept by every step when the Span, the end of a
command, the effects and the two other commands keep it. -/

namespace Sys2Proof.Machine

/-- When the event of a command is due. -/
def dueOf : Instr → State → Bool
  | .resetnRise _ _ => fun t => t.loader.phase == .held
  | .startDelayExpiry _ => State.startDelayOver
  | .copyReadEnd _ => State.copyReadEnded
  | .pllLock _ => State.lockRead
  | .pllWaitExpiry _ => State.pllWaitOver
  | .frameStart _ _ _ => State.frameEnds
  | .loneLock _ _ => State.loneLockDue
  | .holdPictureTimerExpiry _ _ _ => State.holdTimerDue
  | .rosterLapse _ _ _ => State.lapseDue
  | .fsPulseEnd _ => State.fsPulseOver
  | .foreignEdge _ => State.seesForeign
  | .keptEdgeExpiry _ => State.edgeTooOld
  | .outputLineEnd _ => State.lineFollows
  | .statusOpen _ => State.openDue
  | .statusCutoff _ _ => State.cutoffDue
  | .found _ => State.foundingDue
  | .ballotWindowStart _ => State.windowDue
  | .ballotLine _ _ => State.ballotLineDue
  | .ballotEnd _ => State.ballotEnds
  | .ballotWindowEnd _ => State.windowEndDue
  | .busIdle _ => State.idleDue
  | .startEdge _ => State.edgeDue
  | .messageStart _ => State.startDue
  | .arbitrationLoss _ => State.lossDue
  | .messageSent _ => State.sentDue
  | .endBitFailure _ => State.endBitDue
  | .messageDiscarded _ => State.receiveFailed
  | .statusReceived _ => fun t => t.receivedKind .status
  | .modeReceived _ => fun t => t.receivedKind .mode
  | .leaveReceived _ => fun t => t.receivedKind .leave
  | .busStuck _ => State.stuckDue
  | .stuckClear _ => State.unstuckDue
  | .hsEdge _ => State.hsDue
  | .vsEdge _ => State.vsDue
  | .vsHoldExpiry _ => State.vsHoldOver
  | .inputTimerExpiry _ => State.inputTimerDue
  | .captureComplete _ => State.captureFull
  | .writeFifoOverflow _ _ => State.overflowDue
  | .refreshRequest _ => fun t => t.timing.running
  | .readUnderflow _ => State.pixelMissing
  | .syncTransition _ line level => fun t => t.input.active && t.syncLevel line != some level
  | .regionPixelEntry _ _ => fun t => t.input.active
  | .ballotEdge _ => State.watching
  | _ => fun _ => true

/-- The effect of a command whose event is due. -/
def effectOf : Instr → State → State
  | .resetnRise _ straps => fun t => t.resetReleased straps
  | .startDelayExpiry _ => State.firstRead
  | .copyReadEnd _ => State.copyChecked
  | .pllLock _ => State.enterRun
  | .pllWaitExpiry _ => State.pllTimeout
  | .frameStart _ edge order => fun t => t.frameStarts edge order
  | .loneLock _ order => fun t => t.frameStarts false order
  | .holdPictureTimerExpiry _ edge order => fun t => t.frameStarts edge order
  | .rosterLapse _ edge order => fun t => t.frameStarts edge order
  | .fsPulseEnd _ => State.releaseFs
  | .foreignEdge _ => State.keepEdge
  | .keptEdgeExpiry _ => State.dropEdge
  | .outputLineEnd _ => State.nextLine
  | .statusOpen _ => State.openWindow
  | .statusCutoff _ modeFirst => State.cutoff modeFirst
  | .found _ => State.cutoff true
  | .ballotWindowStart _ => State.enterBallotWindow
  | .ballotLine _ td => fun t => t.ballotLineEvent td
  | .ballotEnd _ => State.endBallot
  | .ballotWindowEnd _ => State.leaveBallotWindow
  | .busIdle _ => State.enterIdle
  | .startEdge _ => State.fallingEdge
  | .messageStart _ => fun t => t.beginMessage t.nextToSend
  | .arbitrationLoss _ => State.loseArbitration
  | .messageSent _ => State.messageWhole
  | .endBitFailure _ => State.endBitFails
  | .messageDiscarded _ => State.rxDiscard
  | .statusReceived _ => State.handOver
  | .modeReceived _ => State.handOver
  | .leaveReceived _ => State.handOver
  | .busStuck _ => State.becomeStuck
  | .stuckClear _ => State.clearStuck
  | .hsEdge _ => State.takeHs
  | .vsEdge _ => State.holdVs
  | .vsHoldExpiry _ => State.takeHeldVs
  | .inputTimerExpiry _ => State.loseSignal
  | .captureComplete _ => State.completeCapture
  | .writeFifoOverflow _ pixel => fun t => t.takePixel pixel
  | .refreshRequest _ => State.wantRefresh
  | .readUnderflow _ => State.underflow
  | .hold _ => fun t => t.hostWrite .command Command.hold.bytes
  | .release _ => fun t => t.hostWrite .command Command.release.bytes
  | .setMode _ mode => fun t => t.hostWrite .command (Command.setMode mode).bytes
  | .clearEvents _ mask => fun t => t.hostWrite .command (Command.clearEvents mask).bytes
  | .clearCounters _ => fun t => t.hostWrite .command Command.clearCounters.bytes
  | .restart _ => fun t => t.hostWrite .command Command.restart.bytes
  | .eventsClearWrite _ mask => fun t => t.hostWrite .events (wordBytes mask)
  | .itemSelect _ address bytes fin => fun t => t.transaction address bytes fin
  | .syncTransition _ line level => fun t => t.syncChange line level
  | .regionPixelEntry _ pixel => fun t => t.takePixel pixel
  | .ballotEdge _ => State.catchEdge
  | .hardReset _ => id
  | .memoryTransferEnd _ => id

/-- Every command but two is an event with its due moment and its effect. -/
theorem exec_event (c : Instr) (s : State) (h1 : ∀ w, c ≠ .hardReset w) (h2 : ∀ w, c ≠ .memoryTransferEnd w) :
    exec c s = event c.span (dueOf c) (effectOf c) s := by
  cases c
  case hardReset w => exact absurd rfl (h1 w)
  case memoryTransferEnd w => exact absurd rfl (h2 w)
  all_goals rfl

/-- A command whose event is due goes on, with its effect, settled. -/
theorem exec_due {c : Instr} {s : State} (h1 : ∀ w, c ≠ .hardReset w) (h2 : ∀ w, c ≠ .memoryTransferEnd w)
    (hd : dueOf c (s.pass c.span) = true) : exec c s = .next (effectOf c (s.pass c.span)).settle := by
  rw [exec_event c s h1 h2, event_due hd]

/-- The same, for all that settling leaves as it is. -/
theorem exec_settled {c : Instr} {s : State} (h1 : ∀ w, c ≠ .hardReset w) (h2 : ∀ w, c ≠ .memoryTransferEnd w)
    (hd : dueOf c (s.pass c.span) = true) : ∃ t, exec c s = .next t ∧ Settled (effectOf c (s.pass c.span)) t :=
  ⟨_, exec_due h1 h2 hd, State.settle_settled _⟩

/-- What a command that goes on leaves, said once for all commands. -/
theorem exec_next {c : Instr} {s t : State} (h : exec c s = .next t) :
    (∃ w, c = .hardReset w ∧ t = s.hardReset) ∨
    (∃ w u, c = .memoryTransferEnd w ∧ (s.pass w).finishTransfer = some u ∧ t = u.settle) ∨
    ((∀ w, c ≠ .hardReset w) ∧ (∀ w, c ≠ .memoryTransferEnd w) ∧
      (t = (s.pass c.span).settle ∨
       (dueOf c (s.pass c.span) = true ∧ t = (effectOf c (s.pass c.span)).settle))) := by
  by_cases h1 : ∃ w, c = .hardReset w
  · obtain ⟨w, rfl⟩ := h1
    exact .inl ⟨w, rfl, (Host.Outcome.next.inj h).symm⟩
  · by_cases h2 : ∃ w, c = .memoryTransferEnd w
    · obtain ⟨w, rfl⟩ := h2
      refine .inr (.inl ?_)
      simp only [exec, execMemoryTransferEnd] at h
      split at h
      · next u hu => exact ⟨w, u, rfl, hu, (Host.Outcome.next.inj h).symm⟩
      · cases h
    · have h1' : ∀ w, c ≠ .hardReset w := fun w e => h1 ⟨w, e⟩
      have h2' : ∀ w, c ≠ .memoryTransferEnd w := fun w e => h2 ⟨w, e⟩
      rw [exec_event c s h1' h2'] at h
      rcases event_next h with ⟨hd, rfl⟩ | ⟨_, rfl⟩
      · exact .inr (.inr ⟨h1', h2', .inr ⟨hd, rfl⟩⟩)
      · exact .inr (.inr ⟨h1', h2', .inl rfl⟩)

/-- A law that the Span, the end of a command, each effect and the two other commands keep is kept by every step. -/
theorem law_of_parts {P : State → Prop}
    (hpass : ∀ w s, P s → P (s.pass w)) (hsettle : ∀ s, P s → P s.settle)
    (heffect : ∀ c s, P s → dueOf c s = true → P (effectOf c s)) (hreset : ∀ s, P s → P s.hardReset)
    (htransfer : ∀ s t, P s → s.finishTransfer = some t → P t)
    (hqueue : ∀ s q, P s → P (s.setPending q)) {s t : State} (hs : P s) (h : step s = .next t) : P t := by
  simp only [step] at h
  split at h
  · cases h
    exact hs
  · next c rest _ =>
    rcases exec_next h with ⟨w, _, rfl⟩ | ⟨w, u, _, hu, rfl⟩ | ⟨_, _, rfl | ⟨hd, rfl⟩⟩
    · exact hreset _ (hqueue _ _ hs)
    · exact hsettle _ (htransfer _ _ (hpass _ _ (hqueue _ _ hs)) hu)
    · exact hsettle _ (hpass _ _ (hqueue _ _ hs))
    · exact hsettle _ (heffect c _ (hpass _ _ (hqueue _ _ hs)) hd)

/-- No effect touches the commands that wait. -/
theorem effectOf_pending (c : Instr) (s : State) : (effectOf c s).pending = s.pending := by
  cases c <;> simp [effectOf]

/-- No effect touches the external memory. -/
theorem effectOf_mem (c : Instr) (s : State) : (effectOf c s).mem = s.mem := by
  cases c <;> simp [effectOf]

end Sys2Proof.Machine
end

