-- ==== Sys2Proof/Laws/Port.lean ====
section
/-! SUPPORT. A law of the machine is kept by every transaction on the observation port when the few changes that a
transaction makes keep it. -/

namespace Sys2Proof.Machine

/-- The changes that a transaction of the board controller can make, each keeping a law `P`: writes of the port that
leave the command in flight, writes of the port at a running station, RELEASE, SET_MODE, CLEAR_COUNTERS, RESTART. -/
structure PortKeeps (P : State → Prop) : Prop where
  port : ∀ (s : State) (x : Port), P s → x.inFlight = s.port.inFlight → P (s.setPort x)
  hold : ∀ (s : State) (x : Port), P s → s.notRunning = false → P (s.setPort x)
  release : ∀ s : State, P s → P (s.setMember { s.member with hostHold := false })
  setMode : ∀ (s : State) (b : Byte), P s → s.notRunning = false → P (s.takeSetMode b)
  counters : ∀ s : State, P s → P (s.setCounters .zero)
  restart : ∀ s : State, P s → P s.takeRestart

/-- A command taken by the port keeps such a law. -/
theorem PortKeeps.takeCommand {P : State → Prop} (k : PortKeeps P) (s : State) (l : List Byte) (h : P s) :
    P (s.takeCommand l) := by
  have h0 : P (s.setPort { s.port with lastCode := l.head? }) := k.port _ _ h rfl
  have hr : ∀ (t : State) (r : CmdResult), P t → P (t.setResult r) := fun t r ht => k.port _ _ ht rfl
  have hc : ∀ (t : State) (c : Command), P t → t.notRunning = false → P (t.carryOut c) := by
    intro t c ht hn
    cases c
    · exact k.hold _ _ ht hn
    · exact hr _ _ (k.release _ ht)
    · exact k.setMode _ _ ht hn
    · exact hr _ _ (k.port _ _ ht rfl)
    · exact hr _ _ (k.counters _ ht)
    · exact k.restart _ ht
  simp only [State.takeCommand]
  split
  · exact hr _ _ h0
  · exact k.restart _ h0
  · split
    · exact hr _ _ h0
    · next hn =>
      have hn' : (s.setPort { s.port with lastCode := l.head? }).notRunning = false := by simpa using hn
      split
      · exact hr _ _ h0
      · exact hc _ _ h0 hn'

/-- The end of a transaction keeps such a law. -/
theorem PortKeeps.endTransaction {P : State → Prop} (k : PortKeeps P) (s : State) (h : P s) : P s.endTransaction := by
  have h0 : P (s.setPort { s.port with tx := .waiting }) := k.port _ _ h rfl
  simp only [State.endTransaction]
  split
  · exact h0
  · exact h0
  · split
    · exact k.takeCommand _ _ h0
    · exact k.port _ _ h0 rfl
    · exact h0

/-- The bytes of a write keep such a law. -/
theorem PortKeeps.writeBytes {P : State → Prop} (k : PortKeeps P) (s : State) (l : List Byte) (h : P s) :
    P (s.writeBytes l) := by
  simp only [State.writeBytes]
  split
  · exact k.port _ _ h rfl
  · split <;> exact k.port _ _ h rfl

/-- A whole transaction keeps such a law. -/
theorem PortKeeps.transaction {P : State → Prop} (k : PortKeeps P) (s : State) (a : BitVec 7) (l : List Byte) (f : TxEnd)
    (h : P s) : P (s.transaction a l f) := by
  simp only [State.transaction]
  split
  · exact h
  · have h0 := k.endTransaction s h
    split
    · have h1 := k.writeBytes _ l h0
      have hr : ∀ (t : State) (n : Nat) (b : List Bool), P t → P (t.readBytes n b) := fun t n b ht => k.port _ _ ht rfl
      cases f
      · exact k.endTransaction _ h1
      · exact h1
      · exact k.endTransaction _ (hr _ _ _ (k.endTransaction _ h1))
      · exact hr _ _ _ (k.endTransaction _ h1)
    · exact k.port _ _ h0 rfl

/-- Every command of the observation port keeps such a law. -/
theorem PortKeeps.effect {P : State → Prop} (k : PortKeeps P) (c : Instr) (s : State) (h : P s)
    (hc : (∃ w, c = .hold w ∨ c = .release w ∨ c = .clearCounters w ∨ c = .restart w)
      ∨ (∃ w b, c = .setMode w b) ∨ (∃ w m, c = .clearEvents w m ∨ c = .eventsClearWrite w m)
      ∨ ∃ w a l f, c = .itemSelect w a l f) : P (effectOf c s) := by
  rcases hc with ⟨w, rfl | rfl | rfl | rfl⟩ | ⟨w, b, rfl⟩ | ⟨w, m, rfl | rfl⟩ | ⟨w, a, l, f, rfl⟩ <;>
    exact k.transaction _ _ _ _ h

/-- With no transaction open, ending one changes nothing. -/
theorem State.endTransaction_waiting {s : State} (h : s.port.tx = .waiting) : s.endTransaction = s := by
  obtain ⟨_, _, _, _, _, _, _, _, _, _, ⟨_, tx, _, _, _, _, _, _, _, _⟩, _, _⟩ := s
  change tx = .waiting at h
  subst h
  rfl

/-- A transaction at a port that answers and has none open. -/
theorem State.transaction_waiting {s : State} (a : BitVec 7) (l : List Byte) (f : TxEnd) (h : s.loader.phase ≠ .held)
    (hw : s.port.tx = .waiting) : s.transaction a l f =
      if a = s.port.address then (s.writeBytes l).finishTransaction l f
      else s.setPort { s.port with acks := [false] } := by
  simp only [State.transaction, if_neg h, State.endTransaction_waiting hw]

/-- The change of the port that a write leaves when its transaction has ended. -/
theorem State.setPort_waiting {s : State} (i : Item) (k : List Bool) (h : s.port.tx = .waiting) :
    s.setPort { s.port with selected := i, tx := .waiting, acks := k } =
      s.setPort { s.port with selected := i, acks := k } := by rw [← h]

/-- A write to COMMAND at a port that answers and has no transaction open issues its command at a port with COMMAND
selected. -/
theorem State.hostWrite_command (s : State) (b : Byte) (l : List Byte) (h : s.loader.phase ≠ .held)
    (hw : s.port.tx = .waiting) : ∃ acks, s.hostWrite .command (b :: l) =
      (s.setPort { s.port with selected := .command, acks := acks }).takeCommand (b :: l) := by
  refine ⟨true :: true :: (List.range (b :: l).length).map (fun k => decide (k < 3)), ?_⟩
  rw [State.hostWrite, State.transaction_waiting _ _ _ h hw, if_pos rfl, ← State.setPort_waiting _ _ hw]
  rfl

/-- A write of two bytes to EVENTS, likewise, clears the flags they mark. -/
theorem State.hostWrite_events (s : State) (a b : Byte) (h : s.loader.phase ≠ .held) (hw : s.port.tx = .waiting) :
    ∃ acks, s.hostWrite .events [a, b] =
      (s.setPort { s.port with selected := .events, acks := acks }).clearFlags (bytesWord a b) := by
  refine ⟨[true, true, true, true], ?_⟩
  rw [State.hostWrite, State.transaction_waiting _ _ _ h hw, if_pos rfl, ← State.setPort_waiting _ _ hw]
  rfl

end Sys2Proof.Machine
end

