-- ==== Sys2Proof/Laws/Station.lean ====
section
/-! SUPPORT. The station state through the operations of the membership controller; the blocks of a frame start, each
of which has its turn; what the end of a command leaves to be read. -/

namespace Sys2Proof.Machine

/-! ## The end of a command -/

/-- The end of a command leaves the slot records. -/
@[simp] theorem State.settle_slots (s : State) : s.settle.store.slots = s.store.slots := (State.settle_settled s).2.2.2.1

/-- The parts that a command's effect leaves are left by the command, but for the three that its end touches. -/
theorem SameBut.settle {l : List Part} {u v : State} (h : SameBut l u v)
    (hl : ∀ p ∈ [Part.bus, .store, .picture], p ∈ l) : SameBut l u v.settle := by
  intro p hp
  have h1 := h p hp
  have h2 := (State.settle_settled v).1 p (fun hq => hp (hl p hq))
  cases p <;> simp_all [Part.same]

/-- A command whose event is not due goes on, with nothing but its Span passed, settled. -/
theorem exec_not_due {c : Instr} {s : State} (h1 : ∀ w, c ≠ .hardReset w) (h2 : ∀ w, c ≠ .memoryTransferEnd w)
    (hd : dueOf c (s.pass c.span) = false) : ∃ t, exec c s = .next t ∧ Settled (s.pass c.span) t :=
  ⟨_, by rw [exec_event c s h1 h2, event_not_due hd], State.settle_settled _⟩

/-- What holds of a due command's effect, settled, holds of a next state that it answers. -/
theorem exec_due_exists {c : Instr} {s : State} {P : State → Prop} (h1 : ∀ w, c ≠ .hardReset w)
    (h2 : ∀ w, c ≠ .memoryTransferEnd w) (hd : dueOf c (s.pass c.span) = true)
    (h : P (effectOf c (s.pass c.span)).settle) : ∃ t, exec c s = .next t ∧ P t := ⟨_, exec_due h1 h2 hd, h⟩

/-! ## The station state -/

/-- Leaving MEMBER does not itself change the station state. -/
@[simp] theorem State.outOfMember_station (s : State) : s.outOfMember.member.station = s.member.station := by
  simp only [State.outOfMember]
  split <;> simp

/-- A LEAVE does not itself change the station state. -/
@[simp] theorem State.announceLeave_station (s : State) (r : LeaveReason) :
    (s.announceLeave r).member.station = s.member.station := by
  simp only [State.announceLeave]
  split <;> simp

/-- The hold-picture timer does not change the station state. -/
@[simp] theorem State.countHoldTimer_station (s : State) : s.countHoldTimer.member.station = s.member.station := by
  simp only [State.countHoldTimer]
  repeat' split
  all_goals simp

/-- After the loss of the input a station is neither JOINING nor MEMBER. -/
theorem State.inputLost_station (s : State) :
    s.inputLost.member.station ≠ .joining ∧ s.inputLost.member.station ≠ .member := by
  simp only [State.inputLost]
  split
  · simp [State.setStation]
  · simp [State.setStation]
  · constructor <;> assumption

/-- After silencing a station is neither JOINING nor MEMBER. -/
theorem State.silenceStation_station (s : State) :
    s.silenceStation.member.station ≠ .joining ∧ s.silenceStation.member.station ≠ .member := by
  simp only [State.silenceStation]
  split
  · simp [State.setStation]
  · simp [State.setStation]
  · constructor <;> assumption

/-- A realign leaves no MEMBER, and leaves every other station as it is. -/
theorem State.realign_station (s : State) : s.realign.member.station = (if s.member.station = .member then .joining
    else s.member.station) := by
  simp only [State.realign]
  split <;> simp

/-- After a HOLD has been taken a station is neither JOINING nor MEMBER. -/
theorem State.takeHold_station (s : State) :
    s.takeHold.member.station ≠ .joining ∧ s.takeHold.member.station ≠ .member := by
  simp only [State.takeHold]
  split
  · simp [State.setStation]
  · simp [State.setStation]
  · simp_all

/-! ## The blocks of a frame start -/

/-- Every block has its turn, whatever the order. -/
theorem mem_fullOrder (b : Block) (l : List Block) : b ∈ fullOrder l := by
  simp only [fullOrder, List.mem_append, List.mem_filter, List.mem_dedup]
  by_cases h : b ∈ l
  · exact .inl h
  · right
    cases b <;> simp [h]

/-- And has it once. -/
theorem nodup_fullOrder (l : List Block) : (fullOrder l).Nodup := by
  simp only [fullOrder]
  refine List.nodup_append'.mpr ⟨List.nodup_dedup l, List.Nodup.filter _ (by decide), ?_⟩
  intro b h1 h2
  simp_all

end Sys2Proof.Machine
end

