-- ==== Sys2Proof/Tests/Slice0.lean ====
section
/-! SUPPORT. The model's own tests: ill-formed commands are refused by the check, check sums and layouts against values
worked out by hand or published, and for each statement with hypotheses states and operands that meet them. -/

namespace Sys2Proof.Tests

open Sys2Proof.Machine

/-! ## Helpers -/

/-- A small configuration: lines of 8 pixel clocks, frames of 40 lines. -/
def cfg : Settings :=
  { Settings.startUp with
    tile := 3, htot := 8, vtot := 40, aw := 4, ah := 20, hstart := 2, vstart := 4, sopen := 2, scut := 10, bline := 16,
    lockwin := 2, slew := 6, lonewait := 2, rx := 1, ry := 1, rw := 2, rh := 2, cw := 2, ch := 2, foundwait := 0,
    multiplier := 1, divider := 25, eventMask := 0x00FF#16 }

/-- A running, LOCKED MEMBER at a position. -/
def rig (line pixel : Nat) : State :=
  let a := State.reset.setLoader { Loader.initial with phase := .run, settings := cfg, pllRunning := true }
  let b := (a.setTiming { Timing.initial with running := true, lock := .locked, line := line, pixel := pixel }).setBus
    { Bus.initial with active := true }
  let c := b.setInput { Input.initial with active := true, state := .stable, stable := some { Record.zero with
    activePixels := 9, activeLines := 9 } }
  c.setMember { Membership.initial with station := .member }

/-- The rig in another station state. -/
def at' (x : Station) (s : State) : State := s.setMember { s.member with station := x }

/-- The rig with a slot record in slot 0. -/
def slot0 (r : Slot) (s : State) : State := s.setSlots { s.store.slots with s0 := r }

/-- The rig with a slot record in slot 1. -/
def slot1 (r : Slot) (s : State) : State := s.setSlots { s.store.slots with s1 := r }

/-- A slot record. -/
def rec' (st : SlotState) (n : Word) : Slot := ⟨st, n, ⟨0, 5⟩, 2, false, false⟩

/-- A command finds the station as it is when no time has passed: `u` of the statements for the Span that is zero. -/
def now (s : State) : State := s.pass Span.zero

/-- A STATUS of a MEMBER. -/
def memberStatus : StatusMsg := ⟨true, .locked, .stable, 0, some ⟨0, 5⟩, .live, 0⟩

/-- A message of a tile on the line, as the receive path has it when it is whole. -/
def heard (t : Tile) (m : Message) (s : State) : State :=
  s.setBus { s.bus with rx := .frame, rxBits := messageLevels t m }

/-- A message of a kind being sent, some levels of it read back. -/
def sending (k : MsgKind) (bits : List Level) (s : State) : State :=
  s.setBus { s.bus with rx := .frame, rxBits := bits, sending := some ⟨k, false, none, none⟩ }

/-- Steps one command and looks at the state after it. -/
def after (c : Instr) (s : State) (p : State → Bool) : Bool :=
  match exec c s with
  | .next t => p t
  | _ => false

/-! ## The well-formedness check -/

/-- Bit times of TD without the XREF clocks they last. -/
theorem test_wellFormed_td : (Instr.busIdle ⟨0, 0, 0, [.recessive], [], []⟩).wellFormed = false := by decide

/-- Eleven ballot samples. -/
theorem test_wellFormed_ballot :
    (Instr.ballotEnd ⟨0, 0, 0, [], List.replicate 11 .dominant, []⟩).wellFormed = false := by decide

/-- Levels of FL_MISO without the XREF clocks they last. -/
theorem test_wellFormed_flash : (Instr.copyReadEnd ⟨1, 0, 0, [], [], [true, true]⟩).wellFormed = false := by decide

/-- A block named twice. -/
theorem test_wellFormed_order : (Instr.frameStart Span.zero false [.mode, .mode]).wellFormed = false := by decide

/-- A command that can be sent. -/
theorem test_wellFormed_good :
    (Instr.frameStart ⟨5, 0, 0, [.recessive], [], []⟩ true [.picture, .store]).wellFormed = true := by decide

/-- The table gives no bits. -/
theorem test_no_table_words (nbits w : Nat) : decodeTableWord nbits w = none := rfl

/-! ## Check sums, messages and layouts -/

/-- The published check value of CRC-16 with this polynomial and start, over the digits 1 to 9. -/
theorem test_crc16 : crc16 [0x31, 0x32, 0x33, 0x34, 0x35, 0x36, 0x37, 0x38, 0x39] = 0x29B1#16 := by decide +kernel

/-- The published check value of CRC-32 with this polynomial, start and inversion, most significant bit first. -/
theorem test_crc32 : crc32 [0x31, 0x32, 0x33, 0x34, 0x35, 0x36, 0x37, 0x38, 0x39] = 0xFC891918#32 := by decide +kernel

/-- Header bytes of section 12.1. -/
theorem test_headers :
    headerByte .status 9 = 0x49 ∧ headerByte .mode 9 = 0x09 ∧ headerByte .leave 0 = 0x20 := by decide

/-- Lengths in bit times of R24. -/
theorem test_bitTimes : MsgKind.bitTimes .mode = 57 ∧ MsgKind.bitTimes .leave = 39 ∧ MsgKind.bitTimes .status = 120 := by
  decide +kernel

/-- A LEAVE sent is received whole, with its sender and its payload. -/
theorem test_leave_received : frameVerdict (messageLevels 9 (.leave .inputLost)) = .whole .leave 9 [0x02] := by decide +kernel

/-- A second end bit that reads dominant fails. -/
theorem test_endBit_fails :
    frameVerdict ((messageLevels 9 (.leave .inputLost)).dropLast ++ [.dominant]) = .failed := by decide +kernel

/-- The order of two numbers on the circle (R1). -/
theorem test_later : later 0 65535 = true ∧ later 32767 0 = true ∧ later 32768 0 = false ∧ later 5 5 = false := by decide

/-- The distance of two stamps across a frame boundary (R1). -/
theorem test_stampDistance : stampDistance 1125 ⟨7, 2⟩ ⟨6, 1124⟩ = some 3 ∧ stampDistance 1125 ⟨8, 0⟩ ⟨6, 0⟩ = none := by
  decide

/-- The rebases of R64: gaps of 12, 13 and 23 become 1, 2 and 1. -/
theorem test_rebasedGap : rebasedGap 12 = 1 ∧ rebasedGap 13 = 2 ∧ rebasedGap 23 = 1 := by decide

/-- The thresholds of R151 in phase 0 and in phase 1, one pixel to the right. -/
theorem test_dither : ditherThreshold 0 0 1 = 3 ∧ ditherThreshold 0 1 0 = 2 ∧ ditherThreshold 1 0 0 = 2
    ∧ ditherValue 0 0 1 254 = 252 := by decide

/-- Weights of one half blend to the midpoint, rounded. -/
theorem test_blend : blend 10 13 32768 = 12 ∧ blend 10 13 0 = 10 := by decide

/-- Sizes of the items of Figure 27. -/
theorem test_items : (identItem.length, (stationItem State.reset).length, (inputItem State.reset).length,
    (slotsItem State.reset).length, (countersItem State.reset).length, (commandItem State.reset).length)
    = (3, 19, 20, 50, 50, 2) := by decide +kernel

/-- ItemLayouts: fields of a running station's items, multi-byte ones most significant byte first. -/
theorem test_itemFields :
    let s := slot1 { rec' .ready 0x1234 with pledged := true } (rig 2 0)
    (stationItem s).take 5 = [4, 5, 0, 0, 0] ∧ ((slotsItem s).drop 10).take 4 = [2, 2, 0x12, 0x34]
    ∧ ((rosterItem s).drop 36).take 5 = [0x45, 0, 0, 0, 0x14] := by decide +kernel

/-- Each roster entry has 12 bytes, and the SELF entry shows code 5. -/
theorem test_rosterEntry : (rosterEntryBytes State.reset 1).length = 12
    ∧ (rosterEntryBytes State.reset 0).head? = some 5 := by decide +kernel

/-- A reset station waits at HELD and answers nothing on the port. -/
theorem test_held : after (.hold Span.zero) State.reset (fun t => t.port.result == .none) = true := by decide +kernel

/-! ## Witnesses: states and operands that meet the hypotheses of the statements, clause by clause -/

/-- StepRunsFront, QueueWaits. -/
theorem test_witness_queue : (State.reset.withCommand (.hold Span.zero)).pending = [.hold Span.zero]
    ∧ State.reset.pending = [] := by decide

/-- OnlyTransferEndStopsOrStores: a transfer that leaves its slot's area, at its last line and column and one past them.
-/
theorem test_witness_outside :
    insideSlot 1535 1984 64 = true ∧ insideSlot 1535 1985 64 = false ∧ insideSlot 1536 0 1 = false := by decide

/-- MemoryStaysCanonical, and a store that keeps the form. -/
theorem test_witness_memory : Memory.wf (storePixels [] 4 1535 2047 [0x123456#24]) = true
    ∧ loadPixel (storePixels [] 4 1535 2047 [0x123456#24]) 4 1535 2047 = 0x123456#24 := by decide +kernel

/-- TransfersStoreAndFetch: a write. -/
theorem test_witness_write :
    let u := now ((rig 0 0).setStore { Store.initial with transfer := some (.write 2 0 0 [0x010203#24]) })
    u.mem = [] ∧ u.store.transfer = some (.write 2 0 0 [0x010203#24]) ∧ insideSlot 0 0 1 = true := by decide +kernel

/-- TransfersStoreAndFetch: a read, a refresh, no transfer. -/
theorem test_witness_read :
    let v := fun x => now ((rig 0 0).setStore { Store.initial with transfer := x })
    (v (some (.read 2 1535 1984 64 true))).store.transfer = some (.read 2 1535 1984 64 true)
    ∧ insideSlot 1535 1984 64 = true ∧ (v (some .refresh)).store.transfer = some .refresh
    ∧ (v none).store.transfer = none := by decide +kernel

/-- PortServesByRank: a busy port, a reader that asks, a writer that asks with nothing to read, two refreshes that wait
for the end of a transfer, and a free port that a refresh waits for. -/
theorem test_witness_port :
    let f : List WritePixel := [⟨0, 0, 0, 1⟩, ⟨0, 0, 1, 2⟩]
    let a := (slot0 (rec' .showing 4) (rig 0 0))
    let b := a.setStore { a.store with named := [⟨0, true⟩] }
    let c := (rig 0 0).setStore { Store.initial with writeFifo := f }
    let d := (b.setPicture { b.picture with selection := .slot })
    let e := (rig 0 0).setStore { Store.initial with transfer := some .refresh, refreshWaiting := 2 }
    let g := (rig 0 0).setStore { Store.initial with refreshWaiting := 1 }
    d.timing.running = true ∧ d.store.refreshWaiting = 0 ∧ d.store.transfer = none
    ∧ d.readRequest = some (.read 0 0 0 2 true)
    ∧ c.readRequest = none ∧ writerWants c.cfg.rw c.store.writeFifo = true
    ∧ (now e).store.refreshWaiting = 2 ∧ (now e).transferInside = true
    ∧ after (.memoryTransferEnd Span.zero) e
        (fun t => t.store.transfer == some .refresh && t.store.refreshWaiting == 1) = true
    ∧ g.timing.running = true ∧ g.store.transfer = none ∧ 0 < g.store.refreshWaiting := by decide +kernel

/-- PortServesByRank: the reader is held back by a full FIFO, by pixels of its transfer that wait to be written, and by
a picture that takes nothing from the slot; the writer by 63 pixels of a line without its last; a line with its last
read of two names the next. -/
theorem test_witness_requests :
    let a := slot0 (rec' .showing 4) (at' .detached (rig 0 0))
    let v := fun r f c => (a.setStore { a.store with
      named := [⟨0, true⟩, ⟨1, true⟩], readFifo := List.replicate r ⟨0, 0, 0⟩, writeFifo := f, fetchCol := c })
    let off := (v 0 [] 0).setModes { Modes.initial with record := ⟨.fill, 0, 3⟩ }
    let px := fun n => (List.range n).map (fun k => (⟨0, 0, k, 0⟩ : WritePixel))
    (v 1984 [] 0).readRequest = some (.read 0 0 0 2 true) ∧ (v 1985 [] 0).readRequest = none
    ∧ (v 0 [⟨0, 0, 1, 5⟩] 0).readRequest = none ∧ (v 0 [⟨0, 1, 1, 5⟩] 0).readRequest ≠ none
    ∧ (v 0 [⟨0, 0, 0, 5⟩] 1).readRequest = some (.read 0 0 1 1 true)
    ∧ (at' .member off).readRequest = none
    ∧ ((v 0 [] 1).settle.store.named, (v 0 [] 1).settle.store.fetchCol) = ([⟨1, true⟩], 0)
    ∧ writerWants 70 (px 63) = false ∧ writerWants 70 (px 64) = true ∧ writerWants 63 (px 63) = true
    ∧ headRun [⟨0, 0, 5, 0⟩, ⟨0, 1, 0, 0⟩] = [⟨0, 0, 5, 0⟩] := by decide +kernel

/-- StartDelayBeginsRead: HELD, WAIT at the end of the delay, the gap between two transactions at its last clock and one
clock short of it; a transaction, and none. -/
theorem test_witness_start :
    let a := State.reset.setLoader { Loader.initial with phase := .wait, startCount := 2699 }
    (now State.reset).loader.phase = .held ∧ (a.pass { Span.zero with xref := 1 }).loader.startCount = 2700
    ∧ (a.pass { Span.zero with xref := 1 }).loader.phase = .wait
    ∧ (let g := State.reset.setLoader { Loader.initial with phase := .backup, gap := 15 }
       g.loader.reading = none ∧ (now g).loader.reading = none
       ∧ (g.pass { Span.zero with xref := 1 }).loader.reading = some .backup
       ∧ (g.pass { Span.zero with xref := 1 }).flashSelected = true)
    ∧ (now State.reset).loader.reading = none ∧ (now State.reset).flashSelected = false := by decide +kernel

/-- FL_MISO at each XREF clock of a transaction that brings some bytes: a level for each period of FL_SCK, held through
it, low in the periods of command and address. -/
def misoOf (l : List Byte) : List Bool :=
  List.replicate 128 false ++ (l.flatMap byteBits).flatMap (fun b => List.replicate 4 b)

/-- FL_MOSI carries the command 03h and the address, one bit in each four clocks, and FL_SCK is high in the second half
of each; five data bytes with no image in them end the transaction with its 72nd period, and what comes after is not
read. -/
theorem test_flash_pins :
    let a := State.reset.setLoader { Loader.initial with phase := .backup, reading := some .backup }
    let v := fun n => (a.pass { Span.zero with xref := n }).flashData
    let k := fun n => (a.pass { Span.zero with xref := n }).flashClock
    let r := fun n => a.pass { Span.zero with xref := n, miso := misoOf [0x24, 0x11, 0x80, 0x01, 0xFF, 9] }
    (v 20, v 24, v 28, v 80, v 84, v 128) = (false, true, true, true, false, false)
    ∧ (k 0, k 1, k 2, k 3, k 4) = (false, false, true, true, false)
    ∧ (r 287).copyReadEnded = false ∧ (r 287).flashSelected = true
    ∧ (r 288).loader.bytes = [0x24, 0x11, 0x80, 0x01, 0xFF] ∧ (r 288).flashSelected = false
    ∧ (r 288).copyReadEnded = true ∧ (r 320).loader = (r 288).loader := by decide +kernel

/-- StartDelayBeginsRead: the clock of a sample and the clocks beside it, the clock that takes a byte, a read that has
ended. FL_MISO held high, or low, is read as data. -/
theorem test_flash_ticks :
    let x := fun n (l : List Bool) =>
      { Loader.initial with phase := .primary, reading := some .primary, spiClock := n, bits := l }
    let b := [true, false, true, false, false, true, false, true]
    ((x 129 []).flashTick true).bits = [] ∧ ((x 130 []).flashTick true).bits = [true]
    ∧ ((x 126 []).flashTick true).bits = [] ∧ ((x 131 []).flashTick true).bits = []
    ∧ ((x 159 b).flashTick true).bytes = [0xA5] ∧ ((x 159 b).flashTick true).bits = []
    ∧ ((x 155 b.dropLast).flashTick true).bytes = []
    ∧ (let e := { x 288 [] with bytes := [0, 0, 0, 0, 0] }
       readEnded e.bytes = true ∧ e.flashTick true = e)
    ∧ (let v := fun m => ((x 0 []).clockFlash (List.replicate 300 m)).bytes
       v true = List.replicate 5 0xFF#8 ∧ v false = List.replicate 5 0x00#8) := by decide +kernel

/-- CopyReadDecidesLoad: a transaction that has begun, FL_MISO as the statement asks for it, at its first bit and at its
last, and in a Span too short for the read. -/
theorem test_witness_copyClocks :
    let a := State.reset.setLoader { Loader.initial with phase := .primary, reading := some .primary }
    let l : List Byte := [0x24, 0x11, 0x80, 0x01, 0xFF]
    let m := misoOf l
    a.loader.spiClock = 0 ∧ a.loader.bytes = [] ∧ a.loader.bits = [] ∧ readEnded l = true
    ∧ m.take 288 ++ List.replicate (288 - m.length) false = m
    ∧ (∀ k, k < 5 → ∀ j, j < 8 → ∀ b, l[k]? = some b → m[128 + 32 * k + 4 * j + 2]? = some (b.getMsbD j)) := by
  decide +kernel

/-- The read of a copy whose header is no image. -/
def copyRead (c : Copy) : State :=
  State.reset.setLoader { Loader.initial with
    phase := match c with | .primary => .primary | .backup => .backup
    reading := some c, bytes := [0, 0, 0, 0, 0] }

/-- CopyReadDecidesLoad: a rejected copy, primary and backup. -/
theorem test_witness_copy :
    (now (copyRead .primary)).copyReadEnded = true ∧ (now (copyRead .backup)).copyReadEnded = true
    ∧ (now (copyRead .primary)).loader.reading = some .primary
    ∧ checkCopy (now (copyRead .primary)).loader.bytes = .rejected .noImage := by decide +kernel

/-- The image of chapter 9's example, all but its PLL multiplier and its trailer given here: 91 bytes, seven records. -/
def image (mult : Byte) (trailer : List Byte) : List Byte :=
  [0x24, 0x10, 0x00, 0x5B, 0x07, 0x01, 0x00, 0x04, 0x05, 0x04, 0x03, 0xFF, 0x02, 0x00, 0x13, mult]
  ++ [0x02, 0x08, 0x98, 0x04, 0x65, 0x00, 0xC0, 0x07, 0x80, 0x00, 0x29, 0x04, 0x38, 0x00, 0x2C, 0x00, 0x05, 0x07]
  ++ [0x03, 0x00, 0x06, 0x00, 0x04, 0x00, 0x28, 0x00, 0x2C, 0x04, 0x00, 0x05, 0x01, 0x00, 0x20, 0x00, 0x08, 0x05]
  ++ [0x00, 0x10, 0x00, 0x00, 0x00, 0x00, 0x03, 0xC0, 0x02, 0x1C, 0x00, 0x00, 0x00, 0x00, 0x07, 0x80, 0x04, 0x38]
  ++ [0x06, 0x00, 0x04, 0x10, 0x06, 0x3C, 0x08, 0x07, 0x00, 0x07, 0x00, 0x00, 0x40, 0x01, 0x01, 0x00, 0x01]
  ++ trailer

/-- The read of an image that passes all checks. -/
def goodRead : State :=
  State.reset.setLoader { Loader.initial with phase := .primary, reading := some .primary, bytes := image 0x0B [0x0A, 0x64, 0xFC, 0x9B] }

set_option maxRecDepth 20000 in
/-- CopyReadDecidesLoad: an accepted copy, its fields as chapter 9 gives them, and the example's multiplier of 13, which
puts the pixel clock above 165 MHz. -/
theorem test_witness_copy_accepted :
    (image 0x0B [0x0A, 0x64, 0xFC, 0x9B]).length = 91
    ∧ (match checkCopy (now goodRead).loader.bytes with
      | .accepted k => k.settings.htot == 2200 && k.settings.vtot == 1125 && k.settings.bline == 44 && k.settings.slew == 8192
          && k.settings.tile == 5 && k.settings.eventMask == 0x03FF && k.settings.initialMode == .fill && k.settings.dither
          && k.settings.fillColour == 0x000040 && k.settings.detachedShow == .ident && k.settings.ch == 1080
      | _ => false) = true
    ∧ (now goodRead).copyReadEnded = true
    ∧ after (.copyReadEnd Span.zero) goodRead (fun t => t.loader.phase == .pll && t.cfg.htot == 2200) = true
    ∧ checkCopy (image 0x0D [0xEC, 0x56, 0x6F, 0x2F]) = .rejected .constraint := by decide +kernel

/-- An image and its trailer. -/
def crcMade (l : List Byte) : List Byte :=
  l ++ wordBytes ((crc32 l).extractLsb' 16 16) ++ wordBytes ((crc32 l).extractLsb' 0 16)

/-- ImageCrcIsChecked: an image of no records whose trailer differs. -/
theorem test_witness_crc : headerGood [0x24, 0x10, 0, 9, 0, 0, 0, 0, 0] = true
    ∧ checkCopy [0x24, 0x10, 0, 9, 0, 0, 0, 0, 0] = .rejected .badCrc := by decide +kernel

/-- ImageChecksDecide: each outcome of the checks, and the copy of a wrong header; an image whose trailer is right. -/
theorem test_witness_checks :
    headerGood [0x24, 0x10, 0, 8, 0] = false ∧ headerGood [0x24, 0x10, 8, 0, 0] = true
    ∧ headerGood [0x24, 0x10, 8, 1, 0] = false ∧ headerGood (crcMade [0x24, 0x10, 0, 9, 1]) = true
    ∧ imageLength (crcMade [0x24, 0x10, 0, 9, 0]) = 9
    ∧ (crc32 ((crcMade [0x24, 0x10, 0, 9, 0]).take 5)).toNat = bytesNat ((crcMade [0x24, 0x10, 0, 9, 0]).drop 5)
    ∧ walkRecords 1 [] = none ∧ checkCopy (crcMade [0x24, 0x10, 0, 9, 1]) = .rejected .range
    ∧ walkRecords 1 [1, 0, 0] = some [⟨1, []⟩] ∧ checkCopy (crcMade [0x24, 0x10, 0, 12, 1, 1, 0, 0]) = .rejected .range
    ∧ walkRecords 0 [] = some [] ∧ checkCopy (crcMade [0x24, 0x10, 0, 9, 0]) = .rejected .missingRecord := by
  decide +kernel

set_option maxRecDepth 20000 in
/-- ImageChecksDecide: fields outside their own ranges, and relations that do not hold. -/
theorem test_witness_fields :
    checkCopy (crcMade ((image 0x0B []).set 15 0)) = .rejected .range
    ∧ checkCopy (crcMade (image 0x0D [])) = .rejected .constraint
    ∧ (match walkRecords 7 ((image 0x0B []).drop 5) with
      | some rs => rangesHold (rawFields rs) && relationsHold (settingsOf (rawFields rs))
          && (List.range 8).all (fun k => k == 0 || (firstOf rs k).isSome)
      | none => false) = true := by decide +kernel

/-- ImageFieldsGiveSettings: PICTURE bodies of 5 and 6 bytes, pattern indices 11 and 12, mode kind 3; the first of two
records of a kind; a field that the body holds in part, and gamma tables given. -/
theorem test_witness_imageFields :
    let f := fun b => { rawFields [] with picture := b }
    let g : List Byte := List.replicate 256 1 ++ List.replicate 256 2 ++ List.replicate 256 3
    initialModeOf (f [0, 0, 0, 0, 2]) = some .live ∧ initialModeOf (f [0, 0, 0, 0, 2, 11]) = some (.pattern 11)
    ∧ initialModeOf (f [0, 0, 0, 0, 2, 12]) = none ∧ initialModeOf (f [0, 0, 0, 0, 3, 0]) = none
    ∧ firstOf [⟨2, [1]⟩, ⟨1, [7]⟩, ⟨1, [8]⟩] 1 = some [7] ∧ firstOf [⟨2, [1]⟩] 1 = none
    ∧ (settingsOf { rawFields [] with station := [31, 5, 1] }).tile = 31
    ∧ (settingsOf { rawFields [] with station := [31, 5, 1] }).eventMask = 0x03FF
    ∧ (settingsOf { rawFields [] with lock := [1] }).lockwin = 256
    ∧ g.length = 768 ∧ (candidateOf { rawFields [] with gamma := some g }).gammaB[0]? = some 3 := by decide +kernel

/-- PllWaitDecides: the phase PLL, at its limit and past it, from each copy. -/
theorem test_witness_pll :
    let v := fun c => (State.reset.setLoader { Loader.initial with phase := .pll, pllCount := 53999, copyInUse := c }).pass
      { Span.zero with xref := 2 }
    (v (some .primary)).loader.phase = .pll ∧ (v (some .primary)).loader.pllCount = 54000
    ∧ (v (some .backup)).loader.copyInUse = some .backup ∧ (v none).loader.pllOver = true
    ∧ ((v none).pass Span.zero).loader.pllOver = true
    ∧ (let a := State.reset.setLoader { Loader.initial with phase := .pll, pllCount := 53999 }
       (a.pass { Span.zero with xref := 1 }).loader.pllOver = false
       ∧ after (.pllLock { Span.zero with xref := 1 }) a (fun t => t.loader.phase == .run
           && t.bus == { Bus.initial with active := true }) = true
       ∧ after (.pllLock { Span.zero with xref := 2 }) a (fun t => t.loader.phase == .pll) = true) := by decide +kernel

/-- RestValuesHold and the laws with it as a premise: the reset station and the rig. -/
theorem test_witness_laws : State.reset.loader.phase ≠ .run ∧ (rig 0 0).loader.phase = .run
    ∧ (rig 0 0).store.slots.number .filling = 0 ∧ (rig 39 7).timing.line = lastLine cfg 0
    ∧ (rig 39 7).timing.pixel = (rig 39 7).lineLen - 1 := by decide +kernel

/-- A station whose frames are in order: one SHOWING, one READY, one being captured. -/
def inOrder : State :=
  let a := slot1 (rec' .ready 5) (slot0 (rec' .showing 4) (rig 2 0))
  let b := a.setSlots { a.store.slots with s2 := rec' .filling 6 }
  b.setInput { b.input with lcs := 6, progress := some ⟨2, 0, 0, 0, false⟩ }

/-- QueueStaysInOrder, FramesStayInOrder, MemberShowsPicture: a station that keeps each law, in RUN. -/
theorem test_witness_order : inOrder.RestLaw ∧ inOrder.SlotLaw ∧ inOrder.OrderLaw ∧ inOrder.FramesNear
    ∧ inOrder.PictureLaw ∧ inOrder.QueueLaw ∧ inOrder.store.dropPending = false
    ∧ inOrder.store.slots.number .showing = 1 := by
  refine ⟨fun h => absurd rfl h, ?_, ⟨?_, ?_, ?_, ?_⟩, ?_, ?_, ⟨?_, ?_, ?_, ?_, ?_⟩, ?_⟩
  · unfold State.SlotLaw; decide +kernel
  · unfold Slot.ahead; decide +kernel
  · decide +kernel
  · decide +kernel
  · intro p h; cases h; decide +kernel
  · unfold State.FramesNear; decide +kernel
  · intro _; decide +kernel
  all_goals decide +kernel

/-- LockEvaluationTables: in SEEK an edge, the last one of the window, none, the fourth of a streak, a lone wait that is
over; in LOCKED an edge at half the frame and one past it. -/
theorem test_witness_evaluation :
    let v := fun l k a b n => evaluation cfg { Timing.initial with
      lock := l, keptEdge := k, lockStreak := a, unlockStreak := b, loneWait := n }
    v .seek (some 0) 3 0 0 = ⟨0, .locked, 0, 0, 0, false⟩ ∧ v .seek (some 319) 3 0 1 = ⟨319, .seek, 0, 0, 0, false⟩
    ∧ v .seek (some 320) 2 0 0 = ⟨0, .seek, 0, 0, 1, false⟩ ∧ v .seek none 2 0 1 = ⟨0, .locked, 0, 0, 0, true⟩
    ∧ v .locked (some 160) 0 0 0 = ⟨160, .locked, 0, 1, 0, false⟩ ∧ v .locked (some 161) 0 1 0 = ⟨0, .locked, 0, 0, 0, false⟩
    ∧ v .locked (some 3) 0 1 0 = ⟨3, .seek, 0, 0, 0, false⟩ := by decide +kernel

/-- FrameStartEvaluates, MembershipAtFrameStart, ModesAtFrameStart, SwitchAtFrameStart: a frame ends; a HOLD in
flight; a MEMBER that loses lock; a DETACHED station. -/
theorem test_witness_frameStart :
    let lost := (rig 39 0).setTiming { (rig 39 0).timing with unlockStreak := 1, keptEdge := some 5 }
    let hold := (rig 39 0).setPort { Port.initial with inFlight := some .hold }
    (now (rig 39 0)).frameEnds = true ∧ (evaluation cfg ((now (rig 39 0)).endFrame true).timing).lock = .locked
    ∧ (now lost).frameEnds = true ∧ (evaluation cfg ((now lost).endFrame false).timing).lock = .seek
    ∧ (now hold).port.inFlight = some .hold ∧ (now (at' .detached (rig 39 0))).usable = true
    ∧ (now (rig 39 0)).member.roster[31]? = some .absent := by decide +kernel

/-- FrameStartEvaluates: an FS edge at the frame start's own pixel, of a station that goes from LOCKED to SEEK by an
older edge, of one that stays LOCKED, and of one that goes from SEEK to LOCKED by that edge. -/
theorem test_witness_edgeAtStart :
    let lost := (rig 39 0).setTiming { (rig 39 0).timing with unlockStreak := 1, keptEdge := some 5 }
    let back := (rig 39 0).setTiming { (rig 39 0).timing with lock := .seek, lockStreak := 3 }
    let go := fun s e f => after (.frameStart Span.zero e []) s (fun t => f t.timing)
    go lost true (fun x => x.lock == .seek && x.phaseError == 13 && x.keptEdge == some 0) = true
    ∧ go lost false (fun x => x.lock == .seek && x.keptEdge == some 13) = true
    ∧ go (rig 39 0) true (fun x => x.lock == .locked && x.keptEdge == none && x.fsDrive) = true
    ∧ go back true (fun x => x.lock == .locked && x.phaseError == 0 && x.keptEdge == some 0 && x.fsDrive) = true := by
  decide +kernel

/-- MembershipAtFrameStart: a JOINING station with a quiet count, a DETACHED one that cannot join, one that joins with
its LEAVE waiting and with its LEAVE being sent. -/
theorem test_witness_joins :
    let j := (at' .joining (rig 39 0)).setMember { (at' .joining (rig 39 0)).member with quiet := 4 }
    let d := at' .detached (rig 39 0)
    let h := d.setMember { d.member with hostHold := true }
    let p := d.setBus { d.bus with leavePlace := some .inputLost }
    let q := p.setBus { p.bus with sending := some ⟨.leave, false, none, none⟩ }
    let go := fun s f => after (.frameStart Span.zero false []) s f
    go j (fun t => t.member.station == .joining && t.member.quiet == 4) = true
    ∧ (now h).usable = true ∧ go h (fun t => t.member.station == .detached) = true
    ∧ go p (fun t => t.member.station == .joining && t.bus.leavePlace == none) = true
    ∧ go q (fun t => t.bus.sending == some ⟨.leave, true, none, none⟩) = true := by decide +kernel

/-- MembershipAtFrameStart: the hold-picture timer outside MEMBER, above its last count and at it, and of a MEMBER.
SwitchAtFrameStart: picture output first and last, with a slot that changes, one that stays, and none SHOWING. -/
theorem test_witness_picture :
    let v := fun x n => (slot0 (rec' .showing 4) (rig 39 0)).setMember
      { Membership.initial with station := x, holdTimer := n }
    let go := fun s o f => after (.frameStart Span.zero false o) s f
    let sw := slot1 (rec' .chosen 5) (v .member 0)
    let names := fun (t : State) => t.picture.lineStore.map (·.line)
    go (v .joining 2) [] (fun t => t.member.holdTimer == 1 && t.store.slots.s0.state == .showing) = true
    ∧ go (v .joining 1) [] (fun t => t.member.holdTimer == 0 && t.store.slots.s0.state == .free) = true
    ∧ go (v .member 2) [] (fun t => t.member.holdTimer == 2) = true
    ∧ go sw [] (fun t => t.picture.selection == .slot && t.picture.fillFrom == none && names t == [0, 1]
        && t.picture.dither == 1 && t.picture.patternWfn == 1 && t.store.slots.s1.state == .showing) = true
    ∧ go sw [.picture] (fun t => t.picture.selection == .slot && t.picture.fillFrom == some 0) = true
    ∧ go (v .member 0) [.picture] (fun t => t.picture.fillFrom == none && names t == [0, 1]) = true
    ∧ go (rig 39 0) [.picture] (fun t => t.picture.selection == .fill && names t == []) = true
    ∧ (now sw).frameEnds = true ∧ (now sw).timing.wfn + 1 = 1 := by decide +kernel

/-- MembershipAtFrameStart: a HOLD at a station that its peers have heard, at one they have not, at one whose STATUS and
at one whose LEAVE is being sent, and at a DETACHED station. -/
theorem test_witness_holdLeave :
    let a := (rig 39 0).setPort { Port.initial with inFlight := some .hold }
    let b := a.setMember { a.member with announced := true }
    let p := fun k => (b.setBus { b.bus with
      leavePlace := some .inputLost, statusPlace := some memberStatus, sending := some ⟨k, false, none, none⟩ })
    let go := fun s f => after (.frameStart Span.zero false []) s f
    go b (fun t => t.member.station == .detached && t.bus.leavePlace == some .hostHold) = true
    ∧ go a (fun t => t.member.station == .detached && t.bus.leavePlace == none) = true
    ∧ go (p .status) (fun t => t.bus.sending == some ⟨.status, true, none, none⟩
        && t.bus.statusPlace == some memberStatus && t.bus.leavePlace == some .hostHold) = true
    ∧ go (p .leave) (fun t => t.bus.sending == some ⟨.leave, false, none, some .hostHold⟩ && t.bus.statusPlace == none
        && t.bus.leavePlace == some .inputLost) = true
    ∧ go (at' .detached b) (fun t => t.member.station == .detached && t.bus.leavePlace == none) = true := by
  decide +kernel

/-- MembershipAtFrameStart: an entry one frame from its lapse. -/
def lapsing : State := (rig 39 0).setEntry 7 (fun e => { e with state := .member, heard := 5 })

/-- NamedFrameStarts: a lone lock, the last frame of a hold picture, a lapse. -/
theorem test_witness_named :
    let seek := (at' .detached (rig 39 0)).setTiming { (rig 39 0).timing with lock := .seek, loneWait := 1 }
    let last := (rig 39 0).setMember { Membership.initial with station := .detached, holdTimer := 1 }
    (now seek).loneLockDue = true ∧ (now last).holdTimerDue = true ∧ (now lapsing).lapseDue = true
    ∧ after (.frameStart Span.zero false []) lapsing (fun t => t.counters.lapses == 1) = true := by decide +kernel

/-- ModesAtFrameStart: an entry whose target is the new WFN, a held repair. SwitchAtFrameStart: a CHOSEN slot. -/
theorem test_witness_modes :
    let a := (rig 39 0).setModes { Modes.initial with queue := [⟨1, .fill, 2⟩], repair := some ⟨.freeze, 0, 1⟩ }
    after (.frameStart Span.zero false [.picture]) a
      (fun t => t.modes.record == ⟨.fill, 1, 2⟩ && t.modes.queue.isEmpty && t.modes.repair.isNone) = true
    ∧ (slot0 (rec' .chosen 4) (rig 39 0)).store.slots.first .chosen = some 0 := by decide +kernel

/-- LinesAndEdges: a pulse that has lasted, a free FS, an edge a nominal frame old. -/
theorem test_witness_fs :
    let a := (rig 2 0).setTiming { (rig 2 0).timing with fsDrive := true }
    let b := (rig 2 0).setTiming { (rig 2 0).timing with keptEdge := some 320 }
    (now a).timing.running = true ∧ (now a).timing.fsDrive = true ∧ 2 ≤ (now a).timing.line
    ∧ (now b).timing.fsDrive = false ∧ (now b).timing.keptEdge = some 320 ∧ (now b).cfg.nominal = 320 := by decide +kernel

/-- LinesAndEdges, SyncEdges: a Span within a line, one past the line's last pixel, one while the generator and the
input monitor stand still; the counts of the input up to their limits. -/
theorem test_witness_span :
    let a := (rig 2 3).setTiming { (rig 2 3).timing with keptEdge := some 6 }
    let b := a.setInput { a.input with heldVs := some 6, hsTimer := 4090, vsTimer := 7 }
    let w := fun n => { Span.zero with pix := n, vi := n, xref := n }
    (b.pass (w 2)).timing = { b.timing with pixel := 5, keptEdge := some 8 }
    ∧ (b.pass (w 30)).timing = { b.timing with pixel := 7, keptEdge := some 10 }
    ∧ (b.pass (w 2)).input.heldVs = some 8 ∧ (b.pass (w 30)).input.heldVs = some 8
    ∧ (b.pass (w 2)).input.hsTimer = 4092 ∧ (b.pass (w 30)).input.hsTimer = 4096
    ∧ (b.pass (w 30)).input.vsTimer = 37 ∧ (b.pass (w 30)).input.count.time = 30
    ∧ (b.pass (w 30)).input.hs.run = b.input.hs.run + 30
    ∧ (State.reset.pass (w 9)).timing = .initial ∧ (State.reset.pass (w 9)).input = .initial := by decide +kernel

/-- LinesAndEdges: a line that another follows; a pixel that has not arrived, and one that the read FIFO holds. -/
theorem test_witness_line :
    let a := slot0 (rec' .showing 4) (rig 4 2)
    let b := a.setPicture { a.picture with selection := .slot }
    (now (rig 38 7)).lineFollows = true ∧ (now (rig 39 0)).lineFollows = false ∧ (now b).pixelMissing = true
    ∧ (let c := { cfg with rw := 1, rh := 1, cw := 1, ch := 1 }
       let d := b.setLoader { b.loader with settings := c }
       let e := d.setPicture { d.picture with lineStore := [⟨0, [], .arriving⟩] }
       d.pixelMissing = true ∧ (e.setStore { e.store with readFifo := [⟨0, 0, 9⟩] }).pixelMissing = false) := by
  decide +kernel

/-- LinesAndEdges: naming at a line's end, where SLOT takes effect, where a content row has been output, where its next
row is named, before the window, and with another selection; a row past the window and one past the frame are not
named; a complete line that the row needs is kept, one that it does not need released. -/
theorem test_witness_naming :
    let c := { cfg with rh := 2, ch := 4 }
    let a := fun (l p : Nat) => (slot0 (rec' .showing 4) (rig l p)).setLoader { (rig l p).loader with settings := c }
    let on := fun l k ls =>
      (a l 7).setPicture { (a l 7).picture with selection := .slot, namedRow := k, lineStore := ls }
    let go := fun s f => after (.outputLineEnd Span.zero) s f
    let names := fun (t : State) => t.picture.lineStore.map (fun l => (l.line, l.status))
    let full : StoreLine := ⟨0, [1, 2], .complete⟩
    (now (on 4 (some 0) [full])).lineFollows = true
    ∧ go (a 3 7) (fun t => t.picture.namedRow == some 0 && names t == [(0, .arriving), (1, .arriving)]) = true
    ∧ go (on 4 (some 0) [full, ⟨1, [], .incomplete⟩]) (fun t => t.picture.namedRow == some 1
        && names t == [(0, .complete), (1, .arriving)]) = true
    ∧ go (on 5 (some 1) [full, { full with line := 1 }]) (fun t => t.picture.namedRow == some 2
        && names t == [(1, .complete)]) = true
    ∧ go (on 4 (some 1) [full]) (fun t => t.picture.namedRow == some 1 && names t == [(0, .complete)]) = true
    ∧ go (on 3 (some 0) [full]) (fun t => t.picture.namedRow == some 0 && names t == [(0, .complete)]) = true
    ∧ go (on 7 (some 3) [full]) (fun t => t.picture.namedRow == some 3 && t.picture.row == 3) = true
    ∧ go (at' .member ((on 4 none []).setModes { Modes.initial with record := ⟨.fill, 0, 3⟩ }))
        (fun t => t.picture.selection == .fill && t.picture.namedRow == none) = true
    ∧ rowLines c 1 = [0, 1] ∧ rowLines c 2 = [1]
    ∧ ((a 4 0).nameRow 4).picture.namedRow = none
    ∧ ((a 4 0).setLoader { (a 4 0).loader with settings := { c with cy := 34 } }).rowExists 1 = true
    ∧ ((a 4 0).setLoader { (a 4 0).loader with settings := { c with cy := 34 } }).rowExists 2 = false := by
  decide +kernel

/-- LinesAndEdges: an underflow while a line is being fetched; what is named is no longer wanted, and the next row names
it afresh. -/
theorem test_underflow :
    let a := slot0 (rec' .showing 4) (rig 4 2)
    let b := (a.setPicture { a.picture with selection := .slot }).nameRow 0
    after (.readUnderflow Span.zero) b (fun t =>
      t.store.named.all (fun l => !l.live) && t.picture.fillFrom == some 0
        && t.picture.lineStore.all (fun l => l.status == .incomplete)) = true := by decide +kernel

/-- StatusWindowOpensAndCloses: a MEMBER, a JOINING and a DETACHED station at status open, none sending. -/
theorem test_witness_open :
    (now (rig 2 0)).timing.running = true ∧ (now (rig 2 0)).timing.line = (now (rig 2 0)).cfg.sopen
    ∧ (now (rig 2 0)).timing.pixel = 0 ∧ (now (rig 2 0)).bus.windowOpen = false ∧ (now (rig 2 0)).bus.latch = false
    ∧ (now (rig 2 0)).openDue = true ∧ (now (rig 2 0)).sendingStatus = false ∧ (now (rig 2 0)).bus.active = true
    ∧ (now (at' .joining (rig 2 0))).openDue = true ∧ (now (at' .detached (rig 2 0))).openDue = true := by decide +kernel

/-- StatusWindowOpensAndCloses: a STATUS made while the one before waits, while it is being sent, and while its
placement is refused. -/
theorem test_witness_openSending :
    let a := (rig 2 0).setBus { (rig 2 0).bus with statusPlace := some memberStatus }
    let b := a.setBus { a.bus with sending := some ⟨.status, false, none, none⟩ }
    let c := b.setBus { b.bus with latch := true }
    let go := fun s f => after (.statusOpen Span.zero) s f
    let made := (rig 2 0).makeStatus
    (now b).sendingStatus = true ∧ (now b).bus.statusPlace ≠ none ∧ made ≠ memberStatus
    ∧ go a (fun t => t.bus.statusPlace == some made && t.counters.statusDropped == 1) = true
    ∧ go b (fun t => t.bus.sending == some ⟨.status, false, some made, none⟩
        && t.bus.statusPlace == some memberStatus && t.counters.statusDropped == 0) = true
    ∧ go c (fun t => t.bus == { c.bus with windowOpen := true } && t.counters.statusDropped == 0) = true := by
  decide +kernel

/-- The rig at its cut-off, with a frame set. -/
def cut (x : Station) (l : List (Tile × StatusMsg)) : State :=
  let s := rig 10 0
  (s.setBus { s.bus with windowOpen := true }).setMember { Membership.initial with station := x, frameSet := l }

/-- StatusWindowOpensAndCloses, CutoffModeWork, EvaluationPicks: the window open, a STATUS that waits and one being
sent, a reference and none. -/
theorem test_witness_cutoff :
    let a := cut .joining [(1, memberStatus), (0, { memberStatus with isMember := false })]
    let b := a.setBus { a.bus with statusPlace := some memberStatus }
    let c := b.setBus { b.bus with sending := some ⟨.status, false, none, none⟩ }
    (now a).cutoffDue = true ∧ (now a).findReference = some 1 ∧ (now (cut .joining [])).findReference = none
    ∧ (now (cut .member [(7, memberStatus)])).findReference = some 3
    ∧ (now b).sendingStatus = false ∧ (now c).sendingStatus = true := by decide +kernel

/-- JoinerAligns, CutoffModeWork, EvaluationPicks: a slot that matches, and one that does not. -/
theorem test_witness_join :
    let a := slot0 (rec' .ready 4) (cut .joining [(1, memberStatus)])
    (now a).cutoffDue = true ∧ (now a).usable = true ∧ (now a).findReference = some 1
    ∧ (now a).memberMessages.find? (fun e => e.1 == 1) = some (1, memberStatus)
    ∧ bestMatch (matchesOf cfg a.store.slots ⟨0, 9⟩) = some (4, 0, 4)
    ∧ bestMatch (matchesOf cfg a.store.slots ⟨0, 10⟩) = none
    ∧ bestMatch (matchesOf cfg (slot1 { rec' .ready 6 with stamp := ⟨0, 7⟩ } a).store.slots ⟨0, 6⟩) = some (1, 1, 6)
    ∧ after (.statusCutoff Span.zero true) a (fun t => t.member.station == .member) = true := by decide +kernel

/-- MemberChecksReference: a check that passes at the edge of SKEW and one that fails. -/
theorem test_witness_check :
    let a := slot0 (rec' .showing 4) (cut .member [(1, memberStatus)])
    (now a).cutoffDue = true ∧ (now a).findReference = some 1 ∧ (now a).presented = some ⟨0, 5⟩
    ∧ stampsMatch cfg ⟨0, 5⟩ ⟨0, 9⟩ = true ∧ stampsMatch cfg ⟨0, 5⟩ ⟨0, 10⟩ = false
    ∧ after (.statusCutoff Span.zero false) a (fun t => t.member.station == .member) = true := by decide +kernel

/-- MemberChecksReference: a failed check, with a slot that matches, with none, with a hold picture that goes at once,
and with an input that is not usable. -/
theorem test_witness_realign :
    let m := { memberStatus with stamp := some ⟨0, 12⟩ }
    let a := slot1 { rec' .ready 6 with stamp := ⟨0, 12⟩ } (slot0 (rec' .showing 4) (cut .member [(1, m)]))
    let b := slot0 (rec' .showing 4) (cut .member [(1, m)])
    let hf := fun n (s : State) => s.setLoader { s.loader with settings := { cfg with holdframes := n } }
    let go := fun s f => after (.statusCutoff Span.zero true) s f
    (now a).findReference = some 1 ∧ (now a).presented = some ⟨0, 5⟩ ∧ stampsMatch cfg ⟨0, 12⟩ ⟨0, 5⟩ = false
    ∧ (now a).usable = true ∧ (now a).timing.lock = .locked
    ∧ go a (fun t => t.member.station == .member && t.counters.joins == 1 && t.counters.realigns == 1
        && t.store.slots.s1.state == .showing && t.store.slots.s0.state == .free) = true
    ∧ go (hf 2 b) (fun t => t.member.station == .joining && t.counters.alignMisses == 1 && t.member.holdTimer == 2
        && t.store.slots.s0.state == .showing) = true
    ∧ go (hf 0 b) (fun t => t.member.station == .joining && t.member.holdTimer == 0
        && t.store.slots.s0.state == .free) = true
    ∧ go (hf 2 (a.setInput { a.input with stable := none })) (fun t => t.member.station == .joining
        && t.counters.alignMisses == 0 && t.store.slots.s0.state == .showing) = true := by decide +kernel

/-- FoundingShowsNewest: the wait of tile 3 over, one slot READY. -/
theorem test_witness_found :
    let a := slot1 (rec' .ready 4) (cut .joining [])
    let b := a.setMember { a.member with quiet := 5 }
    (now b).foundingDue = true ∧ newest (now b).store.slots.ready = some (1, rec' .ready 4)
    ∧ (now (a.setMember { a.member with quiet := 4 })).foundingDue = false := by decide +kernel

/-- CutoffModeWork: a MEMBER that is its own reference, with a newer record to take. -/
theorem test_witness_repair :
    let m := { memberStatus with wfn := 9, effective := 9, mode := .fill }
    let a := cut .member [(7, m)]
    let b := a.setTiming { a.timing with wfn := 9 }
    (now b).cutoffDue = true ∧ (now b).findReference = some (now b).tile
    ∧ after (.statusCutoff Span.zero true) b (fun t => t.modes.repair == some ⟨.fill, 9, 7⟩) = true := by decide +kernel

/-- CutoffModeWork: a MODE that waits, and one being sent, at the cut-off of frame t - 2, at a station that is its own
reference; a MEMBER whose check against a peer passes. -/
theorem test_witness_deadline :
    let a := (cut .member []).setModes { Modes.initial with outstanding := some ⟨2, .fill, .none⟩ }
    let b := a.setBus { a.bus with modePlace := some ⟨2, .fill⟩ }
    let c := b.setBus { b.bus with sending := some ⟨.mode, false, none, none⟩ }
    (now b).cutoffDue = true ∧ (now b).findReference = some (now b).tile
    ∧ (now b).timing.wfn = (2 : Word) - 2 ∧ (now b).bus.sendingKind ≠ some .mode
    ∧ (now c).bus.sendingKind = some .mode
    ∧ (let d := slot0 (rec' .showing 4) (cut .member [(1, memberStatus)])
       (now d).findReference = some 1 ∧ (now d).checkFails memberStatus = false
       ∧ (now d).memberMessages.find? (fun e => e.1 == 1) = some (1, memberStatus)) := by decide +kernel

/-- BallotWindowBeginsAndEnds: line 15 outside, line 28 inside the window, and line 0 of the next frame inside it; an
edge caught and none. -/
theorem test_witness_window :
    let a := (rig 28 0).setBus { Bus.initial with active := true, rx := .ballot, ballotWindow := true }
    let b := (rig 15 1).setBallot { Ballot.initial with phase := .watch }
    (now (rig 15 0)).windowDue = true ∧ (now (rig 15 0)).bus.sending = none ∧ (now a).windowEndDue = true
    ∧ (now (a.setTiming { a.timing with line := 0 })).windowEndDue = true
    ∧ (now b).ballot.phase = .watch ∧ (now b).ballot.edge = none
    ∧ (now (b.setBallot { b.ballot with edge := some 1 })).ballot.edge ≠ none := by decide +kernel

/-- BallotLineDecides: a voter and a non-voter in WATCH at line 16, a stuck line, an edge at half a line and one past
it, and a voter with four READY slots. -/
theorem test_witness_ballotLine :
    let v := fun e => slot1 (rec' .ready 5) (slot0 (rec' .showing 4) ((rig 16 0).setBallot
      { Ballot.initial with phase := .watch, edge := e }))
    let st := (v none).setBus { (v none).bus with stuck := true }
    (now (v none)).ballotLineDue = true ∧ (now (v none)).isVoter = true ∧ (now (v none)).bus.stuck = false
    ∧ (now st).bus.stuck = true ∧ (now st).isVoter = true ∧ (now (at' .detached (v none))).isVoter = false
    ∧ after (.ballotLine Span.zero .dominant) (v (some 4))
        (fun t => t.ballot.phase == .voting && t.ballot.edge == some 4 && t.ballot.mask == [1]) = true
    ∧ after (.ballotLine Span.zero .dominant) (v (some 5)) (fun t => t.ballot.phase == .spent) = true
    ∧ after (.ballotLine Span.zero .recessive) (v (some 4)) (fun t => t.ballot.edge == some 0) = true
    ∧ (let w := (v none).setSlots ⟨rec' .showing 4, rec' .ready 8, rec' .ready 5, rec' .ready 7, rec' .ready 6⟩
       after (.ballotLine Span.zero .recessive) w (fun t =>
         t.ballot.mask == [2, 3, 4] && t.store.slots.toList.map (fun e => e.2.pledged) == [false, true, false, true, true])
         = true) := by decide +kernel

/-- A ballot that has been read. -/
def voted (l : List Level) (a : Nat) : State :=
  slot1 (rec' .ready 5) (slot0 (rec' .showing 4) ((rig 26 0).setBallot
    { Ballot.initial with phase := .voting, voter := true, edge := some a, p := 4, pledged := [5], mask := [1], lineResult := l }))

/-- Ten levels with position 1 recessive. -/
def tenLevels : List Level := [.dominant, .recessive] ++ List.replicate 7 .dominant ++ [.recessive]

/-- VoterDrivesItsBits: bits 0, 1, 2, 8 and 9 of a voter. -/
theorem test_witness_drive :
    (voted [] 0).tdBallot = .dominant ∧ (voted [] 8).tdBallot = .recessive ∧ (voted [] 16).tdBallot = .dominant
    ∧ (voted [] 71).tdBallot = .dominant ∧ (voted [] 72).tdBallot = .recessive ∧ (voted [] 0).ballot.fault = none
    ∧ (voted [.recessive] 4).ballot.fault = some 0 := by decide +kernel

/-- VoterDrivesItsBits: samples before the middle of a bit, at it, of two bits and a third too many, past a fault, and
outside VOTING. -/
theorem test_witness_samples :
    let go := fun (s : State) n l => (s.pass { Span.zero with pix := n, ballot := l }).ballot.lineResult
    let d := Level.dominant
    let r := Level.recessive
    go (voted [] 0) 3 [d] = [] ∧ go (voted [] 0) 4 [d] = [d] ∧ go (voted [] 12) 0 [d, r, r] = [d, r]
    ∧ go (voted [] 12) 0 [r, r] = [r] ∧ go (voted tenLevels 80) 0 [d] = tenLevels
    ∧ (voted [d, r, r] 20).ballot.fault = some 2 ∧ (voted (List.replicate 10 d) 80).ballot.fault = some 9
    ∧ go ((voted [] 12).setBallot { (voted [] 12).ballot with phase := .spent }) 0 [d] = [] := by decide +kernel

/-- BallotEndDecides: the end of bit 9, and the middle of a faulted start bit. -/
theorem test_witness_ballotEnd :
    (now (voted tenLevels 80)).ballotEnds = true ∧ (now (voted tenLevels 79)).ballotEnds = false
    ∧ (now (voted tenLevels 80)).ballot.fault = none ∧ (now (voted tenLevels 80)).store.slots.first .chosen = none
    ∧ after (.ballotEnd Span.zero) (voted tenLevels 80)
        (fun t => t.ballot.dStar == 1 && t.store.slots.first .chosen == some 1) = true
    ∧ (now (voted [.recessive] 4)).ballotEnds = true ∧ (now (voted [.recessive] 4)).ballot.fault ≠ none := by decide +kernel

/-- BusOutsideMessages: idle counts of 9, 10 and 11, a LEAVE ready to go, a stuck line. -/
theorem test_witness_bus :
    let v := fun n => (rig 2 0).setBus { Bus.initial with active := true, idle := n, windowOpen := true }
    let a := (v 11).setBus { (v 11).bus with leavePlace := some .hostHold }
    let b := (v 0).setBus { (v 0).bus with stuckCount := 65 }
    let c := (v 0).setBus { (v 0).bus with stuck := true }
    (now (v 9)).bus.rx = .waitIdle ∧ (now (v 9)).bus.idle < 10 ∧ 10 ≤ (now (v 10)).bus.idle
    ∧ (now (v 11)).nextToSend = none ∧ (now a).maySend = true ∧ (now a).nextToSend = some .leave
    ∧ (now b).stuckDue = true ∧ (now c).unstuckDue = true := by decide +kernel

/-- TdIsReadByClock: a bit time that goes on, its sample in a message and outside one, a start bit that is none, its
last clock; the falling edge of the mark bit before the end of the bit before it and after the mark bit's time began. -/
theorem test_witness_clock :
    let u := fun p k bits (x : RxState) =>
      { Bus.initial with active := true, rx := x, rxBits := bits, bitPhase := p, bitClock := k }
    let go := fun b v => Bus.clock true 3 .recessive v b
    let d := Level.dominant
    let r := Level.recessive
    ((u 4 5 [] .idle).bitClock + 1 = bitLength 4 ∧ (u 0 2 [] .idle).bitClock = sampleClock 0
      ∧ (u 0 2 [] .idle).aligns r = false)
    ∧ (go d (u 0 2 [d] .frame)).rxBits = [d, d] ∧ (go d (u 0 3 [d] .frame)).rxBits = [d]
    ∧ (go r (u 0 2 [] .frame)).rx = .waitIdle ∧ (go d (u 0 2 [] .idle)).rx = .idle
    ∧ (go r (u 4 5 [d] .frame)).bitPhase = 0 ∧ (go r (u 4 4 [d] .frame)).bitClock = 5
    ∧ (u 0 4 [r] .frame).aligns d = true ∧ (go d (u 0 4 [r] .frame)).bitPhase = 1
    ∧ (u 1 1 [r] .frame).aligns d = true ∧ (go d (u 1 1 [r] .frame)).bitPhase = 1
    ∧ (go d (u 1 1 [r] .frame)).bitClock = 1 := by decide +kernel

/-- TdIsReadByClock: the mark bits of the last byte of a MODE, a LEAVE and a STATUS are due, and none after it. -/
theorem test_witness_marks :
    let d := Level.dominant
    let r := Level.recessive
    let v := fun (k : List Level) n => ({ Bus.initial with
      active := true, rx := .frame, rxBits := [d, d] ++ k ++ List.replicate (9 * n - 4) r } : Bus).aligns d
    let m := [d, d, d]
    let l := [d, d, r]
    let s := [d, r, d]
    (v m 5, v m 6, v l 3, v l 4, v s 12, v s 13, v [r, d, d] 1) = (true, false, true, false, true, false, false) := by
  decide +kernel

/-- TdIsReadByClock: the stuck count at the end of a dominant bit time, of a recessive one, outside LOCKED, in the
ballot window and in a message, at its limit, and at the end of a command outside its conditions. -/
theorem test_witness_stuckCount :
    let u := fun n l (x : RxState) w =>
      { Bus.initial with
        active := true, rx := x, bitPhase := 4, bitClock := 5, stuckCount := n, sample := l, ballotWindow := w }
    let go := fun k v => (Bus.clock k 3 .recessive v .dominant).stuckCount
    go true (u 3 .dominant .idle false) = 4 ∧ go true (u 65 .dominant .waitIdle false) = 65
    ∧ go true (u 3 .recessive .idle false) = 0 ∧ go false (u 3 .dominant .idle false) = 0
    ∧ go true (u 3 .dominant .idle true) = 0 ∧ go true (u 3 .dominant .frame false) = 0
    ∧ ((rig 2 0).setBus (u 9 .dominant .idle false)).settle.bus.stuckCount = 9
    ∧ ((rig 2 0).setBus (u 9 .dominant .ballot false)).settle.bus.stuckCount = 0 := by decide +kernel

/-- TdIsReadByClock: the sender of a LEAVE drives its start bit, which reads dominant whatever the others do, and drives
nothing from the bit on at which it has lost. -/
theorem test_witness_tdDrive :
    let l := messageLevels 3 (.leave .hostHold)
    let v := fun bits k => { Bus.initial with
      active := true, rx := .frame, rxBits := bits, bitClock := k, leavePlace := some .hostHold,
      sending := some ⟨.leave, false, none, none⟩ }
    (v [] 0).sendingLevels 3 = some l ∧ (v [] 0).drive 3 = .dominant
    ∧ (Bus.clock true 3 .recessive (v [] 0) .recessive).tdClock = .dominant
    ∧ (v (l.take 4) 3).drive 3 = .dominant ∧ (v (l.take 4) 0).drive 3 = .recessive
    ∧ (l[4]?) = some .recessive ∧ (l[10]?) = some .dominant ∧ (v (l.take 4 ++ [.dominant]) 0).drive 3 = .recessive
    ∧ (v (l.take 4 ++ [.dominant] ++ (l.drop 5).take 5) 0).drive 3 = .recessive := by decide +kernel

set_option maxRecDepth 20000 in
/-- A station that begins a LEAVE sends it whole over the clocks of its 39 bit times, and not one clock sooner. -/
theorem test_leave_sent :
    let a := (rig 2 0).setBus { Bus.initial with
      active := true, idle := 11, rx := .idle, windowOpen := true, leavePlace := some .inputLost }
    let v := fun n => after (.messageStart Span.zero) a (fun t => (t.pass { Span.zero with xref := n }).sentDue)
    (v 209, v 210) = (false, true) := by decide +kernel

/-- MessagesEnd: a LEAVE lost at a data bit, sent whole, failed at its last bit; a message that has failed its mark bit.
-/
theorem test_witness_ends :
    let p := fun (s : State) => s.setBus { s.bus with leavePlace := some .inputLost }
    let l := messageLevels 3 (.leave .inputLost)
    (now (p (sending .leave (l.take 4 ++ [.dominant]) (rig 2 0)))).lossDue = true
    ∧ (now (p (sending .leave l (rig 2 0)))).sentDue = true
    ∧ (now (p (sending .leave (l.dropLast ++ [.dominant]) (rig 2 0)))).endBitDue = true
    ∧ (now ((rig 2 0).setBus { Bus.initial with active := true, rx := .frame, rxBits := [.dominant, .recessive] })).receiveFailed
        = true := by decide +kernel

/-- MessagesEnd: a MODE with a withdrawal held, whole, lost with its ending LATE and with its ending ABANDONED; a LEAVE
and a STATUS with a replacement held, lost and failed; a withdrawn STATUS lost after the cut-off, and one not withdrawn.
-/
theorem test_witness_heldEnds :
    let o := fun e => { Modes.initial with outstanding := some ⟨8, .fill, e⟩, queue := [⟨8, .fill, 3⟩] }
    let p := fun (s : State) => s.setBus { s.bus with
      modePlace := some ⟨8, .fill⟩, leavePlace := some .inputLost, statusPlace := some memberStatus }
    let lv := fun k => messageLevels 3 (match k with
      | .mode => .mode ⟨8, .fill⟩ | .leave => .leave .inputLost | .status => .status memberStatus)
    let v := fun (d : Sending) (n : Nat) (b : List Level) e =>
      let s := (p (rig 2 0)).setModes (o e)
      s.setBus { s.bus with rx := .frame, rxBits := (lv d.kind).take n ++ b, sending := some d }
    let next := { memberStatus with wfn := 9 }
    after (.messageSent Span.zero) (v ⟨.mode, true, none, none⟩ 57 [] .late)
      (fun t => t.port.result == .done && t.modes.queue.length == 1) = true
    ∧ (now (v ⟨.mode, true, none, none⟩ 8 [.dominant] .late)).lossDue = true
    ∧ after (.arbitrationLoss Span.zero) (v ⟨.mode, true, none, none⟩ 8 [.dominant] .late)
      (fun t => t.port.result == .late && t.modes.queue.isEmpty && t.bus.modePlace == none) = true
    ∧ after (.arbitrationLoss Span.zero) (v ⟨.mode, true, none, none⟩ 8 [.dominant] .abandoned)
      (fun t => t.port.result == .abandoned && t.modes.queue.length == 1) = true
    ∧ after (.arbitrationLoss Span.zero) (v ⟨.leave, false, none, some .hostHold⟩ 4 [.dominant] .none)
      (fun t => t.bus.leavePlace == some .hostHold) = true
    ∧ after (.messageSent Span.zero) (v ⟨.leave, true, none, none⟩ 39 [] .none)
      (fun t => t.bus.leavePlace == none) = true
    ∧ after (.endBitFailure Span.zero) (v ⟨.status, false, some next, none⟩ 119 [.dominant] .none)
      (fun t => t.bus.statusPlace == some next && t.counters.statusDropped == 1) = true
    ∧ after (.endBitFailure Span.zero) (v ⟨.status, true, none, none⟩ 119 [.dominant] .none)
      (fun t => t.bus.statusPlace == none && t.counters.statusDropped == 0) = true
    ∧ after (.endBitFailure Span.zero) (v ⟨.status, false, none, none⟩ 119 [.dominant] .none)
      (fun t => t.bus.statusPlace == none && t.counters.statusDropped == 1) = true := by decide +kernel

/-- MessagesRoundTrip: a STATUS with a stamp in the frame's last line, one without, and the frame's number of lines. -/
theorem test_witness_roundTrip :
    let m : Message := .status { memberStatus with stamp := some ⟨0x1234, 39⟩ }
    let j : Message := .status { memberStatus with isMember := false, stamp := none }
    let v := fun m => now (heard 7 m (rig 2 0))
    (v m).cfg.vtot = 40 ∧ (v m).bus.rx = .frame ∧ (v m).bus.sending = none ∧ (v m).bus.rxBits = messageLevels 7 m
    ∧ (v m).bus.bitClock ≤ sampleClock (v m).bus.bitPhase ∧ (v m).receivedGood = some (7, m)
    ∧ (v j).receivedGood = some (7, j) := by decide +kernel

/-- The rig with the bits of a LEAVE from tile 7, header `h`, reason `b` and a CRC-16, read so far. -/
def bitsRead (h b : Byte) (crc : Word) (rest : List Level) : State :=
  now ((rig 2 0).setBus { Bus.initial with
    active := true, rx := .frame, rxBits := .dominant :: ((h :: [b] ++ wordBytes crc).flatMap byteLevels ++ rest) })

/-- ReceptionIsChecked: a LEAVE received, a reason of 0 and of 4, a wrong CRC, each end bit dominant, an unknown kind, a
missing mark bit before the header and after it; a STATUS whose stamp lies in the line VTOT, and one of a JOINING
station with a stamp. -/
theorem test_witness_reception :
    let c := fun b => crc16 [0x27, b]
    let e : List Level := [.recessive, .recessive]
    let v := fun l => now ((rig 2 0).setBus { Bus.initial with active := true, rx := .frame, rxBits := l })
    let st := fun m => now (heard 7 (.status m) (rig 2 0))
    (bitsRead 0x27 1 (c 1) e).receivedGood = some (7, .leave .hostHold) ∧ (bitsRead 0x27 1 (c 1) e).receiveFailed = false
    ∧ (bitsRead 0x27 0 (c 0) e).receiveFailed = true ∧ (bitsRead 0x27 4 (c 4) e).receiveFailed = true
    ∧ (bitsRead 0x27 1 (c 1 ^^^ 1) e).receiveFailed = true ∧ (bitsRead 0x27 1 (c 1) [.dominant]).receiveFailed = true
    ∧ (bitsRead 0x27 1 (c 1) [.recessive, .dominant]).receiveFailed = true
    ∧ (bitsRead 0x67 1 (c 1) []).receiveFailed = true ∧ (v [.dominant, .recessive]).receiveFailed = true
    ∧ (v (.dominant :: (byteLevels 0x27 ++ [.recessive]))).receiveFailed = true
    ∧ (st { memberStatus with stamp := some ⟨0, 40⟩ }).receiveFailed = true
    ∧ (st { memberStatus with isMember := false }).receiveFailed = true := by decide +kernel

/-- StatusIsHeard, LeaveIsHeard, ModeIsScheduled, DuplicateSilences: each kind from another tile and from the own
number. -/
theorem test_witness_heard :
    let v := fun t m => (now (heard t m (rig 2 0))).receivedGood
    v 7 (.status memberStatus) = some (7, .status memberStatus) ∧ v 7 (.leave .hostHold) = some (7, .leave .hostHold)
    ∧ v 7 (.mode ⟨128, .freeze⟩) = some (7, .mode ⟨128, .freeze⟩) ∧ v 3 (.leave .silenced) = some (3, .leave .silenced)
    ∧ v 3 (.status memberStatus) = some (3, .status memberStatus) ∧ v 3 (.mode ⟨1, .live⟩) = some (3, .mode ⟨1, .live⟩)
    ∧ (now (rig 2 0)).member.roster.length = 32 := by decide +kernel

/-- ModeIsScheduled: the last target in reach, the first out of it, and the own frame. -/
theorem test_witness_mode :
    let v := fun (n : Word) => after (.modeReceived Span.zero) (heard 7 (.mode ⟨n, .fill⟩) (rig 2 0))
    v 128 (fun t => t.modes.queue == [⟨128, .fill, 7⟩]) = true
    ∧ v 129 (fun t => t.modes.queue.isEmpty && t.counters.modeStale == 1) = true
    ∧ v 0 (fun t => t.modes.queue.isEmpty && t.counters.modeStale == 1) = true := by decide +kernel

/-- SyncEdges: a line whose level is not known, leading edges of HS and VS, with a held VS and without. -/
theorem test_witness_sync :
    let a := (rig 2 0).setInput { (rig 2 0).input with
      hs := { Sync.initial with leading := true }, vs := { Sync.initial with leading := true } }
    (now a).input.active = true ∧ (now a).input.hs.level ≠ some .high ∧ (now a).input.vs.level ≠ some .low
    ∧ (now a).input.hs.leading = true ∧ (now a).input.vs.leading = true ∧ (now a).input.heldVs = none
    ∧ (now (a.setInput { a.input with heldVs := some 7 })).input.heldVs ≠ none := by decide +kernel

/-- The rig with an HS leading edge in the capture of slot 0, some pixels in the write FIFO, the port busy. -/
def hsIn (p : Progress) (n : Nat) : State :=
  let a := slot0 (rec' .filling 1) (rig 2 0)
  let b := a.setStore { a.store with
    writeFifo := List.replicate n ⟨0, 0, 0, 1⟩, transfer := some .refresh }
  b.setInput { b.input with hs := { Sync.initial with leading := true }, progress := some p }

/-- SyncEdges: a region line of two columns that ends before its first column and before its last, the FIFO with place
for its pixels and without; a region line that is whole, a line outside the region, no active line. -/
theorem test_witness_padding :
    let go := fun p n f => after (.hsEdge Span.zero) (hsIn p n) f
    let l := fun (t : State) => t.store.writeFifo.map (fun x => (x.line, x.col, x.rgb))
    go ⟨0, 1, 1, 0, true⟩ 0 (fun t => l t == [(0, 0, 0), (0, 1, 0)] && t.input.progress == some ⟨0, 2, 0, 1, false⟩
        && t.store.slots.s0.lines == 3 && !t.store.slots.s0.torn) = true
    ∧ go ⟨0, 1, 2, 0, true⟩ 0 (fun t => l t == [(0, 1, 0)]) = true
    ∧ go ⟨0, 1, 2, 0, true⟩ 2048 (fun t => t.store.writeFifo.length == 2048 && t.store.slots.s0.torn) = true
    ∧ go ⟨0, 1, 3, 1, true⟩ 0 (fun t => l t == [] && t.input.progress == some ⟨0, 2, 0, 1, false⟩) = true
    ∧ go ⟨0, 0, 1, 0, true⟩ 0 (fun t => l t == [] && t.input.progress == some ⟨0, 1, 0, 0, false⟩) = true
    ∧ go ⟨0, 1, 0, 1, false⟩ 0 (fun t => t.input.progress == some ⟨0, 1, 0, 1, false⟩) = true
    ∧ (now (hsIn ⟨0, 1, 1, 0, true⟩ 0)).input.hs.leading = true ∧ (now (hsIn ⟨0, 1, 1, 0, true⟩ 0)).input.heldVs = none
    ∧ (now (hsIn ⟨0, 1, 1, 0, true⟩ 0)).store.transfer ≠ none := by decide +kernel

/-- The rig with a VS whose hold has run out, in an input state. -/
def vsOver (x : Input) : State := (rig 2 0).setInput { x with active := true, heldVs := some 8 }

/-- InputVsIsTaken: NO_SIGNAL with and without an HS edge, ACQUIRING with two frames that agree, STABLE with a frame
that agrees and one that does not, a capture cut short. -/
theorem test_witness_vs :
    let r := (vsOver Input.initial).input.close
    let aq : Input := { Input.initial with state := .acquiring, candidate := some r, agreement := 2 }
    let ok : Input := { Input.initial with state := .stable, stable := some r }
    let bad : Input := { Input.initial with state := .stable, stable := some { r with lines := 1 } }
    let cap := slot0 (rec' .filling 1) (vsOver { ok with progress := some ⟨0, 0, 0, 0, false⟩ })
    (now (vsOver Input.initial)).input.heldVs = some 8
    ∧ after (.vsHoldExpiry Span.zero) (vsOver { Input.initial with hsSeen := true, hsTimer := 4095 })
        (fun t => t.input.state == .acquiring) = true
    ∧ after (.vsHoldExpiry Span.zero) (vsOver { Input.initial with hsSeen := true, hsTimer := 4096 })
        (fun t => t.input.state == .noSignal) = true
    ∧ after (.vsHoldExpiry Span.zero) (vsOver aq) (fun t => t.input.state == .stable && t.input.lcs == 1) = true
    ∧ after (.vsHoldExpiry Span.zero) (vsOver ok) (fun t => t.input.state == .stable && t.input.lcs == 1) = true
    ∧ after (.vsHoldExpiry Span.zero) (vsOver bad) (fun t => t.input.state == .acquiring && t.input.lcs == 0) = true
    ∧ after (.vsHoldExpiry Span.zero) cap (fun t => t.counters.captureShort == 1) = true := by decide +kernel

/-- InputVsIsTaken: a VS in the last region line, which is padded and completes the capture; in the same with the FIFO
full, and in the line before it. -/
theorem test_witness_vsPadding :
    let v := fun p n => (hsIn p n).setInput { (hsIn p n).input with
      heldVs := some 8, state := .stable, stable := some (vsOver Input.initial).input.close }
    let go := fun p n f => after (.vsHoldExpiry Span.zero) (v p n) f
    (∀ j, ((now (v ⟨0, 2, 1, 1, true⟩ 0)).store.slots.get j).state = .filling ↔ j = 0)
    ∧ (now (v ⟨0, 2, 1, 1, true⟩ 0)).input.heldVs = some 8
    ∧ go ⟨0, 2, 1, 1, true⟩ 0 (fun t => t.counters.captureDone == 1 && t.store.slots.s0.state == .ready) = true
    ∧ go ⟨0, 2, 2, 1, true⟩ 2048 (fun t => t.counters.captureTorn == 1 && t.counters.captureDone == 0) = true
    ∧ go ⟨0, 1, 1, 0, true⟩ 0 (fun t => t.counters.captureShort == 1 && t.counters.captureDone == 0) = true := by
  decide +kernel

/-- InputVsIsTaken: the grant at the third frame that agrees, with a region that fits the record; the grant in STABLE
with every slot but SHOWING READY, where the oldest is reclaimed; after a capture cut short, into the slot it leaves,
and after one that is complete, into another. -/
theorem test_witness_vsGrant :
    let r := { (vsOver Input.initial).input.close with activePixels := 9, activeLines := 9 }
    let count := { FrameCount.zero with activePixels := 9, activeLines := 9 }
    let aq : Input := { Input.initial with state := .acquiring, candidate := some r, agreement := 2, count := count }
    let ok : Input := { Input.initial with state := .stable, stable := some r, lcs := 8, count := count }
    let go := fun s f => after (.vsHoldExpiry Span.zero) s f
    let full := (vsOver ok).setSlots ⟨rec' .showing 4, rec' .ready 8, rec' .ready 5, rec' .ready 7, rec' .ready 6⟩
    let cap := fun n => slot0 (rec' .filling 8) (vsOver { ok with progress := some ⟨0, 0, 0, n, false⟩ })
    (go (vsOver aq) (fun t => t.input.progress == some ⟨0, 0, 0, 0, false⟩
        && t.store.slots.s0 == ⟨.filling, 1, ⟨0, 2⟩, 0, false, false⟩) = true)
    ∧ recordsAgree (vsOver ok).input.close r = true ∧ (vsOver ok).usable = true
    ∧ go full (fun t => t.input.progress == some ⟨2, 0, 0, 0, false⟩ && t.counters.slotsOverwritten == 1
        && t.store.slots.s2 == ⟨.filling, 9, ⟨0, 2⟩, 0, false, false⟩) = true
    ∧ go (cap 1) (fun t => t.input.progress == some ⟨0, 0, 0, 0, false⟩ && t.store.slots.s0.lcs == 9
        && t.counters.captureShort == 1) = true
    ∧ go (cap 2) (fun t => t.input.progress == some ⟨1, 0, 0, 0, false⟩ && t.store.slots.s0.state == .ready
        && t.store.slots.s1.lcs == 9 && t.counters.captureDone == 1) = true := by decide +kernel

/-- InputVsIsTaken: an HS edge that meets a held VS in a capture's last region line and in the line before it: the line
ends and is counted before the frame is closed; in NO_SIGNAL it makes the input ACQUIRING. The pixels of a capture cut
short leave the write FIFO, and so do those of one lost with the signal, and of a TORN one that is complete. -/
theorem test_witness_vsWithHs :
    let v := fun p n => (hsIn p n).setInput { (hsIn p n).input with
      heldVs := some 2, state := .stable, stable := some { (vsOver Input.initial).input.close with lines := 1 } }
    let go := fun s f => after (.hsEdge Span.zero) s f
    let i := (rig 2 0).setInput { Input.initial with
      active := true, heldVs := some 0, hs := { Sync.initial with leading := true } }
    (now (v ⟨0, 2, 1, 1, true⟩ 0)).input.hs.leading = true ∧ (now (v ⟨0, 2, 1, 1, true⟩ 0)).input.heldVs ≠ none
    ∧ go (v ⟨0, 2, 1, 1, true⟩ 3) (fun t => t.counters.captureDone == 1 && t.input.record.lines == 1
        && t.input.state == .stable && t.input.heldVs == none && t.store.writeFifo.length == 5) = true
    ∧ go (v ⟨0, 1, 1, 0, true⟩ 3) (fun t => t.counters.captureShort == 1 && t.store.writeFifo.isEmpty) = true
    ∧ go i (fun t => t.input.state == .acquiring && t.input.heldVs == none) = true
    ∧ after (.inputTimerExpiry Span.zero) ((hsIn ⟨0, 1, 1, 0, true⟩ 3).setInput
        { (hsIn ⟨0, 1, 1, 0, true⟩ 3).input with hsTimer := 4096 }) (fun t => t.store.writeFifo.isEmpty) = true
    ∧ after (.captureComplete Span.zero) ((hsIn ⟨0, 2, 1, 2, true⟩ 3).setSlots
        { (hsIn ⟨0, 2, 1, 2, true⟩ 3).store.slots with s0 := { rec' .filling 1 with torn := true } })
        (fun t => t.store.writeFifo.isEmpty && t.counters.captureTorn == 1) = true := by decide +kernel

/-- GrantTakesSlot: the gaps 0, 12, 22, 23 and 65535 of a SHOWING slot out of reach, rebased. -/
theorem test_witness_rebase :
    let v := fun (n : Word) => ((slot0 (rec' .showing 4) (rig 2 0)).grant n ⟨0, 2⟩).1.store.slots.showing.map
      (fun q => (n - q.lcs).toNat)
    (v 4, v 16, v 26, v 27, v 3) = (some 9, some 1, some 11, some 1, some 8) := by decide +kernel

/-- GrantTakesSlot: a SHOWING slot in reach, one out of it with nothing pledged, one with a pledge; the oldest of four
READY slots taken, with one of them pledged. -/
theorem test_witness_grant :
    let a := (slot0 (rec' .showing 4) (rig 2 0))
    let b := slot1 { rec' .ready 16 with pledged := true } a
    (a.grant 15 ⟨0, 2⟩).2 = some 1 ∧ gapInWindow ((15 : Word) - 4).toNat = true ∧ gapInWindow ((16 : Word) - 4).toNat = false
    ∧ ((a.grant 16 ⟨0, 2⟩).1.store.slots.showing.map (·.lcs)) = some 15
    ∧ ((b.grant 17 ⟨0, 2⟩).1.store.slots.showing.map (·.lcs)) = some 4
    ∧ (let c := (rig 2 0).setSlots
         ⟨rec' .showing 4, rec' .ready 8, { rec' .ready 5 with pledged := true }, rec' .ready 7, rec' .ready 6⟩
       (c.grant 9 ⟨0, 2⟩).2 = some 4 ∧ (c.grant 9 ⟨0, 2⟩).1.counters.slotsOverwritten = 1
       ∧ (c.grant 9 ⟨0, 2⟩).1.counters.rebases = 0)
    ∧ (let e := (rig 2 0).setSlots ⟨rec' .showing 4, rec' .ready 14, rec' .ready 16, .free, .free⟩
       (e.grant 17 ⟨0, 2⟩).2 = some 1 ∧ (e.grant 17 ⟨0, 2⟩).1.counters.rebases = 1
       ∧ ((e.grant 17 ⟨0, 2⟩).1.store.slots.showing.map (·.lcs)) = some 15) := by decide +kernel

/-- InputTimerExpires: each timer at its limit. -/
theorem test_witness_timer :
    let v := fun h k => now ((rig 2 0).setInput { (rig 2 0).input with hsTimer := h, vsTimer := k })
    (v 4096 0).input.timerExpired = true ∧ (v 4095 4194303).input.timerExpired = false
    ∧ (v 0 4194304).input.timerExpired = true ∧ (v 0 0).input.state ≠ .noSignal := by decide +kernel

/-- RegionPixelsEnter: a pixel in the region, its last pixel, one outside; a full FIFO; a capture that is complete. -/
theorem test_witness_pixels :
    let v := fun p => now ((rig 2 0).setInput { (rig 2 0).input with progress := some p })
    let full := (v ⟨0, 1, 1, 0, true⟩).setStore { Store.initial with writeFifo := List.replicate 2048 ⟨0, 0, 0, 0⟩ }
    inRegion cfg ⟨0, 1, 1, 0, true⟩ = true ∧ inRegion cfg ⟨0, 1, 2, 0, true⟩ = true ∧ inRegion cfg ⟨0, 1, 3, 0, true⟩ = false
    ∧ (v ⟨0, 2, 2, 2, true⟩).captureFull = true ∧ (v ⟨0, 2, 2, 1, true⟩).captureFull = false
    ∧ full.store.writeFifo.length = 2048 ∧ (now full).overflowDue = true := by decide +kernel

/-- PanelPixelPath: each source; a row of the window with its pixels arrived, blended, and one without; the border; a
line past an underflow; a pixel of the active area and one outside it. -/
theorem test_witness_pixel :
    let c := { cfg with rw := 2, rh := 2, cw := 4, ch := 4, aw := 6, ah := 6 }
    let a := (slot0 (rec' .showing 4) (rig 4 4)).setLoader { (rig 0 0).loader with settings := c }
    let b := a.setPicture { a.picture with
      selection := .slot,
      lineStore := [⟨0, [0x00000A#24, 0x00000D#24], .complete⟩, ⟨1, [0x00000A#24, 0x00000D#24], .complete⟩] }
    let d := b.setPicture { b.picture with fillFrom := some 2 }
    b.findSelection = .slot ∧ (at' .starting b).findSelection = .inactive ∧ (at' .joining b).findSelection = .slot
    ∧ (at' .detached (rig 0 0)).findSelection = .fill ∧ (rig 0 0).findSelection = .fill
    ∧ (1 * (65536 * c.rw / c.cw) / 65536, 1 * (65536 * c.rw / c.cw) % 65536) = (0, 32768)
    ∧ contentPixel b 1 0 = 0x00000C#24 ∧ contentPixel a 1 0 = 0 ∧ inWindow c 4 0 = false ∧ contentPixel d 1 0 = 0x00000C#24
    ∧ contentPixel d 2 0 = c.fillColour ∧ inActiveArea c b.timing.pixel b.timing.line = true
    ∧ b.panelData = panelPixel b 2 0 ∧ inActiveArea c 1 4 = false := by decide +kernel

/-- PanelPixelPath: the panel pins of a running generator, in the first pixel of a frame, in the active area and outside
both, and of a stopped one. ItemsAreReadAndCleared: ATTN with an enabled flag, with one not enabled, with none. -/
theorem test_witness_pins :
    let a := fun l p => (rig l p).setLoader { (rig 0 0).loader with
      settings := { cfg with hsw := 1, vsw := 1, hsHigh := true, vsHigh := false, deHigh := true } }
    let f := fun (k : Word) => (rig 2 0).setPort { Port.initial with flags := k }
    (a 0 0).timing.running = true ∧ (a 0 0).panelSync = ⟨true, false, false⟩
    ∧ (a 4 2).panelSync = ⟨false, true, true⟩ ∧ (a 4 2).panelClock = true ∧ (a 4 6).panelSync = ⟨false, true, false⟩
    ∧ State.reset.panelSync = ⟨false, false, false⟩ ∧ State.reset.timing.running = false
    ∧ ((f 0x0080).attnLow, (f 0x0100).attnLow, (f 0).attnLow) = (true, false, false) := by decide +kernel

/-- CanvasAndIdentityPatterns: the grid at its first column, the bar on a canvas of 9 columns, the identity pattern of
tile 3 on a panel of 32 by 32. -/
theorem test_witness_canvas :
    let c := { cfg with aw := 32, ah := 32, cw := 2, ch := 2, rx := 0, ry := 0, rw := 64, rh := 64 }
    let a := (rig 0 0).setLoader { (rig 0 0).loader with settings := c }
    let b := a.setPicture { a.picture with field := a.identityField }
    patternPixel a 3 0 1 = 0xFFFFFF#24 ∧ patternPixel a 3 1 1 = 0 ∧ patternPixel a 9 0 0 = 0xFFFFFF#24
    ∧ a.input.stable.isSome = true ∧ (State.reset).input.stable = none ∧ a.identityField = 0x006000#24
    ∧ patternPixel b 10 10 12 = 0x006000#24 ∧ patternPixel b 10 11 12 = 0xFFFFFF#24 ∧ patternPixel b 10 15 12 = 0x006000#24
    ∧ patternPixel b 10 17 12 = 0xFFFFFF#24 ∧ patternPixel b 10 17 13 = 0x006000#24 ∧ patternPixel b 10 20 13 = 0xFFFFFF#24 := by
  decide +kernel

/-- PanelPatterns: a pixel of the active area. -/
theorem test_witness_patterns : (rig 0 0).cfg.aw = 4 ∧ patternPixel (rig 0 0) 0 3 0 = 0x0000FF#24 := by decide +kernel

/-- HostCommandsAreChecked, RestartBeginsLoad, ItemsAreReadAndCleared: a port that answers; a refusal, a BUSY, a HOLD.
-/
theorem test_witness_host :
    let w := State.reset.setLoader { Loader.initial with phase := .wait }
    let busy := (rig 2 0).setPort { Port.initial with inFlight := some .hold }
    (now w).loader.phase ≠ .held ∧ (now w).port.tx = .waiting ∧ (now w).member.station = .starting
    ∧ after (.hold Span.zero) w (fun t => t.port.result == .refusedState) = true
    ∧ after (.release Span.zero) busy (fun t => t.port.result == .busy) = true
    ∧ after (.hold Span.zero) (rig 2 0) (fun t => t.port.inFlight == some .hold) = true := by decide +kernel

/-- ItemsAreReadAndCleared, RestartBeginsLoad: writes to COMMAND that are no command, one of them in STARTING and one of
four bytes; a command written as bytes; the item numbers 7 and 8; a read after a selection, and one alone; a RESTART. -/
theorem test_witness_items :
    let go := fun l e s f => after (.itemSelect Span.zero State.reset.port.address l e) s (fun t => f t.port)
    let w := State.reset.setLoader { Loader.initial with phase := .wait }
    let no := fun x (p : Port) => p.result == .refusedArg && p.lastCode == some x && p.inFlight == none
    go [7, 7] .stop w (no 7) = true ∧ go [7, 1, 0] .stop (rig 2 0) (no 1) = true ∧ go [7, 3] .stop (rig 2 0) (no 3) = true
    ∧ go [7, 4, 0, 0, 0] .stop (rig 2 0) (fun p => no 4 p && p.acks == [true, true, true, true, true, false]) = true
    ∧ go [7, 1] .stop (rig 2 0) (fun p => p.inFlight == some .hold && p.lastCode == some 1) = true
    ∧ go [7] .stop (rig 2 0) (fun p => p.selected == .command && p.lastCode == none && p.acks == [true, true]) = true
    ∧ go [8, 0] .stop (rig 2 0) (fun p => p == { Port.initial with acks := [true, false, false] }) = true
    ∧ go [0] (.read 4) (rig 2 0) (fun p => p.returned == [9, 0x6A, 1, 0] && p.acks == [true, true, true]) = true
    ∧ go [] (.read 2) (rig 2 0) (fun p => p.returned == [9, 0x6A] && p.acks == [true]) = true
    ∧ after (.restart Span.zero) (rig 2 0) (fun t => t.picture == .initial && t.port == { Port.initial with
        selected := .command, flags := Event.mark .restarted, acks := [true, true, true] }) = true := by decide +kernel

/-- SetModeIsChecked: a queue that holds the target for the own tile, for a lower and for a higher one; a placement
refused because a MODE waits, because of the latch and because the controller is inactive. -/
theorem test_witness_setModeRows :
    let q := fun (o : Tile) => (rig 2 0).setModes { Modes.initial with queue := [⟨8, .freeze, o⟩] }
    let go := fun s f => after (.setMode Span.zero 0x40) s f
    let b := fun (f : Bus → Bus) => (q 7).setBus (f (q 7).bus)
    let gone := fun (t : State) => t.port.result == .abandoned && t.port.inFlight == none && t.modes.outstanding == none
      && t.modes.queue == [] && t.counters.modeConflicts == 1
    go (q 3) (fun t => t.modes.queue == [⟨8, .fill, 3⟩] && t.counters.modeConflicts == 0) = true
    ∧ go (q 2) (fun t => t.modes.queue == [⟨8, .freeze, 2⟩] && t.counters.modeConflicts == 1
        && t.port.result == .accepted) = true
    ∧ go (q 7) (fun t => t.modes.queue == [⟨8, .fill, 3⟩] && t.counters.modeConflicts == 1) = true
    ∧ go (b (fun x => { x with modePlace := some ⟨5, .live⟩ })) gone = true
    ∧ go (b (fun x => { x with latch := true })) gone = true
    ∧ go (b (fun x => { x with active := false })) gone = true := by decide +kernel

/-- SetModeIsChecked: an index of 12, a station that is not MEMBER, a MEMBER. -/
theorem test_witness_setMode :
    decodeMode 0x8C = none ∧ decodeMode 0x8B = some (.pattern 11)
    ∧ after (.setMode Span.zero 0x40) (at' .joining (rig 2 0)) (fun t => t.port.result == .refusedState) = true
    ∧ after (.setMode Span.zero 0x40) (rig 2 0)
        (fun t => t.port.result == .accepted && t.bus.modePlace == some ⟨8, .fill⟩) = true := by decide +kernel

end Sys2Proof.Tests
end

