-- ==== Sys2Proof/Proofs/LeaveIsHeard.lean ====
section
/-! O45, the roster under a LEAVE and a STATUS (R108, R109): what changing one entry of the roster leaves of it, what
handing over a message comes to, and what is left when the command has ended. -/

namespace Sys2Proof.Machine

/-! ## One entry of the roster -/

/-- Changing a tile's entry applies the change at that tile's number and nowhere else. -/
theorem State.setEntry_getElem? (s : State) (r : Tile) (f : Entry → Entry) (k : Nat) :
    (s.setEntry r f).member.roster[k]? =
      (s.member.roster[k]?).map (fun e => if k = r.toNat then f e else e) := by
  have hzip : (List.range s.member.roster.length).zip s.member.roster =
      s.member.roster.zipIdx.map Prod.swap := by
    rw [List.zipIdx_eq_zip_range', ← List.range_eq_range', List.zip_swap]
  simp [State.setEntry, hzip, Function.comp_def]

/-- Changing an entry changes the roster alone of the membership controller. -/
theorem State.setEntry_member (s : State) (r : Tile) (f : Entry → Entry) :
    (s.setEntry r f).member = { s.member with roster := (s.setEntry r f).member.roster } := rfl

/-- The entry that stands at a tile's number is the tile's entry. -/
theorem State.entry_of_getElem? {s : State} {r : Tile} {e : Entry} (h : s.member.roster[r.toNat]? = some e) :
    s.entry r = e := by simp [State.entry, h]

/-! ## A LEAVE and a STATUS in the roster -/

/-- What a LEAVE makes of its sender's entry (R109). -/
def Entry.depart (x : LeaveReason) (e : Entry) : Entry := { e with state := .left, heard := 0, reason := some x }

/-- A LEAVE with the own tile number leaves the station as it is. -/
theorem State.rosterLeave_own (s : State) (x : LeaveReason) : s.rosterLeave s.tile x = s := by
  simp [State.rosterLeave]

/-- A LEAVE of another tile changes that tile's entry, and raises ROSTER_CHANGE where the entry was not LEFT. -/
theorem State.rosterLeave_other {s : State} {r : Tile} (x : LeaveReason) (hr : r ≠ s.tile) :
    s.rosterLeave r x = if (s.entry r).state = .left then s.setEntry r (Entry.depart x)
      else (s.setEntry r (Entry.depart x)).raise .rosterChange := by
  simp only [State.rosterLeave, if_neg hr, bne_iff_ne, ite_not]
  rfl

/-- Of the membership controller it changes that entry alone. -/
theorem State.rosterLeave_member {s : State} {r : Tile} (x : LeaveReason) (hr : r ≠ s.tile) :
    (s.rosterLeave r x).member = (s.setEntry r (Entry.depart x)).member := by
  rw [State.rosterLeave_other x hr]
  split <;> simp

/-- A STATUS of another tile changes, of the membership controller, that tile's entry alone. -/
theorem State.rosterStatus_member {s : State} {r : Tile} (m : StatusMsg) (hr : r ≠ s.tile) :
    (s.rosterStatus r m).member = (s.setEntry r (Entry.hear m)).member := by
  simp only [State.rosterStatus, if_neg hr]
  split <;> simp

/-- The frame set takes a STATUS without a change of the roster. -/
@[simp] theorem State.joinFrameSet_roster (s : State) (r : Tile) (m : StatusMsg) :
    (s.joinFrameSet r m).member.roster = s.member.roster := by
  simp only [State.joinFrameSet]
  split <;> simp

/-! ## Duplicate detection -/

/-- Leaving MEMBER does not change the roster. -/
@[simp] theorem State.outOfMember_roster (s : State) : s.outOfMember.member.roster = s.member.roster := by
  simp only [State.outOfMember]
  split <;> simp

/-- Silencing the station does not change the roster. -/
@[simp] theorem State.silenceStation_roster (s : State) : s.silenceStation.member.roster = s.member.roster := by
  simp only [State.silenceStation]
  split <;> simp [State.setStation]

/-- Duplicate detection does not change the roster. -/
@[simp] theorem State.detectDuplicate_roster (s : State) (r : Tile) :
    (s.detectDuplicate r).member.roster = s.member.roster := by
  simp only [State.detectDuplicate]
  repeat' split
  all_goals simp

/-- Duplicate detection passes another tile's number over. -/
theorem State.detectDuplicate_other {s : State} {r : Tile} (hr : r ≠ s.tile) : s.detectDuplicate r = s := by
  simp [State.detectDuplicate, hr]

/-! ## Handing over -/

/-- A message received whole is of its own kind. -/
theorem State.receivedKind_of_receivedGood {s : State} {r : Tile} {m : Message} (h : s.receivedGood = some (r, m)) :
    s.receivedKind m.kind = true := by simp [State.receivedKind, h]

/-- A LEAVE is handed to the roster and to duplicate detection. -/
theorem State.handOver_leave {s : State} {r : Tile} {x : LeaveReason} (h : s.receivedGood = some (r, .leave x)) :
    s.handOver = (s.rxWaitIdle.rosterLeave r x).detectDuplicate r := by simp only [State.handOver, h]

/-- A STATUS is handed to the roster, to the frame set and to duplicate detection. -/
theorem State.handOver_status {s : State} {r : Tile} {m : StatusMsg} (h : s.receivedGood = some (r, .status m)) :
    s.handOver = ((s.rxWaitIdle.rosterStatus r m).joinFrameSet r m).detectDuplicate r := by
  simp only [State.handOver, h]

/-- Waiting for idle, the station has the tile number that it had. -/
@[simp] theorem State.rxWaitIdle_tile (s : State) : s.rxWaitIdle.tile = s.tile := by simp [State.tile]

/-- A LEAVE of another tile, handed over: the receive path waits for idle and the roster takes the LEAVE. -/
theorem State.handOver_leave_other {s : State} {r : Tile} {x : LeaveReason}
    (h : s.receivedGood = some (r, .leave x)) (hr : r ≠ s.tile) : s.handOver = s.rxWaitIdle.rosterLeave r x := by
  rw [State.handOver_leave h, State.detectDuplicate_other]
  simpa [State.tile] using hr

/-- A LEAVE with the own tile number, handed over, leaves the roster as it was. -/
theorem State.handOver_leave_own {s : State} {x : LeaveReason} (h : s.receivedGood = some (s.tile, .leave x)) :
    s.handOver.member.roster = s.member.roster := by
  have hown : s.rxWaitIdle.rosterLeave s.tile x = s.rxWaitIdle := by
    simpa using s.rxWaitIdle.rosterLeave_own x
  simp [State.handOver_leave h, hown]

/-- The roster after a LEAVE of another tile. -/
theorem State.handOver_leave_getElem? {s : State} {r : Tile} {x : LeaveReason}
    (h : s.receivedGood = some (r, .leave x)) (hr : r ≠ s.tile) (k : Nat) :
    s.handOver.member.roster[k]? =
      (s.member.roster[k]?).map (fun e => if k = r.toNat then e.depart x else e) := by
  rw [State.handOver_leave_other h hr, State.rosterLeave_member x (by simpa using hr), State.setEntry_getElem?]
  simp

/-- Of the membership controller, a LEAVE of another tile changes the roster alone. -/
theorem State.handOver_leave_member {s : State} {r : Tile} {x : LeaveReason}
    (h : s.receivedGood = some (r, .leave x)) (hr : r ≠ s.tile) :
    s.handOver.member = { s.member with roster := s.handOver.member.roster } := by
  rw [State.handOver_leave_other h hr, State.rosterLeave_member x (by simpa using hr), State.setEntry_member]
  simp

/-- A LEAVE of another tile touches the receive path, the membership controller and the port. -/
theorem State.handOver_leave_sameBut {s : State} {r : Tile} {x : LeaveReason}
    (h : s.receivedGood = some (r, .leave x)) (hr : r ≠ s.tile) :
    SameBut [.bus, .store, .member, .picture, .port] s s.handOver := by
  rw [State.handOver_leave_other h hr]
  intro p hp
  cases p <;> simp_all [Part.same]

/-- A LEAVE that changes the state of an entry raises ROSTER_CHANGE; one that reaches a LEFT entry leaves the port. -/
theorem State.handOver_leave_port {s : State} {r : Tile} {x : LeaveReason} {e : Entry}
    (h : s.receivedGood = some (r, .leave x)) (hr : r ≠ s.tile) (he : s.member.roster[r.toNat]? = some e) :
    (e.state ≠ .left → s.handOver.flag .rosterChange = true) ∧ (e.state = .left → s.handOver.port = s.port) := by
  have hentry : s.rxWaitIdle.entry r = e := State.entry_of_getElem? (by simpa using he)
  rw [State.handOver_leave_other h hr, State.rosterLeave_other x (by simpa using hr), hentry]
  constructor
  · intro hne
    rw [if_neg hne]
    exact State.flag_raise _ _
  · intro heq
    simp [if_pos heq]

/-- The sender's roster entry after a STATUS of another tile. -/
theorem State.handOver_status_getElem? {s : State} {r : Tile} {m : StatusMsg}
    (h : s.receivedGood = some (r, .status m)) (hr : r ≠ s.tile) :
    s.handOver.member.roster[r.toNat]? = (s.member.roster[r.toNat]?).map (Entry.hear m) := by
  rw [State.handOver_status h, State.detectDuplicate_roster, State.joinFrameSet_roster,
    State.rosterStatus_member m (by simpa using hr), State.setEntry_getElem?]
  simp

/-! ## The commands -/

/-- LEAVE_RECEIVED with a LEAVE received whole hands it over. -/
theorem exec_leaveReceived {w : Span} {s u : State} {r : Tile} {x : LeaveReason} (hu : s.pass w = u)
    (h : u.receivedGood = some (r, .leave x)) : exec (.leaveReceived w) s = .next u.handOver.settle := by
  subst hu
  exact event_due (due := fun t => t.receivedKind .leave) (State.receivedKind_of_receivedGood h)

/-- STATUS_RECEIVED with a STATUS received whole hands it over. -/
theorem exec_statusReceived {w : Span} {s u : State} {r : Tile} {m : StatusMsg} (hu : s.pass w = u)
    (h : u.receivedGood = some (r, .status m)) : exec (.statusReceived w) s = .next u.handOver.settle := by
  subst hu
  exact event_due (due := fun t => t.receivedKind .status) (State.receivedKind_of_receivedGood h)

/-- Settles O45: the roster's change is the one that the hand-over makes, which the end of the command leaves. -/
theorem leaveIsHeard : Obligations.LeaveIsHeard := by
  unfold Obligations.LeaveIsHeard
  intro w s u r hu _
  refine ⟨fun x hx => ⟨_, exec_leaveReceived hu hx, ?own, ?other⟩, fun m e hr hm he _ => ?status⟩
  case own =>
    intro hr
    subst hr
    simpa using State.handOver_leave_own hx
  case other =>
    intro hr e he
    have hroster := State.handOver_leave_getElem? hx hr
    obtain ⟨hraised, hkept⟩ := State.handOver_leave_port hx hr he
    refine ⟨?entry, ?raised, ?port, ?others, ?member, (State.handOver_leave_sameBut hx hr).settle (by simp)⟩
    case entry => simp [hroster, he, Entry.depart]
    case raised =>
      intro hne
      rw [State.flag_of_port (s := u.handOver) (by simp)]
      exact hraised hne
    case port => simpa using hkept
    case others =>
      intro k hk
      simp [hroster, hk]
    case member => simpa using State.handOver_leave_member hx hr
  case status =>
    refine ⟨_, Entry.hear m e, exec_statusReceived hu hm, ?_, rfl⟩
    simp [State.handOver_status_getElem? hm hr, he]

end Sys2Proof.Machine
end

