-- ==== Sys2Proof/Proofs/PanelPatterns.lean ====
section
/-! O54, the panel patterns and the solid patterns (R147): the components of a colour made from its components, the
step of the active area's width that a column falls in, the colours of the bars, and the outline as a proposition. -/

namespace Sys2Proof.Machine

/-! ## The components of a colour -/

/-- The highest byte of a colour is its red. -/
@[simp] theorem redOf_rgbOf (r g b : Nat) : redOf (rgbOf r g b) = r % 256 := by
  have hred : (rgbOf r g b).extractLsb' 16 8 = BitVec.ofNat 8 r :=
    (BitVec.extractLsb'_append_eq_of_le (by decide)).trans BitVec.extractLsb'_append_eq_left
  simp [redOf, hred]

/-- The middle byte of a colour is its green. -/
@[simp] theorem greenOf_rgbOf (r g b : Nat) : greenOf (rgbOf r g b) = g % 256 := by
  have hgreen : (rgbOf r g b).extractLsb' 8 8 = BitVec.ofNat 8 g :=
    (BitVec.extractLsb'_append_eq_of_le (by decide)).trans BitVec.extractLsb'_append_eq_right
  simp [greenOf, hgreen]

/-- The lowest byte of a colour is its blue. -/
@[simp] theorem blueOf_rgbOf (r g b : Nat) : blueOf (rgbOf r g b) = b % 256 := by
  have hblue : (rgbOf r g b).extractLsb' 0 8 = BitVec.ofNat 8 b := BitVec.extractLsb'_append_eq_right
  simp [blueOf, hblue]

/-! ## Where a pixel falls in the active area -/

/-- A width divided into n equal steps: a column inside it falls in a step below n. -/
theorem stepOf_lt {n x width : Nat} (hn : 0 < n) (hx : x < width) : n * x / width < n :=
  Nat.div_lt_of_lt_mul (by simpa [Nat.mul_comm width] using Nat.mul_lt_mul_of_pos_left hx hn)

/-- The one colour list of R147 gives the bars in order; past its end both sides are black. -/
theorem barColour_eq_getD (k : Nat) :
    barColour k =
      (([0xFFFFFF#24, 0xFFFF00#24, 0x00FFFF#24, 0x00FF00#24, 0xFF00FF#24, 0xFF0000#24, 0x0000FF#24, 0x000000#24]
        : List Rgb)[k]?).getD 0 := by
  match k with
  | 0 | 1 | 2 | 3 | 4 | 5 | 6 | 7 => rfl
  | _ + 8 => rfl

/-- Pattern 1 at a column of the active area: the level fits a byte, so each component is the level itself. -/
theorem patternPixel_greyRamp {s : State} {x : Nat} (y : Nat) (hx : x < s.cfg.aw) :
    redOf (patternPixel s 1 x y) = 256 * x / s.cfg.aw ∧ greenOf (patternPixel s 1 x y) = 256 * x / s.cfg.aw
      ∧ blueOf (patternPixel s 1 x y) = 256 * x / s.cfg.aw := by
  have hlevel : 256 * x / s.cfg.aw % 256 = 256 * x / s.cfg.aw := Nat.mod_eq_of_lt (stepOf_lt (by decide) hx)
  have hpixel : patternPixel s 1 x y =
      rgbOf (256 * x / s.cfg.aw) (256 * x / s.cfg.aw) (256 * x / s.cfg.aw) := rfl
  simp [hpixel, hlevel]

/-- Pattern 2 inside the active area: the last column and the last row are one below the width and the height. -/
theorem patternPixel_panelGrid {s : State} {x y : Nat} (hx : x < s.cfg.aw) (hy : y < s.cfg.ah) :
    patternPixel s 2 x y =
      if x % 32 = 0 ∨ y % 32 = 0 ∨ x = s.cfg.aw - 1 ∨ y = s.cfg.ah - 1 then white else black := by
  have hcol : x = s.cfg.aw - 1 ↔ x + 1 = s.cfg.aw := by omega
  have hrow : y = s.cfg.ah - 1 ↔ y + 1 = s.cfg.ah := by omega
  have hpixel : patternPixel s 2 x y =
      if x % 32 = 0 ∨ y % 32 = 0 ∨ x + 1 = s.cfg.aw ∨ y + 1 = s.cfg.ah then white else black := rfl
  simp only [hpixel, hcol, hrow]

/-- Pattern 11: the edge of the active area, two pixels wide, and the one-pixel outline of the content window. -/
theorem borderOutline_eq (c : Settings) (x y : Nat) :
    borderOutline c x y =
      if x < 2 ∨ c.aw - 2 ≤ x ∨ y < 2 ∨ c.ah - 2 ≤ y
          ∨ ((x = c.cx ∨ x = c.cx + c.cw - 1) ∧ c.cy ≤ y ∧ y ≤ c.cy + c.ch - 1)
          ∨ ((y = c.cy ∨ y = c.cy + c.ch - 1) ∧ c.cx ≤ x ∧ x ≤ c.cx + c.cw - 1)
        then white else black := by
  simp only [borderOutline, Bool.or_eq_true, Bool.and_eq_true, decide_eq_true_eq, beq_iff_eq, or_assoc]

/-- Settles O54: each pattern's own rule; the solid patterns and the checkerboard are the rule as the model writes it. -/
theorem panelPatterns : Obligations.PanelPatterns := by
  unfold Obligations.PanelPatterns
  intro u x y hx hy
  obtain ⟨hred, hgreen, hblue⟩ := patternPixel_greyRamp y hx
  refine ⟨?bars, hred, hgreen, hblue, ?grid, ?red, ?green, ?blue, ?white, ?checkerboard, ?outline⟩
  case bars => exact barColour_eq_getD (8 * x / u.cfg.aw)
  case grid => exact patternPixel_panelGrid hx hy
  case red => rfl
  case green => rfl
  case blue => rfl
  case white => rfl
  case checkerboard => rfl
  case outline => exact borderOutline_eq u.cfg x y

end Sys2Proof.Machine
end

