-- ==== Sys2Proof/Proofs/ImageCrcIsChecked.lean ====
section
/-! The CRC-32 of an image and the rejection with BAD_CRC (R159): the CRC's fold in the rule's own terms, and the one
way in which the checks of a copy end with BAD_CRC. -/

namespace Sys2Proof.Machine

/-- "Each byte most significant bit first" (R159): bit `k` in the order taken is bit `7 - k` of the byte. -/
theorem byteBits_eq_map_range (b : Byte) : byteBits b = (List.range 8).map (fun k => b.getLsbD (7 - k)) := rfl

/-- The register's step: the polynomial goes in where the register's top bit differs from the bit taken. -/
theorem crc32Bit_eq (c : BitVec 32) (b : Bool) :
    crc32Bit c b = if c.getLsbD 31 != b then (c <<< 1) ^^^ 0x04C11DB7#32 else c <<< 1 := rfl

/-- The checks after the CRC-32 have causes of their own: none of them rejects with BAD_CRC. -/
theorem checkRecords_ne_badCrc (count : Nat) (body : List Byte) :
    checkRecords count body ≠ .rejected .badCrc := by
  unfold checkRecords
  cases walkRecords count body with
  | none => simp
  | some rs => dsimp only; split_ifs <;> simp

/-- BAD_CRC says exactly that the header is good and the trailer is not the CRC-32 of the bytes before it; what those
bytes hold as records plays no part. -/
theorem checkCopy_eq_badCrc_iff (l : List Byte) :
    checkCopy l = .rejected .badCrc ↔ headerGood l = true ∧
      (crc32 (l.take (imageLength l - 4))).toNat ≠ bytesNat ((l.drop (imageLength l - 4)).take 4) := by
  by_cases hheader : headerGood l = true
  case neg => simp [checkCopy, hheader]
  case pos =>
    by_cases htrailer : (crc32 (l.take (imageLength l - 4))).toNat = bytesNat ((l.drop (imageLength l - 4)).take 4)
    case pos => simp [checkCopy, hheader, htrailer, checkRecords_ne_badCrc]
    case neg => simp [checkCopy, hheader, htrailer]

/-- Settles O10: the fold by its two defining lemmas, both directions of the rejection by `checkCopy_eq_badCrc_iff`. -/
theorem imageCrcIsChecked : Obligations.ImageCrcIsChecked := by
  unfold Obligations.ImageCrcIsChecked
  refine ⟨fun l => ?crc, fun l hheader htrailer => ?rejected, fun l hrejected => ?differs⟩
  case crc => simp only [crc32, ← byteBits_eq_map_range, ← crc32Bit_eq]
  case rejected => exact (checkCopy_eq_badCrc_iff l).mpr ⟨hheader, htrailer⟩
  case differs => exact ((checkCopy_eq_badCrc_iff l).mp hrejected).2

end Sys2Proof.Machine
end

