-- ==== Sys2Proof/Proofs/QueueAndMemory.lean ====
section
/-! The queue, the outcomes of a command, the external memory and the hard reset: a step is the command at the front,
no command touches those that wait, and only a transfer's end stores. -/

namespace Sys2Proof.Machine

/-! ## The queue -/

/-- The end of a transfer leaves the commands that wait. -/
theorem State.finishTransfer_pending {s t : State} (h : s.finishTransfer = some t) : t.pending = s.pending := by
  obtain ⟨hpending, -⟩ := State.finishTransfer_frame h
  exact hpending

/-- Settles O1, by the definition of a step. -/
theorem stepRunsFront : Obligations.StepRunsFront := by
  unfold Obligations.StepRunsFront
  intro s c rest hq
  simp only [step, hq]

/-- Settles O2, by the one account of what a command that goes on leaves. -/
theorem queueWaits : Obligations.QueueWaits := by
  unfold Obligations.QueueWaits
  refine ⟨fun c s t h => ?_, fun s => step_nil⟩
  rcases exec_next h with ⟨w, _, rfl⟩ | ⟨w, u, _, hu, rfl⟩ | ⟨_, _, rfl | ⟨_, rfl⟩⟩
  · rfl
  · simp [State.finishTransfer_pending hu]
  · simp
  · simp [effectOf_pending]

/-! ## What stops and what stores -/

/-- A transfer that stays inside its slot ends. -/
theorem State.finishTransfer_isSome_iff (s : State) : s.finishTransfer.isSome = s.transferInside := by
  simp only [State.finishTransfer, State.transferInside]
  split <;> simp_all <;> split <;> simp_all

/-- Settles O3: every command but a transfer's end is an event, which goes on and stores nothing. -/
theorem onlyTransferEndStopsOrStores : Obligations.OnlyTransferEndStopsOrStores := by
  unfold Obligations.OnlyTransferEndStopsOrStores
  intro c s
  constructor
  case left =>
    by_cases hhard : ∃ w, c = .hardReset w
    · obtain ⟨w, rfl⟩ := hhard
      exact .inl ⟨_, rfl⟩
    by_cases htransfer : ∃ w, c = .memoryTransferEnd w
    · obtain ⟨w, rfl⟩ := htransfer
      have hinside := (s.pass w).finishTransfer_isSome_iff
      cases hend : (s.pass w).finishTransfer with
      | some u => exact .inl ⟨_, exec_memoryTransferEnd hend⟩
      | none => exact .inr ⟨w, rfl, by simpa [hend] using hinside.symm, by simp [exec, execMemoryTransferEnd, hend]⟩
    · rw [exec_event c s (fun w e => hhard ⟨w, e⟩) (fun w e => htransfer ⟨w, e⟩)]
      exact .inl ⟨_, rfl⟩
  case right =>
    intro htransfer hhard t h a
    rcases exec_next h with ⟨w, hc, _⟩ | ⟨w, _, hc, _⟩ | ⟨_, _, rfl | ⟨_, rfl⟩⟩
    · exact absurd hc (hhard w)
    · exact absurd hc (htransfer w)
    · simp
    · simp [effectOf_mem]

/-- The end of a transfer keeps the memory's canonical form. -/
theorem State.finishTransfer_memLaw {s t : State} (hs : s.MemLaw) (h : s.finishTransfer = some t) : t.MemLaw := by
  simp only [State.finishTransfer] at h
  repeat' split at h
  case h_3.isTrue => cases h; exact storePixels_wf _ _ _ _ _ hs
  all_goals cases h <;> simpa [State.MemLaw] using hs

/-- Settles O4: only a transfer's end writes, and storing pixels keeps the form. -/
theorem memoryStaysCanonical : Obligations.MemoryStaysCanonical := by
  unfold Obligations.MemoryStaysCanonical
  intro s t hs h
  refine law_of_parts (P := State.MemLaw) ?pass ?settle ?effect ?reset ?transfer ?queue hs h
  case pass => intro w u hu; simpa [State.MemLaw] using hu
  case settle => intro u hu; simpa [State.MemLaw] using hu
  case effect => intro c u hu _; simpa [State.MemLaw, effectOf_mem] using hu
  case reset => intro u _; rfl
  case transfer => exact fun u v => State.finishTransfer_memLaw
  case queue => exact fun u q hu => hu

/-! ## The hard reset -/

/-- Every slot is FREE after a hard reset. -/
theorem reset_slot_free (i : Fin 5) : State.reset.store.slots.get i = .free := by
  fin_cases i <;> rfl

/-- Settles O5, block by block at the hard-reset values. -/
theorem hardResetGivesResetValues : Obligations.HardResetGivesResetValues := by
  unfold Obligations.HardResetGivesResetValues
  have hroster : ∀ k, k < 32 → State.reset.member.roster[k]? = some .absent := fun k hk =>
    List.getElem?_replicate_of_lt hk
  have horder : State.reset.OrderLaw := by
    refine ⟨fun i j _ hi => ?_, fun i j hi => ?_, fun j hj => ?_, fun p hp => ?_⟩
    · simp [reset_slot_free, Slot.ahead, Slot.free] at hi
    · simp [reset_slot_free, Slot.free] at hi
    · simp [reset_slot_free, Slot.free] at hj
    · simp [State.reset, Input.initial] at hp
  have hcounters : ∀ k, State.reset.counters.get k = 0 := fun k => by cases k <;> rfl
  refine ⟨fun w s => rfl, ⟨rfl, ?rest, ?fs, ?member, ?slot, ?size, ?queue, horder, ?picture, ?position, rfl⟩,
    rfl, rfl, rfl, rfl, rfl, rfl, rfl, rfl, rfl, rfl, rfl, rfl, rfl, rfl, rfl, rfl, rfl, rfl, rfl, reset_slot_free, rfl,
    rfl, rfl, rfl, rfl, hroster, rfl, rfl, rfl, rfl, rfl, rfl, rfl, hcounters⟩
  case rest => exact fun _ => ⟨rfl, rfl, rfl, rfl, rfl, .inl rfl, rfl, rfl, rfl⟩
  case fs => exact fun h => absurd h (by decide)
  case member => exact ⟨fun h => absurd h (by decide), fun _ => rfl⟩
  case slot => exact ⟨by decide, by decide, by decide, fun h => absurd h (by decide)⟩
  case size => exact ⟨by decide, by decide⟩
  case queue => exact ⟨by decide, fun _ => rfl, .nil, fun e he => absurd he (by simp [State.reset, Modes.initial]),
    by decide, by decide⟩
  case picture => exact fun h => absurd h (by decide)
  case position => exact ⟨fun h => absurd h (by decide), fun _ => ⟨rfl, rfl, rfl⟩⟩

end Sys2Proof.Machine
end

