-- ==== Sys2Proof/Proofs/LockAndStation.lean ====
section
/-! The timing generator and the station state through the operations of the other blocks; with them the laws of the FS
drive and of membership, as far as lock and silence go. -/

namespace Sys2Proof.Machine

/-! ## The timing generator under the input monitor -/

@[simp] theorem State.endInputLine_timing (s : State) : s.endInputLine.timing = s.timing := by
  simp only [State.endInputLine]
  repeat' split
  all_goals simp

@[simp] theorem State.shortCheck_timing (s : State) : s.shortCheck.timing = s.timing := by
  simp only [State.shortCheck]
  repeat' split
  all_goals simp

@[simp] theorem State.vsInStable_timing (s : State) : s.vsInStable.timing = s.timing := by
  simp only [State.vsInStable]
  repeat' split
  all_goals simp

@[simp] theorem State.inputVs_timing (s : State) : s.inputVs.timing = s.timing := by
  simp only [State.inputVs]
  split <;> simp

@[simp] theorem State.takeHeldVs_timing (s : State) : s.takeHeldVs.timing = s.timing := by
  simp [State.takeHeldVs]

@[simp] theorem State.takeHs_timing (s : State) : s.takeHs.timing = s.timing := by
  simp only [State.takeHs]
  split <;> simp

/-! ## The timing generator at the cut-off -/

/-- The slots' stamps are not the generator's. -/
theorem State.adopt_timing (s : State) (w : Word) :
    (s.adopt w).timing = if s.timing.running = true then { s.timing with wfn := w } else s.timing := by
  simp only [State.adopt]
  split <;> simp

/-- An attempt to align moves the WFN alone of the generator. -/
theorem State.attemptAlign_timing (s : State) (t : Tile) (m : StatusMsg) :
    (s.attemptAlign t m).timing = (s.adopt m.wfn).timing := by
  simp only [State.attemptAlign]
  split
  · next v hv =>
    obtain ⟨a, _, ha⟩ := Option.bind_eq_some_iff.mp hv
    simp [State.align_frame ha]
  · simp

@[simp] theorem State.foundWall_timing (s : State) : s.foundWall.timing = s.timing := by
  simp only [State.foundWall]
  split
  · next v hv => simp [State.foundPicture_frame hv]
  · rfl

/-- What the evaluation after the reference can do: a realign, an alignment, a founding, or nothing (R114 to R117). -/
theorem State.evaluate_keeps {P : State → Prop} {s : State} (hs : P s)
    (hrealign : s.member.station = .member → P s.realign)
    (halign : ∀ u t m, P u → u = s ∨ (s.member.station = .member ∧ u = s.realign) → u.member.station = .joining →
      u.locked = true → u.usable = true → P (u.attemptAlign t m))
    (hfound : s.foundDue = true → P s.foundWall) : P s.evaluate := by
  simp only [State.evaluate]
  split
  · next t m _ _ =>
    by_cases hfails : s.member.station = .member ∧ s.checkFails m = true
    · simp only [if_pos hfails]
      split
      · next h => exact halign _ _ _ (hrealign hfails.1) (.inr ⟨hfails.1, rfl⟩) h.1 h.2.1 h.2.2
      · exact hrealign hfails.1
    · simp only [if_neg hfails]
      split
      · next h => exact halign _ _ _ hs (.inl rfl) h.1 h.2.1 h.2.2
      · exact hs
  · split
    · next h => exact hfound h
    · exact hs
  · exact hs

/-- What the cut-off can do, block by block: the window closes, a SET_MODE meets its deadline, the reference is found
and the evaluation made, a repair is held. -/
theorem State.cutoff_keeps {P : State → Prop} {s : State} (b : Bool) (hs : P s)
    (hclose : ∀ u, P u → P u.closeWindow) (hdeadline : ∀ u, P u → P u.modeDeadline)
    (hreference : ∀ u, P u → P u.takeReference) (hevaluate : ∀ u, P u → P u.evaluate)
    (hrepair : ∀ u, P u → P u.holdRepair) : P (s.cutoff b) := by
  have heval : ∀ u, P u → P u.cutoffEvaluation := fun u hu => hrepair _ (hevaluate _ (hreference _ hu))
  cases b
  · exact hdeadline _ (heval _ (hclose _ hs))
  · exact heval _ (hdeadline _ (hclose _ hs))

/-- The generator as it was but for the WFN, which moves only where it runs. -/
def OnlyWfnMoves (x y : Timing) : Prop := y = x ∨ x.running = true ∧ ∃ w, y = { x with wfn := w }

theorem State.evaluate_timing {x : Timing} {s : State} (hs : OnlyWfnMoves x s.timing) :
    OnlyWfnMoves x s.evaluate.timing := by
  refine State.evaluate_keeps (P := fun u => OnlyWfnMoves x u.timing) hs (fun _ => by simpa using hs) ?_
    (fun _ => by simpa using hs)
  intro u t m hu _ _ _ _
  rw [State.attemptAlign_timing, State.adopt_timing]
  split
  · next hr =>
    rcases hu with hu | ⟨hx, w, hu⟩
    · exact .inr ⟨hu ▸ hr, m.wfn, by rw [hu]⟩
    · exact .inr ⟨hx, m.wfn, by rw [hu]⟩
  · exact hu

/-- The cut-off moves the WFN alone of the generator. -/
theorem State.cutoff_timing (b : Bool) (s : State) : OnlyWfnMoves s.timing (s.cutoff b).timing :=
  State.cutoff_keeps (P := fun u => OnlyWfnMoves s.timing u.timing) b (.inl rfl) (fun u hu => by simpa using hu)
    (fun u hu => by simpa using hu) (fun u hu => by simpa using hu) (fun u hu => State.evaluate_timing hu)
    (fun u hu => by simpa using hu)

/-! ## The timing generator at a frame start -/

theorem State.passPixels_timing (s : State) (d : Nat) :
    (s.passPixels d).timing = { s.timing with keptEdge := (s.passPixels d).timing.keptEdge } := by
  simp only [State.passPixels]
  split <;> simp

theorem State.keepUndriven_timing (s : State) (edge : Bool) :
    (s.keepUndriven edge).timing = { s.timing with keptEdge := (s.keepUndriven edge).timing.keptEdge } := by
  simp only [State.keepUndriven]
  split <;> simp

/-- The next line begins at its first pixel; of the rest of the generator the kept edge alone has moved. -/
theorem State.nextLine_timing (s : State) : s.nextLine.timing =
    { s.timing with pixel := 0, line := s.timing.line + 1, keptEdge := s.nextLine.timing.keptEdge } := by
  have hpass := s.passPixels_timing s.toLineEnd
  simp only [State.nextLine, State.pictureLineEnd_frame, State.setTiming_timing]
  rw [hpass]

/-- The frame's last pixels, and an edge at its start, leave all of the generator but the kept edge. -/
theorem State.endFrame_timing (s : State) (edge : Bool) :
    (s.endFrame edge).timing = { s.timing with keptEdge := (s.endFrame edge).timing.keptEdge } := by
  have hpass := s.passPixels_timing s.toLineEnd
  simp only [State.endFrame, State.edgeAtStart]
  split
  · simp only [State.setTiming_timing]
    rw [hpass]
  · exact hpass

/-- The generator after a frame start: the evaluation's results, but for an edge kept after it. -/
theorem State.frameStarts_timing (s : State) (edge : Bool) (order : List Block) :
    (s.frameStarts edge order).timing =
      { ((s.endFrame edge).applyEvaluation (evaluation s.cfg (s.endFrame edge).timing)).timing with
        keptEdge := (s.frameStarts edge order).timing.keptEdge } := by
  have hkeep := State.keepUndriven_timing ((s.endFrame edge).applyEvaluation (evaluation s.cfg (s.endFrame edge).timing)) edge
  simpa [State.frameStarts, State.generatorFrameStart] using hkeep

/-! ## The law of the FS drive -/

/-- The law reads the drive, the lock state and the latch alone. -/
theorem State.FsLaw.of_eq {s t : State} (hs : s.FsLaw) (hdrive : t.timing.fsDrive = s.timing.fsDrive)
    (hlock : t.timing.lock = s.timing.lock) (hlatch : t.bus.latch = s.bus.latch) : t.FsLaw := by
  simpa only [State.FsLaw, hdrive, hlock, hlatch] using hs

/-- Where FS is released the law holds. -/
theorem State.FsLaw.of_released {s : State} (h : s.timing.fsDrive = false) : s.FsLaw := by simp [State.FsLaw, h]

/-- A frame start begins the drive by the lock state that it finds and the latch (R9). -/
theorem State.frameStarts_fsLaw (s : State) (edge : Bool) (order : List Block) : (s.frameStarts edge order).FsLaw := by
  unfold State.FsLaw
  rw [State.frameStarts_timing, State.frameStarts_latch]
  simp [State.applyEvaluation]

/-- A duplicate tile number releases FS as it sets the latch (R40). -/
theorem State.detectDuplicate_fsLaw {s : State} (t : Tile) (hs : s.FsLaw) : (s.detectDuplicate t).FsLaw := by
  simp only [State.detectDuplicate]
  split
  · split
    · exact hs.of_eq (by simp) (by simp) (by simp)
    · exact .of_released (by simp)
  · exact hs

theorem State.handOver_fsLaw {s : State} (hs : s.FsLaw) : s.handOver.FsLaw := by
  simp only [State.handOver]
  split
  · exact hs
  · apply State.detectDuplicate_fsLaw
    split <;> exact hs.of_eq (by simp) (by simp) (by simp)

theorem State.cutoff_fsLaw {s : State} (b : Bool) (hs : s.FsLaw) : (s.cutoff b).FsLaw := by
  rcases State.cutoff_timing b s with ht | ⟨_, w, ht⟩ <;> exact hs.of_eq (by simp [ht]) (by simp [ht]) (by simp)

theorem fsLaw_portKeeps : PortKeeps State.FsLaw where
  port _ _ hs _ := hs
  hold _ _ hs _ := hs
  release _ hs := hs
  setMode _ _ hs _ := hs.of_eq (by simp) (by simp) (by simp)
  counters _ hs := hs
  restart _ _ := .of_released rfl

/-- A station whose generator has stopped or just started does not drive FS. -/
theorem State.enterFault_fsLaw (s : State) (c : Cause) : (s.enterFault c).FsLaw := .of_released rfl

/-- What the check of a copy can come to: a rejected primary, FAULT, an accepted copy (R157). -/
theorem State.copyChecked_keeps {P : State → Prop} {s : State} (hs : P s)
    (hprimary : ∀ cause, P (s.rejectCopy .primary cause)) (hfault : ∀ cause, P (s.enterFault cause))
    (haccept : ∀ c k, s.loader.reading = some c → checkCopy s.loader.bytes = .accepted k → P (s.acceptCopy c k)) :
    P s.copyChecked := by
  simp only [State.copyChecked]
  split
  · exact hs
  · next c hc =>
    split
    · next cause _ =>
      cases c
      · exact hprimary cause
      · exact hfault cause
    · next k hk => exact haccept c k hc hk

theorem State.copyChecked_fsLaw {s : State} (hs : s.FsLaw) : s.copyChecked.FsLaw :=
  State.copyChecked_keeps hs (fun _ => hs) (fun _ => State.enterFault_fsLaw _ _)
    (fun _ _ _ _ => hs.of_eq (by simp) (by simp) (by simp))

theorem State.pllTimeout_fsLaw {s : State} (hs : s.FsLaw) : s.pllTimeout.FsLaw := by
  simp only [State.pllTimeout]
  split
  · exact hs
  · exact State.enterFault_fsLaw _ _

/-- Every effect keeps the law of the FS drive. -/
theorem effectOf_fsLaw (c : Instr) (s : State) (hs : s.FsLaw) : (effectOf c s).FsLaw := by
  cases c
  case frameStart | loneLock | holdPictureTimerExpiry | rosterLapse => exact State.frameStarts_fsLaw _ _ _
  case statusCutoff | found => exact State.cutoff_fsLaw _ hs
  case statusReceived | modeReceived | leaveReceived => exact State.handOver_fsLaw hs
  case copyReadEnd => exact State.copyChecked_fsLaw hs
  case pllWaitExpiry => exact State.pllTimeout_fsLaw hs
  case pllLock => exact .of_released (by simp [effectOf, State.enterRun, State.startGenerator, Timing.initial])
  case fsPulseEnd => exact .of_released rfl
  case hold | release | setMode | clearEvents | clearCounters | restart | eventsClearWrite | itemSelect =>
    exact fsLaw_portKeeps.transaction _ _ _ _ hs
  case outputLineEnd =>
    exact hs.of_eq (by rw [effectOf, State.nextLine_timing]) (by rw [effectOf, State.nextLine_timing])
      (by simp [effectOf, State.nextLine])
  all_goals exact hs.of_eq (by simp [effectOf, State.keepEdge, State.dropEdge]) (by simp [effectOf, State.keepEdge, State.dropEdge]) (by simp [effectOf])

/-- Settles O15: the drive begins by the law, and what sets the latch or leaves LOCKED ends it. -/
theorem fsDriveIsLawful : Obligations.FsDriveIsLawful := by
  unfold Obligations.FsDriveIsLawful
  intro s t hs h
  refine law_of_parts (P := State.FsLaw) ?pass ?settle (fun c u hu _ => effectOf_fsLaw c u hu) ?reset ?transfer ?queue hs h
  case pass => exact fun w u hu => hu.of_eq (by rw [State.pass_timing]) (by rw [State.pass_timing]) (by simp)
  case settle => exact fun u hu => hu.of_eq (by simp) (by simp) (by simp)
  case reset => exact fun u _ => .of_released rfl
  case transfer =>
    intro u v hu hv
    obtain ⟨-, -, htiming, hbus, -⟩ := State.finishTransfer_frame hv
    exact hu.of_eq (by rw [htiming]) (by rw [htiming]) (by rw [hbus])
  case queue => exact fun u q hu => hu

end Sys2Proof.Machine
end

