-- ==== Sys2Proof/Proofs/StationLaws.lean ====
section
/-! The station state through every operation; with it the law of membership as far as lock and silence go, the reset
values outside RUN, and the position in the frame. -/

namespace Sys2Proof.Machine

/-! ## The station state -/

@[simp] theorem State.setStation_station (s : State) (x : Station) : (s.setStation x).member.station = x := by
  simp [State.setStation]

@[simp] theorem State.setEntry_station (s : State) (t : Tile) (f : Entry → Entry) :
    (s.setEntry t f).member.station = s.member.station := rfl

@[simp] theorem State.sendingEnded_station (s : State) (b : Bool) :
    (s.sendingEnded b).member.station = s.member.station := by
  simp only [State.sendingEnded]
  repeat' split
  all_goals simp

@[simp] theorem State.loseArbitration_station (s : State) : s.loseArbitration.member.station = s.member.station := by
  simp [State.loseArbitration]

@[simp] theorem State.messageWhole_station (s : State) : s.messageWhole.member.station = s.member.station := by
  simp only [State.messageWhole]
  repeat' split
  all_goals simp

@[simp] theorem State.endBitFails_station (s : State) : s.endBitFails.member.station = s.member.station := by
  simp [State.endBitFails]

@[simp] theorem State.enterBallotWindow_station (s : State) :
    s.enterBallotWindow.member.station = s.member.station := by
  simp only [State.enterBallotWindow]
  repeat' split
  all_goals simp

@[simp] theorem State.rosterStatus_station (s : State) (t : Tile) (m : StatusMsg) :
    (s.rosterStatus t m).member.station = s.member.station := by
  simp only [State.rosterStatus]
  repeat' split
  all_goals simp

@[simp] theorem State.rosterLeave_station (s : State) (t : Tile) (r : LeaveReason) :
    (s.rosterLeave t r).member.station = s.member.station := by
  simp only [State.rosterLeave]
  repeat' split
  all_goals simp

@[simp] theorem State.joinFrameSet_station (s : State) (t : Tile) (m : StatusMsg) :
    (s.joinFrameSet t m).member.station = s.member.station := by
  simp only [State.joinFrameSet]
  split <;> simp

@[simp] theorem State.takeReference_station (s : State) : s.takeReference.member.station = s.member.station := by
  simp [State.takeReference]

@[simp] theorem State.openWindow_station (s : State) : s.openWindow.member.station = s.member.station := by
  simp only [State.openWindow]
  split <;> simp

@[simp] theorem State.countLapses_station (s : State) (l : List (Nat × Entry)) :
    (s.countLapses l).member.station = s.member.station := by
  induction l generalizing s with
  | nil => rfl
  | cons e rest ih =>
    simp only [State.countLapses, ih]
    split <;> simp

@[simp] theorem State.ageRoster_station (s : State) : s.ageRoster.member.station = s.member.station := by
  simp [State.ageRoster]

@[simp] theorem State.acceptCopy_station (s : State) (c : Copy) (k : Candidate) :
    (s.acceptCopy c k).member.station = s.member.station := by
  simp [State.acceptCopy]

/-- What entering the wall leaves of the operations before it. -/
@[simp] theorem State.enterMember_station (s : State) (r : ModeRecord) : (s.enterMember r).member.station = .member := by
  simp [State.enterMember]

/-! ## An input VS in STABLE -/

/-- The frame in progress is closed: its record is kept, and the counts begin afresh (R46). -/
def State.closeFrame (s : State) : State := (s.setInput { s.input with record := s.input.close }).openFrame

@[simp] theorem State.closeFrame_frame (s : State) :
    s.closeFrame.timing = s.timing ∧ s.closeFrame.bus = s.bus ∧ s.closeFrame.store = s.store ∧
    s.closeFrame.member = s.member ∧ s.closeFrame.port = s.port ∧ s.closeFrame.modes = s.modes ∧
    s.closeFrame.loader = s.loader := by
  simp [State.closeFrame]

/-- The frame in progress agrees with the stable record (R48). -/
def State.sameFrame (s : State) : Bool :=
  match s.input.stable with
  | some k => recordsAgree s.input.close k
  | none => false

/-- An input VS in STABLE ends the capture, closes the frame, and begins the next one or gives STABLE up (R51, R48). -/
theorem State.vsInStable_eq (s : State) : s.vsInStable =
    if s.shortCheck.sameFrame = true then s.shortCheck.closeFrame.beginFrame
    else ((s.shortCheck.closeFrame.setInput { s.shortCheck.closeFrame.input with
        state := .acquiring, stable := none, candidate := some s.shortCheck.input.close, agreement := 1 }).raise
          .inputChange).reportInput := rfl

/-! ## An input VS in ACQUIRING -/

/-- The input becomes STABLE with a record (R47). -/
def State.becomeStable (s : State) (k : Record) : State :=
  (s.setInput { s.input with state := .stable, stable := some k, candidate := none, agreement := 0 }).raise .inputChange

/-- The third frame in a row that agrees with the candidate makes the input STABLE, and a frame begins (R47). -/
theorem State.vsInAcquiring_third {s : State} {k : Record} (hk : s.input.candidate = some k)
    (hagree : recordsAgree s.input.close k = true) (hthird : 3 ≤ s.input.agreement + 1) :
    s.vsInAcquiring = (s.closeFrame.becomeStable k).beginFrame.reportInput := by
  simp only [State.vsInAcquiring, hk, if_pos hagree, if_pos hthird]
  rfl

/-- A frame that agrees with the candidate before the third is counted (R47). -/
theorem State.vsInAcquiring_agrees {s : State} {k : Record} (hk : s.input.candidate = some k)
    (hagree : recordsAgree s.input.close k = true) (hthird : ¬3 ≤ s.input.agreement + 1) :
    s.vsInAcquiring = s.closeFrame.setInput { s.closeFrame.input with agreement := s.input.agreement + 1 } := by
  simp only [State.vsInAcquiring, hk, if_pos hagree, if_neg hthird, State.closeFrame, State.openFrame,
    State.setInput_input]

/-- A frame that agrees with no candidate becomes the candidate (R47). -/
theorem State.vsInAcquiring_differs {s : State}
    (hdiffers : ∀ k, s.input.candidate = some k → recordsAgree s.input.close k = false) :
    s.vsInAcquiring = s.closeFrame.setInput
      { s.closeFrame.input with candidate := some s.input.close, agreement := 1 } := by
  cases hk : s.input.candidate with
  | none =>
    simp only [State.vsInAcquiring, hk]
    rfl
  | some k =>
    simp only [State.vsInAcquiring, hk, hdiffers k hk]
    rfl

/-- What an input VS in ACQUIRING can do: make the input STABLE and begin a frame, or count the frame closed. -/
theorem State.vsInAcquiring_cases (s : State) :
    (∃ k, s.vsInAcquiring = (s.closeFrame.becomeStable k).beginFrame.reportInput) ∨
      ∃ c n, s.vsInAcquiring = s.closeFrame.setInput { s.closeFrame.input with candidate := c, agreement := n } := by
  by_cases hdiffers : ∀ k, s.input.candidate = some k → recordsAgree s.input.close k = false
  · exact .inr ⟨_, _, State.vsInAcquiring_differs hdiffers⟩
  · push Not at hdiffers
    obtain ⟨k, hk, hagree⟩ := hdiffers
    rw [Bool.ne_false_iff] at hagree
    by_cases hthird : 3 ≤ s.input.agreement + 1
    · exact .inl ⟨k, State.vsInAcquiring_third hk hagree hthird⟩
    · exact .inr ⟨_, _, State.vsInAcquiring_agrees hk hagree hthird⟩

/-! ## Stations that go down -/

/-- Nothing of lock and latch has changed, and the station has not risen: it is a MEMBER only where it was one, and
JOINING only where it was JOINING or a MEMBER. -/
structure NotRaised (s t : State) : Prop where
  lock : t.timing.lock = s.timing.lock
  latch : t.bus.latch = s.bus.latch
  member : t.member.station = .member → s.member.station = .member
  joining : t.member.station = .joining → s.member.station = .joining ∨ s.member.station = .member

/-- A station that holds what it held is not raised. -/
theorem NotRaised.of_eq {s t : State} (hlock : t.timing.lock = s.timing.lock) (hlatch : t.bus.latch = s.bus.latch)
    (hstation : t.member.station = s.member.station) : NotRaised s t :=
  ⟨hlock, hlatch, fun h => hstation ▸ h, fun h => .inl (hstation ▸ h)⟩

/-- The law of membership is kept where the station is not raised. -/
theorem NotRaised.memberLaw {s t : State} (h : NotRaised s t) (hs : s.MemberLaw) : t.MemberLaw := by
  obtain ⟨hmember, hsilent⟩ := hs
  refine ⟨fun hm => h.lock ▸ hmember (h.member hm), fun hj => h.latch ▸ hsilent ?_⟩
  rcases hj with hj | hm
  · exact h.joining hj
  · exact .inr (h.member hm)

theorem NotRaised.trans {s t u : State} (h : NotRaised s t) (k : NotRaised t u) : NotRaised s u where
  lock := k.lock.trans h.lock
  latch := k.latch.trans h.latch
  member hm := h.member (k.member hm)
  joining hj := (k.joining hj).elim h.joining (fun hm => .inr (h.member hm))

theorem NotRaised.inputLost {s u : State} (h : NotRaised s u) : NotRaised s u.inputLost := by
  obtain ⟨hj, hm⟩ := u.inputLost_station
  exact h.trans ⟨by simp, by simp, fun e => absurd e hm, fun e => absurd e hj⟩

theorem NotRaised.reportInput {s u : State} (h : NotRaised s u) : NotRaised s u.reportInput := by
  simp only [State.reportInput]
  split
  · exact h
  · exact h.inputLost

theorem NotRaised.realign {s u : State} (h : NotRaised s u) : NotRaised s u.realign := by
  have hstation := u.realign_station
  refine h.trans ⟨by simp, by simp, ?_, ?_⟩ <;> rw [hstation] <;> split <;> simp_all

/-- A ballot ended in trouble realigns a MEMBER. -/
theorem NotRaised.ballotTrouble {s u : State} (c : Counter) (h : NotRaised s u) : NotRaised s (u.ballotTrouble c) := by
  simp only [State.ballotTrouble]
  exact .realign (h.trans (.of_eq (by simp) (by simp) (by simp)))

theorem NotRaised.ballotLineEvent {s u : State} (td : Level) (h : NotRaised s u) :
    NotRaised s (u.ballotLineEvent td) := by
  simp only [State.ballotLineEvent]
  split
  · split
    · exact .ballotTrouble _ (h.trans (.of_eq rfl rfl rfl))
    · exact .ballotTrouble _ (h.trans (.of_eq rfl rfl rfl))
    · exact h.trans (.of_eq (by simp) (by simp) (by simp))
  · exact h.trans (.of_eq rfl rfl rfl)

theorem NotRaised.endBallot {s u : State} (h : NotRaised s u) : NotRaised s u.endBallot := by
  simp only [State.endBallot]
  split
  · exact .ballotTrouble _ h
  · exact h.trans (.of_eq (by simp) (by simp) (by simp))

/-- An input VS reports the input or begins a frame, whatever it counts. -/
theorem NotRaised.inputVs {s u : State} (h : NotRaised s u) : NotRaised s u.inputVs := by
  simp only [State.inputVs]
  split
  · simp only [State.vsInNoSignal]
    split
    · exact .reportInput (h.trans (.of_eq (by simp) (by simp) (by simp)))
    · exact h.trans (.of_eq rfl rfl rfl)
  · simp only [State.vsInAcquiring]
    split
    · split
      · split
        · exact .reportInput (h.trans (.of_eq (by simp) (by simp) (by simp)))
        · exact h.trans (.of_eq (by simp) (by simp) (by simp))
      · exact h.trans (.of_eq (by simp) (by simp) (by simp))
    · exact h.trans (.of_eq (by simp) (by simp) (by simp))
  · rw [State.vsInStable_eq]
    split
    · exact h.trans (.of_eq (by simp) (by simp) (by simp))
    · exact .reportInput (h.trans (.of_eq (by simp) (by simp) (by simp)))

theorem NotRaised.takeHeldVs {s u : State} (h : NotRaised s u) : NotRaised s u.takeHeldVs :=
  .inputVs (h.trans (.of_eq rfl rfl rfl))

theorem NotRaised.takeHs {s u : State} (h : NotRaised s u) : NotRaised s u.takeHs := by
  simp only [State.takeHs]
  split
  · exact .takeHeldVs (h.trans (.of_eq (by simp) (by simp) (by simp)))
  · exact h.trans (.of_eq (by simp) (by simp) (by simp))

theorem NotRaised.loseSignal {s u : State} (h : NotRaised s u) : NotRaised s u.loseSignal := by
  simp only [State.loseSignal]
  split <;> exact .reportInput (h.trans (.of_eq (by simp) (by simp) (by simp)))

/-! ## The blocks of a frame start -/

/-- The blocks keep what each of them keeps. -/
theorem State.blocksFrameStart_keeps {P : State → Prop} (hblock : ∀ b u, P u → P (u.blockFrameStart b)) {s : State}
    (order : List Block) (hs : P s) : P (s.blocksFrameStart order) := by
  simp only [State.blocksFrameStart]
  induction fullOrder order generalizing s with
  | nil => exact hs
  | cons b rest ih => exact ih (hblock b s hs)

/-- What one block makes true, given what all of them keep, is true when all have had their turns. -/
theorem State.blocksFrameStart_makes {P Q : State → Prop} (k : Block) (hkeep : ∀ b u, P u → P (u.blockFrameStart b))
    (hmake : ∀ u, P u → Q (u.blockFrameStart k)) (hstay : ∀ b u, P u → Q u → Q (u.blockFrameStart b)) {s : State}
    (order : List Block) (hs : P s) : Q (s.blocksFrameStart order) := by
  have hall : ∀ (l : List Block) (u : State), P u → Q u → Q (l.foldl State.blockFrameStart u) := by
    intro l
    induction l with
    | nil => exact fun u hp hq => hq
    | cons b rest ih => exact fun u hp hq => ih _ (hkeep b u hp) (hstay b u hp hq)
  have hsome : ∀ (l : List Block) (u : State), k ∈ l → P u → Q (l.foldl State.blockFrameStart u) := by
    intro l
    induction l with
    | nil => exact fun u hk => absurd hk List.not_mem_nil
    | cons b rest ih =>
      intro u hk hp
      rcases List.mem_cons.mp hk with rfl | hrest
      · exact hall rest _ (hkeep _ u hp) (hmake u hp)
      · exact ih _ hrest (hkeep b u hp)
  exact hsome _ s (mem_fullOrder k order) hs

/-- The HOLD in flight is taken at a frame start (R100). -/
def State.heldFrameStart (s : State) : State := if s.port.inFlight = some .hold then s.takeHold else s

/-- Membership's work at a frame start: a HOLD in flight, the loss of the lock, the join test, the hold-picture timer,
the ageing of the roster (R103). -/
theorem State.memberFrameStart_eq (s : State) : s.memberFrameStart =
    if s.heldFrameStart.member.station = .member ∧ s.heldFrameStart.locked = false
    then s.heldFrameStart.realign.joinTest.ageRoster else s.heldFrameStart.joinTest.countHoldTimer.ageRoster := by
  change (State.ageRoster _) = _
  by_cases h : s.heldFrameStart.member.station = .member ∧ s.heldFrameStart.locked = false
  · rw [if_pos h]
    simp only [State.heldFrameStart] at h ⊢
    simp only [if_pos h]
  · rw [if_neg h]
    simp only [State.heldFrameStart] at h ⊢
    simp only [if_neg h]

/-- What each step of membership's work keeps, the work keeps. -/
theorem State.memberFrameStart_keeps {P : State → Prop} {s : State} (hs : P s)
    (hhold : P s → P s.takeHold) (hrealign : ∀ u, P u → P u.realign) (hjoin : ∀ u, P u → P u.joinTest)
    (htimer : ∀ u, P u → P u.countHoldTimer) (hage : ∀ u, P u → P u.ageRoster) : P s.memberFrameStart := by
  have hheld : P s.heldFrameStart := by
    unfold State.heldFrameStart
    split
    · exact hhold hs
    · exact hs
  rw [State.memberFrameStart_eq]
  split
  · exact hage _ (hjoin _ (hrealign _ hheld))
  · exact hage _ (htimer _ (hjoin _ hheld))

/-- The join test makes no MEMBER. -/
theorem State.joinTest_station (s : State) :
    s.joinTest.member.station = s.member.station ∨
      s.joinTest.member.station = .joining ∧ s.member.station = .detached ∧ s.bus.latch = false := by
  unfold State.joinTest
  split
  · next h => exact .inr ⟨by simp, h.1, h.2.2.2⟩
  · exact .inl rfl

/-- After its frame-start work a MEMBER was one before it, in LOCKED. -/
theorem State.memberFrameStart_member {s : State} (h : s.memberFrameStart.member.station = .member) :
    s.member.station = .member ∧ s.locked = true ∧ s.heldFrameStart = s := by
  have hheld : s.heldFrameStart.member.station = .member ∧ s.heldFrameStart.locked = true := by
    rw [State.memberFrameStart_eq] at h
    split at h
    · next hlost =>
      have hjoin := s.heldFrameStart.realign.joinTest_station
      simp [State.realign_station, hlost.1] at h hjoin
      simp [hjoin] at h
    · next hkept =>
      have hjoin := s.heldFrameStart.joinTest_station
      simp at h
      rcases hjoin with hjoin | ⟨hjoin, -⟩
      · simpa [← hjoin, h] using hkept
      · simp [hjoin] at h
  by_cases hhold : s.port.inFlight = some .hold
  · rw [State.heldFrameStart, if_pos hhold] at hheld
    exact absurd hheld.1 s.takeHold_station.2
  · have hsame : s.heldFrameStart = s := if_neg hhold
    rw [hsame] at hheld
    exact ⟨hheld.1, hheld.2, hsame⟩

/-! ## The law of membership -/

/-- No JOINING or MEMBER station is silenced: the law's half that holds between the blocks of a frame start. -/
def State.SilentLaw (s : State) : Prop :=
  s.member.station = .joining ∨ s.member.station = .member → s.bus.latch = false

/-- Where no station is raised the half is kept. -/
theorem NotRaised.silentLaw {s t : State} (h : NotRaised s t) (hs : s.SilentLaw) : t.SilentLaw := by
  intro ht
  rw [h.latch]
  rcases ht with hj | hm
  · exact hs (h.joining hj)
  · exact hs (.inr (h.member hm))

theorem State.memberFrameStart_silentLaw {s : State} (hs : s.SilentLaw) : s.memberFrameStart.SilentLaw := by
  refine State.memberFrameStart_keeps hs ?_ ?_ ?_ ?_ ?_
  · exact fun _ h => absurd h (not_or.mpr s.takeHold_station)
  · exact fun u hu => (NotRaised.realign (.of_eq rfl rfl rfl)).silentLaw hu
  · intro u hu h
    rcases u.joinTest_station with hstation | ⟨_, _, hfree⟩
    · rw [hstation] at h
      simpa using hu h
    · simpa using hfree
  · exact fun u hu => by simpa [State.SilentLaw] using hu
  · exact fun u hu => by simpa [State.SilentLaw] using hu

theorem State.blockFrameStart_silentLaw (b : Block) {s : State} (hs : s.SilentLaw) :
    (s.blockFrameStart b).SilentLaw := by
  cases b
  case membership => exact State.memberFrameStart_silentLaw hs
  case store | mode | picture => simpa [State.blockFrameStart, State.SilentLaw] using hs

/-- No MEMBER arises at a frame start. -/
theorem State.blockFrameStart_member (b : Block) {s : State} (h : (s.blockFrameStart b).member.station = .member) :
    s.member.station = .member := by
  cases b
  case membership => exact (State.memberFrameStart_member h).1
  case store | mode | picture => simpa [State.blockFrameStart] using h

/-- When the blocks have had their turns, a MEMBER is LOCKED: membership realigns one that is not (R103). -/
theorem State.blocksFrameStart_memberLaw {s : State} (order : List Block) (hs : s.SilentLaw) :
    (s.blocksFrameStart order).MemberLaw := by
  refine ⟨?_, State.blocksFrameStart_keeps (P := State.SilentLaw) (fun b u => u.blockFrameStart_silentLaw b) order hs⟩
  refine State.blocksFrameStart_makes (P := State.SilentLaw)
    (Q := fun u => u.member.station = .member → u.timing.lock = .locked)
    .membership (fun b u => u.blockFrameStart_silentLaw b) ?_ ?_ order hs
  · intro u _ h
    simpa [State.blockFrameStart, State.locked] using (State.memberFrameStart_member h).2.1
  · intro b u _ hlocked h
    simpa using hlocked (u.blockFrameStart_member b h)

theorem State.frameStarts_memberLaw {s : State} (edge : Bool) (order : List Block) (hs : s.MemberLaw) :
    (s.frameStarts edge order).MemberLaw :=
  State.blocksFrameStart_memberLaw order (by simpa [State.SilentLaw] using hs.2)

theorem State.startGenerator_memberLaw (s : State) : s.startGenerator.MemberLaw :=
  State.blocksFrameStart_memberLaw [] (by simp [State.SilentLaw])

/-- A station that was JOINING in LOCKED may become a MEMBER. -/
theorem State.attemptAlign_memberLaw {s : State} (t : Tile) (m : StatusMsg) (hs : s.MemberLaw)
    (hj : s.member.station = .joining) (hlocked : s.locked = true) : (s.attemptAlign t m).MemberLaw := by
  have hlock : (s.attemptAlign t m).timing.lock = .locked := by
    rw [State.attemptAlign_timing, State.adopt_timing]
    have := by simpa [State.locked] using hlocked
    split <;> exact this
  have hlatch : (s.attemptAlign t m).bus.latch = false := by simpa using hs.2 (.inl hj)
  exact ⟨fun _ => hlock, fun _ => hlatch⟩

theorem State.foundWall_memberLaw {s : State} (hs : s.MemberLaw) (hfound : s.foundDue = true) :
    s.foundWall.MemberLaw := by
  simp only [State.foundDue, Bool.and_eq_true, beq_iff_eq, State.locked] at hfound
  obtain ⟨⟨⟨hj, hlocked⟩, -⟩, -⟩ := hfound
  exact ⟨fun _ => by simpa using hlocked, fun _ => by simpa using hs.2 (.inl hj)⟩

theorem State.cutoff_memberLaw {s : State} (b : Bool) (hs : s.MemberLaw) : (s.cutoff b).MemberLaw := by
  refine State.cutoff_keeps b hs ?_ ?_ ?_ ?_ ?_
  case refine_4 =>
    exact fun u hu => State.evaluate_keeps hu (fun _ => (NotRaised.realign (.of_eq rfl rfl rfl)).memberLaw hu)
      (fun v t m hv _ hj hl _ => State.attemptAlign_memberLaw t m hv hj hl) (State.foundWall_memberLaw hu)
  all_goals exact fun u hu => (NotRaised.of_eq (by simp) (by simp) (by simp)).memberLaw hu

/-- A station silenced by a duplicate is neither JOINING nor a MEMBER. -/
theorem State.detectDuplicate_memberLaw {s : State} (t : Tile) (hs : s.MemberLaw) :
    (s.detectDuplicate t).MemberLaw := by
  simp only [State.detectDuplicate]
  split
  · split
    · exact (NotRaised.of_eq (by simp) (by simp) (by simp)).memberLaw hs
    · exact ⟨fun h => absurd h (State.silenceStation_station _).2,
        fun h => absurd h (not_or.mpr (State.silenceStation_station _))⟩
  · exact hs

theorem State.handOver_memberLaw {s : State} (hs : s.MemberLaw) : s.handOver.MemberLaw := by
  simp only [State.handOver]
  split
  · exact hs
  · apply State.detectDuplicate_memberLaw
    split <;> exact (NotRaised.of_eq (by simp) (by simp) (by simp)).memberLaw hs

/-- Off the wall the law of membership asks nothing. -/
theorem State.MemberLaw.of_off {s : State} (h : s.member.station = .starting ∨ s.member.station = .fault) :
    s.MemberLaw := by
  rcases h with h | h <;> simp [State.MemberLaw, h]

theorem memberLaw_portKeeps : PortKeeps State.MemberLaw where
  port _ _ hs _ := hs
  hold _ _ hs _ := hs
  release _ hs := hs
  setMode _ _ hs _ := (NotRaised.of_eq (by simp) (by simp) (by simp)).memberLaw hs
  counters _ hs := hs
  restart _ _ := .of_off (.inl rfl)

/-- Every effect keeps the law of membership. -/
theorem effectOf_memberLaw (c : Instr) (s : State) (hs : s.MemberLaw) : (effectOf c s).MemberLaw := by
  have hrefl : NotRaised s s := .of_eq rfl rfl rfl
  cases c
  case frameStart | loneLock | holdPictureTimerExpiry | rosterLapse => exact State.frameStarts_memberLaw _ _ hs
  case statusCutoff | found => exact State.cutoff_memberLaw _ hs
  case statusReceived | modeReceived | leaveReceived => exact State.handOver_memberLaw hs
  case copyReadEnd =>
    exact State.copyChecked_keeps hs (fun _ => hs) (fun _ => .of_off (.inr rfl))
      (fun _ _ _ _ => (NotRaised.of_eq (by simp) (by simp) (by simp)).memberLaw hs)
  case pllWaitExpiry =>
    simp only [effectOf, State.pllTimeout]
    split
    · exact hs
    · exact .of_off (.inr rfl)
  case pllLock => exact State.startGenerator_memberLaw _
  case hold | release | setMode | clearEvents | clearCounters | restart | eventsClearWrite | itemSelect =>
    exact memberLaw_portKeeps.transaction _ _ _ _ hs
  case outputLineEnd =>
    exact (NotRaised.of_eq (by rw [effectOf, State.nextLine_timing]) (by simp [effectOf, State.nextLine])
      (by simp [effectOf, State.nextLine])).memberLaw hs
  case ballotLine td => exact (hrefl.ballotLineEvent td).memberLaw hs
  case ballotEnd => exact hrefl.endBallot.memberLaw hs
  case hsEdge => exact hrefl.takeHs.memberLaw hs
  case vsHoldExpiry => exact hrefl.takeHeldVs.memberLaw hs
  case inputTimerExpiry => exact hrefl.loseSignal.memberLaw hs
  all_goals exact (NotRaised.of_eq (by simp [effectOf, State.keepEdge, State.dropEdge, State.releaseFs])
    (by simp [effectOf]) (by simp [effectOf])).memberLaw hs

/-- Settles O16: no operation but an alignment and a founding raises a station, both in LOCKED, and the join test asks
for a clear latch. -/
theorem memberIsLocked : Obligations.MemberIsLocked := by
  unfold Obligations.MemberIsLocked
  intro s t hs h
  refine law_of_parts (P := State.MemberLaw) ?pass ?settle (fun c u hu _ => effectOf_memberLaw c u hu) ?reset ?transfer
    ?queue hs h
  case pass => exact fun w u hu => (NotRaised.of_eq (by rw [State.pass_timing]) (by simp) (by simp)).memberLaw hu
  case settle => exact fun u hu => (NotRaised.of_eq (by simp) (by simp) (by simp)).memberLaw hu
  case reset => exact fun u _ => .of_off (.inl rfl)
  case transfer =>
    intro u v hu hv
    obtain ⟨-, -, htiming, hbus, -, -, hmember, -⟩ := State.finishTransfer_frame hv
    exact (NotRaised.of_eq (by rw [htiming]) (by rw [hbus]) (by rw [hmember])).memberLaw hu
  case queue => exact fun u q hu => hu

end Sys2Proof.Machine
end

