-- ==== Sys2Proof/Proofs/RestAndPosition.lean ====
section
/-! Outside RUN the blocks hold their reset values, because no event of theirs is due there; and the position in the
frame. -/

namespace Sys2Proof.Machine

/-! ## At rest -/

/-- The blocks that the generator drives hold their reset values. -/
structure State.AtRest (s : State) : Prop where
  timing : s.timing = .initial
  bus : s.bus = .initial
  input : s.input = .initial
  store : s.store = .initial
  ballot : s.ballot = .initial
  station : s.member.station = .starting ∨ s.member.station = .fault
  queue : s.modes.queue = []
  outstanding : s.modes.outstanding = none
  inFlight : s.port.inFlight = none

/-- The law says that a station outside RUN is at rest. -/
theorem State.restLaw_iff (s : State) : s.RestLaw ↔ (s.loader.phase ≠ .run → s.AtRest) := by
  refine ⟨fun h hp => ?_, fun h hp => ?_⟩
  · obtain ⟨h1, h2, h3, h4, h5, h6, h7, h8, h9⟩ := h hp
    exact ⟨h1, h2, h3, h4, h5, h6, h7, h8, h9⟩
  · obtain ⟨h1, h2, h3, h4, h5, h6, h7, h8, h9⟩ := h hp
    exact ⟨h1, h2, h3, h4, h5, h6, h7, h8, h9⟩

/-- At rest a Span passes at the loader alone. -/
theorem State.AtRest.pass {s : State} (h : s.AtRest) (w : Span) : s.pass w = s.setLoader (s.loader.pass w) := by
  have hpanel : s.passPanel w = s := by simp [State.passPanel, h.timing, Timing.initial]
  have hinput : s.input.pass w = s.input := by simp [Input.pass, h.input, Input.initial]
  have hbus : ∀ l t b, s.bus.pass l t b w = s.bus := fun l t b => by simp [Bus.pass, h.bus, Bus.initial]
  have hballot : ∀ n, s.ballot.pass n w = s.ballot := fun n => by simp [Ballot.pass, h.ballot, Ballot.initial]
  simp only [State.pass, hpanel, hinput, State.setInput_bus, State.setLoader_bus, hbus,
    State.setInput_ballot, State.setLoader_ballot, hballot]
  rfl

/-- At rest the end of a command finds the selection for the following lines again, and nothing else. -/
theorem State.AtRest.settle {s : State} (h : s.AtRest) :
    s.settle = s.setPicture { s.picture with nextSelection := s.findSelection } := by
  have hwatch : s.bus.stuckWatch s.locked = false := by simp [Bus.stuckWatch, h.bus, Bus.initial]
  have hbus : s.setBus { s.bus with stuckCount := 0 } = s := by
    have : { s.bus with stuckCount := 0 } = s.bus := by rw [h.bus]; rfl
    rw [this]
    rfl
  have hrunning : s.timing.running = false := by rw [h.timing]; rfl
  simp [State.settle, hwatch, hbus, State.arbitrate, hrunning]

/-- A state whose driven blocks are the same is at rest too. -/
theorem State.AtRest.of_eq {s t : State} (h : s.AtRest) (htiming : t.timing = s.timing) (hbus : t.bus = s.bus)
    (hinput : t.input = s.input) (hstore : t.store = s.store) (hballot : t.ballot = s.ballot)
    (hstation : t.member.station = s.member.station) (hqueue : t.modes.queue = s.modes.queue)
    (hout : t.modes.outstanding = s.modes.outstanding) (hflight : t.port.inFlight = s.port.inFlight) : t.AtRest :=
  ⟨htiming ▸ h.timing, hbus ▸ h.bus, hinput ▸ h.input, hstore ▸ h.store, hballot ▸ h.ballot, hstation ▸ h.station,
    hqueue ▸ h.queue, hout ▸ h.outstanding, hflight ▸ h.inFlight⟩

/-- The commands whose events belong to start-up or to the observation port. -/
def actsAtRest : Instr → Bool
  | .resetnRise .. | .startDelayExpiry _ | .copyReadEnd _ | .pllLock _ | .pllWaitExpiry _ | .hold _ | .release _
  | .setMode .. | .clearEvents .. | .clearCounters _ | .restart _ | .eventsClearWrite .. | .itemSelect ..
  | .hardReset _ | .memoryTransferEnd _ => true
  | _ => false

/-- No event of the blocks that the generator drives is due at rest. -/
theorem State.AtRest.not_due {s : State} (h : s.AtRest) (c : Instr) (hc : actsAtRest c = false) : dueOf c s = false := by
  have htiming := h.timing
  have hbus := h.bus
  have hinput := h.input
  have hballot := h.ballot
  cases c
  case resetnRise | startDelayExpiry | copyReadEnd | pllLock | pllWaitExpiry | hold | release | setMode | clearEvents
      | clearCounters | restart | eventsClearWrite | itemSelect | hardReset | memoryTransferEnd => cases hc
  all_goals simp [dueOf, State.frameEnds, State.loneLockDue, State.holdTimerDue, State.lapseDue, State.fsPulseOver,
    State.seesForeign, State.edgeTooOld, State.lineFollows, State.openDue, State.atLine, State.cutoffDue,
    State.foundingDue, State.windowDue, State.ballotLineDue, State.watching, State.ballotEnds, State.windowEndDue,
    State.idleDue, State.edgeDue, State.startDue, State.maySend, State.lossDue, State.sentDue, State.endBitDue,
    State.sendingLevels, Bus.sendingLevels, State.receiveFailed, State.receivedKind, State.receivedGood, State.stuckDue,
    Bus.stuckWatch, State.unstuckDue, State.hsDue, State.vsDue, State.vsHoldOver, State.inputTimerDue, State.captureFull,
    State.overflowDue, State.pixelMissing, htiming, hbus, hinput, hballot, Timing.initial, Bus.initial, Input.initial,
    Ballot.initial]

/-! ## The law of rest -/

/-- In RUN the law asks nothing. -/
theorem State.RestLaw.of_run {s : State} (h : s.loader.phase = .run) : s.RestLaw := fun hp => absurd h hp

/-- Where the driven blocks are as before, and the phase RUN is not left, the law is kept. -/
theorem State.RestLaw.of_eq {s t : State} (hs : s.RestLaw) (hphase : s.loader.phase = .run → t.loader.phase = .run)
    (htiming : t.timing = s.timing) (hbus : t.bus = s.bus) (hinput : t.input = s.input) (hstore : t.store = s.store)
    (hballot : t.ballot = s.ballot) (hstation : t.member.station = s.member.station)
    (hqueue : t.modes.queue = s.modes.queue) (hout : t.modes.outstanding = s.modes.outstanding)
    (hflight : t.port.inFlight = s.port.inFlight) : t.RestLaw := by
  rw [State.restLaw_iff] at hs ⊢
  exact fun hp => (hs (fun h => hp (hphase h))).of_eq htiming hbus hinput hstore hballot hstation hqueue hout hflight

theorem State.pass_restLaw (w : Span) {s : State} (hs : s.RestLaw) : (s.pass w).RestLaw := by
  by_cases hrun : s.loader.phase = .run
  · exact .of_run (by simpa using hrun)
  · have hrest := (State.restLaw_iff s).mp hs hrun
    rw [hrest.pass w]
    exact hs.of_eq (by simp) rfl rfl rfl rfl rfl rfl rfl rfl rfl

theorem State.settle_restLaw {s : State} (hs : s.RestLaw) : s.settle.RestLaw := by
  by_cases hrun : s.loader.phase = .run
  · exact .of_run (by simpa using hrun)
  · have hrest := (State.restLaw_iff s).mp hs hrun
    rw [hrest.settle]
    exact hs

theorem State.takeRestart_atRest (s : State) : s.takeRestart.AtRest :=
  ⟨rfl, rfl, rfl, rfl, rfl, .inl rfl, rfl, rfl, rfl⟩

theorem State.enterFault_atRest (s : State) (c : Cause) : (s.enterFault c).AtRest :=
  ⟨rfl, rfl, rfl, rfl, rfl, .inr rfl, rfl, rfl, rfl⟩

theorem State.AtRest.restLaw {s : State} (h : s.AtRest) : s.RestLaw := (State.restLaw_iff s).mpr (fun _ => h)

/-- A station that is not in STARTING or FAULT is in RUN. -/
theorem State.RestLaw.run {s : State} (hs : s.RestLaw) (h : s.notRunning = false) : s.loader.phase = .run := by
  by_contra hp
  have hrest := (State.restLaw_iff s).mp hs hp
  rcases hrest.station with hstation | hstation <;> simp [State.notRunning, hstation] at h

theorem restLaw_portKeeps : PortKeeps State.RestLaw where
  port _ _ hs hx := hs.of_eq id rfl rfl rfl rfl rfl rfl rfl rfl hx
  hold _ _ hs hn := .of_run (hs.run hn)
  release _ hs := hs
  setMode s b hs hn := .of_run (by simpa using hs.run hn)
  counters _ hs := hs
  restart s _ := s.takeRestart_atRest.restLaw

/-- The start-up's own effects keep the law: they leave the driven blocks, put them to rest, or enter RUN. -/
theorem State.copyChecked_restLaw {s : State} (hs : s.RestLaw) (hdue : s.copyReadEnded = true) :
    s.copyChecked.RestLaw := by
  have hrun : s.loader.phase ≠ .run := by
    intro h
    simp [State.copyReadEnded, h] at hdue
  refine State.copyChecked_keeps hs (fun cause => ?_) (fun cause => (s.enterFault_atRest cause).restLaw) (fun c k _ _ => ?_)
  · exact hs.of_eq (fun h => absurd h hrun) rfl rfl rfl rfl rfl rfl rfl rfl rfl
  · exact hs.of_eq (fun h => absurd h hrun) rfl rfl rfl rfl rfl rfl rfl rfl rfl

/-- No effect but those of start-up and a RESTART changes the phase. -/
theorem effectOf_phase (c : Instr) (s : State) (hc : actsAtRest c = false) :
    (effectOf c s).loader.phase = s.loader.phase := by
  cases c
  case resetnRise | startDelayExpiry | copyReadEnd | pllLock | pllWaitExpiry | hold | release | setMode | clearEvents
      | clearCounters | restart | eventsClearWrite | itemSelect | hardReset | memoryTransferEnd => cases hc
  all_goals simp [effectOf]

/-- Every due effect keeps the law of rest. -/
theorem effectOf_restLaw (c : Instr) (s : State) (hs : s.RestLaw) (hdue : dueOf c s = true) :
    (effectOf c s).RestLaw := by
  by_cases hc : actsAtRest c = false
  case pos =>
    refine .of_run ?_
    rw [effectOf_phase c s hc]
    by_contra hp
    simp [((State.restLaw_iff s).mp hs hp).not_due c hc] at hdue
  case neg =>
    cases c
    case resetnRise w a =>
      have hheld : s.loader.phase = .held := by simpa [dueOf] using hdue
      exact hs.of_eq (fun h => by simp [hheld] at h) rfl rfl rfl rfl rfl rfl rfl rfl rfl
    case startDelayExpiry w =>
      have hwait : s.loader.phase = .wait := by simp [dueOf, State.startDelayOver] at hdue; exact hdue.1
      exact hs.of_eq (fun h => by simp [hwait] at h) rfl rfl rfl rfl rfl rfl rfl rfl rfl
    case copyReadEnd w => exact State.copyChecked_restLaw hs hdue
    case pllLock w => exact .of_run (by simp [effectOf, State.enterRun])
    case pllWaitExpiry w =>
      have hpll : s.loader.phase = .pll := by simp [dueOf, State.pllWaitOver] at hdue; exact hdue.1
      simp only [effectOf, State.pllTimeout]
      split
      · exact hs.of_eq (fun h => by simp [hpll] at h) rfl rfl rfl rfl rfl rfl rfl rfl rfl
      · exact (s.enterFault_atRest _).restLaw
    case hold | release | setMode | clearEvents | clearCounters | restart | eventsClearWrite | itemSelect =>
      exact restLaw_portKeeps.transaction _ _ _ _ hs
    case hardReset | memoryTransferEnd => exact hs
    all_goals exact absurd rfl hc

/-- At rest no transfer is in progress. -/
theorem State.finishTransfer_restLaw {s t : State} (hs : s.RestLaw) (h : s.finishTransfer = some t) : t.RestLaw := by
  by_cases hrun : s.loader.phase = .run
  · obtain ⟨-, hloader, -⟩ := State.finishTransfer_frame h
    exact .of_run (by rw [hloader]; exact hrun)
  · have hnone : s.store.transfer = none := by rw [((State.restLaw_iff s).mp hs hrun).store]; rfl
    simp only [State.finishTransfer, hnone, Option.some.injEq] at h
    exact h ▸ hs

/-- The law of rest is kept by every step. -/
theorem step_restLaw {s t : State} (hs : s.RestLaw) (h : step s = .next t) : t.RestLaw :=
  law_of_parts (P := State.RestLaw) (fun w _ => State.pass_restLaw w) (fun _ => State.settle_restLaw) effectOf_restLaw
    (fun _ _ => State.AtRest.restLaw ⟨rfl, rfl, rfl, rfl, rfl, .inl rfl, rfl, rfl, rfl⟩)
    (fun _ _ => State.finishTransfer_restLaw) (fun _ _ hu => hu) hs h

/-- Settles O14: at rest no event of the driven blocks is due, and start-up moves the loader. -/
theorem restValuesHold : Obligations.RestValuesHold := by
  unfold Obligations.RestValuesHold
  exact fun s t => step_restLaw

/-- A law that holds of every station at rest, and that a station in RUN keeps, is kept by every step. -/
theorem law_of_parts_resting {P : State → Prop}
    (hpass : ∀ w s, s.RestLaw → P s → P (s.pass w)) (hsettle : ∀ s, s.RestLaw → P s → P s.settle)
    (heffect : ∀ c s, s.RestLaw → P s → dueOf c s = true → P (effectOf c s)) (hreset : ∀ s, P s → P s.hardReset)
    (htransfer : ∀ s t, s.RestLaw → P s → s.finishTransfer = some t → P t)
    (hqueue : ∀ s q, P s → P (s.setPending q)) {s t : State} (hrest : s.RestLaw) (hs : P s) (h : step s = .next t) :
    P t :=
  (law_of_parts (P := fun u => u.RestLaw ∧ P u) (fun w u hu => ⟨State.pass_restLaw w hu.1, hpass w u hu.1 hu.2⟩)
    (fun u hu => ⟨State.settle_restLaw hu.1, hsettle u hu.1 hu.2⟩)
    (fun c u hu hd => ⟨effectOf_restLaw c u hu.1 hd, heffect c u hu.1 hu.2 hd⟩)
    (fun u hu => ⟨State.AtRest.restLaw ⟨rfl, rfl, rfl, rfl, rfl, .inl rfl, rfl, rfl, rfl⟩, hreset u hu.2⟩)
    (fun u v hu hv => ⟨State.finishTransfer_restLaw hu.1 hv, htransfer u v hu.1 hu.2 hv⟩)
    (fun u q hu => ⟨hu.1, hqueue u q hu.2⟩) ⟨hrest, hs⟩ h).2

/-! ## The position in the frame -/

/-- The law reads the generator's position and the configuration alone. -/
theorem State.PositionLaw.of_eq {s t : State} (hs : s.PositionLaw) (hrunning : t.timing.running = s.timing.running)
    (hpixel : t.timing.pixel = s.timing.pixel) (hline : t.timing.line = s.timing.line)
    (hshort : t.timing.shortening = s.timing.shortening) (hwfn : t.timing.wfn = s.timing.wfn) (hcfg : t.cfg = s.cfg) :
    t.PositionLaw := by
  simpa only [State.PositionLaw, State.lineLen, hrunning, hpixel, hline, hshort, hwfn, hcfg] using hs

/-- The generator's reset values meet the law, whatever the configuration. -/
theorem State.PositionLaw.of_initial {s : State} (h : s.timing = .initial) : s.PositionLaw := by
  simp [State.PositionLaw, h, Timing.initial]

/-- A running generator at the first pixel of a line of its frame meets it. -/
theorem State.PositionLaw.of_firstPixel {s : State} (hrunning : s.timing.running = true) (hpixel : s.timing.pixel = 0)
    (hline : s.timing.line ≤ lastLine s.cfg s.timing.shortening) : s.PositionLaw := by
  simp [State.PositionLaw, hrunning, hpixel, hline]

/-- A Span's pixel clocks stop at the last pixel of the line. -/
theorem State.passPanel_pixel (w : Span) (s : State) : (s.passPanel w).timing.pixel =
    if s.timing.running = true then s.timing.pixel + s.pixelsPassed w else s.timing.pixel := by
  simp only [State.passPanel]
  split
  · rw [State.passPixels_timing]
    rfl
  · rfl

theorem State.pass_positionLaw (w : Span) {s : State} (hs : s.PositionLaw) : (s.pass w).PositionLaw := by
  have htiming := State.pass_timing w s
  have hpixel := s.passPanel_pixel w
  rw [← (State.pass_parts w s).2.2.1] at hpixel
  by_cases hrunning : s.timing.running = true
  · obtain ⟨hline, hin⟩ := hs.1 hrunning
    rw [if_pos hrunning] at hpixel
    have hlen : (s.pass w).lineLen = s.lineLen := by rw [State.lineLen, State.pass_cfg, htiming]; rfl
    refine ⟨fun _ => ⟨?_, ?_⟩, fun h => ?_⟩
    · rw [State.pass_cfg, htiming]
      exact hline
    · rw [hlen, hpixel, State.pixelsPassed, State.toLineEnd]
      omega
    · rw [htiming, hrunning] at h
      cases h
  · rw [if_neg hrunning] at hpixel
    exact hs.of_eq (by rw [htiming]) hpixel (by rw [htiming]) (by rw [htiming]) (by rw [htiming]) (by simp)

/-- A frame start puts the position to the first pixel, and only a running generator has one. -/
theorem State.frameStarts_positionLaw {s : State} (edge : Bool) (order : List Block) (h : s.frameEnds = true) :
    (s.frameStarts edge order).PositionLaw := by
  have hrunning : s.timing.running = true := by simp [State.frameEnds] at h; exact h.1
  have htiming := s.frameStarts_timing edge order
  have hend := s.endFrame_timing edge
  refine .of_firstPixel ?_ (by rw [htiming]; rfl) (by rw [htiming]; exact Nat.zero_le _)
  rw [htiming]
  simp only [State.applyEvaluation, State.setTiming_timing]
  rw [hend]
  exact hrunning

theorem State.nextLine_positionLaw {s : State} (h : s.lineFollows = true) : s.nextLine.PositionLaw := by
  simp only [State.lineFollows, Bool.and_eq_true, decide_eq_true_eq] at h
  obtain ⟨hrunning, hline⟩ := h
  have htiming := s.nextLine_timing
  have hcfg : s.nextLine.cfg = s.cfg := by simp
  refine .of_firstPixel (by rw [htiming]; exact hrunning) (by rw [htiming]) ?_
  rw [hcfg, htiming]
  exact hline

theorem State.cutoff_positionLaw {s : State} (b : Bool) (hs : s.PositionLaw) : (s.cutoff b).PositionLaw := by
  rcases s.cutoff_timing b with htiming | ⟨hrunning, w, htiming⟩
  · exact hs.of_eq (by rw [htiming]) (by rw [htiming]) (by rw [htiming]) (by rw [htiming]) (by rw [htiming]) (by simp)
  · obtain ⟨hline, hpixel⟩ := hs.1 hrunning
    refine ⟨fun _ => ?_, fun h => ?_⟩
    · rw [State.lineLen, State.cutoff_frame b s |>.2.2.2.2.2, htiming]
      exact ⟨hline, hpixel⟩
    · rw [htiming, hrunning] at h
      cases h

theorem positionLaw_portKeeps : PortKeeps State.PositionLaw where
  port _ _ hs _ := hs
  hold _ _ hs _ := hs
  release _ hs := hs
  setMode _ _ hs _ := hs.of_eq (by simp) (by simp) (by simp) (by simp) (by simp) (by simp)
  counters _ hs := hs
  restart _ _ := .of_initial rfl

/-- A duplicate moves the drive alone of the generator. -/
theorem State.handOver_timing (s : State) :
    s.handOver.timing = { s.timing with fsDrive := s.handOver.timing.fsDrive } := by
  have hdup : ∀ (u : State) (t : Tile), u.timing = s.timing →
      (u.detectDuplicate t).timing = { s.timing with fsDrive := (u.detectDuplicate t).timing.fsDrive } := by
    intro u t hu
    simp only [State.detectDuplicate]
    repeat' split
    all_goals simp [hu]
  simp only [State.handOver]
  split
  · rfl
  · apply hdup
    split <;> simp

/-- Every due effect keeps the position in its frame. -/
theorem effectOf_positionLaw (c : Instr) (s : State) (hrest : s.RestLaw) (hs : s.PositionLaw)
    (hdue : dueOf c s = true) : (effectOf c s).PositionLaw := by
  have hinitial : s.loader.phase ≠ .run → s.timing = .initial := fun h => ((State.restLaw_iff s).mp hrest h).timing
  cases c
  case frameStart => exact State.frameStarts_positionLaw _ _ hdue
  case loneLock => exact State.frameStarts_positionLaw _ _ (by simp [dueOf, State.loneLockDue] at hdue; exact hdue.1)
  case holdPictureTimerExpiry =>
    exact State.frameStarts_positionLaw _ _ (by simp [dueOf, State.holdTimerDue] at hdue; exact hdue.1.1.1)
  case rosterLapse => exact State.frameStarts_positionLaw _ _ (by simp [dueOf, State.lapseDue] at hdue; exact hdue.1)
  case outputLineEnd => exact State.nextLine_positionLaw hdue
  case statusCutoff | found => exact State.cutoff_positionLaw _ hs
  case hold | release | setMode | clearEvents | clearCounters | restart | eventsClearWrite | itemSelect =>
    exact positionLaw_portKeeps.transaction _ _ _ _ hs
  case resetnRise | startDelayExpiry =>
    refine .of_initial (hinitial fun h => ?_)
    simp [dueOf, State.startDelayOver, h] at hdue
  case copyReadEnd =>
    have hstopped := hinitial (fun h => by simp [dueOf, State.copyReadEnded, h] at hdue)
    exact State.copyChecked_keeps hs (fun _ => .of_initial hstopped) (fun _ => .of_initial rfl)
      (fun _ _ _ _ => .of_initial (by simpa using hstopped))
  case pllWaitExpiry =>
    have hstopped := hinitial (fun h => by simp [dueOf, State.pllWaitOver, h] at hdue)
    simp only [effectOf, State.pllTimeout]
    split
    · exact .of_initial hstopped
    · exact .of_initial rfl
  case pllLock =>
    exact .of_firstPixel (by simp [effectOf, State.enterRun, State.startGenerator])
      (by simp [effectOf, State.enterRun, State.startGenerator, Timing.initial])
      (by simp [effectOf, State.enterRun, State.startGenerator, Timing.initial])
  case statusReceived | modeReceived | leaveReceived =>
    have htiming := s.handOver_timing
    exact hs.of_eq (by rw [effectOf, htiming]) (by rw [effectOf, htiming]) (by rw [effectOf, htiming])
      (by rw [effectOf, htiming]) (by rw [effectOf, htiming]) (by simp [effectOf])
  case fsPulseEnd | foreignEdge | keptEdgeExpiry => exact hs.of_eq rfl rfl rfl rfl rfl rfl
  all_goals
    exact hs.of_eq (by simp [effectOf]) (by simp [effectOf]) (by simp [effectOf]) (by simp [effectOf])
      (by simp [effectOf]) (by simp [effectOf])

/-- Settles O21: pixel clocks stop at the line's end, and lines and frames begin at their first pixel. -/
theorem positionStaysInFrame : Obligations.PositionStaysInFrame := by
  unfold Obligations.PositionStaysInFrame
  intro s t hrest hs h
  refine law_of_parts_resting (P := State.PositionLaw) (fun w u _ => u.pass_positionLaw w) ?settle
    effectOf_positionLaw (fun u _ => .of_initial rfl) ?transfer (fun u q hu => hu) hrest hs h
  case settle => exact fun u _ hu => hu.of_eq (by simp) (by simp) (by simp) (by simp) (by simp) (by simp)
  case transfer =>
    intro u v _ hu hv
    obtain ⟨-, -, htiming, -, -, -, -, -, -, -, -, hcfg⟩ := State.finishTransfer_frame hv
    exact hu.of_eq (by rw [htiming]) (by rw [htiming]) (by rw [htiming]) (by rw [htiming]) (by rw [htiming]) hcfg

end Sys2Proof.Machine
end

