-- ==== Sys2Proof/Proofs/SlotRecords.lean ====
section
/-! The five slot records: what each change of them leaves at each slot, which slot is found first, how many there are
in a state, and what each operation of the frame store makes of them. -/

namespace Sys2Proof.Machine

/-! ## One slot record -/

/-- Two sets of slot records with the same records are the same. -/
theorem Slots.ext_get {x y : Slots} (h : ∀ i, x.get i = y.get i) : x = y := by
  obtain ⟨a0, a1, a2, a3, a4⟩ := x
  obtain ⟨b0, b1, b2, b3, b4⟩ := y
  have h0 := h 0
  have h1 := h 1
  have h2 := h 2
  have h3 := h 3
  have h4 := h 4
  simp only [Slots.get] at h0 h1 h2 h3 h4
  subst h0 h1 h2 h3 h4
  rfl

@[simp] theorem Slots.get_map (f : Fin 5 → Slot → Slot) (x : Slots) (i : Fin 5) : (x.map f).get i = f i (x.get i) := by
  fin_cases i <;> rfl

@[simp] theorem Slots.get_modify (x : Slots) (i j : Fin 5) (f : Slot → Slot) :
    (x.modify i f).get j = if j = i then f (x.get j) else x.get j := by
  simp [Slots.modify]

@[simp] theorem Slots.get_freeWhere (x : Slots) (p : Slot → Bool) (i : Fin 5) :
    (x.freeWhere p).get i = if p (x.get i) then .free else x.get i := by
  simp [Slots.freeWhere]

/-- The slots in order, each with its record. -/
theorem Slots.toList_eq (x : Slots) : x.toList = (List.finRange 5).map (fun i => (i, x.get i)) := rfl

theorem Slots.mem_toList (x : Slots) (i : Fin 5) (r : Slot) : (i, r) ∈ x.toList ↔ r = x.get i := by
  simp [Slots.toList_eq, eq_comm]

/-- The first slot that a test picks: it passes, and no slot before it does. -/
theorem Slots.find?_eq_some_iff (x : Slots) (p : Fin 5 × Slot → Bool) (i : Fin 5) (r : Slot) :
    x.toList.find? p = some (i, r) ↔ r = x.get i ∧ p (i, r) = true ∧ ∀ j, j < i → p (j, x.get j) = false := by
  have hget : ∀ (k : Nat) (h : k < x.toList.length), x.toList[k] = (⟨k, h⟩, x.get ⟨k, h⟩) := by
    intro k h
    simp [Slots.toList_eq]
  rw [List.find?_eq_some_iff_getElem]
  constructor
  · rintro ⟨hp, k, hk, he, hbefore⟩
    rw [hget, Prod.mk.injEq] at he
    obtain ⟨rfl, rfl⟩ := he
    refine ⟨rfl, hp, fun j hj => ?_⟩
    simpa [hget] using hbefore j hj
  · rintro ⟨rfl, hp, hbefore⟩
    refine ⟨hp, i, i.isLt, hget _ _, fun j hj => ?_⟩
    simpa [hget] using hbefore ⟨j, hj.trans i.isLt⟩ hj

theorem Slots.find?_eq_none_iff (x : Slots) (p : Fin 5 × Slot → Bool) :
    x.toList.find? p = none ↔ ∀ i, p (i, x.get i) = false := by
  simp [Slots.toList_eq]

/-- The lowest-numbered slot in a state: it is in that state, and none before it is. -/
theorem Slots.first_eq_some_iff (x : Slots) (st : SlotState) (i : Fin 5) :
    x.first st = some i ↔ (x.get i).state = st ∧ ∀ j, j < i → (x.get j).state ≠ st := by
  simp only [Slots.first, Option.map_eq_some_iff, Prod.exists, exists_and_right, exists_eq_right,
    Slots.find?_eq_some_iff, beq_iff_eq, beq_eq_false_iff_ne]
  constructor
  · rintro ⟨r, rfl, h⟩
    exact h
  · exact fun h => ⟨_, rfl, h⟩

theorem Slots.first_eq_none_iff (x : Slots) (st : SlotState) : x.first st = none ↔ ∀ i, (x.get i).state ≠ st := by
  rw [Slots.first, Option.map_eq_none_iff, Slots.find?_eq_none_iff]
  simp

theorem Slots.first_isSome_iff (x : Slots) (st : SlotState) :
    (x.first st).isSome = true ↔ ∃ i, (x.get i).state = st := by
  rw [← Option.ne_none_iff_isSome, ne_eq, Slots.first_eq_none_iff]
  push Not
  rfl

/-- The SHOWING slot's record is that of the first SHOWING slot. -/
theorem Slots.showing_eq (x : Slots) : x.showing = (x.first .showing).map x.get := by
  unfold Slots.showing Slots.first
  cases h : x.toList.find? (fun e => e.2.state == .showing) with
  | none => rfl
  | some e =>
    obtain ⟨i, r⟩ := e
    have hr := ((x.find?_eq_some_iff _ i r).mp h).1
    simp [hr]

/-! ## How many slots are in a state -/

theorem Slots.number_pos_iff (x : Slots) (st : SlotState) : 0 < x.number st ↔ ∃ i, (x.get i).state = st := by
  simp [Slots.number, Slots.toList_eq, List.countP_pos_iff]

/-- At most one slot is in a state where no two are. -/
theorem Slots.number_le_one_iff (x : Slots) (st : SlotState) :
    x.number st ≤ 1 ↔ ∀ i j, (x.get i).state = st → (x.get j).state = st → i = j := by
  have hcard : x.number st = (Finset.univ.filter (fun i => (x.get i).state = st)).card := by
    rw [Slots.number, Slots.toList_eq, List.countP_map, Finset.card_def, List.countP_eq_length_filter]
    rfl
  rw [hcard, Finset.card_le_one]
  simp only [Finset.mem_filter, Finset.mem_univ, true_and]
  exact ⟨fun h i j hi hj => h i hi j hj, fun h i hi j hj => h i j hi hj⟩

/-- With one slot at most in a state, the slot found there is the only one. -/
theorem Slots.unique_of_number_le_one {x : Slots} {st : SlotState} (h : x.number st ≤ 1) {i j : Fin 5}
    (hi : (x.get i).state = st) (hj : (x.get j).state = st) : i = j := (x.number_le_one_iff st).mp h i j hi hj

/-! ## Making a slot SHOWING -/

@[simp] theorem showSlot_get_same (x : Slots) (i : Fin 5) :
    (showSlot x i).get i = { x.get i with state := .showing, pledged := false } := by
  simp [showSlot, Slots.freeOlder]

theorem showSlot_get_other (x : Slots) {i j : Fin 5} (h : j ≠ i) : (showSlot x i).get j =
    if (x.get j).state = .showing ∨ (x.get j).state = .ready ∧ later (x.get i).lcs (x.get j).lcs = true
    then .free else x.get j := by
  by_cases hs : (x.get j).state = .showing
  · simp [showSlot, Slots.freeOlder, h, hs]
  · simp [showSlot, Slots.freeOlder, h, hs]

/-! ## What each operation makes of the records -/

@[simp] theorem State.setSlots_slots (s : State) (x : Slots) : (s.setSlots x).store.slots = x := rfl

@[simp] theorem State.freeSlot_slots (s : State) (i : Fin 5) :
    (s.freeSlot i).store.slots = s.store.slots.modify i (fun _ => .free) := rfl

@[simp] theorem State.freeFilling_slots (s : State) :
    s.freeFilling.store.slots = s.store.slots.freeWhere (fun r => r.state == .filling) := rfl

@[simp] theorem State.makeReady_slots (s : State) (i : Fin 5) :
    (s.makeReady i).store.slots = s.store.slots.modify i (fun r => { r with state := .ready }) := rfl

@[simp] theorem State.lineWritten_slots (s : State) (i : Fin 5) :
    (s.lineWritten i).store.slots = s.store.slots.modify i (fun r => { r with lines := r.lines + 1 }) := rfl

@[simp] theorem State.markTorn_slots (s : State) (i : Fin 5) :
    (s.markTorn i).store.slots = s.store.slots.modify i (fun r => { r with torn := true }) := rfl

@[simp] theorem State.abandonCapture_slots (s : State) :
    s.abandonCapture.store.slots = s.store.slots.freeWhere (fun r => r.state == .filling) := rfl

@[simp] theorem State.nameRow_slots (s : State) (j : Nat) : (s.nameRow j).store.slots = s.store.slots := by
  simp only [State.nameRow]
  split <;> rfl

@[simp] theorem State.emptyReader_slots (s : State) : s.emptyReader.store.slots = s.store.slots := rfl

@[simp] theorem State.discardFetches_slots (s : State) : s.discardFetches.store.slots = s.store.slots := rfl

@[simp] theorem State.slotChanged_slots (s : State) : s.slotChanged.store.slots = s.store.slots := by
  simp only [State.slotChanged]
  repeat' split
  all_goals simp

@[simp] theorem State.pictureFrameStart_slots (s : State) : s.pictureFrameStart.store.slots = s.store.slots := by
  simp only [State.pictureFrameStart]
  split <;> simp

@[simp] theorem State.pictureLineEnd_slots (s : State) : s.pictureLineEnd.store.slots = s.store.slots := by
  simp only [State.pictureLineEnd]
  repeat' split
  all_goals simp

@[simp] theorem State.passPixels_slots (s : State) (d : Nat) : (s.passPixels d).store.slots = s.store.slots := by
  simp only [State.passPixels]
  split <;> simp

@[simp] theorem State.nextLine_slots (s : State) : s.nextLine.store.slots = s.store.slots := by
  simp [State.nextLine]

@[simp] theorem State.endFrame_slots (s : State) (edge : Bool) : (s.endFrame edge).store.slots = s.store.slots := by
  simp [State.endFrame]

@[simp] theorem State.generatorFrameStart_slots (s : State) (edge : Bool) :
    (s.generatorFrameStart edge).store.slots = s.store.slots := by
  simp [State.generatorFrameStart]

@[simp] theorem State.passPanel_slots (w : Span) (s : State) : (s.passPanel w).store.slots = s.store.slots := by
  simp only [State.passPanel]
  split <;> simp

end Sys2Proof.Machine
end

