-- ==== Sys2Proof/Proofs/SlotLaws.lean ====
section
/-! The laws of the frame store. Most operations only thin the slots out: each slot keeps its state and its LCS or is
freed. The others are the completion of a capture, the grant, the end-of-ballot report, and making a slot SHOWING. -/

namespace Sys2Proof.Machine

/-! ## Operations that thin the slots out -/

/-- Every slot keeps its state and its LCS, or is freed, which the FILLING slot is not; the input keeps its state, its
count and the slot of its capture. -/
structure Thinned (s t : State) : Prop where
  slot : ∀ i, (t.store.slots.get i).state = .free ∧ (s.store.slots.get i).state ≠ .filling ∨
    (t.store.slots.get i).state = (s.store.slots.get i).state ∧ (t.store.slots.get i).lcs = (s.store.slots.get i).lcs
  state : t.input.state = s.input.state
  lcs : t.input.lcs = s.input.lcs
  progress : ∀ p, t.input.progress = some p → ∃ q, s.input.progress = some q ∧ q.slot = p.slot

theorem Thinned.of_eq {s t : State} (hslots : t.store.slots = s.store.slots) (hinput : t.input = s.input) :
    Thinned s t :=
  ⟨fun i => .inr (by rw [hslots]; exact ⟨rfl, rfl⟩), by rw [hinput], by rw [hinput],
    fun p hp => ⟨p, by rw [← hinput]; exact hp, rfl⟩⟩

/-- Only the input has changed, and not in its state, its count and the slot of its capture. -/
theorem Thinned.of_input {s t : State} (hslots : t.store.slots = s.store.slots) (hstate : t.input.state = s.input.state)
    (hlcs : t.input.lcs = s.input.lcs)
    (hprogress : ∀ p, t.input.progress = some p → ∃ q, s.input.progress = some q ∧ q.slot = p.slot) : Thinned s t :=
  ⟨fun i => .inr (by rw [hslots]; exact ⟨rfl, rfl⟩), hstate, hlcs, hprogress⟩

/-- Slots that a test picks, the FILLING one not among them, are freed. -/
theorem Thinned.of_freeWhere {s t : State} (p : Slot → Bool) (hslots : t.store.slots = s.store.slots.freeWhere p)
    (hp : ∀ r : Slot, r.state = .filling → p r = false) (hinput : t.input = s.input) : Thinned s t where
  slot i := by
    rw [hslots, Slots.get_freeWhere]
    split
    · next h => exact .inl ⟨rfl, fun hf => by simp [hp _ hf] at h⟩
    · exact .inr ⟨rfl, rfl⟩
  state := by rw [hinput]
  lcs := by rw [hinput]
  progress q hq := ⟨q, by rw [← hinput]; exact hq, rfl⟩

/-- Each record changes, but not in its state and its LCS. -/
theorem Thinned.of_map {s t : State} (f : Fin 5 → Slot → Slot) (hslots : t.store.slots = s.store.slots.map f)
    (hf : ∀ i r, (f i r).state = r.state ∧ (f i r).lcs = r.lcs) (hinput : t.input = s.input) : Thinned s t where
  slot i := .inr (by rw [hslots, Slots.get_map]; exact hf _ _)
  state := by rw [hinput]
  lcs := by rw [hinput]
  progress q hq := ⟨q, by rw [← hinput]; exact hq, rfl⟩

/-- One record changes, but not in its state and its LCS. -/
theorem Thinned.of_modify {s t : State} (j : Fin 5) (f : Slot → Slot)
    (hslots : t.store.slots = s.store.slots.modify j f) (hf : ∀ r, (f r).state = r.state ∧ (f r).lcs = r.lcs)
    (hinput : t.input = s.input) : Thinned s t :=
  .of_map _ hslots (fun i r => by by_cases h : i = j <;> simp [h, hf]) hinput

/-- A slot that is not FREE is in the state in which it was. -/
theorem Thinned.kept {s t : State} (h : Thinned s t) {i : Fin 5} (hi : (t.store.slots.get i).state ≠ .free) :
    (t.store.slots.get i).state = (s.store.slots.get i).state ∧
      (t.store.slots.get i).lcs = (s.store.slots.get i).lcs := (h.slot i).resolve_left (fun hf => hi hf.1)

/-- The FILLING slot stays FILLING. -/
theorem Thinned.filling {s t : State} (h : Thinned s t) {i : Fin 5} (hi : (s.store.slots.get i).state = .filling) :
    (t.store.slots.get i).state = .filling :=
  ((h.slot i).resolve_left (fun hf => hf.2 hi)).1.trans hi

theorem Thinned.trans {s t u : State} (h : Thinned s t) (k : Thinned t u) : Thinned s u where
  slot i := by
    by_cases hfree : (u.store.slots.get i).state = .free
    · by_cases hfill : (s.store.slots.get i).state = .filling
      · simp [k.filling (h.filling hfill)] at hfree
      · exact .inl ⟨hfree, hfill⟩
    · obtain ⟨hstate, hlcs⟩ := k.kept hfree
      obtain ⟨hstate', hlcs'⟩ := h.kept (hstate ▸ hfree)
      exact .inr ⟨hstate.trans hstate', hlcs.trans hlcs'⟩
  state := k.state.trans h.state
  lcs := k.lcs.trans h.lcs
  progress p hp := by
    obtain ⟨q, hq, hpq⟩ := k.progress p hp
    obtain ⟨r, hr, hqr⟩ := h.progress q hq
    exact ⟨r, hr, hqr.trans hpq⟩

theorem Thinned.refl (s : State) : Thinned s s := .of_eq rfl rfl

/-! ### What is dropped when the station leaves the wall -/

/-- The records after a drop-picture: the SHOWING slot is freed, and with a CHOSEN slot the READY slots older than it. -/
def Slots.dropped (x : Slots) : Slots :=
  let y := x.freeWhere (fun r => r.state == .showing)
  ((x.toList.find? (fun e => e.2.state == .chosen)).map (fun e => y.freeOlder e.2.lcs)).getD y

@[simp] theorem State.dropPicture_slots (s : State) : s.dropPicture.store.slots = s.store.slots.dropped := by
  simp only [State.dropPicture, Slots.dropped]
  cases s.store.slots.toList.find? (fun e => e.2.state == .chosen) <;> split <;> simp

/-- What a drop-picture leaves of one slot. -/
theorem Slots.dropped_get (x : Slots) (i : Fin 5) :
    x.dropped.get i = .free ∧ ((x.get i).state = .showing ∨ (x.get i).state = .ready) ∨
      x.dropped.get i = x.get i ∧ (x.get i).state ≠ .showing := by
  unfold Slots.dropped
  cases x.toList.find? (fun e => e.2.state == .chosen) with
  | none => by_cases h : (x.get i).state = .showing <;> simp [h]
  | some e =>
    by_cases h : (x.get i).state = .showing
    · simp [Slots.freeOlder, h, Slot.free]
    · by_cases h' : (x.get i).state = .ready ∧ later e.2.lcs (x.get i).lcs = true
      · exact .inl (by simp [Slots.freeOlder, h'])
      · exact .inr (by simp [Slots.freeOlder, h, h'])

theorem Thinned.dropPicture {s u : State} (h : Thinned s u) : Thinned s u.dropPicture := by
  refine h.trans ⟨fun i => ?_, by simp, by simp, fun p hp => ⟨p, by simpa using hp, rfl⟩⟩
  rw [State.dropPicture_slots]
  rcases u.store.slots.dropped_get i with ⟨hfree, hstate⟩ | ⟨hkept, -⟩
  · refine .inl ⟨by rw [hfree]; rfl, ?_⟩
    rcases hstate with hstate | hstate <;> simp [hstate]
  · exact .inr (by rw [hkept]; exact ⟨rfl, rfl⟩)

theorem Thinned.outOfMember {s u : State} (h : Thinned s u) : Thinned s u.outOfMember := by
  simp only [State.outOfMember]
  split
  · refine .trans (.dropPicture (u := u.setMember { u.member with holdTimer := u.cfg.holdframes })
      (h.trans (.of_eq rfl rfl))) (.of_eq (by simp) (by simp))
  · exact h.trans (.of_eq (by simp) (by simp))

theorem Thinned.inputLost {s u : State} (h : Thinned s u) : Thinned s u.inputLost := by
  simp only [State.inputLost]
  split
  · exact .outOfMember (h.trans (.of_eq (by simp) (by simp)))
  · exact h.trans (.of_eq (by simp) (by simp))
  · exact h

theorem Thinned.reportInput {s u : State} (h : Thinned s u) : Thinned s u.reportInput := by
  simp only [State.reportInput]
  split
  · exact h
  · exact h.inputLost

theorem Thinned.silenceStation {s u : State} (h : Thinned s u) : Thinned s u.silenceStation := by
  simp only [State.silenceStation]
  split
  · exact .outOfMember (h.trans (.of_eq (by simp) (by simp)))
  · exact h.trans (.of_eq (by simp) (by simp))
  · exact h

theorem Thinned.realign {s u : State} (h : Thinned s u) : Thinned s u.realign := by
  simp only [State.realign]
  split
  · exact .outOfMember (h.trans (.of_eq (by simp) (by simp)))
  · exact h

theorem Thinned.takeHold {s u : State} (h : Thinned s u) : Thinned s u.takeHold := by
  have hdrop : Thinned s (u.setMember { u.member with hostHold := true, holdTimer := 0 }).dropPicture :=
    .dropPicture (h.trans (.of_eq rfl rfl))
  simp only [State.takeHold]
  split <;> exact hdrop.trans (.of_eq (by simp) (by simp))

theorem Thinned.countHoldTimer {s u : State} (h : Thinned s u) : Thinned s u.countHoldTimer := by
  simp only [State.countHoldTimer]
  split
  · split
    · exact .dropPicture (h.trans (.of_eq rfl rfl))
    · exact h.trans (.of_eq rfl rfl)
  · exact h

theorem Thinned.memberFrameStart {s u : State} (h : Thinned s u) : Thinned s u.memberFrameStart :=
  State.memberFrameStart_keeps h (fun h => h.takeHold) (fun _ h => h.realign)
    (fun _ h => h.trans (.of_eq (by simp) (by simp))) (fun _ h => h.countHoldTimer)
    (fun _ h => h.trans (.of_eq (by simp) (by simp)))

theorem Thinned.detectDuplicate {s u : State} (t : Tile) (h : Thinned s u) : Thinned s (u.detectDuplicate t) := by
  simp only [State.detectDuplicate]
  split
  · split
    · exact h.trans (.of_eq (by simp) (by simp))
    · exact .silenceStation (h.trans (.of_eq (by simp) (by simp)))
  · exact h

theorem Thinned.handOver {s u : State} (h : Thinned s u) : Thinned s u.handOver := by
  simp only [State.handOver]
  split
  · exact h
  · refine .detectDuplicate _ ?_
    split <;> exact h.trans (.of_eq (by simp) (by simp))

/-! ### The stamps, the ballot, the pixels of a capture -/

theorem Thinned.adopt {s u : State} (w : Word) (h : Thinned s u) : Thinned s (u.adopt w) := by
  simp only [State.adopt]
  split
  · refine h.trans (.of_map (fun _ r => if r.state = .free then r
      else { r with stamp := { r.stamp with wfn := r.stamp.wfn + (w - u.timing.wfn) } }) rfl (fun i r => ?_) rfl)
    split <;> exact ⟨rfl, rfl⟩
  · exact h

@[simp] theorem State.pledge_slots (s : State) : s.pledge.1.store.slots = s.store.slots.map (fun i r =>
    if (pledgeChoice 3 s.store.slots.ready).contains i then { r with pledged := true } else r) := rfl

theorem Thinned.beginVote {s u : State} (edge : Nat) (h : Thinned s u) : Thinned s (u.beginVote edge) := by
  refine h.trans (.of_map _ u.pledge_slots (fun i r => ?_) (by simp))
  split <;> exact ⟨rfl, rfl⟩

theorem Thinned.markTorn {s u : State} (i : Fin 5) (h : Thinned s u) : Thinned s (u.markTorn i) :=
  h.trans (.of_modify i _ (State.markTorn_slots _ _) (fun _ => ⟨rfl, rfl⟩) rfl)

theorem Thinned.offerPixel {s u : State} (x : WritePixel) (h : Thinned s u) : Thinned s (u.offerPixel x) := by
  simp only [State.offerPixel]
  split
  · exact h
  · split
    · exact h.trans (.of_eq rfl rfl)
    · exact h.markTorn _

theorem Thinned.padColumns {s u : State} (p : Progress) (l : List Nat) (h : Thinned s u) :
    Thinned s (u.padColumns p l) := by
  induction l generalizing u with
  | nil => exact h
  | cons k rest ih => exact ih (h.offerPixel _)

/-- A region line that is finished is counted in the capture and in the slot. -/
theorem Thinned.finishRegionLine {s u : State} {p : Progress} (h : Thinned s u) (hp : u.input.progress = some p) :
    Thinned s (u.finishRegionLine p) := by
  have hinput : Thinned u (u.setInput { u.input with progress := some { p with entered := p.entered + 1 } }) :=
    .of_input rfl rfl rfl (fun q hq => ⟨p, hp, by cases hq; rfl⟩)
  exact h.trans (hinput.trans (.of_modify p.slot _ (State.lineWritten_slots _ _) (fun _ => ⟨rfl, rfl⟩) rfl))

theorem Thinned.padLine {s u : State} {p : Progress} (h : Thinned s u) (hp : u.input.progress = some p) :
    Thinned s (u.padLine p) := by
  simp only [State.padLine]
  split
  · exact (h.padColumns p _).finishRegionLine (by simpa using hp)
  · exact h

theorem Thinned.endInputLine {s u : State} (h : Thinned s u) : Thinned s u.endInputLine := by
  simp only [State.endInputLine]
  have hcount : Thinned s (u.setInput { u.input with count := { u.input.count with lineActive := false } }) :=
    h.trans (.of_input rfl rfl rfl (fun q hq => ⟨q, hq, rfl⟩))
  split
  · exact hcount
  · next p hp =>
    split
    · refine (hcount.padLine hp).trans (.of_input rfl rfl rfl fun q hq => ?_)
      obtain ⟨r, hr, rfl⟩ := Option.map_eq_some_iff.mp hq
      exact ⟨r, hr, rfl⟩
    · exact hcount

theorem Thinned.takePixel {s u : State} (v : Rgb) (h : Thinned s u) : Thinned s (u.takePixel v) := by
  simp only [State.takePixel]
  have hcount : Thinned s (u.setInput { u.input with count := u.input.count.pixel }) :=
    h.trans (.of_input rfl rfl rfl (fun q hq => ⟨q, hq, rfl⟩))
  split
  · exact hcount
  · next p hp =>
    have henter : Thinned s ((u.setInput { u.input with count := u.input.count.pixel }).enterPixel p v) := by
      simp only [State.enterPixel]
      split
      · split
        · exact (hcount.offerPixel _).finishRegionLine (by simpa using hp)
        · exact hcount.offerPixel _
      · exact hcount
    split
    · next q hq => exact henter.trans (.of_input rfl rfl rfl fun r hr => ⟨q, hq, by cases hr; rfl⟩)
    · exact henter

/-! ## Laws of the frame store through every effect -/

/-- No slot is FILLING. -/
def Slots.NoneFilling (x : Slots) : Prop := ∀ i, (x.get i).state ≠ .filling

/-- What a law of the frame store has to bear: `P` holds before a command, `Q` after it. Between them the slots are
thinned out, a capture is completed or abandoned, a frame begins with a grant, the ballot reports, a slot is shown. -/
structure SlotsKeep (P Q : State → Prop) : Prop where
  weaken : ∀ s, P s → Q s
  law : ∀ s, P s → s.SlotLaw
  thin : ∀ s t, Thinned s t → P s → P t
  thin_after : ∀ s t, Thinned s t → Q s → Q t
  idle : ∀ s x, P s → s.store.slots.NoneFilling → x.lcs = s.input.lcs →
    (x.progress = s.input.progress ∨ x.progress = none) → P (s.setInput x)
  complete : ∀ s, P s → P s.completeCapture
  abandon : ∀ s, P s → P s.abandonCapture
  begin_frame : ∀ s, P s → s.store.slots.NoneFilling → s.input.state = .stable → Q s.beginFrame
  report : ∀ s p d, P s → P (s.ballotReport p d)
  switch : ∀ s, P s → P s.switch
  align : ∀ s t u, P s → s.align t = some u → P u
  found : ∀ s u, P s → s.foundPicture = some u → P u
  rest : ∀ s, s.store.slots = Store.initial.slots → s.input.progress = none → P s

variable {P Q : State → Prop}

/-- Where slots and input are as before, so is the law. -/
theorem SlotsKeep.same (k : SlotsKeep P Q) {s t : State} (hs : P s) (hslots : t.store.slots = s.store.slots)
    (hinput : t.input = s.input) : P t := k.thin s t (.of_eq hslots hinput) hs

theorem SlotsKeep.raise (k : SlotsKeep P Q) (e : Event) {s : State} (hs : P s) : P (s.raise e) := k.same hs rfl rfl

/-- Outside STABLE no slot is FILLING. -/
theorem SlotsKeep.noneFilling (k : SlotsKeep P Q) {s : State} (hs : P s) (h : s.input.state ≠ .stable) :
    s.store.slots.NoneFilling := by
  obtain ⟨-, -, -, hstable⟩ := k.law s hs
  exact fun i hi => h (hstable ((Slots.number_pos_iff _ _).mpr ⟨i, hi⟩))

theorem SlotsKeep.block (k : SlotsKeep P Q) (b : Block) {s : State} (hs : P s) : P (s.blockFrameStart b) := by
  cases b
  case store => exact k.switch s hs
  case membership => exact k.thin _ _ (Thinned.refl s).memberFrameStart hs
  case mode => exact k.same hs (by simp [State.blockFrameStart]) (by simp [State.blockFrameStart])
  case picture => exact k.same hs (by simp [State.blockFrameStart]) (by simp [State.blockFrameStart])

theorem SlotsKeep.frameStarts (k : SlotsKeep P Q) (edge : Bool) (order : List Block) {s : State} (hs : P s) :
    P (s.frameStarts edge order) := by
  exact State.blocksFrameStart_keeps (fun b _ => k.block b) order (k.same hs (by simp) (by simp))

theorem SlotsKeep.evaluate (k : SlotsKeep P Q) {s : State} (hs : P s) : P s.evaluate := by
  refine State.evaluate_keeps hs (fun _ => k.thin _ _ (Thinned.refl s).realign hs) ?_ (fun _ => ?_)
  · intro u t m hu _ _ _ _
    have hadopt : P (u.adopt m.wfn) := k.thin _ _ ((Thinned.refl u).adopt _) hu
    simp only [State.attemptAlign]
    split
    · next v hv =>
      obtain ⟨a, _, ha⟩ := Option.bind_eq_some_iff.mp hv
      exact k.same (k.align _ _ _ hadopt ha) (by simp) (by simp)
    · exact k.same hadopt (by simp) (by simp)
  · simp only [State.foundWall]
    split
    · next v hv => exact k.same (k.found _ _ hs hv) (by simp) (by simp)
    · exact hs

theorem SlotsKeep.cutoff (k : SlotsKeep P Q) (b : Bool) {s : State} (hs : P s) : P (s.cutoff b) :=
  State.cutoff_keeps b hs (fun _ h => k.same h (by simp) (by simp)) (fun _ h => k.same h (by simp) (by simp))
    (fun _ h => k.same h (by simp) (by simp)) (fun _ => k.evaluate) (fun _ h => k.same h (by simp) (by simp))

theorem SlotsKeep.ballotTrouble (k : SlotsKeep P Q) (c : Counter) {s : State} (hs : P s) : P (s.ballotTrouble c) := by
  simp only [State.ballotTrouble]
  exact k.thin _ _ (Thinned.refl _).realign (k.same (k.report s s.ballot.p 0 hs) rfl rfl)

theorem SlotsKeep.ballotLineEvent (k : SlotsKeep P Q) (td : Level) {s : State} (hs : P s) :
    P (s.ballotLineEvent td) := by
  have hset : ∀ b, P (s.setBallot b) := fun b => k.same hs rfl rfl
  simp only [State.ballotLineEvent]
  split
  · split
    · exact k.ballotTrouble _ (hset _)
    · exact k.ballotTrouble _ (hset _)
    · exact k.thin _ _ ((Thinned.refl _).beginVote _) (hset _)
  · exact hset _

theorem SlotsKeep.endBallot (k : SlotsKeep P Q) {s : State} (hs : P s) : P s.endBallot := by
  simp only [State.endBallot]
  split
  · exact k.ballotTrouble _ hs
  · exact k.same (k.report s s.ballot.p (resultOf s.ballot.lineResult) hs) (by simp) (by simp)

/-! ### The input VS -/

/-- The line in progress ends, and with the last region line the capture (R51, step 1). -/
def State.lastLineTaken (s : State) : State :=
  if s.endInputLine.captureFull then s.endInputLine.completeCapture else s.endInputLine

/-- A FILLING slot that still exists then is short; otherwise no capture is in progress (R51, step 2). -/
theorem State.shortCheck_eq (s : State) : s.shortCheck =
    if (s.lastLineTaken.store.slots.first .filling).isSome then s.lastLineTaken.abandonCapture.count .captureShort
    else s.lastLineTaken.setInput { s.lastLineTaken.input with progress := none } := rfl

theorem State.abandonCapture_noneFilling (s : State) : s.abandonCapture.store.slots.NoneFilling := by
  intro i
  rw [State.abandonCapture_slots, Slots.get_freeWhere]
  split
  · decide
  · next h => simpa using h

/-- After the check for a short capture no slot is FILLING. -/
theorem State.shortCheck_noneFilling (s : State) : s.shortCheck.store.slots.NoneFilling := by
  rw [State.shortCheck_eq]
  split
  · simpa using s.lastLineTaken.abandonCapture_noneFilling
  · next h => exact fun i hi => h ((Slots.first_isSome_iff _ _).mpr ⟨i, hi⟩)

@[simp] theorem State.completeCapture_inputState (s : State) : s.completeCapture.input.state = s.input.state := by
  simp only [State.completeCapture]
  repeat' split
  all_goals simp

@[simp] theorem State.lastLineTaken_inputState (s : State) : s.lastLineTaken.input.state = s.input.state := by
  have hline := (Thinned.refl s).endInputLine.state
  unfold State.lastLineTaken
  split <;> simpa using hline

@[simp] theorem State.shortCheck_inputState (s : State) : s.shortCheck.input.state = s.input.state := by
  rw [State.shortCheck_eq]
  split <;> simp [State.abandonCapture]

theorem SlotsKeep.shortCheck (k : SlotsKeep P Q) {s : State} (hs : P s) : P s.shortCheck := by
  have hline : P s.endInputLine := k.thin _ _ (Thinned.refl s).endInputLine hs
  have htaken : P s.lastLineTaken := by
    unfold State.lastLineTaken
    split
    · exact k.complete _ hline
    · exact hline
  rw [State.shortCheck_eq]
  split
  · exact k.same (k.abandon _ htaken) (by simp) (by simp)
  · next h =>
    exact k.idle _ _ htaken (fun i hi => h ((Slots.first_isSome_iff _ _).mpr ⟨i, hi⟩)) rfl (.inr rfl)

theorem SlotsKeep.openFrame (k : SlotsKeep P Q) {s : State} (hs : P s) : P s.openFrame :=
  k.thin s _ (.of_input rfl rfl rfl (fun q hq => ⟨q, hq, rfl⟩)) hs

theorem SlotsKeep.closeFrame (k : SlotsKeep P Q) {s : State} (hs : P s) : P s.closeFrame :=
  k.thin s _ (.of_input rfl rfl rfl (fun q hq => ⟨q, hq, rfl⟩)) hs

theorem SlotsKeep.reportInput (k : SlotsKeep P Q) {s : State} (hs : P s) : P s.reportInput :=
  k.thin _ _ (Thinned.refl s).reportInput hs

theorem SlotsKeep.vsInAcquiring (k : SlotsKeep P Q) {s : State} (hs : P s) (h : s.input.state = .acquiring) :
    Q s.vsInAcquiring := by
  have hnone : s.closeFrame.store.slots.NoneFilling := k.noneFilling (s := s) hs (by simp [h])
  have hcount : ∀ x : Input, x.lcs = s.input.lcs → x.progress = s.input.progress → P (s.closeFrame.setInput x) :=
    fun x hlcs hprogress => k.idle _ x (k.closeFrame hs) hnone hlcs (.inl hprogress)
  rcases s.vsInAcquiring_cases with ⟨r, hstable⟩ | ⟨c, n, hcounted⟩
  · rw [hstable]
    have hready : P (s.closeFrame.becomeStable r) := by
      unfold State.becomeStable
      exact k.raise _ (hcount _ rfl rfl)
    exact k.thin_after _ _ (Thinned.refl _).reportInput (k.begin_frame _ hready hnone rfl)
  · rw [hcounted]
    exact k.weaken _ (hcount _ rfl rfl)

theorem SlotsKeep.vsInStable (k : SlotsKeep P Q) {s : State} (hs : P s) (h : s.input.state = .stable) :
    Q s.vsInStable := by
  have hshort := k.shortCheck hs
  have hnone : s.shortCheck.closeFrame.store.slots.NoneFilling := by
    simpa using s.shortCheck_noneFilling
  have hstable : s.shortCheck.closeFrame.input.state = .stable := by simp [State.closeFrame, State.openFrame, h]
  have hclose : P s.shortCheck.closeFrame := k.closeFrame hshort
  rw [State.vsInStable_eq]
  split
  · exact k.begin_frame _ hclose hnone hstable
  · exact k.weaken _ (k.reportInput (k.raise _ (k.idle _ _ hclose hnone rfl (.inl rfl))))

theorem SlotsKeep.inputVs (k : SlotsKeep P Q) {s : State} (hs : P s) : Q s.inputVs := by
  simp only [State.inputVs]
  split
  · next h =>
    have hnone : s.store.slots.NoneFilling := k.noneFilling hs (by simp [h])
    simp only [State.vsInNoSignal]
    split
    · exact k.weaken _ (k.reportInput (k.openFrame (k.idle s _ hs hnone rfl (.inl rfl))))
    · exact k.weaken _ (k.idle s _ hs hnone rfl (.inl rfl))
  · next h => exact k.vsInAcquiring hs h
  · next h => exact k.vsInStable hs h

theorem SlotsKeep.takeHeldVs (k : SlotsKeep P Q) {s : State} (hs : P s) : Q s.takeHeldVs :=
  k.inputVs (k.thin s _ (.of_input rfl rfl rfl (fun q hq => ⟨q, hq, rfl⟩)) hs)

theorem SlotsKeep.takeHs (k : SlotsKeep P Q) {s : State} (hs : P s) : Q s.takeHs := by
  have hcount : ∀ x : Input, x.state = s.endInputLine.input.state → x.lcs = s.endInputLine.input.lcs →
      x.progress = s.endInputLine.input.progress → P (s.endInputLine.setInput x) := fun x hstate hlcs hprogress =>
    k.thin _ _ ((Thinned.refl s).endInputLine.trans
      (.of_input rfl hstate hlcs (fun q hq => ⟨q, by rw [← hprogress]; exact hq, rfl⟩))) hs
  simp only [State.takeHs]
  split
  · exact k.takeHeldVs (hcount _ rfl rfl rfl)
  · exact k.weaken _ (hcount _ rfl rfl rfl)

/-- The input of a station that has lost its signal, the capture abandoned. -/
theorem SlotsKeep.loseSignal (k : SlotsKeep P Q) {s : State} (hs : P s) : P s.loseSignal := by
  simp only [State.loseSignal]
  apply k.reportInput
  split
  · exact k.same (k.idle _ { s.input with
      state := .noSignal, record := .zero, count := .zero, heldVs := none, candidate := none, agreement := 0,
      stable := none, hs := s.input.hs.forget, vs := s.input.vs.forget, progress := none } (k.abandon s hs)
      s.abandonCapture_noneFilling rfl
      (.inr rfl)) rfl rfl
  · next h => exact k.idle s _ hs (k.noneFilling hs h) rfl (.inl rfl)

/-! ### Every effect -/

theorem SlotsKeep.portKeeps (k : SlotsKeep P Q) : PortKeeps P where
  port _ _ hs _ := k.same hs rfl rfl
  hold _ _ hs _ := k.same hs rfl rfl
  release _ hs := k.same hs rfl rfl
  setMode _ _ hs _ := k.same hs (by simp) (by simp)
  counters _ hs := k.same hs rfl rfl
  restart _ _ := k.rest _ rfl rfl

theorem SlotsKeep.effect (k : SlotsKeep P Q) (c : Instr) (s : State) (hrest : s.RestLaw) (hs : P s)
    (hdue : dueOf c s = true) : Q (effectOf c s) := by
  have hP : ∀ t, P t → Q t := k.weaken
  cases c
  case hsEdge => exact k.takeHs hs
  case vsHoldExpiry => exact k.takeHeldVs hs
  all_goals apply hP
  case frameStart | loneLock | holdPictureTimerExpiry | rosterLapse => exact k.frameStarts _ _ hs
  case statusCutoff w b => exact k.cutoff b hs
  case found => exact k.cutoff true hs
  case statusReceived | modeReceived | leaveReceived => exact k.thin _ _ (Thinned.refl s).handOver hs
  case ballotLine td => exact k.ballotLineEvent td hs
  case ballotEnd => exact k.endBallot hs
  case inputTimerExpiry => exact k.loseSignal hs
  case captureComplete => exact k.complete s hs
  case writeFifoOverflow w v | regionPixelEntry w v => exact k.thin _ _ ((Thinned.refl s).takePixel v) hs
  case vsEdge => exact k.thin s _ (.of_input rfl rfl rfl (fun q hq => ⟨q, hq, rfl⟩)) hs
  case syncTransition w line level =>
    cases line <;> exact k.thin s _ (.of_input rfl rfl rfl (fun q hq => ⟨q, hq, rfl⟩)) hs
  case copyReadEnd =>
    exact State.copyChecked_keeps hs (fun _ => k.same hs rfl rfl) (fun _ => k.rest _ rfl rfl)
      (fun _ _ _ _ => k.same hs (by simp) (by simp))
  case pllWaitExpiry =>
    simp only [effectOf, State.pllTimeout]
    split
    · exact k.same hs (by simp) (by simp)
    · exact k.rest _ rfl rfl
  case pllLock =>
    have hpll : s.loader.phase ≠ .run := fun h => by simp [dueOf, State.lockRead, h] at hdue
    have hstore := ((State.restLaw_iff s).mp hrest hpll).store
    refine State.blocksFrameStart_keeps (fun b _ => k.block b) [] (k.rest _ ?_ (by simp [Input.initial]))
    simp [hstore]
  case hold | release | setMode | clearEvents | clearCounters | restart | eventsClearWrite | itemSelect =>
    exact k.portKeeps.transaction _ _ _ _ hs
  case outputLineEnd =>
    exact k.same hs (by simp [effectOf]) (by simp [effectOf, State.nextLine])
  all_goals exact k.same hs (by simp [effectOf, State.wantRefresh]) (by simp [effectOf])

end Sys2Proof.Machine
end

