-- ==== Sys2Proof/Proofs/SlotsInOrder.lean ====
section
/-! At most one slot FILLING, CHOSEN and SHOWING, and the frames held in order: the grant with its window check, the
report of a ballot, and making a slot SHOWING keep both laws of the frame store. -/

namespace Sys2Proof.Machine

/-! ## The first law, slot by slot -/

theorem State.slotLaw_iff (s : State) : s.SlotLaw ↔
    (∀ st ∈ [SlotState.filling, .chosen, .showing], ∀ i j, (s.store.slots.get i).state = st →
      (s.store.slots.get j).state = st → i = j) ∧
    ∀ i, (s.store.slots.get i).state = .filling → s.input.state = .stable := by
  simp only [State.SlotLaw, Slots.number_le_one_iff, Slots.number_pos_iff, forall_exists_index, List.forall_mem_cons,
    List.not_mem_nil, false_imp_iff, implies_true, and_true, and_assoc]

/-- In a state in which at most one slot may be, there is at most one. -/
theorem State.SlotLaw.unique {s : State} (hs : s.SlotLaw) {st : SlotState}
    (hst : st ∈ [SlotState.filling, .chosen, .showing]) {i j : Fin 5} (hi : (s.store.slots.get i).state = st)
    (hj : (s.store.slots.get j).state = st) : i = j := ((State.slotLaw_iff s).mp hs).1 st hst i j hi hj

/-- Where each slot in a state of the law was in that state before, and the input is as it was, the law is kept. -/
theorem State.SlotLaw.of_sub {s t : State} (hs : s.SlotLaw)
    (hslot : ∀ i, ∀ st ∈ [SlotState.filling, .chosen, .showing], (t.store.slots.get i).state = st →
      (s.store.slots.get i).state = st) (hstate : t.input.state = s.input.state) : t.SlotLaw := by
  refine (State.slotLaw_iff t).mpr ⟨fun st hst i j hi hj => ?_, fun i hi => ?_⟩
  · exact hs.unique hst (hslot i st hst hi) (hslot j st hst hj)
  · exact hstate.trans (((State.slotLaw_iff s).mp hs).2 i (hslot i _ (by simp) hi))

theorem Thinned.slotLaw {s t : State} (h : Thinned s t) (hs : s.SlotLaw) : t.SlotLaw := by
  refine hs.of_sub (fun i st hst hi => ?_) h.state
  rw [← (h.kept (by rw [hi]; rintro rfl; simp at hst)).1, hi]

/-! ## A capture completed -/

/-- Nothing, where no capture is in progress; otherwise the slot becomes FREE where it is TORN, and READY (R55). -/
theorem State.completeCapture_slots (s : State) : s.completeCapture.store.slots = s.store.slots ∨
    ∃ p, s.input.progress = some p ∧ (s.completeCapture.store.slots = s.store.slots.modify p.slot (fun _ => .free) ∨
      s.completeCapture.store.slots = s.store.slots.modify p.slot (fun r => { r with state := .ready })) := by
  simp only [State.completeCapture]
  split
  · exact .inl rfl
  · next p hp =>
    refine .inr ⟨p, hp, ?_⟩
    split
    · exact .inl rfl
    · exact .inr rfl

theorem State.completeCapture_slotLaw {s : State} (hs : s.SlotLaw) : s.completeCapture.SlotLaw := by
  refine hs.of_sub (fun i st hst hi => ?_) (by simp)
  rcases s.completeCapture_slots with h | ⟨p, _, h | h⟩ <;> rw [h] at hi
  · exact hi
  · rw [Slots.get_modify] at hi
    split at hi
    · subst hi; simp [Slot.free] at hst
    · exact hi
  · rw [Slots.get_modify] at hi
    split at hi
    · subst hi; simp at hst
    · exact hi

/-! ## A grant -/

/-- The window check of a grant: the rebase, then the stale check (R64). -/
def State.windowChecked (s : State) (n : Word) : State := (s.rebase n).staleCheck n

/-- A rebase happens: a slot is SHOWING, its gap is outside the window, and nothing is pledged or CHOSEN (R64). -/
def Slots.Rebased (x : Slots) (n : Word) (r : Slot) : Prop :=
  x.showing = some r ∧ gapInWindow (n - r.lcs).toNat = false ∧
    ∀ i, (x.get i).pledged = false ∧ (x.get i).state ≠ .chosen

/-- The LCS that a rebase gives the SHOWING slot (R64). -/
def rebasedLcs (n : Word) (r : Slot) : Word := n - BitVec.ofNat 16 (rebasedGap (n - r.lcs).toNat)

theorem Slots.any_pledged_or_chosen (x : Slots) :
    x.toList.any (fun e => e.2.pledged || e.2.state == .chosen) = false ↔
      ∀ i, (x.get i).pledged = false ∧ (x.get i).state ≠ .chosen := by
  simp [Slots.toList_eq]

/-- A rebase moves the SHOWING slot's LCS and frees the READY slots not later than it. -/
theorem State.rebase_of_rebased {s : State} {n : Word} {r : Slot} (h : s.store.slots.Rebased n r) :
    s.rebase n = (s.setSlots ((s.store.slots.map (fun _ q => if q.state = .showing then { q with lcs := rebasedLcs n r }
      else q)).freeWhere (fun q => q.state == .ready && !later q.lcs (rebasedLcs n r)))).count .rebases := by
  obtain ⟨hshow, hgap, hbusy⟩ := h
  have hbusy := (Slots.any_pledged_or_chosen _).mpr hbusy
  simp [State.rebase, hshow, hgap, hbusy, rebasedLcs, -BitVec.toNat_sub]

/-- Without a rebase nothing changes. -/
theorem State.rebase_of_not_rebased {s : State} {n : Word} (h : ∀ r, ¬s.store.slots.Rebased n r) : s.rebase n = s := by
  simp only [State.rebase]
  split
  · next r hr =>
    split
    · rfl
    · next hno =>
      simp only [Bool.or_eq_true, not_or, Bool.not_eq_true, Slots.any_pledged_or_chosen] at hno
      exact absurd ⟨hr, hno.1, hno.2⟩ (h r)
  · rfl

/-- The SHOWING slot's record is one of a SHOWING slot. -/
theorem Slots.state_of_showing {x : Slots} {r : Slot} (h : x.showing = some r) : ∃ i, r = x.get i ∧ r.state = .showing := by
  rw [Slots.showing_eq, Option.map_eq_some_iff] at h
  obtain ⟨i, hi, rfl⟩ := h
  exact ⟨i, rfl, ((Slots.first_eq_some_iff _ _ _).mp hi).1⟩

/-- What the window check leaves of one slot: a READY slot may be freed, the SHOWING slot's LCS moved. -/
theorem State.windowChecked_get (s : State) (n : Word) (i : Fin 5) :
    (s.windowChecked n).store.slots.get i = .free ∧ (s.store.slots.get i).state = .ready ∨
    (s.windowChecked n).store.slots.get i = s.store.slots.get i ∧
      (∀ r, s.store.slots.Rebased n r → (s.store.slots.get i).state ≠ .showing ∧
        ((s.store.slots.get i).state = .ready → later (s.store.slots.get i).lcs (rebasedLcs n r) = true)) ∨
    ∃ r, s.store.slots.Rebased n r ∧ (s.store.slots.get i).state = .showing ∧
      (s.windowChecked n).store.slots.get i = { s.store.slots.get i with lcs := rebasedLcs n r } := by
  by_cases hr : ∃ r, s.store.slots.Rebased n r
  · obtain ⟨r, hr⟩ := hr
    have hsame : ∀ r', s.store.slots.Rebased n r' → r' = r := fun r' h => Option.some.inj (h.1.symm.trans hr.1)
    simp only [State.windowChecked, State.staleCheck, State.rebase_of_rebased hr, State.setSlots_slots,
      State.count_frame, Slots.get_freeWhere, Slots.get_map]
    by_cases hshow : (s.store.slots.get i).state = .showing
    · exact .inr (.inr ⟨r, hr, hshow, by simp [hshow]⟩)
    · by_cases hready : (s.store.slots.get i).state = .ready
      · by_cases hlater : later (s.store.slots.get i).lcs (rebasedLcs n r) = true
        · by_cases hstale : (!(s.store.slots.get i).pledged && !gapInWindow (n - (s.store.slots.get i).lcs).toNat) = true
          · exact .inl ⟨by simp [hready, hlater, hstale, -BitVec.toNat_sub], hready⟩
          · refine .inr (.inl ⟨?_, fun r' h => ⟨hshow, fun _ => by rw [hsame r' h]; exact hlater⟩⟩)
            simp [hready, hlater, hstale, -BitVec.toNat_sub]
        · exact .inl ⟨by simp [hready, hlater, Slot.free], hready⟩
      · exact .inr (.inl ⟨by simp [hshow, hready], fun r' _ => ⟨hshow, fun h => absurd h hready⟩⟩)
  · push Not at hr
    simp only [State.windowChecked, State.staleCheck, State.rebase_of_not_rebased hr, State.setSlots_slots,
      Slots.get_freeWhere]
    split
    · next h => exact .inl ⟨rfl, by simp at h; exact h.1.1⟩
    · exact .inr (.inl ⟨rfl, fun r h => absurd h (hr r)⟩)

/-- The window check keeps every slot's state, but frees READY slots. -/
theorem State.windowChecked_state (s : State) (n : Word) (i : Fin 5) :
    ((s.windowChecked n).store.slots.get i).state = (s.store.slots.get i).state ∨
      ((s.windowChecked n).store.slots.get i).state = .free ∧ (s.store.slots.get i).state = .ready := by
  rcases s.windowChecked_get n i with ⟨hfree, hready⟩ | ⟨hkept, _⟩ | ⟨r, _, _, hmoved⟩
  · exact .inr ⟨by rw [hfree]; rfl, hready⟩
  · exact .inl (by rw [hkept])
  · exact .inl (by rw [hmoved])

@[simp] theorem State.windowChecked_frame (s : State) (n : Word) :
    (s.windowChecked n).input = s.input ∧ (s.windowChecked n).loader = s.loader ∧
    (s.windowChecked n).timing = s.timing := by
  simp [State.windowChecked]

/-- What is picked from a list is in it, and of a list with entries one is picked. -/
theorem pickBy_mem {before : Word → Word → Bool} {l : List (Fin 5 × Slot)} {e : Fin 5 × Slot}
    (h : pickBy before l = some e) : e ∈ l := by
  induction l generalizing e with
  | nil => cases h
  | cons a rest ih =>
    simp only [pickBy] at h
    split at h
    · cases h; exact List.mem_cons_self
    · next b hb =>
      split at h
      · cases h; exact List.mem_cons_self
      · cases h; exact List.mem_cons_of_mem _ (ih hb)

theorem Slots.mem_ready (x : Slots) (i : Fin 5) (r : Slot) : (i, r) ∈ x.ready ↔ r = x.get i ∧ r.state = .ready := by
  simp [Slots.ready, Slots.mem_toList]

/-- A grant takes a FREE slot, or a READY one that is not pledged (R65). -/
theorem grantChoice_state {x : Slots} {i : Fin 5} (h : grantChoice x = some i) :
    (x.get i).state = .free ∨ (x.get i).state = .ready ∧ (x.get i).pledged = false := by
  simp only [grantChoice] at h
  split at h
  · next j hj =>
    cases h
    exact .inl ((Slots.first_eq_some_iff _ _ _).mp hj).1
  · obtain ⟨⟨j, r⟩, hr, rfl⟩ := Option.map_eq_some_iff.mp h
    have hmem := pickBy_mem hr
    simp only [List.mem_filter, Slots.mem_ready, Bool.not_eq_true'] at hmem
    obtain ⟨⟨rfl, hready⟩, hfree⟩ := hmem
    exact .inr ⟨hready, hfree⟩

/-- A grant without a slot to take leaves what the window check left; a grant of slot `i` begins it anew (R65). -/
theorem State.grant_none {s : State} {n : Word} {t : Stamp} (h : grantChoice (s.windowChecked n).store.slots = none) :
    s.grant n t = (s.windowChecked n, none) := by
  simp only [State.windowChecked] at h
  simp only [State.grant, h]
  rfl

theorem State.grant_some {s : State} {n : Word} {t : Stamp} {i : Fin 5}
    (h : grantChoice (s.windowChecked n).store.slots = some i) :
    (s.grant n t).2 = some i ∧ (s.grant n t).1.store.slots =
      (s.windowChecked n).store.slots.modify i (fun _ => ⟨.filling, n, t, 0, false, false⟩) := by
  simp only [State.windowChecked] at h ⊢
  simp only [State.grant, h, true_and]
  split <;> rfl

/-- The count of input frames rises by one (R51, step 4). -/
def State.countFrame (s : State) : State := s.setInput { s.input with lcs := s.input.lcs + 1 }

/-- What the beginning of a frame can do (R51, steps 4 to 7). -/
theorem State.beginFrame_cases (s : State) :
    s.beginFrame = s.countFrame ∨ s.beginFrame = s.countFrame.windowChecked (s.input.lcs + 1) ∨
    ∃ i, grantChoice (s.countFrame.windowChecked (s.input.lcs + 1)).store.slots = some i ∧
      s.beginFrame.store.slots = (s.countFrame.windowChecked (s.input.lcs + 1)).store.slots.modify i
        (fun _ => ⟨.filling, s.input.lcs + 1, ⟨s.timing.wfn, s.timing.line⟩, 0, false, false⟩) ∧
      s.beginFrame.input = { s.countFrame.input with progress := some ⟨i, 0, 0, 0, false⟩ } := by
  by_cases husable : s.countFrame.usable = true
  · cases hchoice : grantChoice (s.countFrame.windowChecked (s.input.lcs + 1)).store.slots with
    | none =>
      refine .inr (.inl ?_)
      have hgrant := State.grant_none (t := ⟨s.timing.wfn, s.timing.line⟩) hchoice
      simp only [State.countFrame] at husable hgrant ⊢
      simp only [State.beginFrame, if_pos husable, State.setInput_timing, hgrant]
    | some i =>
      refine .inr (.inr ⟨i, rfl, ?_⟩)
      obtain ⟨hnumber, hslots⟩ := State.grant_some (t := ⟨s.timing.wfn, s.timing.line⟩) hchoice
      simp only [State.countFrame] at husable hnumber hslots ⊢
      simp only [State.beginFrame, if_pos husable, State.setInput_timing, hnumber]
      exact ⟨hslots, by simp⟩
  · refine .inl ?_
    simp only [State.countFrame] at husable ⊢
    simp only [State.beginFrame, if_neg husable]

theorem State.beginFrame_slotLaw {s : State} (hs : s.SlotLaw) (hnone : s.store.slots.NoneFilling)
    (hstable : s.input.state = .stable) : s.beginFrame.SlotLaw := by
  have hcount : s.countFrame.SlotLaw := hs
  have hchecked : ∀ i, ∀ st ∈ [SlotState.filling, .chosen, .showing],
      ((s.countFrame.windowChecked (s.input.lcs + 1)).store.slots.get i).state = st →
      (s.store.slots.get i).state = st := by
    intro i st hst hi
    rcases s.countFrame.windowChecked_state (s.input.lcs + 1) i with h | ⟨h, _⟩
    · exact h.symm.trans hi
    · rw [h] at hi
      subst hi
      simp at hst
  rcases s.beginFrame_cases with h | h | ⟨k, hk, hslots, hinput⟩
  · rw [h]
    exact hcount
  · rw [h]
    exact hs.of_sub hchecked (by simp [State.countFrame])
  · refine (State.slotLaw_iff _).mpr ⟨fun st hst i j hi hj => ?_, fun i _ => by rw [hinput]; exact hstable⟩
    rw [hslots, Slots.get_modify] at hi hj
    by_cases hik : i = k <;> by_cases hjk : j = k
    · exact hik.trans hjk.symm
    · rw [if_pos hik] at hi
      rw [if_neg hjk] at hj
      exact absurd (hchecked j st hst hj) (hi ▸ hnone j)
    · rw [if_neg hik] at hi
      rw [if_pos hjk] at hj
      exact absurd (hchecked i st hst hi) (hj ▸ hnone i)
    · rw [if_neg hik] at hi
      rw [if_neg hjk] at hj
      exact hs.unique hst (hchecked i st hst hi) (hchecked j st hst hj)

/-! ## The end-of-ballot report -/

/-- The slot that an end-of-ballot report makes CHOSEN (R66, R67). -/
def Slots.ballotPick (x : Slots) (p : Word) (d : Nat) : Option (Fin 5) :=
  if d ≠ 0 ∧ x.showing.isSome ∧ x.first .chosen = none then
    (x.toList.find? (fun e => e.2.state == .ready && e.2.lcs == p + BitVec.ofNat 16 d)).map (·.1)
  else none

theorem State.ballotReport_slots (s : State) (p : Word) (d : Nat) : (s.ballotReport p d).store.slots =
    (match s.store.slots.ballotPick p d with
      | some i => s.store.slots.modify i (fun r => { r with state := .chosen })
      | none => s.store.slots).map (fun _ r => { r with pledged := false }) := by
  simp only [State.ballotReport, Slots.ballotPick, State.setSlots_slots]
  by_cases h : d ≠ 0 ∧ s.store.slots.showing.isSome ∧ s.store.slots.first .chosen = none
  · simp only [if_pos h]
    cases s.store.slots.toList.find? (fun e => e.2.state == .ready && e.2.lcs == p + BitVec.ofNat 16 d) <;> rfl
  · simp only [if_neg h]

/-- The slot picked is READY with the LCS p + d, and no slot is CHOSEN. -/
theorem Slots.ballotPick_state {x : Slots} {p : Word} {d : Nat} {i : Fin 5} (h : x.ballotPick p d = some i) :
    (x.get i).state = .ready ∧ (x.get i).lcs = p + BitVec.ofNat 16 d ∧ x.first .chosen = none := by
  simp only [Slots.ballotPick] at h
  split at h
  · next hc =>
    obtain ⟨⟨j, r⟩, hr, rfl⟩ := Option.map_eq_some_iff.mp h
    obtain ⟨rfl, hp, _⟩ := (Slots.find?_eq_some_iff _ _ _ _).mp hr
    simp only [Bool.and_eq_true, beq_iff_eq] at hp
    exact ⟨hp.1, hp.2, hc.2.2⟩
  · cases h

/-- What a report leaves of one slot: its pledge is released, and the slot picked is CHOSEN. -/
theorem State.ballotReport_get (s : State) (p : Word) (d : Nat) (i : Fin 5) : (s.ballotReport p d).store.slots.get i =
    if s.store.slots.ballotPick p d = some i then { s.store.slots.get i with state := .chosen, pledged := false }
    else { s.store.slots.get i with pledged := false } := by
  rw [State.ballotReport_slots]
  cases hpick : s.store.slots.ballotPick p d with
  | none => simp
  | some k =>
    by_cases hik : i = k
    · simp [hik]
    · have hki : k ≠ i := fun e => hik e.symm
      simp [hik, hki]

theorem State.ballotReport_slotLaw {s : State} (p : Word) (d : Nat) (hs : s.SlotLaw) : (s.ballotReport p d).SlotLaw := by
  cases hpick : s.store.slots.ballotPick p d with
  | none => exact hs.of_sub (fun i st _ hi => by simpa [State.ballotReport_get, hpick] using hi) (by simp)
  | some k =>
    obtain ⟨hready, _, hchosen⟩ := Slots.ballotPick_state hpick
    rw [Slots.first_eq_none_iff] at hchosen
    have hother : ∀ i, i ≠ k → ((s.ballotReport p d).store.slots.get i).state = (s.store.slots.get i).state := by
      intro i hi
      rw [State.ballotReport_get, hpick, if_neg (fun e => hi (Option.some.inj e).symm)]
    have hk : ((s.ballotReport p d).store.slots.get k).state = .chosen := by
      rw [State.ballotReport_get, hpick, if_pos rfl]
    refine (State.slotLaw_iff _).mpr ⟨fun st hst i j hi hj => ?_, fun i hi => ?_⟩
    · by_cases hik : i = k <;> by_cases hjk : j = k
      · exact hik.trans hjk.symm
      · rw [hik, hk] at hi
        rw [hother j hjk] at hj
        exact absurd (hj.trans hi.symm) (hchosen j)
      · rw [hjk, hk] at hj
        rw [hother i hik] at hi
        exact absurd (hi.trans hj.symm) (hchosen i)
      · rw [hother i hik] at hi
        rw [hother j hjk] at hj
        exact hs.unique hst hi hj
    · by_cases hik : i = k
      · rw [hik, hk] at hi
        cases hi
      · rw [hother i hik] at hi
        simpa using ((State.slotLaw_iff s).mp hs).2 i hi

/-! ## A slot shown -/

/-- The slots after slot `i` has been made SHOWING, others freed perhaps, the input as it was. -/
structure Shown (i : Fin 5) (s t : State) : Prop where
  shown : (t.store.slots.get i).state = .showing ∧ (t.store.slots.get i).lcs = (s.store.slots.get i).lcs
    ∨ (t.store.slots.get i).state = .free
  other : ∀ j, j ≠ i → (t.store.slots.get j).state = .free ∧
        ((s.store.slots.get j).state = .showing ∨ (s.store.slots.get j).state = .ready) ∨
      t.store.slots.get j = s.store.slots.get j ∧ (s.store.slots.get j).state ≠ .showing ∧
        ((s.store.slots.get j).state = .ready → later (s.store.slots.get i).lcs (s.store.slots.get j).lcs = false)
  input : t.input = s.input

/-- Whatever becomes of the slot shown, the others are as making it SHOWING leaves them. -/
theorem Shown.of_showSlot {s t : State} {i : Fin 5}
    (hi : t.store.slots.get i = (showSlot s.store.slots i).get i ∨ (t.store.slots.get i).state = .free)
    (hj : ∀ j, j ≠ i → t.store.slots.get j = (showSlot s.store.slots i).get j ∨
      (t.store.slots.get j).state = .free ∧ ((showSlot s.store.slots i).get j).state = .ready)
    (hinput : t.input = s.input) : Shown i s t where
  shown := hi.imp (fun h => by rw [h, showSlot_get_same]; exact ⟨rfl, rfl⟩) id
  other j hji := by
    have hother := showSlot_get_other s.store.slots hji
    rcases hj j hji with h | ⟨hfree, hready⟩
    · rw [h, hother]
      split
      · next hgone => exact .inl ⟨rfl, hgone.imp id And.left⟩
      · next hkept =>
        simp only [not_or, not_and, Bool.not_eq_true] at hkept
        exact .inr ⟨rfl, hkept.1, hkept.2⟩
    · rw [hother] at hready
      split at hready
      · cases hready
      · exact .inl ⟨hfree, .inr hready⟩
  input := hinput

theorem Shown.slotLaw {i : Fin 5} {s t : State} (h : Shown i s t) (hs : s.SlotLaw) : t.SlotLaw := by
  have hother : ∀ j, j ≠ i → ∀ st ∈ [SlotState.filling, .chosen, .showing], (t.store.slots.get j).state = st →
      st ≠ .showing ∧ (s.store.slots.get j).state = st := by
    intro j hj st hst hjst
    rcases h.other j hj with ⟨hfree, _⟩ | ⟨hkept, hne, _⟩
    · rw [hfree] at hjst
      subst hjst
      simp at hst
    · rw [hkept] at hjst
      exact ⟨fun e => hne (hjst.trans e), hjst⟩
  have hshown : ∀ st ∈ [SlotState.filling, .chosen, .showing], (t.store.slots.get i).state = st → st = .showing := by
    intro st hst hi
    rcases h.shown with ⟨hshow, _⟩ | hfree
    · exact hi.symm.trans hshow
    · rw [hfree] at hi
      subst hi
      simp at hst
  refine (State.slotLaw_iff t).mpr ⟨fun st hst j k hj hk => ?_, fun j hj => ?_⟩
  · by_cases hji : j = i <;> by_cases hki : k = i
    · exact hji.trans hki.symm
    · exact absurd (hshown st hst (hji ▸ hj)) (hother k hki st hst hk).1
    · exact absurd (hshown st hst (hki ▸ hk)) (hother j hji st hst hj).1
    · exact hs.unique hst (hother j hji st hst hj).2 (hother k hki st hst hk).2
  · by_cases hji : j = i
    · have := hshown .filling (by simp) (hji ▸ hj)
      cases this
    · rw [h.input]
      exact ((State.slotLaw_iff s).mp hs).2 j (hother j hji .filling (by simp) hj).2

/-- The slots after a switch: the CHOSEN slot is shown, and freed where a drop is pending (R68). -/
theorem State.switch_slots {s : State} {i : Fin 5} (h : s.store.slots.first .chosen = some i) :
    s.switch.store.slots = if s.store.dropPending = true then (showSlot s.store.slots i).modify i (fun _ => .free)
      else showSlot s.store.slots i := by
  simp only [State.switch, h]
  by_cases hdrop : s.store.dropPending = true <;> simp [State.setSlots, hdrop]

theorem State.switch_none {s : State} (h : s.store.slots.first .chosen = none) : s.switch = s := by
  simp [State.switch, h]

/-- A switch shows the CHOSEN slot, or drops it at once. -/
theorem State.switch_shown (s : State) : s.switch = s ∨
    ∃ i, (s.store.slots.get i).state = .chosen ∧ Shown i s s.switch := by
  cases h : s.store.slots.first .chosen with
  | none => exact .inl (State.switch_none h)
  | some i =>
    have hslots := State.switch_slots h
    refine .inr ⟨i, ((Slots.first_eq_some_iff _ _ _).mp h).1, .of_showSlot ?_ (fun j hj => .inl ?_) (by simp)⟩
    · rw [hslots]
      split
      · exact .inr (by simp [Slot.free])
      · exact .inl rfl
    · rw [hslots]
      split
      · simp [hj]
      · rfl

/-- A match is a READY or SHOWING slot. -/
theorem mem_matchesOf {c : Settings} {x : Slots} {t : Stamp} {d : Nat} {i : Fin 5} {n : Word} :
    (d, i, n) ∈ matchesOf c x t ↔ ((x.get i).state = .ready ∨ (x.get i).state = .showing) ∧
      stampsMatch c (x.get i).stamp t = true ∧ stampDistance c.vtot (x.get i).stamp t = some d ∧ (x.get i).lcs = n := by
  simp only [matchesOf, List.mem_filterMap, Prod.exists, Slots.mem_toList]
  constructor
  · rintro ⟨j, r, rfl, h⟩
    split at h
    · next hc =>
      obtain ⟨d', hd, he⟩ := Option.map_eq_some_iff.mp h
      cases he
      exact ⟨hc.1, hc.2, hd, rfl⟩
    · cases h
  · rintro ⟨hstate, hmatch, hd, rfl⟩
    exact ⟨i, _, rfl, by simp [hstate, hmatch, hd]⟩

theorem bestMatch_mem {l : List (Nat × Fin 5 × Word)} {e : Nat × Fin 5 × Word} (h : bestMatch l = some e) : e ∈ l := by
  induction l generalizing e with
  | nil => cases h
  | cons a rest ih =>
    simp only [bestMatch] at h
    split at h
    · cases h; exact List.mem_cons_self
    · next b hb =>
      split at h
      · cases h; exact List.mem_cons_self
      · cases h; exact List.mem_cons_of_mem _ (ih hb)

/-- An alignment shows a READY slot, or the slot that is SHOWING (R69). -/
theorem State.align_shown {s u : State} {t : Stamp} (h : s.align t = some u) :
    ∃ i, ((s.store.slots.get i).state = .ready ∨ (s.store.slots.get i).state = .showing) ∧
      u.store.slots = showSlot s.store.slots i ∧ u.input = s.input := by
  simp only [State.align] at h
  split at h
  · cases h
  · next d i n hbest =>
    cases h
    refine ⟨i, (mem_matchesOf.mp (bestMatch_mem hbest)).1, ?_⟩
    split <;> simp

/-- A founding shows the newest READY slot and frees the others (R70). -/
theorem State.foundPicture_shown {s u : State} (h : s.foundPicture = some u) :
    ∃ i r, newest s.store.slots.ready = some (i, r) ∧ (s.store.slots.get i).state = .ready ∧
      u.store.slots = (showSlot s.store.slots i).freeWhere (fun r => r.state == .ready) ∧ u.input = s.input := by
  simp only [State.foundPicture] at h
  split at h
  · cases h
  · next i r hbest =>
    cases h
    obtain ⟨rfl, hready⟩ := (Slots.mem_ready _ _ _).mp (pickBy_mem hbest)
    exact ⟨i, _, hbest, hready, by simp, by simp⟩

theorem State.align_is_shown {s u : State} {t : Stamp} (h : s.align t = some u) :
    ∃ i, ((s.store.slots.get i).state = .ready ∨ (s.store.slots.get i).state = .showing) ∧ Shown i s u := by
  obtain ⟨i, hi, hslots, hinput⟩ := State.align_shown h
  exact ⟨i, hi, .of_showSlot (.inl (by rw [hslots])) (fun j _ => .inl (by rw [hslots])) hinput⟩

theorem State.foundPicture_is_shown {s u : State} (h : s.foundPicture = some u) :
    ∃ i, (s.store.slots.get i).state = .ready ∧ Shown i s u := by
  obtain ⟨i, r, _, hi, hslots, hinput⟩ := State.foundPicture_shown h
  refine ⟨i, hi, .of_showSlot (.inl (by simp [hslots])) (fun j hj => ?_) hinput⟩
  rw [hslots, Slots.get_freeWhere]
  split
  · next hr => exact .inr ⟨rfl, by simpa using hr⟩
  · exact .inl rfl

/-! ## The first law -/

/-- The first law bears all that changes the slots. -/
theorem slotLaw_slotsKeep : SlotsKeep State.SlotLaw State.SlotLaw where
  weaken _ hs := hs
  law _ hs := hs
  thin _ _ h hs := h.slotLaw hs
  thin_after _ _ h hs := h.slotLaw hs
  idle s x hs hnone _ _ := (State.slotLaw_iff _).mpr ⟨((State.slotLaw_iff s).mp hs).1, fun i hi => absurd hi (hnone i)⟩
  complete _ hs := State.completeCapture_slotLaw hs
  abandon s hs := by
    refine (State.slotLaw_iff _).mpr ⟨fun st hst i j hi hj => ?_, fun i hi => absurd hi (s.abandonCapture_noneFilling i)⟩
    have hsub : ∀ k, (s.abandonCapture.store.slots.get k).state = st → (s.store.slots.get k).state = st := by
      intro k hk
      rw [State.abandonCapture_slots, Slots.get_freeWhere] at hk
      split at hk
      · subst hk; simp [Slot.free] at hst
      · exact hk
    exact hs.unique hst (hsub i hi) (hsub j hj)
  begin_frame _ hs hnone hstable := State.beginFrame_slotLaw hs hnone hstable
  report _ p d hs := State.ballotReport_slotLaw p d hs
  switch s hs := by
    rcases s.switch_shown with h | ⟨i, _, h⟩
    · rw [h]; exact hs
    · exact h.slotLaw hs
  align s t u hs h := by
    obtain ⟨i, _, hshown⟩ := State.align_is_shown h
    exact hshown.slotLaw hs
  found s u hs h := by
    obtain ⟨i, _, hshown⟩ := State.foundPicture_is_shown h
    exact hshown.slotLaw hs
  rest s hslots _ := by
    have hfree : ∀ i, (s.store.slots.get i).state = .free := by
      rw [hslots]
      exact fun i => by fin_cases i <;> rfl
    refine (State.slotLaw_iff s).mpr ⟨fun st hst i j hi => ?_, fun i hi => ?_⟩
    · rw [hfree] at hi
      subst hi
      simp at hst
    · rw [hfree] at hi
      cases hi

/-- A Span leaves of the input what it has measured, and its capture. -/
@[simp] theorem Input.pass_keeps (n : Input) (w : Span) :
    (n.pass w).state = n.state ∧ (n.pass w).lcs = n.lcs ∧ (n.pass w).progress = n.progress ∧
    (n.pass w).stable = n.stable ∧ (n.pass w).record = n.record ∧ (n.pass w).active = n.active := by
  simp only [Input.pass]
  split <;> simp

/-- The end of a transfer leaves the slots. -/
theorem State.finishTransfer_slots {s t : State} (h : s.finishTransfer = some t) : t.store.slots = s.store.slots := by
  simp only [State.finishTransfer, State.receiveRead] at h
  repeat' split at h
  all_goals cases h <;> simp

/-- A law that bears all that changes the slots is kept by every step. -/
theorem SlotsKeep.step {P Q : State → Prop} (k : SlotsKeep P Q) {s t : State} (hrest : s.RestLaw) (hs : P s)
    (h : step s = .next t) : Q t := by
  have hpass : ∀ w u, P u → P (u.pass w) := fun w u hu =>
    k.thin u _ (.of_input (by simp) (by simp) (by simp) (fun q hq => ⟨q, by simpa using hq, rfl⟩)) hu
  have hsettle : ∀ u, Q u → Q u.settle := fun u hu => k.thin_after u _ (.of_eq (by simp) (by simp)) hu
  simp only [Machine.step] at h
  split at h
  · cases h
    exact k.weaken _ hs
  · next c rest _ =>
    have hs' : P (s.setPending rest) := k.same hs rfl rfl
    have hrest' : ∀ w, ((s.setPending rest).pass w).RestLaw := fun w => State.pass_restLaw w hrest
    rcases exec_next h with ⟨w, _, rfl⟩ | ⟨w, u, _, hu, rfl⟩ | ⟨_, _, rfl | ⟨hd, rfl⟩⟩
    · exact k.weaken _ (k.rest _ rfl rfl)
    · obtain ⟨-, -, -, -, hinput, -⟩ := State.finishTransfer_frame hu
      exact hsettle _ (k.weaken _ (k.same (hpass w _ hs') (State.finishTransfer_slots hu) hinput))
    · exact hsettle _ (k.weaken _ (hpass _ _ hs'))
    · exact hsettle _ (k.effect c _ (hrest' _) (hpass _ _ hs') hd)

/-- Settles O17. -/
theorem oneSlotOfEach : Obligations.OneSlotOfEach := by
  unfold Obligations.OneSlotOfEach
  exact fun s t hrest hs h => slotLaw_slotsKeep.step hrest hs h

end Sys2Proof.Machine
end

