-- ==== Sys2Proof/Proofs/FramesAndPicture.lean ====
section
/-! The second law of the frame store, and a MEMBER's SHOWING slot. -/

namespace Sys2Proof.Machine

/-! ## Modular order among frames that are near -/

theorem later_iff (a b : Word) : later a b = true ↔ 1 ≤ (a - b).toNat ∧ (a - b).toNat ≤ 32767 := by
  simp only [later, Bool.and_eq_true, decide_eq_true_eq]

/-- Of two frames less than half of the circle old, one is the later. -/
theorem later_of_near {n a b : Word} (ha : (n - a).toNat ≤ 32766) (hb : (n - b).toNat ≤ 32766) (hne : a ≠ b)
    (hab : later a b = false) : later b a = true := by
  have hne' : a.toNat ≠ b.toNat := fun e => hne (BitVec.eq_of_toNat_eq e)
  have hn := n.isLt
  have hla := a.isLt
  have hlb := b.isLt
  rw [← Bool.not_eq_true, later_iff] at hab
  rw [later_iff]
  rw [BitVec.toNat_sub] at ha hb hab ⊢
  omega

/-- A frame that is near, and not the present one, is earlier than the present one. -/
theorem later_present {n a : Word} (ha : (n - a).toNat ≤ 32766) (hne : n ≠ a) : later n a = true := by
  have hne' : n.toNat ≠ a.toNat := fun e => hne (BitVec.eq_of_toNat_eq e)
  have hn := n.isLt
  have hla := a.isLt
  rw [later_iff]
  rw [BitVec.toNat_sub] at ha ⊢
  omega

/-- The next frame is later than every frame that is near the present one. -/
theorem later_next {n a : Word} (ha : (n - a).toNat ≤ 32766) : later (n + 1) a = true := by
  have hn := n.isLt
  have hla := a.isLt
  rw [later_iff]
  rw [BitVec.toNat_sub] at ha ⊢
  rw [BitVec.toNat_add]
  have hone : (1 : Word).toNat = 1 := rfl
  omega

theorem ne_of_later {a b : Word} (h : later a b = true) : a ≠ b := by
  rintro rfl
  simp [later] at h

theorem rebasedGap_range (g : Nat) : 1 ≤ rebasedGap g ∧ rebasedGap g ≤ 11 := by
  simp only [rebasedGap]
  omega

/-- A rebase leaves the SHOWING slot earlier than the frame granted (R64). -/
theorem later_rebasedLcs (n : Word) (r : Slot) : later n (rebasedLcs n r) = true := by
  obtain ⟨hlow, hhigh⟩ := rebasedGap_range (n - r.lcs).toNat
  rw [later_iff, rebasedLcs, sub_sub_cancel, BitVec.toNat_ofNat]
  omega

/-! ## The second law -/

/-- A slot that holds a frame not yet shown is not FREE. -/
theorem Slot.ahead.ne_free {r : Slot} (h : r.ahead) : r.state ≠ .free := by
  rcases h with h | h | h <;> simp [h]

theorem Slot.ahead.ne_showing {r : Slot} (h : r.ahead) : r.state ≠ .showing := by
  rcases h with h | h | h <;> simp [h]

theorem Slot.ahead_of_eq {q r : Slot} (h : r.ahead) (hstate : r.state = q.state) : q.ahead := by
  simpa only [Slot.ahead, hstate] using h

/-- Frames that were near are near, where the count stands. -/
theorem State.FramesNear.of_sub {s t : State} (hs : s.FramesNear) (hlcs : t.input.lcs = s.input.lcs)
    (hslot : ∀ i, (t.store.slots.get i).state ≠ .free → (s.store.slots.get i).state ≠ .free ∧
      (t.store.slots.get i).lcs = (s.store.slots.get i).lcs) : t.FramesNear := by
  intro i hi
  obtain ⟨hne, hsame⟩ := hslot i hi
  rw [hlcs, hsame]
  exact hs i hne

theorem Thinned.framesNear {s t : State} (h : Thinned s t) (hs : s.FramesNear) : t.FramesNear :=
  hs.of_sub h.lcs (fun _ hi => ⟨(h.kept hi).1 ▸ hi, (h.kept hi).2⟩)

theorem Thinned.orderLaw {s t : State} (h : Thinned s t) (hs : s.OrderLaw) : t.OrderLaw := by
  obtain ⟨hdistinct, hlater, hfilling, hprogress⟩ := hs
  refine ⟨fun i j hij hi hj => ?_, fun i j hi hj => ?_, fun j hj => ?_, fun p hp => ?_⟩
  · obtain ⟨hsi, hli⟩ := h.kept hi.ne_free
    obtain ⟨hsj, hlj⟩ := h.kept hj.ne_free
    rw [hli, hlj]
    exact hdistinct i j hij (Slot.ahead_of_eq hi hsi) (Slot.ahead_of_eq hj hsj)
  · obtain ⟨hsi, hli⟩ := h.kept (i := i) (by simp [hi])
    obtain ⟨hsj, hlj⟩ := h.kept (i := j) (by rcases hj with hj | hj <;> simp [hj])
    rw [hli, hlj]
    exact hlater i j (hsi ▸ hi) (hsj ▸ hj)
  · obtain ⟨hsj, hlj⟩ := h.kept (i := j) (by simp [hj])
    rw [hlj, h.lcs]
    exact hfilling j (hsj ▸ hj)
  · obtain ⟨q, hq, hqp⟩ := h.progress p hp
    exact h.filling (hqp ▸ hprogress q hq)

/-- Where the capture has ended: each slot is FREE, or holds what it held, and the FILLING one is READY. -/
theorem State.OrderLaw.of_captureEnded {s t : State} (hs : s.OrderLaw) (hlcs : t.input.lcs = s.input.lcs)
    (hprogress : t.input.progress = none)
    (hslot : ∀ i, (t.store.slots.get i).state ≠ .free → (t.store.slots.get i).lcs = (s.store.slots.get i).lcs ∧
      ((t.store.slots.get i).state = (s.store.slots.get i).state ∨
        (s.store.slots.get i).state = .filling ∧ (t.store.slots.get i).state = .ready)) : t.OrderLaw := by
  obtain ⟨hdistinct, hlater, hfilling, -⟩ := hs
  refine ⟨fun i j hij hi hj => ?_, fun i j hi hj => ?_, fun j hj => ?_, fun p hp => by rw [hprogress] at hp; cases hp⟩
  · obtain ⟨hli, hsi⟩ := hslot i hi.ne_free
    obtain ⟨hlj, hsj⟩ := hslot j hj.ne_free
    rw [hli, hlj]
    refine hdistinct i j hij ?_ ?_
    · exact hsi.elim (Slot.ahead_of_eq hi ·) (fun h => .inl h.1)
    · exact hsj.elim (Slot.ahead_of_eq hj ·) (fun h => .inl h.1)
  · obtain ⟨hli, hsi⟩ := hslot i (by simp [hi])
    obtain ⟨hlj, hsj⟩ := hslot j (by rcases hj with hj | hj <;> simp [hj])
    rw [hli, hlj]
    refine hlater i j ?_ ?_
    · exact hsi.elim (fun h => h ▸ hi) (fun h => by simp [h.2] at hi)
    · exact hsj.elim (fun h => h ▸ hj) (fun h => .inr h.1)
  · obtain ⟨hlj, hsj⟩ := hslot j (by simp [hj])
    rw [hlj, hlcs]
    exact hfilling j (hsj.elim (fun h => h ▸ hj) (fun h => h.1))

/-- A capture that ends clears its progress and leaves the count. -/
theorem State.completeCapture_input (s : State) : s.completeCapture.input = { s.input with progress := none } := by
  simp only [State.completeCapture]
  split
  · next h => rw [← h]
  · split <;> simp

theorem State.completeCapture_order {s : State} (hs : s.OrderLaw) :
    s.completeCapture.OrderLaw ∧ (s.FramesNear → s.completeCapture.FramesNear) := by
  have hinput := s.completeCapture_input
  have hslot : ∀ i, (s.completeCapture.store.slots.get i).state ≠ .free →
      (s.completeCapture.store.slots.get i).lcs = (s.store.slots.get i).lcs ∧
      ((s.completeCapture.store.slots.get i).state = (s.store.slots.get i).state ∨
        (s.store.slots.get i).state = .filling ∧ (s.completeCapture.store.slots.get i).state = .ready) := by
    intro i hi
    rcases s.completeCapture_slots with h | ⟨p, hp, h | h⟩ <;> rw [h] at hi ⊢
    · exact ⟨rfl, .inl rfl⟩
    · rw [Slots.get_modify] at hi ⊢
      split at hi
      · exact absurd rfl hi
      · next hne => simp [hne]
    · rw [Slots.get_modify]
      split
      · next he => exact ⟨rfl, .inr ⟨he ▸ hs.2.2.2 p hp, rfl⟩⟩
      · exact ⟨rfl, .inl rfl⟩
  refine ⟨hs.of_captureEnded (by rw [hinput]) (by rw [hinput]) hslot, fun hnear => hnear.of_sub (by rw [hinput]) ?_⟩
  intro i hi
  obtain ⟨hlcs, hstate⟩ := hslot i hi
  exact ⟨hstate.elim (fun h => h ▸ hi) (fun h => by simp [h.1]), hlcs⟩

theorem State.abandonCapture_order {s : State} (hs : s.OrderLaw) :
    s.abandonCapture.OrderLaw ∧ (s.FramesNear → s.abandonCapture.FramesNear) := by
  have hslot : ∀ i, (s.abandonCapture.store.slots.get i).state ≠ .free →
      s.abandonCapture.store.slots.get i = s.store.slots.get i := by
    intro i hi
    rw [State.abandonCapture_slots, Slots.get_freeWhere] at hi ⊢
    split at hi
    · exact absurd rfl hi
    · next h => exact if_neg h
  refine ⟨hs.of_captureEnded rfl rfl (fun i hi => ?_), fun hnear => hnear.of_sub rfl (fun i hi => ?_)⟩
  · rw [hslot i hi]
    exact ⟨rfl, .inl rfl⟩
  · have h := hslot i hi
    exact ⟨h ▸ hi, by rw [h]⟩

theorem State.ballotReport_order {s : State} (p : Word) (d : Nat) (hs : s.OrderLaw) :
    (s.ballotReport p d).OrderLaw ∧ (s.FramesNear → (s.ballotReport p d).FramesNear) := by
  have hlcs : ∀ i, ((s.ballotReport p d).store.slots.get i).lcs = (s.store.slots.get i).lcs := by
    intro i
    rw [State.ballotReport_get]
    split <;> rfl
  have hstate : ∀ i, ((s.ballotReport p d).store.slots.get i).state = (s.store.slots.get i).state ∨
      (s.store.slots.get i).state = .ready ∧ ((s.ballotReport p d).store.slots.get i).state = .chosen := by
    intro i
    rw [State.ballotReport_get]
    split
    · next h => exact .inr ⟨(Slots.ballotPick_state h).1, rfl⟩
    · exact .inl rfl
  have hahead : ∀ i, ((s.ballotReport p d).store.slots.get i).ahead → (s.store.slots.get i).ahead := fun i hi =>
    (hstate i).elim (Slot.ahead_of_eq hi ·) (fun h => .inr (.inl h.1))
  have hback : ∀ i st, st ≠ .chosen → ((s.ballotReport p d).store.slots.get i).state = st →
      (s.store.slots.get i).state = st := by
    intro i st hst hi
    rcases hstate i with h | ⟨_, h⟩
    · exact h.symm.trans hi
    · exact absurd (hi.symm.trans h) hst
  obtain ⟨hdistinct, hlater, hfilling, hprogress⟩ := hs
  refine ⟨⟨fun i j hij hi hj => ?_, fun i j hi hj => ?_, fun j hj => ?_, fun q hq => ?_⟩, fun hnear => hnear.of_sub (by simp) ?_⟩
  · rw [hlcs, hlcs]
    exact hdistinct i j hij (hahead i hi) (hahead j hj)
  · rw [hlcs, hlcs]
    exact hlater i j (hback i _ (by simp) hi) (hj.imp (hback j _ (by simp)) (hback j _ (by simp)))
  · simpa [hlcs] using hfilling j (hback j _ (by simp) hj)
  · have hfill := hprogress q (by simpa using hq)
    rcases hstate q.slot with h | ⟨h, _⟩
    · exact h.trans hfill
    · rw [hfill] at h
      cases h
  · intro i hi
    exact ⟨(hstate i).elim (fun h => h ▸ hi) (fun h => by simp [h.1]), hlcs i⟩

/-- Making a READY, CHOSEN or SHOWING slot SHOWING keeps the order among frames that are near. -/
theorem Shown.order {i : Fin 5} {s t : State} (h : Shown i s t) (hs : s.OrderLaw) (hnear : s.FramesNear)
    (hi : (s.store.slots.get i).state = .ready ∨ (s.store.slots.get i).state = .chosen ∨
      (s.store.slots.get i).state = .showing) : t.OrderLaw ∧ t.FramesNear := by
  obtain ⟨hdistinct, hlater, hfilling, hprogress⟩ := hs
  have hi_near := hnear i (by rcases hi with hi | hi | hi <;> simp [hi])
  have hi_not_ahead : ¬(t.store.slots.get i).ahead := by
    rcases h.shown with ⟨hshow, _⟩ | hfree
    · exact fun ha => ha.ne_showing hshow
    · exact fun ha => ha.ne_free hfree
  have hkept : ∀ j, j ≠ i → (t.store.slots.get j).state ≠ .free → t.store.slots.get j = s.store.slots.get j ∧
      (s.store.slots.get j).state ≠ .showing ∧
      ((s.store.slots.get j).state = .ready → later (s.store.slots.get i).lcs (s.store.slots.get j).lcs = false) :=
    fun j hj hne => (h.other j hj).resolve_left (fun hf => hne hf.1)
  refine ⟨⟨fun j k hjk hj hk => ?_, fun a j ha hj => ?_, fun j hj => ?_, fun p hp => ?_⟩, fun j hj => ?_⟩
  · have hji : j ≠ i := fun e => hi_not_ahead (e ▸ hj)
    have hki : k ≠ i := fun e => hi_not_ahead (e ▸ hk)
    obtain ⟨hj', -⟩ := hkept j hji hj.ne_free
    obtain ⟨hk', -⟩ := hkept k hki hk.ne_free
    rw [hj'] at hj ⊢
    rw [hk'] at hk ⊢
    exact hdistinct j k hjk hj hk
  · have hai : a = i := by
      by_contra hai
      obtain ⟨ha', hne, -⟩ := hkept a hai (by simp [ha])
      exact hne (ha' ▸ ha)
    subst hai
    have hlcs : (t.store.slots.get a).lcs = (s.store.slots.get a).lcs := by
      rcases h.shown with ⟨_, hlcs⟩ | hfree
      · exact hlcs
      · rw [hfree] at ha
        cases ha
    have hja : j ≠ a := by
      rintro rfl
      rcases hj with hj | hj <;> simp [ha] at hj
    obtain ⟨hj', -, hnot⟩ := hkept j hja (by rcases hj with hj | hj <;> simp [hj])
    rw [hj'] at hj ⊢
    rw [hlcs]
    rcases hi with hia | hia | hia
    case inr.inr => exact hlater a j hia hj
    all_goals
      have hahead : (s.store.slots.get a).ahead := by simp [Slot.ahead, hia]
      have hne := hdistinct a j (Ne.symm hja) hahead (by rcases hj with hj | hj <;> simp [Slot.ahead, hj])
      rcases hj with hready | hfill
      · exact later_of_near hi_near (hnear j (by simp [hready])) hne (hnot hready)
      · rw [hfilling j hfill] at hne ⊢
        exact later_present hi_near hne.symm
  · have hji : j ≠ i := fun e => hi_not_ahead (e ▸ .inl hj)
    obtain ⟨hj', -⟩ := hkept j hji (by simp [hj])
    rw [hj'] at hj ⊢
    rw [h.input]
    exact hfilling j hj
  · rw [h.input] at hp
    have hfill := hprogress p hp
    have hpi : p.slot ≠ i := by
      rintro rfl
      rcases hi with hi | hi | hi <;> simp [hfill] at hi
    rcases h.other _ hpi with ⟨_, hgone⟩ | ⟨hsame, _⟩
    · rcases hgone with hgone | hgone <;> simp [hfill] at hgone
    · rw [hsame]
      exact hfill
  · rw [h.input]
    by_cases hji : j = i
    · subst hji
      rcases h.shown with ⟨_, hlcs⟩ | hfree
      · rw [hlcs]
        exact hi_near
      · exact absurd hfree hj
    · obtain ⟨hj', -⟩ := hkept j hji hj
      rw [hj'] at hj ⊢
      exact hnear j hj

/-- The window check keeps the order, and leaves every frame earlier than the one to be granted. -/
theorem State.windowChecked_order {s : State} (hs : s.OrderLaw) (hnear : s.FramesNear)
    (hnone : s.store.slots.NoneFilling) : (s.countFrame.windowChecked (s.input.lcs + 1)).OrderLaw ∧
      ∀ j, ((s.countFrame.windowChecked (s.input.lcs + 1)).store.slots.get j).state ≠ .free →
        later (s.input.lcs + 1) ((s.countFrame.windowChecked (s.input.lcs + 1)).store.slots.get j).lcs = true := by
  obtain ⟨hdistinct, hlater, hfilling, hprogress⟩ := hs
  have hslots : s.countFrame.store.slots = s.store.slots := rfl
  have hget := s.countFrame.windowChecked_get (s.input.lcs + 1)
  rw [hslots] at hget
  generalize hy : (s.countFrame.windowChecked (s.input.lcs + 1)).store.slots = y at hget
  have hkept : ∀ j, (y.get j).state ≠ .free → (y.get j).state ≠ .showing → y.get j = s.store.slots.get j ∧
      ((y.get j).state = .ready → ∀ r, s.store.slots.Rebased (s.input.lcs + 1) r →
        later (y.get j).lcs (rebasedLcs (s.input.lcs + 1) r) = true) := by
    intro j hne hns
    rcases hget j with ⟨hfree, _⟩ | ⟨hsame, hcond⟩ | ⟨r, _, hshow, hmoved⟩
    · exact absurd (by rw [hfree]; rfl) hne
    · exact ⟨hsame, fun hr r hreb => by rw [hsame] at hr ⊢; exact (hcond r hreb).2 hr⟩
    · exact absurd (by rw [hmoved]; exact hshow) hns
  have hnofill : ∀ j, (y.get j).state ≠ .filling := by
    intro j hj
    obtain ⟨hsame, -⟩ := hkept j (by simp [hj]) (by simp [hj])
    exact hnone j (hsame ▸ hj)
  refine ⟨⟨fun i j hij hi hj => ?_, fun i j hi hj => ?_, fun j hj => ?_, fun p hp => ?_⟩, fun j hj => ?_⟩
  · rw [hy] at hi hj ⊢
    obtain ⟨hi', -⟩ := hkept i hi.ne_free hi.ne_showing
    obtain ⟨hj', -⟩ := hkept j hj.ne_free hj.ne_showing
    rw [hi'] at hi ⊢
    rw [hj'] at hj ⊢
    exact hdistinct i j hij hi hj
  · rw [hy] at hi hj ⊢
    have hready := hj.resolve_right (hnofill j)
    obtain ⟨hj', hreb⟩ := hkept j (by simp [hready]) (by simp [hready])
    rcases hget i with ⟨hfree, _⟩ | ⟨hsame, _⟩ | ⟨r, hr, _, hmoved⟩
    · rw [hfree] at hi
      cases hi
    · rw [hsame] at hi ⊢
      rw [hj'] at hready ⊢
      exact hlater i j hi (.inl hready)
    · rw [hmoved]
      exact hreb hready r hr
  · rw [hy] at hj
    exact absurd hj (hnofill j)
  · exact absurd (hprogress p (by simpa [State.countFrame] using hp)) (hnone p.slot)
  · rcases hget j with ⟨hfree, _⟩ | ⟨hsame, _⟩ | ⟨r, _, _, hmoved⟩
    · rw [hfree] at hj
      exact absurd rfl hj
    · rw [hsame] at hj ⊢
      exact later_next (hnear j hj)
    · rw [hmoved]
      exact later_rebasedLcs _ _

theorem State.beginFrame_orderLaw {s : State} (hs : s.OrderLaw) (hnear : s.FramesNear)
    (hnone : s.store.slots.NoneFilling) : s.beginFrame.OrderLaw := by
  obtain ⟨hchecked, hearlier⟩ := State.windowChecked_order hs hnear hnone
  rcases s.beginFrame_cases with h | h | ⟨k, hk, hslots, hinput⟩
  · rw [h]
    obtain ⟨hdistinct, hlater, hfilling, hprogress⟩ := hs
    exact ⟨hdistinct, hlater, fun j hj => absurd hj (hnone j), hprogress⟩
  · rw [h]
    exact hchecked
  · obtain ⟨hdistinct, hlater, hfilling, -⟩ := hchecked
    have hfillk : (s.beginFrame.store.slots.get k).state = .filling ∧
        (s.beginFrame.store.slots.get k).lcs = s.input.lcs + 1 := by simp [hslots]
    have hother : ∀ j, j ≠ k → s.beginFrame.store.slots.get j =
        (s.countFrame.windowChecked (s.input.lcs + 1)).store.slots.get j := fun j hj => by simp [hslots, hj]
    have hnofill : ∀ j, j ≠ k → (s.beginFrame.store.slots.get j).state ≠ .filling := by
      intro j hj hfill
      rw [hother j hj] at hfill
      rcases s.countFrame.windowChecked_state (s.input.lcs + 1) j with h | ⟨h, _⟩
      · exact hnone j (h.symm.trans hfill)
      · rw [h] at hfill
        cases hfill
    refine ⟨fun i j hij hi hj => ?_, fun i j hi hj => ?_, fun j hj => ?_, fun p hp => ?_⟩
    · by_cases hik : i = k <;> by_cases hjk : j = k
      · exact absurd (hik.trans hjk.symm) hij
      · rw [hother j hjk] at hj ⊢
        rw [hik, hfillk.2]
        exact ne_of_later (hearlier j hj.ne_free)
      · rw [hother i hik] at hi ⊢
        rw [hjk, hfillk.2]
        exact (ne_of_later (hearlier i hi.ne_free)).symm
      · rw [hother i hik] at hi ⊢
        rw [hother j hjk] at hj ⊢
        exact hdistinct i j hij hi hj
    · have hik : i ≠ k := by
        rintro rfl
        rw [hfillk.1] at hi
        cases hi
      rw [hother i hik] at hi ⊢
      by_cases hjk : j = k
      · rw [hjk, hfillk.2]
        exact hearlier i (fun hf => by rw [hi] at hf; cases hf)
      · rw [hother j hjk] at hj ⊢
        exact hlater i j hi hj
    · by_cases hjk : j = k
      · rw [hjk, hfillk.2, hinput]
        rfl
      · exact absurd hj (hnofill j hjk)
    · rw [hinput] at hp
      cases hp
      exact hfillk.1

/-- The second law, from frames that are near, bears all that changes the slots. -/
theorem orderLaw_slotsKeep : SlotsKeep (fun s => s.SlotLaw ∧ s.OrderLaw ∧ s.FramesNear) State.OrderLaw where
  weaken _ hs := hs.2.1
  law _ hs := hs.1
  thin _ _ h hs := ⟨h.slotLaw hs.1, h.orderLaw hs.2.1, h.framesNear hs.2.2⟩
  thin_after _ _ h hs := h.orderLaw hs
  idle s x hs hnone hlcs hprogress := by
    obtain ⟨hslot, ⟨hdistinct, hlater, hfilling, hfill⟩, hnear⟩ := hs
    refine ⟨slotLaw_slotsKeep.idle s x hslot hnone hlcs hprogress,
      ⟨hdistinct, hlater, fun j hj => absurd hj (hnone j), fun p hp => ?_⟩, fun j hj => ?_⟩
    · rcases hprogress with h | h
      · exact hfill p (h.symm.trans hp)
      · rw [State.setInput_input, h] at hp
        cases hp
    · rw [State.setInput_input, hlcs]
      exact hnear j hj
  complete _ hs := ⟨State.completeCapture_slotLaw hs.1, (State.completeCapture_order hs.2.1).1,
    (State.completeCapture_order hs.2.1).2 hs.2.2⟩
  abandon _ hs := ⟨slotLaw_slotsKeep.abandon _ hs.1, (State.abandonCapture_order hs.2.1).1,
    (State.abandonCapture_order hs.2.1).2 hs.2.2⟩
  begin_frame _ hs hnone _ := State.beginFrame_orderLaw hs.2.1 hs.2.2 hnone
  report _ p d hs := ⟨State.ballotReport_slotLaw p d hs.1, (State.ballotReport_order p d hs.2.1).1,
    (State.ballotReport_order p d hs.2.1).2 hs.2.2⟩
  switch s hs := by
    rcases s.switch_shown with h | ⟨i, hi, h⟩
    · rw [h]; exact hs
    · exact ⟨h.slotLaw hs.1, h.order hs.2.1 hs.2.2 (.inr (.inl hi))⟩
  align s t u hs h := by
    obtain ⟨i, hi, hshown⟩ := State.align_is_shown h
    exact ⟨hshown.slotLaw hs.1, hshown.order hs.2.1 hs.2.2 (hi.imp id .inr)⟩
  found s u hs h := by
    obtain ⟨i, hi, hshown⟩ := State.foundPicture_is_shown h
    exact ⟨hshown.slotLaw hs.1, hshown.order hs.2.1 hs.2.2 (.inl hi)⟩
  rest s hslots hprogress := by
    have hfree : ∀ i, s.store.slots.get i = .free := by
      rw [hslots]
      exact fun i => by fin_cases i <;> rfl
    refine ⟨slotLaw_slotsKeep.rest s hslots hprogress, ⟨fun i j _ hi => ?_, fun i j hi => ?_, fun j hj => ?_,
      fun p hp => ?_⟩, fun j hj => ?_⟩
    · exact absurd (by rw [hfree]; rfl) hi.ne_free
    · simp [hfree, Slot.free] at hi
    · simp [hfree, Slot.free] at hj
    · rw [hprogress] at hp
      cases hp
    · simp [hfree, Slot.free] at hj

/-- Settles O19. -/
theorem framesStayInOrder : Obligations.FramesStayInOrder := by
  unfold Obligations.FramesStayInOrder
  exact fun s t hrest hslot horder hnear h => orderLaw_slotsKeep.step hrest ⟨hslot, horder, hnear⟩ h

end Sys2Proof.Machine
end

