-- ==== Sys2Proof/Proofs/MessagesHeard.lean ====
section
/-! What the end of a command leaves to be read, and the good foreign messages: a STATUS in the roster and the frame
set, a MODE in the queue, a message with the own tile number. -/

namespace Sys2Proof.Machine

/-! ## The end of a command -/

/-- The end of a command leaves the controller but for the stuck count. -/
@[simp] theorem State.settle_bus (s : State) : s.settle.bus =
    { s.bus with stuckCount := if s.bus.stuckWatch s.locked then s.bus.stuckCount else 0 } :=
  (State.settle_settled s).2.1

/-- The end of a command finds the selection for the following lines. -/
@[simp] theorem State.settle_picture (s : State) :
    s.settle.picture = { s.picture with nextSelection := s.findSelection } := (State.settle_settled s).2.2.1

@[simp] theorem State.settle_flag (s : State) (e : Event) : s.settle.flag e = s.flag e :=
  State.flag_of_port (by simp) e

/-! ## A STATUS -/

theorem State.handOver_status_other {s : State} {r : Tile} {m : StatusMsg} (h : s.receivedGood = some (r, .status m))
    (hr : r ≠ s.tile) : s.handOver = (s.rxWaitIdle.rosterStatus r m).joinFrameSet r m := by
  rw [State.handOver_status h, State.detectDuplicate_other]
  simpa [State.tile] using hr

/-- The frame set while the status window is open takes the message in the place of an earlier one (R112). -/
theorem State.joinFrameSet_member {s : State} {r : Tile} (m : StatusMsg) (hr : r ≠ s.tile) :
    (s.joinFrameSet r m).member = { s.member with
      frameSet := if s.bus.windowOpen then s.member.frameSet.filter (fun e => e.1 != r) ++ [(r, m)]
        else s.member.frameSet } := by
  simp only [State.joinFrameSet, and_iff_left hr]
  split <;> rfl

/-- A STATUS of another tile raises ROSTER_CHANGE where it changes the state of the entry, and else leaves the port. -/
theorem State.rosterStatus_port {s : State} {r : Tile} {m : StatusMsg} {e : Entry} (hr : r ≠ s.tile)
    (he : s.member.roster[r.toNat]? = some e) :
    (e.state ≠ (e.hear m).state → (s.rosterStatus r m).flag .rosterChange = true) ∧
    (e.state = (e.hear m).state → (s.rosterStatus r m).port = s.port) := by
  simp only [State.rosterStatus, if_neg hr, State.entry_of_getElem? he, bne_iff_ne, ite_not]
  constructor
  · intro hne
    rw [if_neg hne]
    exact State.flag_raise _ _
  · intro heq
    rw [if_pos heq]
    rfl

/-- Of the membership controller, a STATUS of another tile changes its entry and, in the window, the frame set. -/
theorem State.handOver_status_member {s : State} {r : Tile} {m : StatusMsg}
    (h : s.receivedGood = some (r, .status m)) (hr : r ≠ s.tile) :
    s.handOver.member = { s.member with
      roster := s.handOver.member.roster,
      frameSet := if s.bus.windowOpen then s.member.frameSet.filter (fun e => e.1 != r) ++ [(r, m)]
        else s.member.frameSet } := by
  have hr' : r ≠ s.rxWaitIdle.tile := by simpa using hr
  rw [State.handOver_status_other h hr, State.joinFrameSet_member m (by simpa [State.tile] using hr),
    State.rosterStatus_member m hr', State.setEntry_member]
  simp [State.rxWaitIdle]

theorem State.handOver_status_others {s : State} {r : Tile} {m : StatusMsg}
    (h : s.receivedGood = some (r, .status m)) (hr : r ≠ s.tile) {k : Nat} (hk : k ≠ r.toNat) :
    s.handOver.member.roster[k]? = s.member.roster[k]? := by
  rw [State.handOver_status_other h hr, State.joinFrameSet_roster, State.rosterStatus_member m (by simpa using hr),
    State.setEntry_getElem?]
  simp [hk]

/-- Settles O44. -/
theorem statusIsHeard : Obligations.StatusIsHeard := by
  unfold Obligations.StatusIsHeard
  intro w s u r m hu h hr hlen
  have hover := State.handOver_status_other h hr
  have hr' : r ≠ u.rxWaitIdle.tile := by simpa using hr
  have hbus : u.handOver.bus = u.rxWaitIdle.bus := by simp [hover]
  refine ⟨_, exec_statusReceived hu h, by simp [hbus, State.rxWaitIdle], by simp [hbus, State.rxWaitIdle],
    by simp [hbus, State.rxWaitIdle], ?entry, ?others, ?member, ?port, ?rest⟩
  case entry =>
    have hin : r.toNat < u.member.roster.length := by have := r.isLt; omega
    simp [State.handOver_status_getElem? h hr, List.getElem?_eq_getElem hin, Entry.hear]
  case others =>
    intro k hk
    simpa using State.handOver_status_others h hr hk
  case member => simpa using State.handOver_status_member h hr
  case port =>
    intro e he
    obtain ⟨hraised, hkept⟩ := State.rosterStatus_port (m := m) hr' (by simpa using he)
    rw [State.settle_flag, State.flag_of_port (s := u.rxWaitIdle.rosterStatus r m) (by simp [hover])]
    exact ⟨hraised, fun heq => by simpa [hover] using hkept heq⟩
  case rest =>
    refine SameBut.settle (fun p hp => ?_) (by simp)
    rw [hover]
    cases p <;> simp_all [Part.same]

/-! ## The pending-mode queue -/

theorem targetDistance_injective {wfn a b : Word} (h : targetDistance wfn a = targetDistance wfn b) : a = b :=
  sub_left_injective (BitVec.eq_of_toNat_eq h)

theorem mem_insertEntry {wfn : Word} {e x : ModeEntry} {l : List ModeEntry} :
    x ∈ insertEntry wfn e l ↔ x = e ∨ x ∈ l := by
  induction l with
  | nil => simp [insertEntry]
  | cons q rest ih =>
    simp only [insertEntry]
    split
    · simp
    · rw [List.mem_cons, ih, List.mem_cons]
      exact or_left_comm

theorem length_insertEntry (wfn : Word) (e : ModeEntry) (l : List ModeEntry) :
    (insertEntry wfn e l).length = l.length + 1 := by
  induction l with
  | nil => rfl
  | cons q rest ih =>
    simp only [insertEntry]
    split <;> simp [ih]

/-- The queue stands in the order of its targets, nearest first (R123). -/
def InOrder (wfn : Word) (l : List ModeEntry) : Prop :=
  l.Pairwise (fun a b => targetDistance wfn a.target < targetDistance wfn b.target)

/-- An entry with a new target is inserted in order. -/
theorem InOrder.insertEntry {wfn : Word} {e : ModeEntry} {l : List ModeEntry} (h : InOrder wfn l)
    (hnew : ∀ x ∈ l, x.target ≠ e.target) : InOrder wfn (insertEntry wfn e l) := by
  induction l with
  | nil => exact List.pairwise_singleton _ _
  | cons q rest ih =>
    obtain ⟨hq, hrest⟩ := List.pairwise_cons.mp h
    simp only [Machine.insertEntry]
    split
    · next hlt =>
      refine List.pairwise_cons.mpr ⟨fun x hx => ?_, h⟩
      rcases List.mem_cons.mp hx with rfl | hx
      · exact hlt
      · exact hlt.trans (hq x hx)
    · next hge =>
      refine List.pairwise_cons.mpr ⟨fun x hx => ?_, ih hrest (fun x hx => hnew x (by simp [hx]))⟩
      rcases mem_insertEntry.mp hx with rfl | hx
      · have hne : targetDistance wfn q.target ≠ targetDistance wfn x.target :=
          fun he => hnew q (by simp) (targetDistance_injective he)
        omega
      · exact hq x hx

/-- A replacement keeps the targets. -/
theorem map_target_replaceEntry (e : ModeEntry) (l : List ModeEntry) :
    (replaceEntry e l).map (·.target) = l.map (·.target) := by
  simp only [replaceEntry, List.map_map]
  refine List.map_congr_left (fun x _ => ?_)
  simp only [Function.comp_apply]
  split
  · next h => exact h.symm
  · rfl

/-- Whether a queue stands in order is seen from its targets. -/
theorem inOrder_iff_map (wfn : Word) (l : List ModeEntry) : InOrder wfn l ↔
    (l.map (·.target)).Pairwise (fun a b => targetDistance wfn a < targetDistance wfn b) := by
  rw [List.pairwise_map]
  rfl

theorem InOrder.replaceEntry {wfn : Word} {l : List ModeEntry} (e : ModeEntry) (h : InOrder wfn l) :
    InOrder wfn (replaceEntry e l) := by
  rw [inOrder_iff_map, map_target_replaceEntry]
  exact (inOrder_iff_map _ _).mp h

/-! ## The tie rules (R125, R129) -/

theorem State.tieEntry_same {s : State} {e x : ModeEntry} (h : x.origin = e.origin) :
    s.tieEntry e x = s.setModes { s.modes with queue := replaceEntry e s.modes.queue } := by
  simp [State.tieEntry, h]

theorem State.tieEntry_lower {s : State} {e x : ModeEntry} (h : x.origin.toNat < e.origin.toNat) :
    s.tieEntry e x = s.count .modeConflicts := by
  have hne : x.origin ≠ e.origin := fun he => by simp [he] at h
  simp [State.tieEntry, h, hne]

theorem State.tieEntry_higher {s : State} {e x : ModeEntry} (h : e.origin.toNat < x.origin.toNat) :
    s.tieEntry e x = (s.setModes { s.modes with queue := replaceEntry e s.modes.queue }).count .modeConflicts := by
  have hne : x.origin ≠ e.origin := fun he => by simp [he] at h
  simp [State.tieEntry, Nat.not_lt_of_gt h, hne]

/-- A tie replaces the entry or leaves the queue, and touches nothing else but the counters. -/
theorem State.tieEntry_cases (s : State) (e x : ModeEntry) :
    ((s.tieEntry e x).modes = s.modes ∨
      (s.tieEntry e x).modes = { s.modes with queue := replaceEntry e s.modes.queue }) ∧
    SameBut [.modes, .counters] s (s.tieEntry e x) := by
  constructor
  · simp only [State.tieEntry]
    repeat' split
    all_goals simp
  · intro p hp
    simp only [State.tieEntry]
    repeat' split
    all_goals cases p <;> simp_all [Part.same]

/-! ## A MODE -/

theorem State.handOver_mode {s : State} {r : Tile} {m : ModeMsg} (h : s.receivedGood = some (r, .mode m))
    (hr : r ≠ s.tile) : s.handOver = s.rxWaitIdle.takeMode r m := by
  have hr' : r ≠ (s.rxWaitIdle.takeMode r m).tile := by
    simpa [State.tile] using hr
  simp only [State.handOver, h, State.detectDuplicate_other hr']

theorem State.takeMode_outside {s : State} {r : Tile} {m : ModeMsg} (hs : s.member.station ≠ .member) :
    s.takeMode r m = s := by simp [State.takeMode, hs]

theorem State.takeMode_stale {s : State} {r : Tile} {m : ModeMsg} (hs : s.member.station = .member) (hr : r ≠ s.tile)
    (hd : targetDistance s.timing.wfn m.target = 0 ∨ 128 < targetDistance s.timing.wfn m.target) :
    s.takeMode r m = s.count .modeStale := by simp [State.takeMode, hs, hr, hd]

section
variable {s : State} {r : Tile} {m : ModeMsg} (hs : s.member.station = .member) (hr : r ≠ s.tile)
  (hlow : 1 ≤ targetDistance s.timing.wfn m.target) (hhigh : targetDistance s.timing.wfn m.target ≤ 128)
include hs hr hlow hhigh

theorem State.takeMode_tie {x : ModeEntry} (hx : s.entryAt m.target = some x) :
    s.takeMode r m = s.tieEntry ⟨m.target, m.mode, r⟩ x := by
  have hd : ¬(targetDistance s.timing.wfn m.target = 0 ∨ 128 < targetDistance s.timing.wfn m.target) := by omega
  simp [State.takeMode, hs, hr, hd, hx]

theorem State.takeMode_new (hx : s.entryAt m.target = none) : s.takeMode r m =
    if 4 ≤ s.modes.queue.length then s.count .modeOverflow
    else s.setModes { s.modes with queue := insertEntry s.timing.wfn ⟨m.target, m.mode, r⟩ s.modes.queue } := by
  have hd : ¬(targetDistance s.timing.wfn m.target = 0 ∨ 128 < targetDistance s.timing.wfn m.target) := by omega
  simp [State.takeMode, hs, hr, hd, hx]

end

/-- What a MODE can do to the queue: leave it, replace an entry, insert one with a new target (R128, R129). -/
theorem State.takeMode_cases (s : State) (r : Tile) (m : ModeMsg) :
    ((s.takeMode r m).modes = s.modes
      ∨ (s.takeMode r m).modes = { s.modes with queue := replaceEntry ⟨m.target, m.mode, r⟩ s.modes.queue }
      ∨ s.member.station = .member ∧ s.modes.queue.length < 4 ∧ (∀ x ∈ s.modes.queue, x.target ≠ m.target)
        ∧ 1 ≤ targetDistance s.timing.wfn m.target ∧ targetDistance s.timing.wfn m.target ≤ 128
        ∧ (s.takeMode r m).modes =
          { s.modes with queue := insertEntry s.timing.wfn ⟨m.target, m.mode, r⟩ s.modes.queue })
    ∧ SameBut [.modes, .counters] s (s.takeMode r m) := by
  have hcount : ∀ c, SameBut [.modes, .counters] s (s.count c) := fun c p hp => by cases p <;> simp_all [Part.same]
  have hset : ∀ x, SameBut [.modes, .counters] s (s.setModes x) := fun x p hp => by cases p <;> simp_all [Part.same]
  by_cases hs : s.member.station = .member ∧ r ≠ s.tile
  case neg =>
    have hsame : s.takeMode r m = s := by
      simp only [State.takeMode]
      exact if_pos (by tauto)
    rw [hsame]
    exact ⟨.inl rfl, fun p _ => by cases p <;> simp [Part.same]⟩
  obtain ⟨hs, hr⟩ := hs
  by_cases hd : targetDistance s.timing.wfn m.target = 0 ∨ 128 < targetDistance s.timing.wfn m.target
  case pos =>
    rw [State.takeMode_stale hs hr hd]
    exact ⟨.inl (by simp), hcount _⟩
  have hlow : 1 ≤ targetDistance s.timing.wfn m.target := by omega
  have hhigh : targetDistance s.timing.wfn m.target ≤ 128 := by omega
  cases hx : s.entryAt m.target with
  | some x =>
    rw [State.takeMode_tie hs hr hlow hhigh hx]
    obtain ⟨hmodes, hsame⟩ := s.tieEntry_cases ⟨m.target, m.mode, r⟩ x
    exact ⟨hmodes.imp_right .inl, hsame⟩
  | none =>
    rw [State.takeMode_new hs hr hlow hhigh hx]
    have hnew : ∀ x ∈ s.modes.queue, x.target ≠ m.target := by simpa [State.entryAt] using hx
    split
    · exact ⟨.inl (by simp), hcount _⟩
    · next hlen => exact ⟨.inr (.inr ⟨hs, by omega, hnew, hlow, hhigh, by simp⟩), hset _⟩

/-- Settles O46. -/
theorem modeIsScheduled : Obligations.ModeIsScheduled := by
  unfold Obligations.ModeIsScheduled
  intro w s u r m d hu h hr hd
  have hover := State.handOver_mode h hr
  have hexec : exec (.modeReceived w) s = .next u.handOver.settle := by
    subst hu
    exact event_due (due := fun t => t.receivedKind .mode) (State.receivedKind_of_receivedGood h)
  obtain ⟨hmodes, hsame⟩ := u.rxWaitIdle.takeMode_cases r m
  have hr' : r ≠ u.rxWaitIdle.tile := by simpa using hr
  have hbus : u.handOver.bus = u.rxWaitIdle.bus := by
    rw [hover]
    exact hsame .bus (by simp)
  have hstore : u.handOver.store = u.store := by
    rw [hover]
    exact (hsame .store (by simp)).trans (by simp)
  have hdist : targetDistance u.rxWaitIdle.timing.wfn m.target = d := by simpa [targetDistance] using hd
  refine ⟨_, hexec, by simp [hbus, State.rxWaitIdle], by simp [hbus, State.rxWaitIdle], ?modes, by simp [hstore], ?rest,
    fun hst => ?outside, fun hst => ⟨fun hd' => ?stale, fun hlow hhigh => ⟨fun x hx => ⟨fun ho => ?same, fun ho => ?lower,
      fun ho => ?higher⟩, fun hnone => ⟨fun hfull => ?full, fun hroom => ?insert⟩⟩, fun horder => ?order⟩⟩
  case modes =>
    rw [hover]
    rcases hmodes with h | h | ⟨_, _, _, _, _, h⟩ <;> simp [h]
  case rest =>
    refine SameBut.settle (fun p hp => ?_) (by simp)
    have hp' := hsame p (by simp at hp ⊢; tauto)
    rw [hover]
    cases p <;> simp_all [Part.same]
  case outside =>
    rw [State.takeMode_outside (by simpa using hst)] at hover
    simp [hover]
  case stale =>
    rw [State.takeMode_stale (by simpa using hst) hr' (by rw [hdist]; exact hd')] at hover
    simp [hover, State.count]
  case same =>
    rw [State.takeMode_tie (by simpa using hst) hr' (by omega) (by omega) (by simpa [State.entryAt] using hx),
      State.tieEntry_same ho] at hover
    simp [hover, replaceEntry]
  case lower =>
    rw [State.takeMode_tie (by simpa using hst) hr' (by omega) (by omega) (by simpa [State.entryAt] using hx),
      State.tieEntry_lower ho] at hover
    simp [hover, State.count]
  case higher =>
    rw [State.takeMode_tie (by simpa using hst) hr' (by omega) (by omega) (by simpa [State.entryAt] using hx),
      State.tieEntry_higher ho] at hover
    simp [hover, State.count, replaceEntry]
  case full =>
    rw [State.takeMode_new (by simpa using hst) hr' (by omega) (by omega) (by simpa [State.entryAt] using hnone),
      if_pos (by simpa using hfull)] at hover
    simp [hover, State.count]
  case insert =>
    rw [State.takeMode_new (by simpa using hst) hr' (by omega) (by omega) (by simpa [State.entryAt] using hnone),
      if_neg (by simpa using hroom)] at hover
    simp [hover, length_insertEntry, mem_insertEntry]
  case order =>
    change InOrder u.timing.wfn u.handOver.settle.modes.queue
    have horder' : InOrder u.rxWaitIdle.timing.wfn u.rxWaitIdle.modes.queue := by simpa [InOrder] using horder
    have hmoved : u.handOver.settle.modes.queue = (u.rxWaitIdle.takeMode r m).modes.queue := by simp [hover]
    have hwfn : u.rxWaitIdle.timing.wfn = u.timing.wfn := by simp
    rw [hmoved, ← hwfn]
    rcases hmodes with h | h | ⟨_, _, hnew, _, _, h⟩ <;> rw [h]
    · exact horder'
    · exact horder'.replaceEntry _
    · exact horder'.insertEntry hnew

end Sys2Proof.Machine
end

