-- ==== Sys2Proof/Proofs/LeavingTheWall.lean ====
section
/-! What each change of the station state does to the membership controller, to the modes and to the flags, and a
message with the own tile number, which silences the station. -/

namespace Sys2Proof.Machine

/-! ## Flags that stay set -/

theorem State.flag_of_flags {s t : State} (h : t.port.flags = s.port.flags) (e : Event) : t.flag e = s.flag e := by
  simp only [State.flag, h]

@[simp] theorem State.count_flag (s : State) (c : Counter) (e : Event) : (s.count c).flag e = s.flag e := rfl

@[simp] theorem State.endSetMode_flags (s : State) (r : CmdResult) : (s.endSetMode r).port.flags = s.port.flags := by
  simp only [State.endSetMode]
  split <;> rfl

@[simp] theorem State.modeWithdrawn_flags (s : State) : s.modeWithdrawn.port.flags = s.port.flags := by
  simp only [State.modeWithdrawn]
  repeat' split
  all_goals simp

@[simp] theorem State.withdrawMode_flags (s : State) (e : Ending) :
    (s.withdrawMode e).port.flags = s.port.flags := by
  simp only [State.withdrawMode]
  repeat' split
  all_goals simp

@[simp] theorem State.modeLeave_flags (s : State) : s.modeLeave.port.flags = s.port.flags := by
  simp [State.modeLeave]

@[simp] theorem State.outOfMember_flags (s : State) : s.outOfMember.port.flags = s.port.flags := by
  simp only [State.outOfMember]
  split <;> simp

@[simp] theorem State.outOfMember_flag (s : State) (e : Event) : s.outOfMember.flag e = s.flag e :=
  State.flag_of_flags (by simp) e

@[simp] theorem State.setMember_flag (s : State) (x : Membership) (e : Event) : (s.setMember x).flag e = s.flag e := rfl

@[simp] theorem State.announceLeave_flag (s : State) (r : LeaveReason) (e : Event) :
    (s.announceLeave r).flag e = s.flag e := State.flag_of_port (by simp) e

/-- A change of the station state raises STATE_CHANGE (R106). -/
@[simp] theorem State.setStation_flag (s : State) (x : Station) : (s.setStation x).flag .stateChange = true :=
  State.flag_raise _ _

theorem State.setStation_flag_of_flag {s : State} {e : Event} (x : Station) (h : s.flag e = true) :
    (s.setStation x).flag e = true := State.flag_raise_of_flag _ h

theorem State.silenceStation_flag_of_flag {s : State} {e : Event} (h : s.flag e = true) :
    s.silenceStation.flag e = true := by
  have hset := State.setStation_flag_of_flag .detached h
  simp only [State.silenceStation]
  split
  · simpa using hset
  · simpa using hset
  · exact h

/-! ## The membership controller -/

@[simp] theorem State.setStation_member (s : State) (x : Station) :
    (s.setStation x).member = { s.member with station := x } := rfl

/-- Out of MEMBER, the hold-picture timer is set (R105). -/
@[simp] theorem State.outOfMember_member (s : State) :
    s.outOfMember.member = { s.member with holdTimer := s.cfg.holdframes } := by
  simp only [State.outOfMember]
  split <;> simp

/-- Out of JOINING or MEMBER for an input loss, a HOLD or the latch, the announced flag is cleared (R104). -/
@[simp] theorem State.announceLeave_member (s : State) (r : LeaveReason) :
    (s.announceLeave r).member = { s.member with announced := false } := by
  simp only [State.announceLeave]
  split <;> simp

/-- The membership controller of a station that leaves the wall for DETACHED, unless by HOLD (R105, R106). -/
def Membership.detach (holdframes : Nat) (x : Membership) : Membership :=
  match x.station with
  | .member => { x with station := .detached, announced := false, holdTimer := holdframes }
  | .joining => { x with station := .detached, announced := false }
  | _ => x

theorem Membership.detach_member {x : Membership} (n : Nat) (h : x.station = .member) :
    x.detach n = { x with station := .detached, announced := false, holdTimer := n } := by
  simp only [Membership.detach, h]

theorem Membership.detach_joining {x : Membership} (n : Nat) (h : x.station = .joining) :
    x.detach n = { x with station := .detached, announced := false } := by
  simp only [Membership.detach, h]

theorem Membership.detach_detached {x : Membership} (n : Nat) (h : x.station = .detached) : x.detach n = x := by
  simp only [Membership.detach, h]

/-- JOINING or MEMBER before, the station is DETACHED, no longer announced, and a MEMBER's timer is set. -/
theorem Membership.detach_wall {x : Membership} (n : Nat) (h : x.station = .joining ∨ x.station = .member) :
    (x.detach n).station = .detached ∧ (x.detach n).announced = false
    ∧ (x.station = .member → (x.detach n).holdTimer = n) := by
  rcases h with h | h
  · simp [Membership.detach_joining n h, h]
  · simp [Membership.detach_member n h]

@[simp] theorem Membership.detach_keeps (x : Membership) (n : Nat) : (x.detach n).roster = x.roster
    ∧ (x.detach n).frameSet = x.frameSet ∧ (x.detach n).hostHold = x.hostHold ∧ (x.detach n).quiet = x.quiet
    ∧ (x.detach n).reference = x.reference := by
  simp only [Membership.detach]
  split <;> simp

theorem State.silenceStation_member (s : State) : s.silenceStation.member = s.member.detach s.cfg.holdframes := by
  cases h : s.member.station <;> simp [State.silenceStation, Membership.detach, State.cfg, State.setStation, h]

theorem State.inputLost_member (s : State) : s.inputLost.member = s.member.detach s.cfg.holdframes := by
  cases h : s.member.station <;> simp [State.inputLost, Membership.detach, State.cfg, State.setStation, h]

/-- JOINING or MEMBER before, a silenced station has raised STATE_CHANGE. -/
theorem State.silenceStation_stateChange {s : State} (h : s.member.station = .joining ∨ s.member.station = .member) :
    s.silenceStation.flag .stateChange = true := by
  rcases h with h | h <;> simp [State.silenceStation, h]

/-- JOINING or MEMBER before, a station that loses its input has raised STATE_CHANGE. -/
theorem State.inputLost_stateChange {s : State} (h : s.member.station = .joining ∨ s.member.station = .member) :
    s.inputLost.flag .stateChange = true := by
  rcases h with h | h <;> simp [State.inputLost, h]

/-! ## The modes of a station that leaves MEMBER -/

/-- With no SET_MODE outstanding there is nothing to withdraw. -/
theorem State.withdrawMode_none {s : State} (e : Ending) (h : s.modes.outstanding = none) : s.withdrawMode e = s := by
  simp only [State.withdrawMode, h]

@[simp] theorem State.modeLeave_queue (s : State) : s.modeLeave.modes.queue = [] := rfl

@[simp] theorem State.outOfMember_queue (s : State) : s.outOfMember.modes.queue = [] := rfl

theorem State.modeLeave_none {s : State} (h : s.modes.outstanding = none) :
    s.modeLeave = s.setModes { s.modes with queue := [], repair := none } := by
  simp only [State.modeLeave, State.withdrawMode_none _ h]

/-- With no SET_MODE outstanding, leaving MEMBER touches neither bus nor port and leaves none outstanding. -/
theorem State.outOfMember_none {s : State} (h : s.modes.outstanding = none) :
    s.outOfMember.bus = s.bus ∧ s.outOfMember.port = s.port ∧ s.outOfMember.modes.outstanding = none := by
  simp only [State.outOfMember]
  split
  · rw [State.modeLeave_none (by simpa using h)]
    simpa using h
  · rw [State.modeLeave_none (by simpa using h)]
    simpa using h

theorem State.silenceStation_none {s : State} (h : s.modes.outstanding = none) :
    s.silenceStation.bus = s.bus ∧ s.silenceStation.port.result = s.port.result
    ∧ s.silenceStation.modes.outstanding = none := by
  simp only [State.silenceStation]
  split
  · obtain ⟨hbus, hport, hout⟩ := State.outOfMember_none
      (s := (s.setStation .detached).setMember { (s.setStation .detached).member with announced := false }) (by simpa [State.setStation] using h)
    rw [hbus, hport]
    exact ⟨by simp [State.setStation], by simp [State.setStation, State.raise], hout⟩
  · exact ⟨by simp [State.setStation], by simp [State.setStation, State.raise], by simpa [State.setStation] using h⟩
  · exact ⟨rfl, rfl, h⟩

/-! ## A message with the own tile number (R39, R40) -/

/-- The holding area emptied: nothing waits, nothing is being sent, and no SET_MODE is outstanding. -/
theorem State.clearHolding_bus (s : State) : s.clearHolding.bus =
    { s.bus with modePlace := none, leavePlace := none, statusPlace := none, sending := none } := by
  simp [State.clearHolding]

@[simp] theorem State.endSetMode_outstanding (s : State) (r : CmdResult) :
    (s.endSetMode r).modes.outstanding = none := by
  simp only [State.endSetMode]
  split
  · next h => exact h
  · rfl

theorem State.endSetMode_result {s : State} (r : CmdResult) (h : s.modes.outstanding ≠ none) :
    (s.endSetMode r).port.result = r := by
  simp only [State.endSetMode]
  split
  · next h' => exact absurd h' h
  · rfl

/-- The station as the latch finds it, with its holding area emptied and FS released. -/
def State.latched (s : State) : State :=
  let v := ((s.raise .conflict).setBus { s.bus with latch := true }).clearHolding
  v.setTiming { v.timing with fsDrive := false }

theorem State.detectDuplicate_own (s : State) : s.detectDuplicate s.tile =
    if s.bus.latch then s.raise .conflict else s.latched.silenceStation := by
  simp only [State.detectDuplicate, if_true]
  rfl

/-- What the latch leaves, the station state aside. -/
theorem State.latched_parts (s : State) : s.latched.member = s.member ∧ s.latched.cfg = s.cfg
    ∧ s.latched.store = s.store ∧ s.latched.timing = { s.timing with fsDrive := false }
    ∧ s.latched.modes.outstanding = none ∧ s.latched.flag .conflict = true ∧ s.latched.bus = { s.bus with
      modePlace := none, leavePlace := none, statusPlace := none, sending := none, latch := true } := by
  have hflag : s.latched.flag .conflict = (s.raise .conflict).flag .conflict :=
    State.flag_of_flags (by simp [State.latched, State.clearHolding]) _
  refine ⟨by simp [State.latched], by simp [State.latched], by simp [State.latched], by simp [State.latched],
    by simp [State.latched, State.clearHolding], by simp [hflag], by simp [State.latched, State.clearHolding_bus]⟩

theorem State.latched_result {s : State} (h : s.modes.outstanding ≠ none) : s.latched.port.result = .abandoned := by
  exact State.endSetMode_result _ (by simpa using h)

/-- A message with the own tile number is passed over by its consumers and reaches duplicate detection. -/
theorem State.handOver_own {s : State} {m : Message} (h : s.receivedGood = some (s.tile, m)) :
    s.handOver = s.rxWaitIdle.detectDuplicate s.rxWaitIdle.tile := by
  simp only [State.handOver, h]
  cases m <;> simp [State.rosterStatus, State.joinFrameSet, State.rosterLeave, State.takeMode]

/-- Settles O47. -/
theorem duplicateSilences : Obligations.DuplicateSilences := by
  unfold Obligations.DuplicateSilences
  intro c w s u m hu h hc
  have hexec : exec c s = .next u.handOver.settle := by
    have hkind := State.receivedKind_of_receivedGood h
    subst hu
    rcases hc with ⟨rfl, hm⟩ | ⟨rfl, hm⟩ | ⟨rfl, hm⟩ <;> rw [hm] at hkind
    · exact event_due (due := fun t => t.receivedKind .status) hkind
    · exact event_due (due := fun t => t.receivedKind .mode) hkind
    · exact event_due (due := fun t => t.receivedKind .leave) hkind
  have hover := State.handOver_own h
  refine ⟨_, hexec, ?_⟩
  cases hlatch : u.bus.latch with
  | true =>
    rw [State.detectDuplicate_own, if_pos (by simpa using hlatch)] at hover
    simp [hover, hlatch]
  | false =>
    rw [State.detectDuplicate_own, if_neg (by simp [hlatch])] at hover
    obtain ⟨hmember, hcfg, hstore, htiming, hout, hflag, hbus⟩ := u.rxWaitIdle.latched_parts
    obtain ⟨hsbus, hsresult, hsout⟩ := State.silenceStation_none hout
    have hsmember := u.rxWaitIdle.latched.silenceStation_member
    rw [hmember, hcfg] at hsmember
    refine ⟨?conflict, by simp [hover, hsbus, hbus], by simp [hover, hsmember], by simp [hover, hsmember], by simp,
      fun _ => ⟨by simp [hover, hsbus, hbus], by simp [hover, hsbus, hbus], by simp [hover, hsbus, hbus],
        by simp [hover, hsbus, hbus], by simp [hover, htiming], by simp [hover, hsout], ?result, ?wall, ?member,
        ?detached⟩⟩
    case conflict =>
      rw [State.settle_flag, hover]
      exact State.silenceStation_flag_of_flag hflag
    case result =>
      intro hne
      have hresult := State.latched_result (s := u.rxWaitIdle) (by simpa using hne)
      simp [hover, hsresult, hresult]
    case wall =>
      intro hst
      obtain ⟨hstation, hann, -⟩ := Membership.detach_wall u.cfg.holdframes hst
      refine ⟨by simp [hover, hsmember, hstation], by simp [hover, hsmember, hann], ?_⟩
      rw [State.settle_flag, hover]
      exact State.silenceStation_stateChange (by simpa [hmember] using hst)
    case member =>
      intro hst
      refine ⟨by simp [hover, hsmember, Membership.detach_member _ hst], ?_⟩
      have hst' : u.rxWaitIdle.latched.member.station = .member := by simpa [hmember] using hst
      simp [hover, State.silenceStation, hst']
    case detached =>
      intro hst
      have hst' : u.rxWaitIdle.latched.member.station = .detached := by simpa [hmember] using hst
      have hsame : u.rxWaitIdle.latched.silenceStation = u.rxWaitIdle.latched := by
        simp only [State.silenceStation, hst']
      simp [hover, hsame, hmember, hstore]

end Sys2Proof.Machine
end

