-- ==== Sys2Proof/Proofs/BusOutsideMessages.lean ====
section
/-! O39, the Tile Bus outside messages: idle and start edges, the message the station sends next, the stuck line. -/

namespace Sys2Proof.Machine

/-! ## A due command, from the station as the command finds it -/

theorem event_at {w : Span} {due : State → Bool} {effect : State → State} {s u : State} (hu : s.pass w = u)
    (hd : due u = true) : event w due effect s = .next (effect u).settle := by
  subst hu
  exact event_due hd

theorem event_settled {w : Span} {due : State → Bool} {effect : State → State} {s u v : State} (hu : s.pass w = u)
    (hd : due u = true) (hv : effect u = v) : ∃ t, event w due effect s = .next t ∧ Settled v t :=
  ⟨_, event_at hu hd, hv ▸ State.settle_settled _⟩

/-- What holds of the effect, settled, holds of a next state. -/
theorem event_exists {w : Span} {due : State → Bool} {effect : State → State} {s u : State} {P : State → Prop}
    (hu : s.pass w = u) (hd : due u = true) (h : P (effect u).settle) :
    ∃ t, event w due effect s = .next t ∧ P t := ⟨_, event_at hu hd, h⟩

/-- A command that finds its event not due lets the Span pass. -/
theorem event_passed {w : Span} {due : State → Bool} {effect : State → State} {s u : State} (hu : s.pass w = u)
    (hd : due u = false) : ∃ t, event w due effect s = .next t ∧ Settled u t := by
  subst hu
  exact ⟨_, event_not_due hd, State.settle_settled _⟩

/-! ## Edges outside messages -/

theorem State.edgeDue_iff (s : State) :
    s.edgeDue = true ↔ s.bus.active = true ∧ (s.bus.rx = .waitIdle ∨ s.bus.rx = .idle) := by
  simp [State.edgeDue]

/-- A falling edge after fewer than 10 recessive bit times ends the idle count (R27). -/
theorem State.fallingEdge_early {s : State} (hrx : s.bus.rx = .waitIdle) (hidle : s.bus.idle < 10) :
    s.fallingEdge = s.setBus { s.bus with idle := 0 } := by
  have h : ¬(10 ≤ s.bus.idle ∨ s.bus.rx = .idle) := by simp [hrx, hidle]
  simp only [State.fallingEdge, if_neg h]

/-- A start edge begins a message, the station's own where it has one to send (R28, R34). -/
theorem State.fallingEdge_start {s : State} (h : s.bus.rx = .idle ∨ (s.bus.rx = .waitIdle ∧ 10 ≤ s.bus.idle)) :
    s.fallingEdge = s.beginMessage (if s.maySend then s.nextToSend else none) := by
  have h' : 10 ≤ s.bus.idle ∨ s.bus.rx = .idle := h.elim .inr (fun h => .inl h.2)
  simp only [State.fallingEdge, if_pos h']

theorem State.maySend_iff (s : State) : s.maySend = true ↔ s.bus.active = true ∧ s.bus.latch = false
    ∧ s.timing.lock = .locked ∧ s.bus.windowOpen = true ∧ s.bus.sending = none ∧ s.bus.ballotWindow = false := by
  simp [State.maySend, State.locked, and_assoc]

/-! ## The message sent next (R33) -/

/-- Five bit times, one round of the pattern, last 27 XREF clocks (R21). -/
theorem bitTimesLast_rounds (k r : Nat) : bitTimesLast 0 (5 * k + r) = 27 * k + bitTimesLast 0 r := by
  induction k with
  | zero => simp
  | succ k ih =>
    have hround : 5 * (k + 1) + r = (5 * k + r) + 5 := by omega
    have hfive : ∀ n, bitTimesLast 0 (n + 5) = 27 + bitTimesLast 0 n := fun n => by
      change 5 + (5 + (6 + (5 + (6 + bitTimesLast 0 n)))) = _
      omega
    rw [hround, hfive, ih]
    omega

/-- The durations of the kinds, in XREF clocks (R24). -/
theorem MsgKind.duration_eq : MsgKind.mode.duration = 307 ∧ MsgKind.leave.duration = 210
    ∧ MsgKind.status.duration = 648 :=
  ⟨bitTimesLast_rounds 11 2, bitTimesLast_rounds 7 4, bitTimesLast_rounds 24 0⟩

/-- A waiting message of a kind would end in time. -/
def State.ready (s : State) (k : MsgKind) : Bool := (s.bus.placed k).isSome && s.startsInTime k

theorem State.nextToSend_eq (s : State) : s.nextToSend =
    if s.ready .mode then some .mode else if s.ready .leave then some .leave
    else if s.ready .status then some .status else none := by
  cases hm : s.ready .mode <;> cases hl : s.ready .leave <;> cases hs : s.ready .status <;>
    simp_all [State.nextToSend, State.ready]

theorem State.ready_iff (s : State) (k : MsgKind) :
    s.ready k = true ↔ (s.bus.placed k).isSome = true ∧ s.startsInTime k = true := by
  simp [State.ready]

/-- Settles O39. -/
theorem busOutsideMessages : Obligations.BusOutsideMessages := by
  unfold Obligations.BusOutsideMessages
  refine ⟨fun w s u hu hact => ⟨fun hrx hidle => ?idle, fun hrx hidle => ?early, fun hrx hsend =>
    ⟨fun hnot => ?others, fun k hmay hnext => ⟨?own, fun hidle => ?start⟩⟩, fun hlock hrx hwin hcount hstuck => ?stuck,
    fun hstuck htd => ?clear⟩, fun u => ⟨u.maySend_iff, fun k => ?time, ?mode, ?leave, ?status⟩⟩
  case idle =>
    exact event_settled (due := State.idleDue) (effect := State.enterIdle) hu (by simp [State.idleDue, *]) rfl
  case early =>
    exact event_settled (due := State.edgeDue) (effect := State.fallingEdge) hu (by simp [State.edgeDue, *])
      (State.fallingEdge_early hrx hidle)
  case others =>
    refine event_settled (due := State.edgeDue) (effect := State.fallingEdge) hu
      (u.edgeDue_iff.mpr ⟨hact, hrx.elim .inr (fun h => .inl h.1)⟩) ?_
    rw [State.fallingEdge_start hrx]
    have hnone : (if u.maySend then u.nextToSend else none) = none := by
      rcases hnot with h | h <;> simp [h]
    simp [hnone, State.beginMessage, hsend]
  case own =>
    refine event_settled (due := State.edgeDue) (effect := State.fallingEdge) hu
      (u.edgeDue_iff.mpr ⟨hact, hrx.elim .inr (fun h => .inl h.1)⟩) ?_
    simp [State.fallingEdge_start hrx, hmay, hnext, State.beginMessage]
  case start =>
    refine event_settled (due := State.startDue) (effect := fun t => t.beginMessage t.nextToSend) hu ?_ ?_
    · have hedge := u.edgeDue_iff.mpr ⟨hact, hrx.elim .inr (fun h => .inl h.1)⟩
      simp [State.startDue, hmay, hidle, hedge, hnext]
    · simp [hnext, State.beginMessage]
  case stuck =>
    refine event_settled (due := State.stuckDue) (effect := State.becomeStuck) hu ?_ rfl
    simpa [State.stuckDue, Bus.stuckWatch, State.locked, hact, hlock, hwin, hcount, hstuck] using hrx
  case clear =>
    exact event_settled (due := State.unstuckDue) (effect := State.clearStuck) hu (by simp [State.unstuckDue, *]) rfl
  case time =>
    obtain ⟨hmode, hleave, hstatus⟩ := MsgKind.duration_eq
    cases k <;> simp only [State.startsInTime, hmode, hleave, hstatus, decide_eq_true_eq]
  case mode =>
    have hm := u.ready_iff .mode
    rw [State.nextToSend_eq]
    simp_all [Bus.placed]
    split_ifs <;> simp_all
  case leave =>
    have hm := u.ready_iff .mode
    have hl := u.ready_iff .leave
    rw [State.nextToSend_eq]
    simp_all [Bus.placed]
    split_ifs <;> simp_all
  case status =>
    have hm := u.ready_iff .mode
    have hl := u.ready_iff .leave
    have hs := u.ready_iff .status
    rw [State.nextToSend_eq]
    simp_all [Bus.placed]
    split_ifs <;> simp_all

end Sys2Proof.Machine
end

