-- ==== Sys2Proof/Proofs/MessagesOnTheLine.lean ====
section
/-! O41 and O42, messages on the line: their bytes and levels, what is taken from the levels, and the checks of
reception (R22 to R29, R183). -/

namespace Sys2Proof.Machine

/-! ## Bytes and levels -/

/-- A byte's levels by their places (R22). -/
theorem byteLevels_eq (b : Byte) : byteLevels b =
    .dominant :: (List.range 8).map (fun k => if b.getLsbD (7 - k) then Level.recessive else .dominant) := rfl

theorem crc16Bit_eq (c : Word) (b : Bool) :
    crc16Bit c b = if c.getLsbD 15 != b then (c <<< 1) ^^^ 0x1021#16 else c <<< 1 := rfl

theorem length_byteLevels (b : Byte) : (byteLevels b).length = 9 := rfl

theorem length_flatMap_byteLevels (l : List Byte) : (l.flatMap byteLevels).length = 9 * l.length := by
  induction l with
  | nil => rfl
  | cons b l ih =>
    rw [List.flatMap_cons, List.length_append, ih, length_byteLevels, List.length_cons]
    omega

theorem wordBytes_toNat (v : Word) : wordBytes v = [BitVec.ofNat 8 (v.toNat / 256), BitVec.ofNat 8 (v.toNat % 256)] := by
  simp only [wordBytes, List.cons.injEq, and_true]
  constructor <;> apply BitVec.eq_of_toNat_eq <;>
    simp [BitVec.extractLsb'_toNat, Nat.shiftRight_eq_div_pow]

/-- A number below 65536 read back from its two bytes. -/
theorem bytesWord_natWordBytes {n : Nat} (h : n < 65536) :
    (bytesWord ((BitVec.ofNat 16 n).extractLsb' 8 8) ((BitVec.ofNat 16 n).extractLsb' 0 8)).toNat = n := by
  rw [bytesWord_wordBytes, BitVec.toNat_ofNat]
  exact Nat.mod_eq_of_lt h

/-- The first byte of a STATUS (Figure 21). -/
def statusFirst (isMember : Bool) (lock : Lock) (input : InputState) (stamped : Bool) : Byte :=
  ((if isMember then 2#8 else 1#8) <<< 6) ||| (lock.code <<< 4) ||| (input.code <<< 2)
    ||| (if stamped then 2#8 else 0#8)

theorem statusFirst_eq (isMember : Bool) (lock : Lock) (input : InputState) (stamped : Bool) :
    statusFirst isMember lock input stamped = BitVec.ofNat 8 ((if isMember then 128 else 64)
      + 16 * (match lock with | .off => 0 | .seek => 1 | .locked => 2)
      + 4 * (match input with | .noSignal => 0 | .acquiring => 1 | .stable => 2) + (if stamped then 2 else 0)) := by
  cases isMember <;> cases lock <;> cases input <;> cases stamped <;> rfl

theorem statusPayload_eq (m : StatusMsg) : statusPayload m =
    statusFirst m.isMember m.lock m.input m.stamp.isSome :: (wordBytes m.wfn ++ stampBytes m.stamp
      ++ [modeByte m.mode] ++ wordBytes m.effective) := by
  simp [statusPayload, statusFirst]

/-! ## The fields of a STATUS -/

theorem decodeLock_field (b : Byte) (l : Lock) : decodeLock (b.extractLsb' 4 2) = some l ↔
    b.toNat / 16 % 4 = (match l with | .off => 0 | .seek => 1 | .locked => 2) := by
  have h : ∀ n : Fin 256, decodeLock ((BitVec.ofFin n : Byte).extractLsb' 4 2) = some l ↔
      (BitVec.ofFin n : Byte).toNat / 16 % 4 = (match l with | .off => 0 | .seek => 1 | .locked => 2) := by
    cases l <;> decide +kernel
  exact h b.toFin

theorem decodeInput_field (b : Byte) (i : InputState) : decodeInput (b.extractLsb' 2 2) = some i ↔
    b.toNat / 4 % 4 = (match i with | .noSignal => 0 | .acquiring => 1 | .stable => 2) := by
  have h : ∀ n : Fin 256, decodeInput ((BitVec.ofFin n : Byte).extractLsb' 2 2) = some i ↔
      (BitVec.ofFin n : Byte).toNat / 4 % 4 = (match i with | .noSignal => 0 | .acquiring => 1 | .stable => 2) := by
    cases i <;> decide +kernel
  exact h b.toFin

theorem station_field (b : Byte) (n : Fin 4) : b.extractLsb' 6 2 = BitVec.ofNat 2 n.val ↔ b.toNat / 64 = n.val := by
  have h : ∀ m : Fin 256, ∀ n : Fin 4, (BitVec.ofFin m : Byte).extractLsb' 6 2 = BitVec.ofNat 2 n.val ↔
      (BitVec.ofFin m : Byte).toNat / 64 = n.val := by decide +kernel
  exact h b.toFin n

/-- A STATUS payload gives a message exactly where each of its fields is defined (R29, R183). -/
theorem decodeStatus_eq_some (v : Nat) (b w1 w0 s1 s0 l1 l0 md e1 e0 : Byte) (x : StatusMsg) :
    decodeStatus v [b, w1, w0, s1, s0, l1, l0, md, e1, e0] = some x ↔
      b.toNat / 64 = (if x.isMember then 2 else 1)
      ∧ b.toNat / 16 % 4 = (match x.lock with | .off => 0 | .seek => 1 | .locked => 2)
      ∧ b.toNat / 4 % 4 = (match x.input with | .noSignal => 0 | .acquiring => 1 | .stable => 2)
      ∧ b.getLsbD 1 = x.isMember ∧ x.wfn = w1 ++ w0
      ∧ (x.isMember = true → (l1 ++ l0).toNat < v)
      ∧ x.stamp = (if x.isMember then some ⟨s1 ++ s0, (l1 ++ l0).toNat⟩ else none)
      ∧ decodeMode md = some x.mode ∧ x.effective = e1 ++ e0 := by
  rw [← decodeLock_field, ← decodeInput_field]
  obtain ⟨isMember, lock, input, wfn, stamp, mode, effective⟩ := x
  have hone := station_field b 1
  have htwo := station_field b 2
  have hline : l1 ++ l0 = bytesWord l1 l0 := rfl
  simp only [decodeStatus]
  rw [hline]
  generalize bytesWord l1 l0 = line
  simp only [bytesWord]
  cases decodeLock (b.extractLsb' 4 2) with
  | none => simp
  | some lk =>
    cases decodeInput (b.extractLsb' 2 2) with
    | none => simp
    | some inp =>
      cases decodeMode md with
      | none => simp
      | some mo =>
        by_cases h1 : b.toNat / 64 = 1
        · have h1' := hone.mpr h1
          cases isMember <;> cases b.getLsbD 1 <;> simp_all
          tauto
        · have h1' : b.extractLsb' 6 2 ≠ 1 := fun h => h1 (hone.mp h)
          by_cases h2 : b.toNat / 64 = 2
          · have h2' := htwo.mpr h2
            cases isMember <;> cases b.getLsbD 1 <;> simp_all
            tauto
          · have h2' : b.extractLsb' 6 2 ≠ 2 := fun h => h2 (htwo.mp h)
            cases isMember <;> simp_all

/-! ## What a station sends, taken back -/

/-- A message that a station can make: a STATUS shows a stamp exactly in MEMBER, and its line lies in the frame. -/
def Message.sound (v : Nat) (m : Message) : Prop :=
  ∀ x, m = .status x → x.isMember = x.stamp.isSome ∧ ∀ p, x.stamp = some p → p.line < v

theorem statusFirst_fields (isMember : Bool) (lock : Lock) (input : InputState) (stamped : Bool) :
    (statusFirst isMember lock input stamped).toNat / 64 = (if isMember then 2 else 1)
    ∧ (statusFirst isMember lock input stamped).toNat / 16 % 4 =
      (match lock with | .off => 0 | .seek => 1 | .locked => 2)
    ∧ (statusFirst isMember lock input stamped).toNat / 4 % 4 =
      (match input with | .noSignal => 0 | .acquiring => 1 | .stable => 2)
    ∧ (statusFirst isMember lock input stamped).getLsbD 1 = stamped := by
  cases isMember <;> cases lock <;> cases input <;> cases stamped <;> decide

/-- A sound message's payload gives the message back. -/
theorem decodePayload_payload {v : Nat} (hv : v ≤ 65536) {m : Message} (h : m.sound v) :
    decodePayload v m.kind m.payload = some m := by
  cases m with
  | mode x =>
    simp [decodePayload, Message.payload, Message.kind, wordBytes, decodeModeMsg, decodeMode_modeByte,
      bytesWord_wordBytes]
  | leave r => cases r <;> rfl
  | status x =>
    obtain ⟨hmember, hline⟩ := h x rfl
    simp only [decodePayload, Message.payload, Message.kind, Option.map_eq_some_iff, Message.status.injEq,
      exists_eq_right, statusPayload_eq]
    obtain ⟨hst, hlk, hin, hpr⟩ := statusFirst_fields x.isMember x.lock x.input x.stamp.isSome
    have hwfn : x.wfn = x.wfn.extractLsb' 8 8 ++ x.wfn.extractLsb' 0 8 := (bytesWord_wordBytes x.wfn).symm
    have heff : x.effective = x.effective.extractLsb' 8 8 ++ x.effective.extractLsb' 0 8 :=
      (bytesWord_wordBytes x.effective).symm
    cases hstamp : x.stamp with
    | none =>
      rw [hstamp] at hmember hst hlk hin hpr
      refine (decodeStatus_eq_some v _ _ _ _ _ _ _ _ _ _ x).mpr
        ⟨hst, hlk, hin, hpr.trans hmember.symm, hwfn, ?_, ?_, decodeMode_modeByte _, heff⟩ <;> simp_all
    | some p =>
      rw [hstamp] at hmember hst hlk hin hpr
      have hp := hline p hstamp
      have hlines := bytesWord_natWordBytes (n := p.line) (by omega)
      have hpwfn := bytesWord_wordBytes p.wfn
      refine (decodeStatus_eq_some v _ _ _ _ _ _ _ _ _ _ x).mpr
        ⟨hst, hlk, hin, hpr.trans hmember.symm, hwfn, fun _ => ?_, ?_, decodeMode_modeByte _, heff⟩
      · exact hlines.trans_lt hp
      · rw [hmember, hstamp]
        simp only [bytesWord] at hlines hpwfn
        simp [hlines, hpwfn]

theorem length_payload (m : Message) : m.payload.length = m.kind.payload := by
  cases m with
  | mode x => rfl
  | leave r => rfl
  | status x => cases hs : x.stamp <;> simp [Message.payload, statusPayload, Message.kind, MsgKind.payload, wordBytes,
      stampBytes, natWordBytes, hs]

theorem ofCode_code (k : MsgKind) : MsgKind.ofCode k.code = some k := by
  cases k <;> rfl

/-- A message's levels as start bit, bytes and end bits. -/
theorem messageLevels_eq (t : Tile) (m : Message) : messageLevels t m = .dominant ::
    ((headerByte m.kind t :: (m.payload ++ wordBytes (crc16 (headerByte m.kind t :: m.payload)))).flatMap byteLevels
      ++ [.recessive, .recessive]) := rfl

theorem length_messageLevels (t : Tile) (m : Message) : (messageLevels t m).length = m.kind.bitTimes := by
  rw [messageLevels_eq, List.length_cons, List.length_append, length_flatMap_byteLevels]
  simp only [List.length_cons, List.length_append, length_payload, wordBytes, List.length_nil, MsgKind.bitTimes]
  omega

/-- The verdict on a message's levels: received whole. -/
theorem frameVerdict_messageLevels (t : Tile) (m : Message) :
    frameVerdict (messageLevels t m) = .whole m.kind t m.payload := by
  obtain ⟨hcode, htile⟩ := headerByte_fields m.kind t
  rw [messageLevels_eq, frameVerdict_bytes (k := m.kind) (by rw [hcode, ofCode_code]) (length_payload m)]
  simp [htile]

theorem Bus.bitsOver_iff (u : Bus) (n : Nat) : u.bitsOver n = true ↔
    n < u.rxBits.length ∨ (n = u.rxBits.length ∧ u.bitClock ≤ sampleClock u.bitPhase) := by
  simp [Bus.bitsOver, Bus.bitEnded]

section
variable {s : State} {k : MsgKind} {t : Tile} {p : List Byte} (hrx : s.bus.rx = .frame) (hsend : s.bus.sending = none)
  (hverdict : s.verdict = .whole k t p) (hover : s.bus.bitsOver k.bitTimes = true)
include hrx hsend hverdict hover

/-- A message received whole, its fields defined, is good. -/
theorem State.receivedGood_whole : s.receivedGood = (decodePayload s.cfg.vtot k p).map (fun m => (t, m)) := by
  simp [State.receivedGood, hrx, hsend, hverdict, hover]

theorem State.receiveFailed_whole : s.receiveFailed = (decodePayload s.cfg.vtot k p).isNone := by
  simp [State.receiveFailed, hrx, hsend, hverdict, hover]

end

/-- Settles O41. -/
theorem messagesRoundTrip : Obligations.MessagesRoundTrip := by
  unfold Obligations.MessagesRoundTrip
  refine ⟨?modes, fun l => ?crc, fun t m body hbody => ?bytes, wordBytes_toNat, fun t m => rfl,
    fun u t => ⟨fun h => by simp [Bus.sendingLevels, h], fun d hd => ?sending⟩,
    fun u t m hm hv hrx hsend hbits hclock => ?whole⟩
  case modes => decide
  case crc => simp only [crc16, ← byteBits_eq_map_range, ← crc16Bit_eq]
  case bytes =>
    subst hbody
    cases m with
    | mode x => rfl
    | leave r => cases r <;> rfl
    | status x =>
      simp only [messageBytes, Message.payload, statusPayload_eq, statusFirst_eq]
      rfl
  case sending =>
    refine ⟨fun h => ?_, fun h => ?_, fun h => ?_⟩ <;> simp [Bus.sendingLevels, hd, h, Bus.placed, Function.comp_def]
  case whole =>
    have hverdict : u.verdict = .whole m.kind t m.payload := by
      rw [State.verdict, hbits, frameVerdict_messageLevels]
    have hover : u.bus.bitsOver m.kind.bitTimes = true :=
      (u.bus.bitsOver_iff _).mpr (.inr ⟨by rw [hbits, length_messageLevels], hclock⟩)
    have hdecode := decodePayload_payload hv hm
    rw [State.receivedGood_whole hrx hsend hverdict hover, State.receiveFailed_whole hrx hsend hverdict hover, hdecode]
    simp

/-! ## What is not received (R28, R29) -/

theorem State.receivedGood_outside {s : State} (h : s.bus.rx ≠ .frame ∨ s.bus.sending ≠ none) :
    s.receivedGood = none ∧ s.receiveFailed = false := by
  rcases h with h | h
  · simp [State.receivedGood, State.receiveFailed, h]
  · have hsend : s.bus.sending.isNone = false := by
      cases hs : s.bus.sending <;> simp_all
    simp [State.receivedGood, State.receiveFailed, hsend]

theorem State.receiveFailed_of_verdict {s : State} (hrx : s.bus.rx = .frame) (hsend : s.bus.sending = none)
    (h : s.verdict = .failed) : s.receiveFailed = true := by
  simp [State.receiveFailed, hrx, hsend, h]

theorem frameVerdict_unknown {h : Byte} (hk : MsgKind.ofCode (h.extractLsb' 5 3) = none) (rest : List Level) :
    frameVerdict (.dominant :: (byteLevels h ++ rest)) = .failed := by
  simp only [frameVerdict, readByte_byteLevels, hk]

theorem frameVerdict_missingMark {h : Byte} {k : MsgKind} (hk : MsgKind.ofCode (h.extractLsb' 5 3) = some k)
    {bytes : List Byte} (hlen : bytes.length < k.payload + 2) (rest : List Level) :
    frameVerdict (.dominant :: ((h :: bytes).flatMap byteLevels ++ .recessive :: rest)) = .failed := by
  simp only [frameVerdict, List.flatMap_cons, List.append_assoc, readByte_byteLevels, hk,
    readBytes_missingMark _ _ _ hlen]

theorem decodeMode_eq (b : Byte) : decodeMode b =
    if b.toNat / 64 = 0 then some .live else if b.toNat / 64 = 1 then some .fill
    else if b.toNat / 64 = 3 then some .freeze
    else if hn : b.toNat % 16 < 12 then some (.pattern ⟨b.toNat % 16, hn⟩) else none := by
  have h : ∀ n : Fin 256, decodeMode (BitVec.ofFin n : Byte) =
      if (BitVec.ofFin n : Byte).toNat / 64 = 0 then some .live else if (BitVec.ofFin n : Byte).toNat / 64 = 1 then some .fill
      else if (BitVec.ofFin n : Byte).toNat / 64 = 3 then some .freeze
      else if hn : (BitVec.ofFin n : Byte).toNat % 16 < 12 then some (.pattern ⟨(BitVec.ofFin n : Byte).toNat % 16, hn⟩)
      else none := by decide +kernel
  exact h b.toFin

/-- Settles O42. -/
theorem receptionIsChecked : Obligations.ReceptionIsChecked := by
  unfold Obligations.ReceptionIsChecked
  refine ⟨Bus.bitsOver_iff, byteLevels_eq, fun u => State.receivedGood_outside, fun u h rest hrx hsend =>
    ⟨fun hbits => ?mark, fun hkind hbits => ?kind, fun k n hkn => ?bytes⟩, decodeMode_eq,
    fun v a b c => ⟨?mode, ?leave⟩, fun v b w1 w0 s1 s0 l1 l0 md e1 e0 => ⟨fun m hm => ?status, fun x => ?fields⟩⟩
  case mark =>
    exact State.receiveFailed_of_verdict hrx hsend (by rw [State.verdict, hbits]; rfl)
  case kind =>
    refine State.receiveFailed_of_verdict hrx hsend ?_
    rw [State.verdict, hbits]
    refine frameVerdict_unknown ?_ rest
    rw [ofCode_header, if_neg (by omega), if_neg (by omega), if_neg (by omega)]
  case bytes =>
    have hcode : MsgKind.ofCode (h.extractLsb' 5 3) = some k ∧ n = k.payload := by
      simp only [List.mem_cons, Prod.mk.injEq, List.not_mem_nil, or_false] at hkn
      rw [ofCode_header]
      rcases hkn with ⟨rfl, hh, rfl⟩ | ⟨rfl, hh, rfl⟩ | ⟨rfl, hh, rfl⟩ <;> simp [hh, MsgKind.payload]
    obtain ⟨hk, rfl⟩ := hcode
    refine ⟨fun bytes hlen hbits => ?missing, fun p crc hp hbits => ?framed⟩
    case missing =>
      exact State.receiveFailed_of_verdict hrx hsend (by rw [State.verdict, hbits, frameVerdict_missingMark hk hlen])
    case framed =>
      have hverdict := frameVerdict_bytes hk hp crc rest
      rw [← hbits] at hverdict
      refine ⟨fun hcrc => ?_, fun hcrc => ⟨fun e he => ?_, fun hrest hclock => ?_⟩⟩
      · exact State.receiveFailed_of_verdict hrx hsend (by rw [State.verdict, hverdict, if_pos hcrc])
      · refine State.receiveFailed_of_verdict hrx hsend ?_
        rw [State.verdict, hverdict, if_neg (by simpa using hcrc)]
        rcases he with rfl | rfl <;> rfl
      · subst hrest
        rw [if_neg (by simpa using hcrc)] at hverdict
        have hover : u.bus.bitsOver k.bitTimes = true := by
          refine (u.bus.bitsOver_iff _).mpr (.inr ⟨?_, hclock⟩)
          rw [hbits, List.length_cons, List.length_append, length_flatMap_byteLevels]
          simp only [List.length_cons, List.length_append, hp, wordBytes, List.length_nil, MsgKind.bitTimes]
          omega
        rw [State.receivedGood_whole hrx hsend hverdict hover, State.receiveFailed_whole hrx hsend hverdict hover]
        exact ⟨fun hd => by simp [hd], fun m hm => by simp [hm]⟩
  case mode => simp [decodePayload, decodeModeMsg, bytesWord, Function.comp_def]
  case leave =>
    simp only [decodePayload, decodeReason, BitVec.ofNat_eq_ofNat]
    split_ifs <;> rfl
  case status =>
    simp only [decodePayload, Option.map_eq_some_iff] at hm
    obtain ⟨x, _, hx⟩ := hm
    exact ⟨x, hx.symm⟩
  case fields =>
    simp only [decodePayload, Option.map_eq_some_iff, Message.status.injEq, exists_eq_right]
    exact decodeStatus_eq_some v b w1 w0 s1 s0 l1 l0 md e1 e0 x

end Sys2Proof.Machine
end

