-- ==== Sys2Proof/Proofs/MessagesEnd.lean ====
section
/-! O43, the end of a message of the station's own: what becomes of its place, of what was held against it, and of a
SET_MODE (R31 to R37). -/

namespace Sys2Proof.Machine

/-! ## When a message ends -/

section
variable {s : State} {l : List Level} (h : s.bus.sendingLevels s.tile = some l)
include h

theorem State.lostAt_iff (i : Nat) : s.lostAt = some i ↔
    (∃ x y, l[i]? = some x ∧ s.bus.rxBits[i]? = some y ∧ x ≠ y) ∧ ∀ k, k < i → l[k]? = s.bus.rxBits[k]? := by
  simp only [State.lostAt, State.sendingLevels, h]
  exact firstDifference_eq_some l s.bus.rxBits i

/-- Read dominant where it was driven recessive, with nothing read otherwise before. -/
theorem State.lostAt_recessive {i : Nat} (hl : l[i]? = some .recessive) : s.lostAt = some i ↔
    s.bus.rxBits[i]? = some .dominant ∧ ∀ k, k < i → l[k]? = s.bus.rxBits[k]? := by
  rw [State.lostAt_iff h]
  refine and_congr_left fun _ => ⟨?_, fun hd => ⟨_, _, hl, hd, by simp⟩⟩
  rintro ⟨x, y, hx, hy, hne⟩
  rw [hl] at hx
  cases hx
  cases y
  · exact hy
  · exact absurd rfl hne

theorem State.lossDue_iff : s.lossDue = true ↔ ∃ i, i + 2 < l.length ∧ l[i]? = some .recessive
    ∧ s.bus.rxBits[i]? = some .dominant ∧ ∀ k, k < i → l[k]? = s.bus.rxBits[k]? := by
  have hdue : s.lossDue = true ↔ ∃ i, s.lostAt = some i ∧ l[i]? = some Level.recessive ∧ i + 2 < l.length := by
    simp only [State.lossDue, State.sendingLevels, h]
    cases s.lostAt <;> simp
  rw [hdue]
  refine exists_congr fun i => ⟨fun ⟨hat, hl, hi⟩ => ⟨hi, hl, (State.lostAt_recessive h hl).mp hat⟩,
    fun ⟨hi, hl, hrest⟩ => ⟨(State.lostAt_recessive h hl).mpr hrest, hl, hi⟩⟩

theorem State.endBitDue_iff : s.endBitDue = true ↔ ∃ i, l.length ≤ i + 2 ∧ l[i]? = some .recessive
    ∧ s.bus.rxBits[i]? = some .dominant ∧ (∀ k, k < i → l[k]? = s.bus.rxBits[k]?) ∧ s.bus.bitsOver (i + 1) = true := by
  have hdue : s.endBitDue = true ↔ ∃ i, s.lostAt = some i ∧ l.length ≤ i + 2 ∧ s.bus.bitsOver (i + 1) = true := by
    simp only [State.endBitDue, State.sendingLevels, h]
    cases s.lostAt <;> simp
  obtain ⟨m, hm⟩ := sendingLevels_endBits h
  rw [hdue]
  refine exists_congr fun i => ⟨fun ⟨hat, hi, hover⟩ => ?_, fun ⟨hi, hl, hd, hbefore, hover⟩ =>
    ⟨(State.lostAt_recessive h hl).mpr ⟨hd, hbefore⟩, hi, hover⟩⟩
  obtain ⟨⟨x, y, hx, -⟩, -⟩ := (State.lostAt_iff h i).mp hat
  have hin := (List.getElem?_eq_some_iff.mp hx).1
  have hl : l[i]? = some .recessive := by
    have hlen : l.length = m.length + 2 := by simp [hm]
    rw [hm, List.getElem?_append_right (by omega)]
    rcases (show i = m.length ∨ i = m.length + 1 by omega) with rfl | rfl <;> simp
  obtain ⟨hd, hbefore⟩ := (State.lostAt_recessive h hl).mp hat
  exact ⟨hi, hl, hd, hbefore, hover⟩

theorem State.sentDue_iff :
    s.sentDue = true ↔ (∃ rest, s.bus.rxBits = l ++ rest) ∧ s.bus.bitsOver l.length = true := by
  simp only [State.sentDue, State.sendingLevels, h, Bool.and_eq_true, List.isPrefixOf_iff_prefix]
  exact and_congr_left fun _ => exists_congr fun _ => eq_comm

end

/-! ## What has ended -/

/-- The STATUS place after the sending of a STATUS has ended (R31, R32, R36, R37). -/
def Sending.statusAfter (d : Sending) (whole window : Bool) (place : Option StatusMsg) : Option StatusMsg :=
  if whole || d.withdraw then d.nextStatus
  else match d.nextStatus with
    | some m => some m
    | none => if window then place else none

/-- The STATUS sent is dropped and counted (R31, R37). -/
def Sending.drops (d : Sending) (whole window : Bool) : Bool :=
  !whole && !d.withdraw && (d.nextStatus.isSome || !window)

/-- The result with which the end of a MODE ends its SET_MODE (R126, R127). -/
def Outstanding.result (o : Outstanding) (whole : Bool) : CmdResult :=
  if whole then .done else if o.ending = .late then .late else .abandoned

/-- The sending of a message has ended, whole or not: what the places, the SET_MODE and the announced flag hold. -/
structure Ended (d : Sending) (whole : Bool) (s t : State) : Prop where
  sending : t.bus.sending = none
  modePlace : t.bus.modePlace = if d.kind = .mode ∧ (whole = true ∨ d.withdraw = true) then none else s.bus.modePlace
  leavePlace : t.bus.leavePlace = if d.kind = .leave then
      (if whole = true ∨ d.withdraw = true then d.nextLeave
        else match d.nextLeave with | some r => some r | none => s.bus.leavePlace)
    else s.bus.leavePlace
  statusPlace : t.bus.statusPlace =
    if d.kind = .status then d.statusAfter whole s.bus.windowOpen s.bus.statusPlace else s.bus.statusPlace
  dropped : t.counters.get .statusDropped = if d.kind = .status ∧ d.drops whole s.bus.windowOpen = true
    then satInc (s.counters.get .statusDropped) else s.counters.get .statusDropped
  member : t.member = { s.member with announced := s.member.announced || (whole && d.kind == .status) }
  kept : d.kind ≠ .mode ∨ (whole = false ∧ d.withdraw = false) ∨ s.modes.outstanding = none →
    t.modes = s.modes ∧ t.port = s.port
  ended : d.kind = .mode → whole = true ∨ d.withdraw = true → ∀ o, s.modes.outstanding = some o →
    t.port = { s.port with
      result := o.result whole,
      inFlight := if s.port.inFlight = some .setMode then none else s.port.inFlight }
    ∧ t.modes = { s.modes with
      outstanding := none,
      queue := if whole = false ∧ o.ending = .late
        then s.modes.queue.filter (fun e => !(e.target == o.target && e.origin == s.tile)) else s.modes.queue }

theorem State.statusEnded_bus (s : State) (d : Sending) (whole : Bool) : (s.statusEnded d whole).bus =
    { s.bus with sending := none, statusPlace := d.statusAfter whole s.bus.windowOpen s.bus.statusPlace } := by
  cases whole <;> cases hw : d.withdraw <;> cases hn : d.nextStatus <;> cases ho : s.bus.windowOpen <;>
    simp [State.statusEnded, Sending.statusAfter, hw, hn, ho]

theorem State.statusEnded_counters (s : State) (d : Sending) (whole : Bool) : (s.statusEnded d whole).counters =
    if d.drops whole s.bus.windowOpen = true then s.counters.bump .statusDropped else s.counters := by
  cases whole <;> cases hw : d.withdraw <;> cases hn : d.nextStatus <;> cases ho : s.bus.windowOpen <;>
    simp [State.statusEnded, Sending.drops, State.count, hw, hn, ho]

theorem State.leaveEnded_bus (s : State) (d : Sending) (whole : Bool) : (s.leaveEnded d whole).bus =
    { s.bus with sending := none, leavePlace := if whole = true ∨ d.withdraw = true then d.nextLeave
        else match d.nextLeave with | some r => some r | none => s.bus.leavePlace } := by
  cases whole <;> cases hw : d.withdraw <;> cases hn : d.nextLeave <;> simp [State.leaveEnded, hw, hn]

/-- An outstanding SET_MODE that ends. -/
theorem State.endSetMode_some {s : State} {o : Outstanding} (r : CmdResult) (h : s.modes.outstanding = some o) :
    s.endSetMode r = (s.setModes { s.modes with outstanding := none }).setPort { s.port with
      result := r, inFlight := if s.port.inFlight = some .setMode then none else s.port.inFlight } := by
  simp only [State.endSetMode, h]

theorem State.endSetMode_none {s : State} (r : CmdResult) (h : s.modes.outstanding = none) : s.endSetMode r = s := by
  simp only [State.endSetMode, h]

theorem State.modeWithdrawn_none {s : State} (h : s.modes.outstanding = none) : s.modeWithdrawn = s := by
  simp only [State.modeWithdrawn, h]

/-- A MODE withdrawn ends its SET_MODE LATE, its own entry removed, or ABANDONED (R126, R127). -/
theorem State.modeWithdrawn_some {s : State} {o : Outstanding} (h : s.modes.outstanding = some o) :
    s.modeWithdrawn = (s.setModes { s.modes with
        outstanding := none,
        queue := if o.ending = .late then s.modes.queue.filter (fun e => !(e.target == o.target && e.origin == s.tile))
          else s.modes.queue }).setPort { s.port with
      result := o.result false, inFlight := if s.port.inFlight = some .setMode then none else s.port.inFlight } := by
  cases he : o.ending <;> simp [State.modeWithdrawn, State.removeOwnEntry, State.endSetMode, Outstanding.result, h, he]

theorem State.sendingEnded_ended {s : State} {d : Sending} (h : s.bus.sending = some d) (whole : Bool) :
    Ended d whole s (s.sendingEnded whole) := by
  cases hk : d.kind with
  | status =>
    have hbus : (s.sendingEnded whole).bus = (s.statusEnded d whole).bus := by
      cases whole <;> simp [State.sendingEnded, h, hk]
    have hcounters : (s.sendingEnded whole).counters = (s.statusEnded d whole).counters := by
      cases whole <;> simp [State.sendingEnded, h, hk]
    rw [State.statusEnded_bus] at hbus
    rw [State.statusEnded_counters] at hcounters
    refine ⟨by rw [hbus], by simp [hbus, hk], by simp [hbus, hk], by simp [hbus, hk], ?_, ?_, fun _ => ?_,
      fun he => by simp [hk] at he⟩
    · rw [hcounters]
      split <;> simp_all [Counters.get_bump]
    · cases whole <;> simp [State.sendingEnded, h, hk]
    · cases whole <;> simp [State.sendingEnded, h, hk]
  | leave =>
    have hended : s.sendingEnded whole = s.leaveEnded d whole := by simp only [State.sendingEnded, h, hk]
    have hbus := s.leaveEnded_bus d whole
    have hleave : (MsgKind.leave == MsgKind.status) = false := rfl
    rw [hended]
    exact ⟨by rw [hbus], by simp [hbus, hk], by simp [hbus, hk], by simp [hbus, hk], by simp [hk],
      by simp [hk, hleave], fun _ => by simp, fun he => by simp [hk] at he⟩
  | mode =>
    have hended : s.sendingEnded whole = s.modeEnded d whole := by simp only [State.sendingEnded, h, hk]
    have hmode : (MsgKind.mode == MsgKind.status) = false := rfl
    rw [hended]
    have hcases : s.modeEnded d whole =
        if whole then (s.setBus { s.bus with sending := none, modePlace := none }).endSetMode .done
        else if d.withdraw then (s.setBus { s.bus with sending := none, modePlace := none }).modeWithdrawn
        else s.setBus { s.bus with sending := none } := rfl
    have hbus : (s.modeEnded d whole).bus = { s.bus with
        sending := none,
        modePlace := if whole = true ∨ d.withdraw = true then none else s.bus.modePlace } := by
      rw [hcases]
      cases whole <;> cases d.withdraw <;> simp
    refine ⟨by rw [hbus], by simp [hbus, hk], by simp [hbus, hk], by simp [hbus, hk], by simp [hk],
      by simp [hk, hmode], fun hkept => ?_, fun _ hend o ho => ?_⟩
    · rw [hcases]
      rcases hkept with hkept | ⟨hwhole, hwith⟩ | hnone
      · exact absurd hk hkept
      · simp [hwhole, hwith]
      · rw [State.endSetMode_none _ (by simpa using hnone), State.modeWithdrawn_none (by simpa using hnone)]
        split_ifs <;> simp
    · have ho' : (s.setBus { s.bus with sending := none, modePlace := none }).modes.outstanding = some o := ho
      rw [hcases, State.endSetMode_some _ ho', State.modeWithdrawn_some ho']
      cases whole with
      | true =>
        simp [Outstanding.result]
        rfl
      | false =>
        have hwith : d.withdraw = true := by simpa using hend
        simp [hwith, State.tile]
        rfl

/-- The receive path does not notice that a sending ends. -/
theorem State.sendingEnded_rx (s : State) (whole : Bool) :
    (s.sendingEnded whole).bus.rx = s.bus.rx ∧ (s.sendingEnded whole).bus.rxBits = s.bus.rxBits := by
  cases hd : s.bus.sending with
  | none => simp [State.sendingEnded, hd]
  | some d =>
    cases hk : d.kind with
    | status =>
      have hbus : (s.sendingEnded whole).bus = (s.statusEnded d whole).bus := by
        cases whole <;> simp [State.sendingEnded, hd, hk]
      simp [hbus, State.statusEnded_bus]
    | leave => simp [State.sendingEnded, hd, hk, State.leaveEnded_bus]
    | mode => cases whole <;> cases hw : d.withdraw <;> simp [State.sendingEnded, hd, hk, State.modeEnded, hw]

section
variable {d : Sending} {whole : Bool} {s t : State} {c : Counter} (hc : c ≠ .statusDropped)
include hc

/-- A count before the end, or after it, does not change how the message ended. -/
theorem Ended.of_count (h : Ended d whole (s.count c) t) : Ended d whole s t where
  sending := h.sending
  modePlace := h.modePlace
  leavePlace := h.leavePlace
  statusPlace := h.statusPlace
  dropped := by simpa [State.count, Counters.get_bump, hc.symm] using h.dropped
  member := h.member
  kept := h.kept
  ended := h.ended

theorem Ended.count (h : Ended d whole s t) : Ended d whole s (t.count c) where
  sending := h.sending
  modePlace := h.modePlace
  leavePlace := h.leavePlace
  statusPlace := h.statusPlace
  dropped := by simpa [State.count, Counters.get_bump, hc.symm] using h.dropped
  member := h.member
  kept := h.kept
  ended := h.ended

end

theorem Ended.rxWaitIdle {d : Sending} {whole : Bool} {s t : State} (h : Ended d whole s t) :
    Ended d whole s t.rxWaitIdle :=
  ⟨h.sending, h.modePlace, h.leavePlace, h.statusPlace, h.dropped, h.member, h.kept, h.ended⟩

theorem Ended.settle {d : Sending} {whole : Bool} {s t : State} (h : Ended d whole s t) : Ended d whole s t.settle where
  sending := by simpa using h.sending
  modePlace := by simpa using h.modePlace
  leavePlace := by simpa using h.leavePlace
  statusPlace := by simpa using h.statusPlace
  dropped := by simpa using h.dropped
  member := by simpa using h.member
  kept hk := by simpa using h.kept hk
  ended hk hw o ho := by simpa using h.ended hk hw o ho

/-- The message has been sent whole, and counted. -/
def State.sentWhole (s : State) : State := ((s.count .msgsSent).sendingEnded true).rxWaitIdle

/-- The field checks of the own message can only count one more error (R29, R36). -/
theorem State.messageWhole_cases (s : State) :
    s.messageWhole = s.sentWhole ∨ s.messageWhole = s.sentWhole.count .rxErrors := by
  unfold State.messageWhole
  dsimp only
  split_ifs
  · exact .inr rfl
  · exact .inl rfl

section
variable {s : State} {d : Sending} (h : s.bus.sending = some d)
include h

theorem State.loseArbitration_ended : Ended d false s s.loseArbitration :=
  .of_count (by simp) (State.sendingEnded_ended (s := s.count .arbLosses) (by simpa using h) false)

theorem State.endBitFails_ended : Ended d false s s.endBitFails :=
  (State.sendingEnded_ended h false).rxWaitIdle.count (by simp)

theorem State.messageWhole_ended : Ended d true s s.messageWhole := by
  have hended : Ended d true s s.sentWhole :=
    (Ended.of_count (c := .msgsSent) (by simp)
      (State.sendingEnded_ended (s := s.count .msgsSent) (by simpa using h) true)).rxWaitIdle
  rcases s.messageWhole_cases with hw | hw <;> rw [hw]
  · exact hended
  · exact hended.count (by simp)

end

/-- The end bits' failure leaves the receive path waiting for idle, and counts one error. -/
theorem State.endBitFails_bus (s : State) :
    s.endBitFails.bus = { (s.sendingEnded false).bus with rx := .waitIdle, rxBits := [] } := rfl

theorem State.sendingEnded_counts (s : State) (whole : Bool) {c : Counter} (hc : c ≠ .statusDropped) :
    (s.sendingEnded whole).counters.get c = s.counters.get c := by
  cases hd : s.bus.sending with
  | none => simp [State.sendingEnded, hd]
  | some d =>
    cases hk : d.kind with
    | status =>
      have hcounters : (s.sendingEnded whole).counters = (s.statusEnded d whole).counters := by
        cases whole <;> simp [State.sendingEnded, hd, hk]
      rw [hcounters, State.statusEnded_counters]
      split <;> simp [Counters.get_bump, hc]
    | leave => simp [State.sendingEnded, hd, hk]
    | mode => simp [State.sendingEnded, hd, hk]

theorem State.messageWhole_rx (s : State) : s.messageWhole.bus.rx = .waitIdle ∧ s.messageWhole.bus.rxBits = []
    ∧ s.messageWhole.counters.get .msgsSent = satInc (s.counters.get .msgsSent) := by
  have hsent := State.sendingEnded_counts (s.count .msgsSent) true (c := .msgsSent) (by simp)
  have hcount : s.sentWhole.counters.get .msgsSent = satInc (s.counters.get .msgsSent) := by
    simpa [State.sentWhole, State.count, Counters.get_bump] using hsent
  rcases s.messageWhole_cases with hw | hw <;> rw [hw]
  · exact ⟨rfl, rfl, hcount⟩
  · refine ⟨rfl, rfl, ?_⟩
    simpa [State.count, Counters.get_bump] using hcount

/-- A loss leaves what the receive path has, and counts. -/
theorem State.loseArbitration_rx (s : State) : s.loseArbitration.bus.rx = s.bus.rx
    ∧ s.loseArbitration.bus.rxBits = s.bus.rxBits
    ∧ s.loseArbitration.counters.get .arbLosses = satInc (s.counters.get .arbLosses) := by
  obtain ⟨hrx, hbits⟩ := State.sendingEnded_rx (s.count .arbLosses) false
  refine ⟨by simpa [State.loseArbitration] using hrx, by simpa [State.loseArbitration] using hbits, ?_⟩
  rw [State.loseArbitration, State.sendingEnded_counts _ _ (by simp)]
  simp [State.count, Counters.get_bump]

/-- With nothing held against it, a message that was not sent whole waits in its place, but for a STATUS after the
cut-off. -/
theorem Ended.waiting {k : MsgKind} {s t : State} (h : Ended ⟨k, false, none, none⟩ false s t) :
    t.bus.modePlace = s.bus.modePlace ∧ t.bus.leavePlace = s.bus.leavePlace
    ∧ t.bus.statusPlace = (if k = .status ∧ s.bus.windowOpen = false then none else s.bus.statusPlace)
    ∧ t.counters.get .statusDropped = (if k = .status ∧ s.bus.windowOpen = false
        then satInc (s.counters.get .statusDropped) else s.counters.get .statusDropped)
    ∧ t.member = s.member ∧ t.modes = s.modes ∧ t.port = s.port := by
  obtain ⟨hmodes, hport⟩ := h.kept (.inr (.inl ⟨rfl, rfl⟩))
  have hstatus := h.statusPlace
  have hdropped := h.dropped
  refine ⟨by simpa using h.modePlace, by simpa using h.leavePlace, ?_, ?_, by simpa using h.member, hmodes, hport⟩
  · rw [hstatus]
    cases k <;> cases hw : s.bus.windowOpen <;> simp [Sending.statusAfter]
  · rw [hdropped]
    cases k <;> cases hw : s.bus.windowOpen <;> simp [Sending.drops]

/-- Settles O43. -/
theorem messagesEnd : Obligations.MessagesEnd := by
  unfold Obligations.MessagesEnd
  refine ⟨fun u l h => ⟨State.lossDue_iff h, State.endBitDue_iff h, State.sentDue_iff h⟩, fun w s u hu =>
    ⟨fun hfail => ?failed, fun k hk => ⟨fun hdue => ?lost, fun hdue => ?endBit, fun hdue => ?sent⟩,
      fun c whole d hd hc => ?held⟩⟩
  case failed =>
    exact event_settled (due := State.receiveFailed) (effect := State.rxDiscard) hu hfail rfl
  case lost =>
    have hended := State.loseArbitration_ended hk
    obtain ⟨hrx, hbits, hcount⟩ := u.loseArbitration_rx
    obtain ⟨hmode, hleave, hstatus, hdropped, hmember, hmodes, hport⟩ := hended.settle.waiting
    refine ⟨_, event_at (due := State.lossDue) (effect := State.loseArbitration) hu hdue, hended.settle.sending,
      by simpa using hrx, by simpa using hbits, by simpa using hcount, hmode, hleave, hstatus, hdropped,
      by simp [State.loseArbitration], fun p hp => ?_⟩
    cases p <;> simp_all [Part.same, State.loseArbitration]
  case endBit =>
    have hended := State.endBitFails_ended hk
    obtain ⟨hmode, hleave, hstatus, hdropped, hmember, hmodes, hport⟩ := hended.settle.waiting
    have hcount := State.sendingEnded_counts u false (c := .rxErrors) (by simp)
    refine ⟨_, event_at (due := State.endBitDue) (effect := State.endBitFails) hu hdue, hended.settle.sending,
      by simp [State.endBitFails_bus], by simp [State.endBitFails_bus], ?_, hmode, hleave, hstatus, hdropped,
      by simp [State.endBitFails], fun p hp => ?_⟩
    · simp [State.endBitFails, State.rxDiscard, State.rxWaitIdle, State.count, Counters.get_bump, hcount]
    · cases p <;> simp_all [Part.same, State.endBitFails]
  case sent =>
    have hended := (State.messageWhole_ended hk).settle
    obtain ⟨hrx, hbits, hcount⟩ := u.messageWhole_rx
    have hframe : SameBut [.bus, .store, .member, .modes, .picture, .port, .counters] u u.messageWhole := by
      intro p hp
      rcases u.messageWhole_cases with hw | hw <;> cases p <;> simp_all [Part.same, State.sentWhole]
    refine ⟨_, event_at (due := State.sentDue) (effect := State.messageWhole) hu hdue, hended.sending,
      by simpa using hrx, by simpa using hbits, by simpa using hcount, by simpa using hended.modePlace,
      by simpa using hended.leavePlace, ?_, by simpa using hended.member, fun hmode hout => ?_, fun hmode => ?_,
      by simp, hframe.settle (by simp)⟩
    · rw [hended.statusPlace]
      cases k <;> rfl
    · obtain ⟨o, ho⟩ := Option.ne_none_iff_exists'.mp hout
      obtain ⟨hport, hmodes⟩ := hended.ended hmode (.inl rfl) o ho
      rw [hport, hmodes]
      exact ⟨rfl, rfl⟩
    · exact hended.kept (.inl hmode)
  case held =>
    have hexec : ∃ t, exec c s = .next t ∧ Ended d whole u t := by
      rcases hc with ⟨rfl, hdue, rfl⟩ | ⟨rfl, hdue, rfl⟩ | ⟨rfl, hdue, rfl⟩
      · exact ⟨_, event_at (due := State.sentDue) (effect := State.messageWhole) hu hdue,
          (State.messageWhole_ended hd).settle⟩
      · exact ⟨_, event_at (due := State.lossDue) (effect := State.loseArbitration) hu hdue,
          (State.loseArbitration_ended hd).settle⟩
      · exact ⟨_, event_at (due := State.endBitDue) (effect := State.endBitFails) hu hdue,
          (State.endBitFails_ended hd).settle⟩
    obtain ⟨t, ht, hended⟩ := hexec
    refine ⟨t, ht, hended.sending, fun hk => ⟨by simpa [hk] using hended.statusPlace, by simpa [hk] using hended.dropped⟩,
      fun hk => by simpa [hk] using hended.leavePlace, fun hk => ⟨by simpa [hk] using hended.modePlace,
        hended.kept (.inl hk)⟩, fun hk hw => ?gone, fun hk hw hwith => ⟨fun m hm => ?replaced, fun hn => ?left⟩,
      fun hk => hended.leavePlace.trans (if_pos hk), fun hk => ⟨fun hw => ⟨by simpa [hk, hw] using hended.modePlace,
        fun hn => hended.kept (.inr (.inr hn)), fun o ho => ?mode⟩, fun hw hwith => ⟨?_, hended.kept (.inr (.inl ⟨hw, hwith⟩))⟩⟩,
      by simp [hended.member]⟩
    case gone =>
      rw [hended.statusPlace, hended.dropped]
      rcases hw with hw | hw <;> simp [hk, hw, Sending.statusAfter, Sending.drops]
    case replaced =>
      rw [hended.statusPlace, hended.dropped]
      simp [hk, hw, hwith, hm, Sending.statusAfter, Sending.drops]
    case left =>
      rw [hended.statusPlace, hended.dropped]
      cases ho : u.bus.windowOpen <;> simp [hk, hw, hwith, hn, Sending.statusAfter, Sending.drops]
    case mode =>
      exact hended.ended hk hw o ho
    · simpa [hk, hw, hwith] using hended.modePlace

end Sys2Proof.Machine
end

