-- ==== Sys2Proof/Proofs/TileBusClock.lean ====
section
/-! O40, TD clock by clock (R20, R21): what is driven, when a bit time ends, where a mark bit begins one afresh. -/

namespace Sys2Proof.Machine

/-! ## The pixel clocks of a Span -/

/-- Pixel clocks passed: the two edges are as much older (R10, R81). -/
theorem State.passPixels_edges (s : State) (d : Nat) :
    (s.passPixels d).timing = { s.timing with keptEdge := s.timing.keptEdge.map (· + d) }
    ∧ (s.passPixels d).ballot = { s.ballot with edge := s.ballot.edge.map (· + d) } := by
  simp only [State.passPixels]
  split
  · next h =>
    subst h
    simp
  · simp

/-- The panel pixel clocks that a Span passes. -/
def State.spanPixels (s : State) (w : Span) : Nat := if s.timing.running then min w.pix (s.toLineEnd - 1) else 0

theorem State.passPanel_edges (s : State) (w : Span) : (s.passPanel w).timing = { s.timing with
      pixel := s.timing.pixel + s.spanPixels w, keptEdge := s.timing.keptEdge.map (· + s.spanPixels w) }
    ∧ (s.passPanel w).ballot = { s.ballot with edge := s.ballot.edge.map (· + s.spanPixels w) } := by
  simp only [State.passPanel, State.spanPixels, State.pixelsPassed]
  split
  · obtain ⟨ht, hb⟩ := State.passPixels_edges
      (s.setTiming { s.timing with pixel := s.timing.pixel + min w.pix (s.toLineEnd - 1) }) (min w.pix (s.toLineEnd - 1))
    exact ⟨ht, hb⟩
  · simp

/-- The ballot's drive is read from the ballot and the configuration. -/
theorem State.tdBallot_congr {s t : State} (hb : t.ballot = s.ballot) (hc : t.cfg = s.cfg) :
    t.tdBallot = s.tdBallot := by simp only [State.tdBallot, hb, hc]

/-- A list's first levels, with a filler where it is too short. -/
theorem take_append_replicate {α : Type} (l : List α) (n : Nat) (d : α) :
    l.take n ++ List.replicate (n - l.length) d = (List.range n).map (fun k => (l[k]?).getD d) := by
  refine List.ext_getElem (by simp; omega) (fun k hk _ => ?_)
  simp only [List.length_append, List.length_take, List.length_replicate] at hk
  rw [List.getElem_append]
  split
  · next h =>
    simp only [List.length_take] at h
    have hl : k < l.length := by omega
    simp [hl]
  · next h =>
    simp only [List.length_take] at h
    have hl : l.length ≤ k := by omega
    simp [hl]

/-! ## What is driven -/

theorem lineLevel_recessive (a b : Level) : lineLevel a b = .recessive ↔ a = .recessive ∧ b = .recessive := by
  cases a <;> cases b <;> simp [lineLevel]

theorem Bus.stuckWatch_iff (u : Bus) (locked : Bool) : u.stuckWatch locked = true ↔
    u.active = true ∧ locked = true ∧ (u.rx = .waitIdle ∨ u.rx = .idle) ∧ u.ballotWindow = false := by
  simp [Bus.stuckWatch, and_assoc]

theorem firstDifference_eq_none (l b : List Level) : firstDifference l b = none ↔
    ∀ (k : Nat) (x y : Level), l[k]? = some x → b[k]? = some y → x = y := by
  induction l generalizing b with
  | nil => simp [firstDifference]
  | cons a as ih =>
    cases b with
    | nil => simp [firstDifference]
    | cons c cs =>
      simp only [firstDifference]
      split
      · next h =>
        rw [Option.map_eq_none_iff, ih]
        refine ⟨fun hall k x y hx hy => ?_, fun hall k x y hx hy => hall (k + 1) x y (by simpa using hx) (by simpa using hy)⟩
        cases k with
        | zero =>
          simp only [List.getElem?_cons_zero, Option.some.injEq] at hx hy
          exact hx.symm.trans (h.trans hy)
        | succ k => exact hall k x y (by simpa using hx) (by simpa using hy)
      · next h => simpa using ⟨0, a, by simp, c, by simp, h⟩

theorem Bus.drive_idle {u : Bus} (t : Tile) (h : u.active = false ∨ u.ballotWindow = true ∨ u.sending = none) :
    u.drive t = .recessive := by
  rcases h with h | h | h <;> simp [Bus.drive, Bus.sendingLevels, h]

theorem Bus.drive_sending {u : Bus} {t : Tile} {l : List Level} (hact : u.active = true) (hwin : u.ballotWindow = false)
    (hl : u.sendingLevels t = some l) : u.drive t =
      if (firstDifference l u.rxBits).isNone then (l[u.bitIndex]?).getD .recessive else .recessive := by
  simp [Bus.drive, hact, hwin, hl]

/-! ## Mark bits -/

/-- The kind of a message in progress by its three code bits (R24). -/
theorem bitsKind_eq {bits : List Level} (h : 5 ≤ bits.length) : bitsKind bits =
    if (bits.drop 2).take 3 = [.dominant, .dominant, .dominant] then some .mode
    else if (bits.drop 2).take 3 = [.dominant, .dominant, .recessive] then some .leave
    else if (bits.drop 2).take 3 = [.dominant, .recessive, .dominant] then some .status else none := by
  match bits, h with
  | _ :: _ :: a :: b :: c :: _, _ => cases a <;> cases b <;> cases c <;> rfl

theorem bitsKind_short {bits : List Level} (h : bits.length ≤ 4) : bitsKind bits = none := by
  match bits, h with
  | [], _ | [_], _ | [_, _], _ | [_, _, _], _ | [_, _, _, _], _ => rfl

theorem MsgKind.bitTimes_eq : MsgKind.mode.bitTimes = 57 ∧ MsgKind.leave.bitTimes = 39
    ∧ MsgKind.status.bitTimes = 120 := ⟨rfl, rfl, rfl⟩

/-- A mark bit is due after the start bit and after each byte but the last (R22). -/
theorem markNext_iff (bits : List Level) : markNext bits = true ↔ ∃ j, bits.length = 9 * j + 1 ∧ (j = 0
    ∨ ((bits.drop 2).take 3 = [.dominant, .dominant, .dominant] ∧ j < 6)
    ∨ ((bits.drop 2).take 3 = [.dominant, .dominant, .recessive] ∧ j < 4)
    ∨ ((bits.drop 2).take 3 = [.dominant, .recessive, .dominant] ∧ j < 13)) := by
  by_cases hlen : 5 ≤ bits.length
  · simp only [markNext, bitsKind_eq hlen, Bool.and_eq_true, beq_iff_eq]
    obtain ⟨hmode, hleave, hstatus⟩ := MsgKind.bitTimes_eq
    generalize (bits.drop 2).take 3 = code
    constructor
    · rintro ⟨hmod, hkind⟩
      refine ⟨bits.length / 9, by omega, ?_⟩
      split_ifs at hkind with h1 h2 h3 <;>
        simp only [hmode, hleave, hstatus, decide_eq_true_eq, beq_iff_eq] at hkind
      · exact .inr (.inl ⟨h1, by omega⟩)
      · exact .inr (.inr (.inl ⟨h2, by omega⟩))
      · exact .inr (.inr (.inr ⟨h3, by omega⟩))
      · omega
    · rintro ⟨j, hj, hcase⟩
      refine ⟨by omega, ?_⟩
      rcases hcase with rfl | ⟨rfl, hlt⟩ | ⟨rfl, hlt⟩ | ⟨rfl, hlt⟩
      · omega
      all_goals
        simp [hmode, hleave, hstatus]
        omega
  · simp only [markNext, bitsKind_short (bits := bits) (by omega), Bool.and_eq_true, beq_iff_eq]
    constructor
    · rintro ⟨_, hone⟩
      exact ⟨0, by omega, .inl rfl⟩
    · rintro ⟨j, hj, _⟩
      omega

theorem Bus.aligns_iff (u : Bus) (b : Level) : u.aligns b = true ↔ u.rx = .frame ∧ u.tdClock = .recessive
    ∧ b = .dominant ∧ u.rxBits.getLast? = some .recessive ∧ markNext u.rxBits = true := by
  simp only [Bus.aligns, Bool.and_eq_true, beq_iff_eq]
  tauto

/-! ## One clock -/

theorem sampleClock_lt (p : Nat) : 2 ≤ sampleClock p ∧ sampleClock p + 1 < bitLength p := by
  simp only [sampleClock, bitLength]
  split <;> split <;> simp_all

/-- A clock that begins no mark bit: a sample at its place, and the end of the bit time at its last clock. -/
theorem Bus.clock_straight {locked : Bool} {t : Tile} {d others b : Level} {u : Bus}
    (hb : lineLevel others (lineLevel d (u.drive t)) = b) (halign : u.aligns b = false) :
    (u.bitClock = sampleClock u.bitPhase → u.clock locked t d others =
      { u.takeSample b with tdClock := b, bitClock := u.bitClock + 1 })
    ∧ (u.bitClock ≠ sampleClock u.bitPhase → u.bitClock + 1 < bitLength u.bitPhase → u.clock locked t d others =
      { u with tdClock := b, bitClock := u.bitClock + 1 })
    ∧ (u.bitClock ≠ sampleClock u.bitPhase → bitLength u.bitPhase ≤ u.bitClock + 1 → u.clock locked t d others =
      ({ u with tdClock := b, bitClock := u.bitClock + 1 } : Bus).endBit locked) := by
  obtain ⟨-, hsample⟩ := sampleClock_lt u.bitPhase
  have hkeep : (u.takeSample b).bitPhase = u.bitPhase ∧ (u.takeSample b).bitClock = u.bitClock := ⟨rfl, rfl⟩
  refine ⟨fun h => ?_, fun h hlt => ?_, fun h hge => ?_⟩
  · have hnot : ¬bitLength u.bitPhase ≤ u.bitClock + 1 := by omega
    simp only [Bus.clock, hb, halign, Bool.false_eq_true, if_false, if_pos h, hkeep.1, hkeep.2, if_neg hnot]
  · have hnot : ¬bitLength u.bitPhase ≤ u.bitClock + 1 := by omega
    simp only [Bus.clock, hb, halign, Bool.false_eq_true, if_false, if_neg h, if_neg hnot]
  · simp only [Bus.clock, hb, halign, Bool.false_eq_true, if_false, if_neg h, if_pos hge]

/-- A clock that begins a mark bit afresh. -/
theorem Bus.clock_aligned {locked : Bool} {t : Tile} {d others b : Level} {u : Bus}
    (hb : lineLevel others (lineLevel d (u.drive t)) = b) (halign : u.aligns b = true) :
    u.clock locked t d others = { u.alignMark locked with tdClock := b, bitClock := 1 } := by
  have hzero : (u.alignMark locked).bitClock = 0 := by
    simp only [Bus.alignMark]
    split <;> rfl
  obtain ⟨hlow, hsample⟩ := sampleClock_lt (u.alignMark locked).bitPhase
  have hne : ¬0 = sampleClock (u.alignMark locked).bitPhase := by omega
  have hnot : ¬bitLength (u.alignMark locked).bitPhase ≤ 1 := by omega
  simp only [Bus.clock, hb, halign, if_true, hzero, if_neg hne, Nat.zero_add, if_neg hnot]

theorem Bus.clock_tdClock (locked : Bool) (t : Tile) (d others : Level) (u : Bus) :
    (u.clock locked t d others).tdClock = lineLevel others (lineLevel d (u.drive t)) := by
  cases halign : u.aligns (lineLevel others (lineLevel d (u.drive t))) with
  | true => rw [Bus.clock_aligned rfl halign]
  | false =>
    obtain ⟨hsampled, hbetween, hended⟩ := Bus.clock_straight (locked := locked) rfl halign
    by_cases hs : u.bitClock = sampleClock u.bitPhase
    · rw [hsampled hs]
    · rcases Nat.lt_or_ge (u.bitClock + 1) (bitLength u.bitPhase) with hl | hl
      · rw [hbetween hs hl]
      · rw [hended hs hl]
        rfl

theorem Bus.takeSample_glitch {u : Bus} (hrx : u.rx = .frame) (hbits : u.rxBits = []) :
    u.takeSample .recessive = { u with sample := .recessive, rx := .waitIdle, sending := none } := by
  simp [Bus.takeSample, hrx, hbits]

theorem Bus.takeSample_frame {u : Bus} {b : Level} (hrx : u.rx = .frame) (h : ¬(u.rxBits = [] ∧ b = .recessive)) :
    u.takeSample b = { u with sample := b, rxBits := u.rxBits ++ [b] } := by
  have hglitch : (u.rxBits.isEmpty && b == .recessive) = false := by
    rw [← Bool.not_eq_true]
    simpa using h
  simp [Bus.takeSample, hrx, hglitch]

theorem Bus.takeSample_outside {u : Bus} (b : Level) (hrx : u.rx ≠ .frame) :
    u.takeSample b = { u with sample := b } := by
  simp [Bus.takeSample, hrx]

/-- Settles O40. -/
theorem tdIsReadByClock : Obligations.TdIsReadByClock := by
  unfold Obligations.TdIsReadByClock
  refine ⟨lineLevel_recessive, fun u => ?settled, by decide, by decide, fun w s n hn => ?bus,
    fun u locked t d w => ⟨fun hact => by simp [Bus.pass, hact], fun hact => ?pass⟩,
    fun u t => ⟨Bus.drive_idle t, fun l hact hwin hl => ⟨fun hdiff => ?lost, fun hsame => ?drives⟩⟩,
    fun u b => ⟨?index, ?aligns⟩, fun locked t d others b u v hb hv => ?clock⟩
  case settled =>
    simp only [State.settle_bus, Bus.stuckWatch_iff, State.locked, beq_iff_eq]
  case bus =>
    obtain ⟨-, hballot⟩ := s.passPanel_edges w
    subst hn
    rw [State.pass_bus, State.tdBallot_congr (s := s.setBallot { s.ballot with
      edge := s.ballot.edge.map (· + if s.timing.running then min w.pix (s.toLineEnd - 1) else 0) }) hballot (by simp)]
  case pass =>
    rw [Bus.pass, if_pos hact, tdLevels, take_append_replicate]
  case lost =>
    rw [Bus.drive_sending hact hwin hl, if_neg]
    obtain ⟨k, x, y, hx, hy, hne⟩ := hdiff
    simpa [firstDifference_eq_none] using ⟨k, x, hx, y, hy, hne⟩
  case drives =>
    rw [Bus.drive_sending hact hwin hl, if_pos]
    rw [Option.isNone_iff_eq_none, firstDifference_eq_none]
    exact hsame
  case index => simp [Bus.bitIndex, Bus.bitEnded]
  case aligns => rw [Bus.aligns_iff, markNext_iff]
  case clock =>
    have htd := u.clock_tdClock locked t d others
    refine ⟨by rw [← hv, htd, hb], fun hdrive => ?dominant, fun halign _ hlt => ?straight, fun halign => ?stuck,
      fun halign hphase => ?aligned⟩
    case dominant =>
      rw [← hb, hdrive]
      cases others <;> cases d <;> rfl
    case straight =>
      obtain ⟨hsampled, hbetween, hended⟩ := Bus.clock_straight (locked := locked) hb halign
      rw [hv] at hsampled hbetween hended
      obtain ⟨-, hsample⟩ := sampleClock_lt u.bitPhase
      refine ⟨fun h => ?_, fun h => ?_, fun h => ?_, fun h => ?_⟩
      · rw [hsampled h]
        refine ⟨rfl, fun hrx hnot => ?_, fun hrx hbits hrec => ?_, fun hrx => ?_⟩
        · simp [Bus.takeSample_frame hrx hnot, hrx]
        · subst hrec
          simp [Bus.takeSample_glitch hrx hbits, hbits]
        · simp [Bus.takeSample_outside b hrx]
      · rcases Nat.lt_or_ge (u.bitClock + 1) (bitLength u.bitPhase) with hl | hl
        · rw [hbetween h hl]
          exact ⟨rfl, rfl, rfl, rfl⟩
        · rw [hended h hl]
          exact ⟨rfl, rfl, rfl, rfl⟩
      · by_cases hs : u.bitClock = sampleClock u.bitPhase
        · rw [hsampled hs]
          exact ⟨rfl, rfl, rfl, rfl, rfl⟩
        · rw [hbetween hs h]
          exact ⟨rfl, rfl, rfl, rfl, rfl⟩
      · rw [hended (by omega) h.ge]
        refine ⟨rfl, rfl, rfl, rfl, ?_⟩
        refine if_congr ?_ rfl rfl
        rw [Bool.and_eq_true, Bus.stuckWatch_iff, beq_iff_eq]
        tauto
    case stuck =>
      rw [← hv, Bus.clock_aligned hb halign]
      obtain ⟨hrx, -⟩ := (u.aligns_iff b).mp halign
      simp only [Bus.alignMark, Bus.bitEnded, decide_eq_true_eq]
      split
      · rfl
      · simp [Bus.endBit, Bus.stuckWatch, hrx]
    case aligned =>
      rw [← hv, Bus.clock_aligned hb halign]
      simp only [Bus.alignMark, Bus.bitEnded, decide_eq_true_eq]
      split <;> exact ⟨trivial, rfl, rfl⟩

end Sys2Proof.Machine
end

