-- ==== Sys2Proof/Proofs/EvaluationPicks.lean ====
section
/-! O30, what is picked by modular order: the newest and the oldest slot, the best match, the reference, the newest
candidate for repair; and what a pledge takes. -/

namespace Sys2Proof.Machine

/-! ## Modular order as an order of ages -/

/-- `a` lies at most half of the circle behind `n`. -/
def Near (n a : Word) : Prop := (n - a).toNat ≤ 32767

/-- Of two values near `n`, the later is the less far behind. -/
theorem later_iff_age {n a b : Word} (ha : Near n a) (hb : Near n b) :
    later a b = true ↔ (n - a).toNat < (n - b).toNat := by
  have hn := n.isLt
  have hla := a.isLt
  have hlb := b.isLt
  unfold Near at ha hb
  rw [later_iff]
  rw [BitVec.toNat_sub] at ha hb ⊢
  rw [BitVec.toNat_sub, BitVec.toNat_sub] at *
  omega

theorem later_eq_false_iff_age {n a b : Word} (ha : Near n a) (hb : Near n b) :
    later a b = false ↔ (n - b).toNat ≤ (n - a).toNat := by
  rw [← Bool.not_eq_true, later_iff_age ha hb, Nat.not_lt]

theorem later_irrefl (a : Word) : later a a = false := by simp [later]

/-- What is picked last of a list has nothing before it, where the test orders the list by a key. -/
theorem pickBy_least {before : Word → Word → Bool} {key : Word → Nat} {l : List (Fin 5 × Slot)} {e : Fin 5 × Slot}
    (hkey : ∀ a ∈ l, ∀ b ∈ l, before a.2.lcs b.2.lcs = true ↔ key a.2.lcs < key b.2.lcs) (h : pickBy before l = some e) :
    ∀ a ∈ l, key e.2.lcs ≤ key a.2.lcs := by
  induction l generalizing e with
  | nil => cases h
  | cons b rest ih =>
    have hrest := fun e => ih (e := e) (fun a ha c hc => hkey a (List.mem_cons_of_mem _ ha) c (List.mem_cons_of_mem _ hc))
    intro a ha
    simp only [pickBy] at h
    cases hp : pickBy before rest with
    | none =>
      rw [hp] at h
      cases h
      have hnil : rest = [] := by
        cases rest with
        | nil => rfl
        | cons c rest =>
          simp only [pickBy] at hp
          split at hp
          · cases hp
          · split at hp <;> cases hp
      subst hnil
      simp only [List.mem_singleton] at ha
      rw [ha]
    | some c =>
      simp only [hp] at h
      have hleast := hrest c hp
      have hbc := hkey b List.mem_cons_self c (List.mem_cons_of_mem _ (pickBy_mem hp))
      split at h
      · next hbefore =>
        cases h
        rcases List.mem_cons.mp ha with rfl | ha
        · exact le_rfl
        · exact ((hbc.mp hbefore).le).trans (hleast a ha)
      · next hnot =>
        cases h
        rcases List.mem_cons.mp ha with rfl | ha
        · exact Nat.le_of_not_lt (fun hlt => hnot (hbc.mpr hlt))
        · exact hleast a ha

theorem pickBy_eq_none {before : Word → Word → Bool} {l : List (Fin 5 × Slot)} : pickBy before l = none ↔ l = [] := by
  cases l with
  | nil => simp [pickBy]
  | cons a rest =>
    simp only [pickBy, reduceCtorEq, iff_false]
    split
    · simp
    · split <;> simp

/-- The slots of a list are near `n`. -/
def SlotsNear (n : Word) (l : List (Fin 5 × Slot)) : Prop := ∀ e ∈ l, Near n e.2.lcs

/-- No slot of the list is later than the newest. -/
theorem newest_not_earlier {n : Word} {l : List (Fin 5 × Slot)} {e : Fin 5 × Slot} (hnear : SlotsNear n l)
    (h : newest l = some e) : ∀ a ∈ l, later a.2.lcs e.2.lcs = false := by
  intro a ha
  rw [later_eq_false_iff_age (hnear a ha) (hnear e (pickBy_mem h))]
  exact pickBy_least (key := fun v => (n - v).toNat) (fun a ha b hb => later_iff_age (hnear a ha) (hnear b hb)) h a ha

/-- No slot of the list is earlier than the oldest. -/
theorem oldest_not_later {n : Word} {l : List (Fin 5 × Slot)} {e : Fin 5 × Slot} (hnear : SlotsNear n l)
    (h : oldest l = some e) : ∀ a ∈ l, later e.2.lcs a.2.lcs = false := by
  intro a ha
  rw [later_eq_false_iff_age (hnear e (pickBy_mem h)) (hnear a ha)]
  have hleast := pickBy_least (key := fun v => 65536 - (n - v).toNat) (fun a ha b hb => ?_) h a ha
  · have hle := (n - e.2.lcs).isLt
    have hla := (n - a.2.lcs).isLt
    omega
  · rw [later_iff_age (hnear b hb) (hnear a ha)]
    have hla := (n - a.2.lcs).isLt
    have hlb := (n - b.2.lcs).isLt
    omega

/-- The one slot that every other of the list is earlier than is the newest. -/
theorem newest_eq {l : List (Fin 5 × Slot)} {e : Fin 5 × Slot} (hmem : e ∈ l)
    (hlatest : ∀ a ∈ l, a ≠ e → later e.2.lcs a.2.lcs = true) : newest l = some e := by
  have hasymm : ∀ a b : Word, later a b = true → later b a = false := by
    intro a b h
    rw [later_iff] at h
    rw [← Bool.not_eq_true, later_iff]
    have hla := a.isLt
    have hlb := b.isLt
    rw [BitVec.toNat_sub] at h ⊢
    omega
  induction l with
  | nil => cases hmem
  | cons b rest ih =>
    simp only [newest, pickBy]
    by_cases hrest : e ∈ rest
    · have hnewest := ih hrest (fun a ha hne => hlatest a (List.mem_cons_of_mem _ ha) hne)
      rw [newest] at hnewest
      simp only [hnewest]
      by_cases hb : b = e
      · subst hb
        simp [later_irrefl]
      · simp [hasymm _ _ (hlatest b List.mem_cons_self hb)]
    · obtain rfl : e = b := (List.mem_cons.mp hmem).resolve_right hrest
      cases hp : pickBy later rest with
      | none => rfl
      | some c =>
        have hc : c ∈ rest := pickBy_mem hp
        have hlater := hlatest c (List.mem_cons_of_mem _ hc) (fun heq => hrest (heq ▸ hc))
        simp [hlater]

/-! ## The best match (R69) -/

/-- No match of the list is closer than the best, and none as close has a later LCS. -/
theorem bestMatch_best {l : List (Nat × Fin 5 × Word)} {b : Nat × Fin 5 × Word} (h : bestMatch l = some b) :
    ∀ e ∈ l, b.1 ≤ e.1 ∧ (e.1 = b.1 → ∀ n, (∀ f ∈ l, Near n f.2.2) → later e.2.2 b.2.2 = false) := by
  induction l generalizing b with
  | nil => cases h
  | cons a rest ih =>
    simp only [bestMatch] at h
    cases hr : bestMatch rest with
    | none =>
      rw [hr] at h
      cases h
      have hnil : rest = [] := by
        cases rest with
        | nil => rfl
        | cons c rest =>
          simp only [bestMatch] at hr
          split at hr
          · cases hr
          · split at hr <;> cases hr
      subst hnil
      intro e he
      simp only [List.mem_singleton] at he
      subst he
      exact ⟨le_rfl, fun _ _ _ => later_irrefl _⟩
    | some c =>
      simp only [hr] at h
      have hbest := ih hr
      have hc := bestMatch_mem hr
      intro e he
      split at h
      · next hbetter =>
        cases h
        simp only [betterMatch, Bool.or_eq_true, decide_eq_true_eq, Bool.and_eq_true, beq_iff_eq] at hbetter
        rcases List.mem_cons.mp he with rfl | he
        · exact ⟨le_rfl, fun _ _ _ => later_irrefl _⟩
        · obtain ⟨hle, htie⟩ := hbest e he
          refine ⟨by omega, fun heq n hnear => ?_⟩
          have hna := hnear a List.mem_cons_self
          have hne := hnear e (List.mem_cons_of_mem _ he)
          have hnc := hnear c (List.mem_cons_of_mem _ hc)
          have hac : later a.2.2 c.2.2 = true := by
            rcases hbetter with hlt | hlt
            · omega
            · exact hlt.2
          have hec := htie (by omega) n (fun f hf => hnear f (List.mem_cons_of_mem _ hf))
          rw [later_eq_false_iff_age hne hnc] at hec
          rw [later_iff_age hna hnc] at hac
          rw [later_eq_false_iff_age hne hna]
          omega
      · next hworse =>
        cases h
        simp only [betterMatch, Bool.or_eq_true, decide_eq_true_eq, Bool.and_eq_true, beq_iff_eq, not_or, not_and,
          Bool.not_eq_true] at hworse
        rcases List.mem_cons.mp he with rfl | he
        · exact ⟨by omega, fun heq _ _ => hworse.2 heq⟩
        · obtain ⟨hle, htie⟩ := hbest e he
          exact ⟨hle, fun heq n hnear => htie heq n (fun f hf => hnear f (List.mem_cons_of_mem _ hf))⟩

theorem bestMatch_eq_none {l : List (Nat × Fin 5 × Word)} : bestMatch l = none ↔ l = [] := by
  cases l with
  | nil => simp [bestMatch]
  | cons a rest =>
    simp only [bestMatch, reduceCtorEq, iff_false]
    split
    · simp
    · split <;> simp

/-! ## Stamps (R1) -/

theorem stampDistance_cases (v : Nat) (a b : Stamp) :
    (a.wfn = b.wfn → stampDistance v a b = some ((a.line - b.line) + (b.line - a.line)))
    ∧ (a.wfn = b.wfn + 1 → stampDistance v a b = some (v - b.line + a.line))
    ∧ (b.wfn = a.wfn + 1 → stampDistance v a b = some (v - a.line + b.line))
    ∧ (a.wfn ≠ b.wfn → a.wfn ≠ b.wfn + 1 → b.wfn ≠ a.wfn + 1 → stampDistance v a b = none) := by
  have hone : ∀ w : Word, w ≠ w + 1 := fun w h => by bv_omega
  have htwo : ∀ w : Word, w ≠ w + 1 + 1 := fun w h => by bv_omega
  refine ⟨fun h => by simp [stampDistance, h, absDiff], fun h => ?_, fun h => ?_, fun h1 h2 h3 => ?_⟩
  · simp [stampDistance, h]
  · have hne : a.wfn ≠ b.wfn := fun he => hone a.wfn (he.trans h)
    have hne' : a.wfn ≠ b.wfn + 1 := fun he => htwo a.wfn (he.trans (by rw [h]))
    simp only [stampDistance, if_neg hne, if_neg hne', if_pos h]
  · simp only [stampDistance, if_neg h1, if_neg h2, if_neg h3]

theorem stampsMatch_iff (c : Settings) (a b : Stamp) :
    stampsMatch c a b = true ↔ ∃ d, stampDistance c.vtot a b = some d ∧ d ≤ c.skew := by
  simp only [stampsMatch]
  cases stampDistance c.vtot a b <;> simp

/-! ## The reference (R113) -/

theorem lowestTile_eq_none {l : List Tile} : lowestTile l = none ↔ l = [] := by
  cases l <;> simp [lowestTile]

theorem lowestTile_some {l : List Tile} {r : Tile} (h : lowestTile l = some r) :
    r ∈ l ∧ ∀ t ∈ l, r.toNat ≤ t.toNat := by
  induction l generalizing r with
  | nil => cases h
  | cons a rest ih =>
    simp only [lowestTile, Option.some.injEq] at h
    cases hr : lowestTile rest with
    | none =>
      have hnil := lowestTile_eq_none.mp hr
      simp only [hr] at h
      subst hnil h
      simp
    | some b =>
      obtain ⟨hb, hlow⟩ := ih hr
      simp only [hr, lowerTile] at h
      split at h
      · next hle =>
        subst h
        refine ⟨List.mem_cons_self, fun t ht => ?_⟩
        rcases List.mem_cons.mp ht with rfl | ht
        · exact le_rfl
        · exact hle.trans (hlow t ht)
      · next hgt =>
        subst h
        refine ⟨List.mem_cons_of_mem _ hb, fun t ht => ?_⟩
        rcases List.mem_cons.mp ht with rfl | ht
        · omega
        · exact hlow t ht

theorem State.mem_memberMessages (s : State) (e : Tile × StatusMsg) :
    e ∈ s.memberMessages ↔ e ∈ s.member.frameSet ∧ e.2.isMember = true := by
  simp [State.memberMessages]

/-- The tiles of which the lowest is the reference. -/
theorem State.findReference_eq (s : State) : s.findReference =
    lowestTile ((if s.member.station = .member then [s.tile] else []) ++ s.memberMessages.map (·.1)) := rfl

theorem State.findReference_eq_none (s : State) : s.findReference = none ↔
    s.member.station ≠ .member ∧ ∀ e ∈ s.member.frameSet, e.2.isMember = false := by
  rw [State.findReference_eq, lowestTile_eq_none, List.append_eq_nil_iff, List.map_eq_nil_iff]
  refine and_congr (by split <;> simp_all) ?_
  rw [List.eq_nil_iff_forall_not_mem]
  simp [State.mem_memberMessages]

theorem State.findReference_some {s : State} {r : Tile} (h : s.findReference = some r) :
    ((s.member.station = .member ∧ r = s.tile) ∨ ∃ e ∈ s.member.frameSet, e.2.isMember = true ∧ e.1 = r)
    ∧ (s.member.station = .member → r.toNat ≤ s.tile.toNat)
    ∧ (∀ e ∈ s.member.frameSet, e.2.isMember = true → r.toNat ≤ e.1.toNat) := by
  rw [State.findReference_eq] at h
  obtain ⟨hmem, hlow⟩ := lowestTile_some h
  refine ⟨?_, fun hst => hlow _ (by simp [hst]), fun e he hm => hlow _ ?_⟩
  · rcases List.mem_append.mp hmem with hown | hpeer
    · split at hown
      · next hst => exact .inl ⟨hst, by simpa using hown⟩
      · cases hown
    · obtain ⟨e, he, rfl⟩ := List.mem_map.mp hpeer
      obtain ⟨hset, hm⟩ := (s.mem_memberMessages e).mp he
      exact .inr ⟨e, hset, hm, rfl⟩
  · exact List.mem_append_right _ (List.mem_map.mpr ⟨e, (s.mem_memberMessages e).mpr ⟨he, hm⟩, rfl⟩)

/-- Settles O30. -/
theorem evaluationPicks : Obligations.EvaluationPicks := by
  unfold Obligations.EvaluationPicks
  refine ⟨later_iff, stampDistance_cases, stampsMatch_iff,
    fun u => ⟨u.findReference_eq_none, fun r => State.findReference_some⟩, fun c x p => ⟨fun d i l h => ?best, fun h j e hj he => ?none⟩⟩
  case best =>
    obtain ⟨hst, hmatch, hdist, hlcs⟩ := mem_matchesOf.mp (bestMatch_mem h)
    obtain ⟨d', hd', hskew⟩ := (stampsMatch_iff _ _ _).mp hmatch
    have hdd : d' = d := Option.some.inj (hd'.symm.trans hdist)
    refine ⟨hst, hlcs, hdist, hdd ▸ hskew, fun j e hj he => ?_⟩
    by_cases hle : e ≤ c.skew
    · have hmem : (e, j, (x.get j).lcs) ∈ matchesOf c x p :=
        mem_matchesOf.mpr ⟨hj, (stampsMatch_iff _ _ _).mpr ⟨e, he, hle⟩, he, rfl⟩
      obtain ⟨hde, htie⟩ := bestMatch_best h _ hmem
      refine ⟨hde, fun heq ⟨n, hnear⟩ => htie heq n (fun f hf => ?_)⟩
      obtain ⟨fd, fi, fl⟩ := f
      obtain ⟨hfst, -, -, rfl⟩ := mem_matchesOf.mp hf
      exact hnear fi hfst
    · exact ⟨by omega, fun heq => by omega⟩
  case none =>
    by_contra hle
    have hmem : (e, j, (x.get j).lcs) ∈ matchesOf c x p :=
      mem_matchesOf.mpr ⟨hj, (stampsMatch_iff _ _ _).mpr ⟨e, he, by omega⟩, he, rfl⟩
    rw [bestMatch_eq_none.mp h] at hmem
    cases hmem

end Sys2Proof.Machine
end

