-- ==== Sys2Proof/Proofs/BallotLine.lean ====
section
/-! O35 and O36, the ballot window and the ballot line: what a pledge takes, what a realign leaves. -/

namespace Sys2Proof.Machine

/-! ## Moments of the schedule -/

theorem State.atLine_iff (s : State) (n : Nat) :
    s.atLine n = true ↔ s.timing.running = true ∧ s.timing.line = n ∧ s.timing.pixel = 0 := by
  simp [State.atLine, and_assoc]

theorem State.windowDue_iff (s : State) : s.windowDue = true ↔ s.timing.running = true
    ∧ s.timing.line = s.cfg.bline - 1 ∧ s.timing.pixel = 0 ∧ s.bus.ballotWindow = false := by
  simp [State.windowDue, State.atLine_iff, and_assoc]

theorem State.windowEndDue_iff (s : State) : s.windowEndDue = true ↔ s.timing.running = true ∧ s.timing.pixel = 0
    ∧ s.bus.ballotWindow = true
    ∧ (s.timing.line = s.cfg.bline + 12 ∨ (s.timing.line = 0 ∧ 2 ≤ s.cfg.bline)) := by
  simp only [State.windowEndDue, Bool.and_eq_true, Bool.or_eq_true, State.atLine_iff, decide_eq_true_eq]
  tauto

theorem State.sendingEnded_none {s : State} (whole : Bool) (h : s.bus.sending = none) : s.sendingEnded whole = s := by
  simp only [State.sendingEnded, h]

/-- The ballot window begins with no message of the station's own under way (R38). -/
theorem State.enterBallotWindow_parts {s : State} (h : s.bus.sending = none) :
    s.enterBallotWindow.bus = { s.bus with rx := .ballot, rxBits := [], ballotWindow := true }
    ∧ s.enterBallotWindow.ballot = (if s.ballot.phase = .idle then s.ballot.watch else s.ballot)
    ∧ s.enterBallotWindow.counters = (if s.bus.rx = .frame then s.counters.bump .rxErrors else s.counters)
    ∧ s.enterBallotWindow.member = s.member ∧ s.enterBallotWindow.modes = s.modes
    ∧ s.enterBallotWindow.port = s.port := by
  by_cases hrx : s.bus.rx = .frame <;> by_cases hphase : s.ballot.phase = .idle <;>
    simp [State.enterBallotWindow, State.sendingEnded_none _ h, hrx, hphase, State.rxDiscard, State.rxWaitIdle,
      State.count]

/-- Settles O35. -/
theorem ballotWindowBeginsAndEnds : Obligations.BallotWindowBeginsAndEnds := by
  unfold Obligations.BallotWindowBeginsAndEnds
  refine ⟨fun u => ⟨u.windowDue_iff, u.windowEndDue_iff⟩, fun w s u hu => ⟨fun hdue hsend => ?start, fun hdue => ?ended,
    fun hrun hphase hedge => ?caught, fun hrun hphase hedge => ?ignored⟩⟩
  case start =>
    obtain ⟨hbus, hballot, hcounters, hmember, hmodes, hport⟩ := State.enterBallotWindow_parts hsend
    refine ⟨_, event_at (due := State.windowDue) (effect := State.enterBallotWindow) hu hdue, by simp [hbus],
      by simp [hbus], by simp [hbus], by simp [hbus], ?_, by simpa using hcounters, by simp, ?_⟩
    · rw [(State.settle_settled _).1 .ballot (by simp), hballot]
      rfl
    · refine SameBut.settle (fun p hp => ?_) (by simp)
      cases p <;> simp_all [Part.same]
  case ended =>
    refine event_settled (due := State.windowEndDue) (effect := State.leaveBallotWindow) hu hdue ?_
    by_cases hspent : u.ballot.phase = .spent <;> simp [State.leaveBallotWindow, hspent]
    rfl
  case caught =>
    exact event_settled (due := State.watching) (effect := State.catchEdge) hu
      (by simp [State.watching, hrun, hphase, hedge]) rfl
  case ignored =>
    refine event_passed (due := State.watching) (effect := State.catchEdge) hu ?_
    rw [← Bool.not_eq_true]
    simp [State.watching, hrun, hphase, hedge]

/-! ## A pledge (R66) -/

theorem pledgeChoice_mem {n : Nat} {l : List (Fin 5 × Slot)} {i : Fin 5} (h : i ∈ pledgeChoice n l) :
    ∃ r, (i, r) ∈ l := by
  induction n generalizing l with
  | zero => cases h
  | succ n ih =>
    simp only [pledgeChoice] at h
    split at h
    · cases h
    · next e he =>
      rcases List.mem_cons.mp h with rfl | h
      · exact ⟨e.2, pickBy_mem he⟩
      · obtain ⟨r, hr⟩ := ih h
        exact ⟨r, List.mem_of_mem_filter hr⟩

theorem pledgeChoice_nodup (n : Nat) (l : List (Fin 5 × Slot)) : (pledgeChoice n l).Nodup := by
  induction n generalizing l with
  | zero => exact List.nodup_nil
  | succ n ih =>
    simp only [pledgeChoice]
    split
    · exact List.nodup_nil
    · next e he =>
      refine List.nodup_cons.mpr ⟨fun hmem => ?_, ih _⟩
      obtain ⟨r, hr⟩ := pledgeChoice_mem hmem
      simp at hr

/-- Slots by their numbers, each once. -/
def Numbered (l : List (Fin 5 × Slot)) : Prop := (l.map (·.1)).Nodup

theorem Numbered.filter {l : List (Fin 5 × Slot)} (h : Numbered l) (p : Fin 5 × Slot → Bool) :
    Numbered (l.filter p) := List.Nodup.sublist (List.Sublist.map _ List.filter_sublist) h

theorem Numbered.eq_of_fst {l : List (Fin 5 × Slot)} (h : Numbered l) {e f : Fin 5 × Slot} (he : e ∈ l) (hf : f ∈ l)
    (hef : e.1 = f.1) : e = f := List.inj_on_of_nodup_map h he hf hef

theorem Slots.numbered_ready (x : Slots) : Numbered x.ready := by
  have h : Numbered x.toList := by
    simp only [Numbered, Slots.toList_eq, List.map_map]
    exact (List.nodup_finRange 5).map Function.injective_id
  exact h.filter _

/-- Taking one slot's entry out of the list. -/
theorem Numbered.length_filter_ne {l : List (Fin 5 × Slot)} (h : Numbered l) {e : Fin 5 × Slot} (he : e ∈ l) :
    (l.filter (fun f => f.1 != e.1)).length + 1 = l.length := by
  induction l with
  | nil => cases he
  | cons a rest ih =>
    obtain ⟨hnot, hrest⟩ := List.nodup_cons.mp h
    rcases List.mem_cons.mp he with rfl | he
    · have hall : rest.filter (fun f => f.1 != e.1) = rest := by
        refine List.filter_eq_self.mpr (fun f hf => ?_)
        have hmem : f.1 ∈ rest.map (·.1) := List.mem_map_of_mem hf
        simpa using fun heq : f.1 = e.1 => hnot (show e.1 ∈ rest.map (·.1) from heq ▸ hmem)
      simp [hall]
    · have hmem : e.1 ∈ rest.map (·.1) := List.mem_map_of_mem he
      have hne : a.1 ≠ e.1 := fun heq => hnot (show a.1 ∈ rest.map (·.1) from heq ▸ hmem)
      simp [hne, ih hrest he]

theorem length_pledgeChoice {n : Nat} {l : List (Fin 5 × Slot)} (h : Numbered l) :
    (pledgeChoice n l).length = min n l.length := by
  induction n generalizing l with
  | zero => simp [pledgeChoice]
  | succ n ih =>
    simp only [pledgeChoice]
    split
    · next hnone => simp [pickBy_eq_none.mp hnone]
    · next e he =>
      have hlen := h.length_filter_ne (pickBy_mem he)
      rw [List.length_cons, ih (h.filter _)]
      omega

/-- No slot passed over is later than one pledged. -/
theorem pledgeChoice_newest {n : Nat} {l : List (Fin 5 × Slot)} {m : Word} (h : Numbered l) (hnear : SlotsNear m l) :
    ∀ e ∈ l, e.1 ∉ pledgeChoice n l → ∀ f ∈ l, f.1 ∈ pledgeChoice n l → later e.2.lcs f.2.lcs = false := by
  induction n generalizing l with
  | zero => intro e _ _ f _ hf; cases hf
  | succ n ih =>
    intro e he hnot f hf hin
    simp only [pledgeChoice] at hnot hin
    split at hin
    · cases hin
    · next b hb =>
      simp only [hb, List.mem_cons, not_or] at hnot
      rcases List.mem_cons.mp hin with heq | hin
      · obtain rfl := h.eq_of_fst hf (pickBy_mem hb) heq
        exact newest_not_earlier hnear hb e he
      · have hfb : f.1 ≠ b.1 := by
          obtain ⟨r, hr⟩ := pledgeChoice_mem hin
          simpa using (List.mem_filter.mp hr).2
        refine ih (h.filter _) (fun a ha => hnear a (List.mem_of_mem_filter ha)) e ?_ hnot.2 f ?_ hin
        · exact List.mem_filter.mpr ⟨he, by simpa using hnot.1⟩
        · exact List.mem_filter.mpr ⟨hf, by simpa using hfb⟩

/-- The slots that a pledge takes. -/
def Slots.pledges (x : Slots) : List (Fin 5) := pledgeChoice 3 x.ready

theorem Slots.mem_pledges {x : Slots} {i : Fin 5} (h : i ∈ x.pledges) : (x.get i).state = .ready := by
  obtain ⟨r, hr⟩ := pledgeChoice_mem h
  obtain ⟨rfl, hready⟩ := (x.mem_ready i r).mp hr
  exact hready

theorem State.pledge_get (s : State) (i : Fin 5) : s.pledge.1.store.slots.get i =
    if i ∈ s.store.slots.pledges then { s.store.slots.get i with pledged := true } else s.store.slots.get i := by
  have hpledges : pledgeChoice 3 s.store.slots.ready = s.store.slots.pledges := rfl
  rw [State.pledge_slots, Slots.get_map, hpledges]
  by_cases hi : i ∈ s.store.slots.pledges
  · rw [if_pos hi, if_pos (List.contains_iff_mem.mpr hi)]
  · rw [if_neg hi, if_neg (fun h => hi (List.contains_iff_mem.mp h))]

theorem State.pledge_values (s : State) :
    s.pledge.2 = s.store.slots.pledges.map (fun i => (s.store.slots.get i).lcs) := rfl

/-- As many slots are pledged as a pledge takes, where none was before. -/
theorem State.pledge_count {s : State} (h : ∀ j, (s.store.slots.get j).pledged = false) :
    s.pledge.1.store.slots.toList.countP (fun e => e.2.pledged) = min 3 s.store.slots.ready.length := by
  rw [← length_pledgeChoice s.store.slots.numbered_ready, Slots.toList_eq, List.countP_map, List.countP_eq_length_filter]
  refine List.Perm.length_eq ((List.perm_ext_iff_of_nodup ((List.nodup_finRange 5).filter _) (pledgeChoice_nodup _ _)).mpr
    (fun i => ?_))
  rw [List.mem_filter]
  simp only [List.mem_finRange, true_and, Function.comp_apply, State.pledge_get]
  change _ ↔ i ∈ s.store.slots.pledges
  split
  · next hi => simp [hi]
  · next hi => simp [hi, h i]

/-! ## A realign (R102) -/

/-- A MEMBER that is realigned: JOINING, its timer set, its queue gone, one realign counted. -/
theorem State.realign_parts {s : State} (h : s.member.station = .member) :
    s.realign.member = { s.member with station := .joining, quiet := 0, holdTimer := s.cfg.holdframes }
    ∧ s.realign.modes.queue = [] ∧ s.realign.flag .realign = true ∧ s.realign.flag .stateChange = true
    ∧ s.realign.counters = s.counters.bump .realigns := by
  simp only [State.realign, if_pos h]
  refine ⟨by simp [State.cfg, State.setStation], by simp, by simp, ?_, by simp [State.count, State.setStation]⟩
  rw [State.outOfMember_flag]
  exact State.flag_raise_of_flag _ (by simp)

theorem State.realign_other {s : State} (h : s.member.station ≠ .member) : s.realign = s := by
  simp only [State.realign, if_neg h]

/-- A ballot ended in trouble: SPENT with d* 0, counted, and a MEMBER realigned (R82, R89 to R91). -/
theorem State.ballotTrouble_parts (s : State) (c : Counter) :
    (s.ballotTrouble c).ballot.phase = .spent ∧ (s.ballotTrouble c).ballot.dStar = 0
    ∧ (s.member.station = .member → (s.ballotTrouble c).member.station = .joining
      ∧ (s.ballotTrouble c).flag .realign = true
      ∧ (s.ballotTrouble c).counters = (s.counters.bump c).bump .realigns)
    ∧ (s.member.station ≠ .member → (s.ballotTrouble c).member = s.member ∧ (s.ballotTrouble c).modes = s.modes
      ∧ (s.ballotTrouble c).port = s.port ∧ (s.ballotTrouble c).counters = s.counters.bump c) := by
  refine ⟨by simp [State.ballotTrouble], by simp [State.ballotTrouble], fun h => ?_, fun h => ?_⟩
  · obtain ⟨hmember, -, hflag, -, hcounters⟩ := State.realign_parts
      (s := ((s.ballotReport s.ballot.p 0).setBallot
        { (s.ballotReport s.ballot.p 0).ballot with phase := .spent, dStar := 0, pledged := [] }).count c) (by simpa using h)
    exact ⟨congrArg (·.station) hmember, hflag, hcounters.trans (by simp [State.count])⟩
  · simp only [State.ballotTrouble]
    rw [State.realign_other (by simpa using h)]
    simp [State.count]

/-! ## The ballot line (R79 to R82, R90) -/

theorem State.isVoter_iff (s : State) :
    s.isVoter = true ↔ s.member.station = .member ∧ s.bus.latch = false ∧ s.timing.lock = .locked := by
  simp [State.isVoter, State.locked, and_assoc]

theorem State.ballotLineDue_iff (s : State) : s.ballotLineDue = true ↔ s.timing.running = true
    ∧ s.timing.line = s.cfg.bline ∧ s.timing.pixel = 0 ∧ s.ballot.phase = .watch := by
  simp [State.ballotLineDue, State.atLine_iff, and_assoc]

/-- What a voter does at its ballot line. -/
theorem State.ballotLineEvent_voter {s : State} (td : Level) (h : s.isVoter = true) : s.ballotLineEvent td =
    match ballotEntry s.bus.stuck (s.cfg.htot / 2) td s.ballot.edge with
    | .stuck => (s.setBallot { s.ballot with voter := true }).ballotTrouble .ballotFaults
    | .late => (s.setBallot { s.ballot with voter := true }).ballotTrouble .ballotLate
    | .vote a => (s.setBallot { s.ballot with voter := true }).beginVote a := by
  simp only [State.ballotLineEvent, if_pos h]
  rfl

theorem ballotEntry_stuck (half : Nat) (td : Level) (edge : Option Nat) :
    ballotEntry true half td edge = .stuck := rfl

theorem ballotEntry_late {half : Nat} {td : Level} {edge : Option Nat}
    (h : (td = .dominant ∧ edge = none) ∨ ∃ a, edge = some a ∧ half < a) : ballotEntry false half td edge = .late := by
  rcases h with ⟨rfl, rfl⟩ | ⟨a, rfl, ha⟩
  · rfl
  · cases td <;> simp [ballotEntry, ha]

theorem ballotEntry_vote {half a : Nat} {td : Level} {edge : Option Nat}
    (h : (td = .recessive ∧ a = 0 ∧ ∀ b, edge = some b → b ≤ half) ∨ (td = .dominant ∧ edge = some a ∧ a ≤ half)) :
    ballotEntry false half td edge = .vote a := by
  rcases h with ⟨rfl, rfl, hb⟩ | ⟨rfl, rfl, ha⟩
  · cases edge with
    | none => rfl
    | some b => simp [ballotEntry, hb b rfl]
  · simp [ballotEntry, ha]

theorem mem_ownMask (p : Word) (l : List Word) (d : Nat) :
    d ∈ ownMask p l ↔ 1 ≤ d ∧ d ≤ 8 ∧ p + BitVec.ofNat 16 d ∈ l := by
  simp only [ownMask, List.mem_filter, List.contains_iff_mem, ← and_assoc]
  refine and_congr_left fun _ => ?_
  simp only [List.mem_cons, List.not_mem_nil, or_false]
  omega

/-- What a voter holds as it begins its vote, and what the pledge makes of the slots. -/
theorem State.beginVote_parts (s : State) (a : Nat) :
    (s.beginVote a).ballot = { s.ballot with
      phase := .voting, edge := some a, voter := true, p := (s.store.slots.showing.map (·.lcs)).getD 0,
      pledged := s.pledge.2, mask := ownMask ((s.store.slots.showing.map (·.lcs)).getD 0) s.pledge.2,
      freeze := s.modes.record.mode == .freeze, lineResult := [], dStar := 0 }
    ∧ (s.beginVote a).store.slots = s.pledge.1.store.slots := by
  simp [State.beginVote]

/-- Settles O36. -/
theorem ballotLineDecides : Obligations.BallotLineDecides := by
  unfold Obligations.BallotLineDecides
  refine ⟨fun u => ⟨u.isVoter_iff, u.ballotLineDue_iff⟩, fun w td s u h hu hdue hh => ⟨fun hno => ?none, fun hvoter hstuck =>
    ?stuck, fun hvoter hstuck hlate => ?late, fun a hvoter hstuck hvote => ?vote⟩⟩
  case none =>
    refine event_settled (due := State.ballotLineDue) (effect := fun t => t.ballotLineEvent td) hu hdue ?_
    simp [State.ballotLineEvent, hno]
  case stuck =>
    obtain ⟨hst, -, -⟩ := u.isVoter_iff.mp hvoter
    have heffect : u.ballotLineEvent td =
        (u.setBallot { u.ballot with voter := true }).ballotTrouble .ballotFaults := by
      rw [State.ballotLineEvent_voter td hvoter, hstuck, ballotEntry_stuck]
    obtain ⟨hphase, hd, hmember, -⟩ :=
      State.ballotTrouble_parts (u.setBallot { u.ballot with voter := true }) .ballotFaults
    obtain ⟨hjoin, hflag, hcounters⟩ := hmember hst
    refine ⟨_, event_at (due := State.ballotLineDue) (effect := fun t => t.ballotLineEvent td) hu hdue, ?_⟩
    simp only [heffect]
    refine ⟨by simpa using hphase, by simpa using hd, by simpa using hjoin, by simpa using hflag, ?_, ?_⟩ <;>
      simp [hcounters, Counters.get_bump]
  case late =>
    obtain ⟨hst, -, -⟩ := u.isVoter_iff.mp hvoter
    have heffect : u.ballotLineEvent td =
        (u.setBallot { u.ballot with voter := true }).ballotTrouble .ballotLate := by
      rw [State.ballotLineEvent_voter td hvoter, hstuck, hh, ballotEntry_late hlate]
    obtain ⟨hphase, hd, hmember, -⟩ :=
      State.ballotTrouble_parts (u.setBallot { u.ballot with voter := true }) .ballotLate
    obtain ⟨hjoin, hflag, hcounters⟩ := hmember hst
    refine ⟨_, event_at (due := State.ballotLineDue) (effect := fun t => t.ballotLineEvent td) hu hdue, ?_⟩
    simp only [heffect]
    refine ⟨by simpa using hphase, by simpa using hd, by simpa using hjoin, by simpa using hflag, ?_, ?_⟩ <;>
      simp [hcounters, Counters.get_bump]
  case vote =>
    have heffect : u.ballotLineEvent td = (u.setBallot { u.ballot with voter := true }).beginVote a := by
      rw [State.ballotLineEvent_voter td hvoter, hstuck, hh, ballotEntry_vote hvote]
    obtain ⟨hballot, hslots⟩ := State.beginVote_parts (u.setBallot { u.ballot with voter := true }) a
    have hget : ∀ j, (u.ballotLineEvent td).settle.store.slots.get j =
        if j ∈ u.store.slots.pledges then { u.store.slots.get j with pledged := true } else u.store.slots.get j := by
      intro j
      rw [State.settle_slots, heffect, hslots]
      exact State.pledge_get _ j
    have hballot' : (u.ballotLineEvent td).settle.ballot = { u.ballot with
        phase := .voting, edge := some a, voter := true, p := (u.store.slots.showing.map (·.lcs)).getD 0,
        pledged := u.store.slots.pledges.map (fun i => (u.store.slots.get i).lcs),
        mask := ownMask ((u.store.slots.showing.map (·.lcs)).getD 0)
          (u.store.slots.pledges.map (fun i => (u.store.slots.get i).lcs)),
        freeze := u.modes.record.mode == .freeze, lineResult := [], dStar := 0 } := by
      rw [(State.settle_settled _).1 .ballot (by simp), heffect, hballot]
      rfl
    refine ⟨_, event_at (due := State.ballotLineDue) (effect := fun t => t.ballotLineEvent td) hu hdue, by rw [hballot'],
      by rw [hballot'], by rw [hballot'], by rw [hballot'], by rw [hballot'], by rw [hballot']; exact beq_iff_eq,
      fun d => by simp only [hballot', mem_ownMask], ?length, fun v hv => ?values, fun j hj => ?others,
      fun hclear => ⟨?count, fun n hn i j hi hj hnot hin => ?newest⟩, ?rest⟩
    case length =>
      rw [hballot', List.length_map]
      exact length_pledgeChoice u.store.slots.numbered_ready
    case values =>
      rw [hballot'] at hv
      obtain ⟨j, hj, rfl⟩ := List.mem_map.mp hv
      exact ⟨j, Slots.mem_pledges hj, rfl, by rw [hget, if_pos hj]⟩
    case others => rw [hget, if_neg (fun hmem => hj (Slots.mem_pledges hmem))]
    case count =>
      rw [State.settle_slots, heffect, hslots]
      exact State.pledge_count hclear
    case newest =>
      have hpi : i ∉ u.store.slots.pledges := fun hmem => by
        rw [hget, if_pos hmem] at hnot
        cases hnot
      have hpj : j ∈ u.store.slots.pledges := by
        by_contra hmem
        rw [hget, if_neg hmem, hclear j] at hin
        cases hin
      have hnear : SlotsNear n u.store.slots.ready := by
        rintro ⟨k, r⟩ hk
        obtain ⟨rfl, hready⟩ := (u.store.slots.mem_ready k r).mp hk
        exact hn k hready
      exact pledgeChoice_newest u.store.slots.numbered_ready hnear (i, u.store.slots.get i)
        ((u.store.slots.mem_ready i _).mpr ⟨rfl, hi⟩) hpi (j, u.store.slots.get j)
        ((u.store.slots.mem_ready j _).mpr ⟨rfl, hj⟩) hpj
    case rest =>
      refine SameBut.settle (fun p hp => ?_) (by simp)
      rw [heffect]
      cases p <;> simp_all [Part.same]

end Sys2Proof.Machine
end

