-- ==== Sys2Proof/Proofs/BallotBits.lean ====
section
/-! O37 and O38, the ten bits of a ballot and its end: what is driven, what is read in a Span, the faulted bit, d*. -/

namespace Sys2Proof.Machine

/-! ## The faulted bit (R89) -/

theorem Ballot.bitFault_iff (b : Ballot) (k : Nat) (x : Level) : b.bitFault k x = false ↔
    ¬(b.drive k = .dominant ∧ x = .recessive) ∧ ¬(k = 9 ∧ x = .dominant) := by
  rw [← Bool.not_eq_true]
  simp [Ballot.bitFault]

theorem Ballot.bitFault_eq_true (b : Ballot) (k : Nat) (x : Level) : b.bitFault k x = true ↔
    (b.drive k = .dominant ∧ x = .recessive) ∨ (k = 9 ∧ x = .dominant) := by
  simp [Ballot.bitFault]

theorem Ballot.faultFrom_eq_none (b : Ballot) (j : Nat) (l : List Level) :
    b.faultFrom j l = none ↔ ∀ k x, l[k]? = some x → b.bitFault (j + k) x = false := by
  induction l generalizing j with
  | nil => simp [Ballot.faultFrom]
  | cons y rest ih =>
    simp only [Ballot.faultFrom]
    split
    · next h =>
      simp only [reduceCtorEq, false_iff]
      intro hall
      have := hall 0 y rfl
      simp [h] at this
    · next h =>
      rw [ih]
      constructor
      · intro hall k x hx
        cases k with
        | zero =>
          obtain rfl := Option.some.inj hx
          simpa using h
        | succ k =>
          have := hall k x hx
          rwa [show j + 1 + k = j + (k + 1) by omega] at this
      · intro hall k x hx
        have := hall (k + 1) x hx
        rwa [show j + (k + 1) = j + 1 + k by omega] at this

theorem Ballot.faultFrom_eq_some (b : Ballot) (j m : Nat) (l : List Level) : b.faultFrom j l = some m ↔
    ∃ k, m = j + k ∧ (∃ x, l[k]? = some x ∧ b.bitFault m x = true)
      ∧ ∀ i x, i < k → l[i]? = some x → b.bitFault (j + i) x = false := by
  induction l generalizing j with
  | nil => simp [Ballot.faultFrom]
  | cons y rest ih =>
    simp only [Ballot.faultFrom]
    split
    · next h =>
      constructor
      · rintro ⟨⟩
        exact ⟨0, by omega, ⟨y, rfl, h⟩, fun i x hi => by omega⟩
      · rintro ⟨k, rfl, _, hbefore⟩
        cases k with
        | zero => simp
        | succ k =>
          have := hbefore 0 y (by omega) rfl
          simp [h] at this
    · next h =>
      rw [ih]
      constructor
      · rintro ⟨k, rfl, hx, hbefore⟩
        refine ⟨k + 1, by omega, hx, fun i x hi hix => ?_⟩
        cases i with
        | zero =>
          obtain rfl := Option.some.inj hix
          simpa using h
        | succ i =>
          have := hbefore i x (by omega) hix
          rwa [show j + 1 + i = j + (i + 1) by omega] at this
      · rintro ⟨k, rfl, ⟨x, hx, hf⟩, hbefore⟩
        cases k with
        | zero =>
          obtain rfl := Option.some.inj hx
          exact absurd hf h
        | succ k =>
          refine ⟨k, by omega, ⟨x, hx, hf⟩, fun i z hi hiz => ?_⟩
          have := hbefore (i + 1) z (by omega) hiz
          rwa [show j + (i + 1) = j + 1 + i by omega] at this

theorem Ballot.fault_eq_none (b : Ballot) : b.fault = none ↔ ∀ k x, b.lineResult[k]? = some x →
    ¬(b.drive k = .dominant ∧ x = .recessive) ∧ ¬(k = 9 ∧ x = .dominant) := by
  simp only [Ballot.fault, Ballot.faultFrom_eq_none, Nat.zero_add, Ballot.bitFault_iff]

theorem Ballot.fault_eq_some (b : Ballot) (k : Nat) : b.fault = some k ↔
    (∃ x, b.lineResult[k]? = some x ∧ ((b.drive k = .dominant ∧ x = .recessive) ∨ (k = 9 ∧ x = .dominant)))
    ∧ ∀ j x, j < k → b.lineResult[j]? = some x →
        ¬(b.drive j = .dominant ∧ x = .recessive) ∧ ¬(j = 9 ∧ x = .dominant) := by
  simp only [Ballot.fault, Ballot.faultFrom_eq_some, Nat.zero_add, Ballot.bitFault_iff, Ballot.bitFault_eq_true]
  constructor
  · rintro ⟨k, rfl, h⟩
    exact h
  · exact fun h => ⟨k, rfl, h⟩

/-- The fault is read from the mask, the freeze mark and the levels read. -/
theorem Ballot.fault_congr {b c : Ballot} (hmask : c.mask = b.mask) (hfreeze : c.freeze = b.freeze)
    (hread : c.lineResult = b.lineResult) : c.fault = b.fault := by
  have hbit : c.bitFault = b.bitFault := by
    funext k x
    simp only [Ballot.bitFault, Ballot.drive, hmask, hfreeze]
  have hfrom : ∀ l k, c.faultFrom k l = b.faultFrom k l := by
    intro l
    induction l with
    | nil => intro k; rfl
    | cons y rest ih => intro k; simp only [Ballot.faultFrom, hbit, ih]
  rw [Ballot.fault, Ballot.fault, hread, hfrom]

/-! ## What is driven (R83 to R86) -/

theorem State.tdBallot_outside {s : State} (h : s.ballot.phase ≠ .voting) : s.tdBallot = .recessive := by
  simp only [State.tdBallot]
  split
  · next hphase _ => exact absurd hphase h
  · rfl

theorem State.tdBallot_voting {s : State} {a : Nat} (hphase : s.ballot.phase = .voting) (hedge : s.ballot.edge = some a) :
    s.tdBallot = if s.ballot.fault = none ∧ a / s.cfg.htot < 10 then s.ballot.drive (a / s.cfg.htot) else .recessive := by
  simp only [State.tdBallot, hphase, hedge, ballotBit]
  exact if_congr Iff.rfl rfl rfl

theorem State.tdBallot_faulted {s : State} (h : s.ballot.fault ≠ none) : s.tdBallot = .recessive := by
  by_cases hphase : s.ballot.phase = .voting
  · cases hedge : s.ballot.edge with
    | none => simp only [State.tdBallot, hphase, hedge]
    | some a => rw [State.tdBallot_voting hphase hedge, if_neg (fun hc => h hc.1)]
  · exact State.tdBallot_outside hphase

theorem Ballot.drive_position (b : Ballot) {d : Nat} (hlow : 1 ≤ d) (hhigh : d ≤ 8) :
    b.drive d = .recessive ↔ d ∈ b.mask ∧ b.freeze = false := by
  have h0 : d ≠ 0 := by omega
  have h9 : d ≠ 9 := by omega
  simp [Ballot.drive, h0, h9]

/-! ## What is read in a Span (R83) -/

theorem lt_countP_range {p : Nat → Bool} (hp : ∀ a b, a ≤ b → p b = true → p a = true) (n m : Nat) :
    m < (List.range n).countP p ↔ m < n ∧ p m = true := by
  induction n with
  | zero => simp
  | succ n ih =>
    rw [List.range_succ, List.countP_append, List.countP_singleton]
    by_cases hn : p n = true
    · have hall : (List.range n).countP p = n := by
        rw [List.countP_eq_length.mpr (fun a ha => hp a n (List.mem_range.mp ha).le hn), List.length_range]
      rw [hall, if_pos hn]
      exact ⟨fun h => ⟨h, hp m n (by omega) hn⟩, fun h => h.1⟩
    · rw [if_neg hn, Nat.add_zero, ih]
      refine ⟨fun h => ⟨by omega, h.2⟩, fun h => ⟨?_, h.2⟩⟩
      have hne : m ≠ n := fun he => hn (he ▸ h.2)
      omega

theorem lt_bitsDue (h e m : Nat) : m < bitsDue h e ↔ m < 10 ∧ h * m + h / 2 ≤ e := by
  rw [bitsDue, lt_countP_range]
  · simp
  · intro a b hab hb
    simp only [decide_eq_true_eq] at hb ⊢
    have := Nat.mul_le_mul_left h hab
    omega

/-- A voter reads samples in order, each into the next bit, while one is due and none has faulted. -/
theorem Ballot.read_take (b : Ballot) (due : Nat) (l : List Level) : ∃ k, k ≤ l.length
    ∧ b.read due l = { b with lineResult := b.lineResult ++ l.take k }
    ∧ (∀ m, m < k → b.lineResult.length + m < due ∧ { b with lineResult := b.lineResult ++ l.take m }.fault = none)
    ∧ (k < l.length → due ≤ b.lineResult.length + k ∨ (b.read due l).fault ≠ none) := by
  induction l generalizing b with
  | nil => exact ⟨0, le_rfl, by simp [Ballot.read], fun m hm => by omega, fun h => by simp at h⟩
  | cons x rest ih =>
    by_cases hc : b.lineResult.length < due ∧ b.fault = none
    · obtain ⟨k, hk, hread, htaken, hstop⟩ := ih { b with lineResult := b.lineResult ++ [x] }
      have hstep : b.read due (x :: rest) = Ballot.read { b with lineResult := b.lineResult ++ [x] } due rest := by
        simp only [Ballot.read, if_pos hc]
      refine ⟨k + 1, by simpa using hk, by rw [hstep, hread]; simp, fun m hm => ?_, fun hlt => ?_⟩
      · cases m with
        | zero => simpa using hc
        | succ m =>
          obtain ⟨hlen, hfault⟩ := htaken m (by omega)
          simp only [List.length_append, List.length_singleton] at hlen
          refine ⟨by omega, ?_⟩
          simpa using hfault
      · rw [hstep]
        refine (hstop (by simpa using hlt)).imp_left (fun hdue => ?_)
        simp only [List.length_append, List.length_singleton] at hdue
        omega
    · have hstep : b.read due (x :: rest) = b := by simp only [Ballot.read, if_neg hc]
      refine ⟨0, by omega, by simp [hstep], fun m hm => by omega, fun _ => ?_⟩
      rw [hstep]
      by_cases hdue : b.lineResult.length < due
      · exact .inr (fun hf => hc ⟨hdue, hf⟩)
      · exact .inl (by omega)

theorem State.pass_ballot (s : State) (w : Span) :
    (s.pass w).ballot = Ballot.pass { s.ballot with edge := s.ballot.edge.map (· + s.spanPixels w) } s.cfg.htot w := by
  obtain ⟨-, hballot⟩ := s.passPanel_edges w
  rw [← hballot]
  simp only [State.pass, State.setBallot_ballot, State.setInput_ballot, State.setLoader_ballot]
  congr 2
  simp
  rfl

/-- Settles O37. -/
theorem voterDrivesItsBits : Obligations.VoterDrivesItsBits := by
  unfold Obligations.VoterDrivesItsBits
  intro u
  refine ⟨State.tdBallot_outside, State.tdBallot_faulted, fun a hphase hedge hfault => ⟨fun h0 => ?startBit,
    fun d hlow hhigh hd => ?position, fun h9 => ?close⟩, u.ballot.fault_eq_none, u.ballot.fault_eq_some,
    fun w s n hu hn => ?span⟩
  case startBit =>
    rw [State.tdBallot_voting hphase hedge, if_pos ⟨hfault, by omega⟩, h0]
    rfl
  case position =>
    rw [State.tdBallot_voting hphase hedge, if_pos ⟨hfault, by omega⟩, hd, Ballot.drive_position _ hlow hhigh]
  case close =>
    rw [State.tdBallot_voting hphase hedge]
    split
    · next hc => rw [show a / u.cfg.htot = 9 by omega]; rfl
    · rfl
  case span =>
    have hballot := s.pass_ballot w
    rw [hu, show s.spanPixels w = n from hn] at hballot
    by_cases hvote : s.ballot.phase = .voting ∧ ∃ a, s.ballot.edge = some a
    case neg =>
      have hsame : u.ballot = { s.ballot with edge := s.ballot.edge.map (· + n) } := by
        rw [hballot, Ballot.pass]
        split
        · next a hphase hedge =>
          obtain ⟨b, hb, -⟩ := Option.map_eq_some_iff.mp hedge
          exact absurd ⟨hphase, b, hb⟩ hvote
        · rfl
      refine ⟨by rw [hsame], fun _ => by rw [hsame], fun a hphase hedge => absurd ⟨hphase, a, hedge⟩ hvote⟩
    case pos =>
      obtain ⟨hphase, a, hedge⟩ := hvote
      have hread : u.ballot = Ballot.read { s.ballot with edge := some (a + n) } (bitsDue s.cfg.htot (a + n)) w.ballot := by
        rw [hballot, hedge, Ballot.pass]
        simp only [hphase, Option.map_some]
      obtain ⟨k, hk, htake, htaken, hstop⟩ :=
        Ballot.read_take { s.ballot with edge := some (a + n) } (bitsDue s.cfg.htot (a + n)) w.ballot
      rw [← hread] at htake hstop
      refine ⟨by simp [htake, hedge], fun hno => ?_, fun b hphase' hb => ?_⟩
      · rcases hno with hno | hno
        · exact absurd hphase hno
        · simp [hedge] at hno
      · obtain rfl : a = b := Option.some.inj (hedge.symm.trans hb)
        refine ⟨k, hk, htake, fun m hm => ?_, fun hlt => ?_⟩
        · obtain ⟨hdue, hfault⟩ := htaken m hm
          obtain ⟨hten, hmiddle⟩ := (lt_bitsDue _ _ _).mp hdue
          refine ⟨hten, hmiddle, ?_⟩
          rw [← hfault]
          exact Ballot.fault_congr rfl rfl rfl
        · rcases hstop hlt with hdue | hfault
          · rw [← Nat.not_lt, lt_bitsDue, not_and_or] at hdue
            exact hdue.imp (by simp) (fun h => .inl (by simpa using h))
          · exact .inr (.inr hfault)

/-! ## The end of a ballot (R87 to R89) -/

theorem State.ballotEnds_iff (s : State) : s.ballotEnds = true ↔ s.ballot.phase = .voting ∧ ∃ a, s.ballot.edge = some a
    ∧ (∀ k, s.ballot.fault = some k → s.cfg.htot * k + s.cfg.htot / 2 ≤ a)
    ∧ (s.ballot.fault = none → s.ballot.lineResult.length = 10 ∧ s.cfg.htot * 10 ≤ a) := by
  simp only [State.ballotEnds, Bool.and_eq_true, beq_iff_eq]
  refine and_congr_right fun _ => ?_
  cases hedge : s.ballot.edge with
  | none => simp
  | some a => cases hfault : s.ballot.fault <;> simp

/-- d* is the largest position read recessive, or 0 (R87). -/
theorem resultOf_spec (l : List Level) : resultOf l ≤ 8 ∧ (resultOf l ≠ 0 → l[resultOf l]? = some Level.recessive)
    ∧ ∀ k, resultOf l < k → k ≤ 8 → l[k]? ≠ some Level.recessive := by
  unfold resultOf
  cases h : ([8, 7, 6, 5, 4, 3, 2, 1] : List Nat).find? (fun d => l[d]? == some Level.recessive) with
  | none =>
    rw [List.find?_eq_none] at h
    refine ⟨by simp, fun hne => absurd rfl hne, fun k hk hk8 hrec => ?_⟩
    have hk0 : 0 < k := hk
    refine h k ?_ (by simpa using hrec)
    simp only [List.mem_cons, List.not_mem_nil, or_false]
    omega
  | some d =>
    have hd := List.find?_some h
    have hmem := List.mem_of_find?_eq_some h
    simp only [List.mem_cons, List.not_mem_nil, or_false] at hmem
    refine ⟨by simp only [Option.getD_some]; omega, fun _ => by simpa using hd, fun k hk hk8 hrec => ?_⟩
    simp only [Option.getD_some] at hk
    obtain ⟨as, bs, hsplit, hbefore⟩ := (List.find?_eq_some_iff_append.mp h).2
    have hk_before : k ∈ as := by
      have hsorted : (as ++ d :: bs).Pairwise (fun a b => b < a) := hsplit ▸ by decide
      have hkmem : k ∈ as ++ d :: bs := by
        rw [← hsplit]
        simp only [List.mem_cons, List.not_mem_nil, or_false]
        omega
      rcases List.mem_append.mp hkmem with hin | hin
      · exact hin
      · rcases List.mem_cons.mp hin with rfl | hin
        · omega
        · have := (List.pairwise_cons.mp (List.pairwise_append.mp hsorted).2.1).1 k hin
          omega
    have := hbefore k hk_before
    simp [hrec] at this

/-- A report with d* 0 releases every pledge and makes no slot CHOSEN. -/
theorem State.ballotReport_zero (s : State) (p : Word) (i : Fin 5) :
    (s.ballotReport p 0).store.slots.get i = { s.store.slots.get i with pledged := false } := by
  simp [State.ballotReport_get, Slots.ballotPick]

/-- A realign can only free slots. -/
theorem State.realign_get (s : State) (i : Fin 5) :
    s.realign.store.slots.get i = s.store.slots.get i ∨ s.realign.store.slots.get i = .free := by
  have hdropped := (s.store.slots.dropped_get i).symm.imp And.left And.left
  simp only [State.realign]
  split
  · simp only [State.outOfMember]
    split
    · simpa [State.setStation] using hdropped
    · simp [State.setStation]
  · exact .inl rfl

/-- In trouble a ballot releases every pledge and makes no slot CHOSEN. -/
theorem State.ballotTrouble_get (s : State) (c : Counter) (i : Fin 5) :
    (s.ballotTrouble c).store.slots.get i = { s.store.slots.get i with pledged := false }
    ∨ (s.ballotTrouble c).store.slots.get i = .free := by
  rw [← State.ballotReport_zero s s.ballot.p i]
  exact State.realign_get _ i

/-- Settles O38. -/
theorem ballotEndDecides : Obligations.BallotEndDecides := by
  unfold Obligations.BallotEndDecides
  refine ⟨State.ballotEnds_iff, fun w s u hu hdue hfault hnone => ?whole, fun w s u hu hdue hfault => ?faulted⟩
  case whole =>
    obtain ⟨hle, hrec, hlarger⟩ := resultOf_spec u.ballot.lineResult
    have heffect : u.endBallot = ((u.ballotReport u.ballot.p (resultOf u.ballot.lineResult)).setBallot
        { (u.ballotReport u.ballot.p (resultOf u.ballot.lineResult)).ballot with
          phase := .spent, dStar := resultOf u.ballot.lineResult, pledged := [] }).count
        (if resultOf u.ballot.lineResult = 0 then .repeats else .advances) := by
      simp only [State.endBallot, hfault]
    have hget : ∀ j, u.endBallot.settle.store.slots.get j =
        (u.ballotReport u.ballot.p (resultOf u.ballot.lineResult)).store.slots.get j := fun j => by
      rw [State.settle_slots, heffect]
      simp
    refine ⟨_, resultOf u.ballot.lineResult, event_at (due := State.ballotEnds) (effect := State.endBallot) hu hdue, hle,
      hrec, hlarger, by simp [heffect], by simp [heffect], by simp [heffect, State.count], fun j => ?pledged, fun j hj => ?kept,
      fun hd hshow hready => ?chosen, ?rest⟩
    case pledged =>
      rw [hget, State.ballotReport_get]
      split <;> rfl
    case kept =>
      rw [hget, State.ballotReport_get, if_neg]
      intro hpick
      obtain ⟨hst, hlcs, -⟩ := Slots.ballotPick_state hpick
      rcases hj with h | h | h | h
      · simp [Slots.ballotPick, h] at hpick
      · have hnot : u.store.slots.showing = none := by
          rw [Slots.first, Option.map_eq_none_iff] at h
          rw [Slots.showing, h]
          rfl
        simp [Slots.ballotPick, hnot] at hpick
      · exact h hst
      · exact h hlcs
    case chosen =>
      have hshow' : u.store.slots.showing.isSome = true := by
        rw [Slots.first, ne_eq, Option.map_eq_none_iff] at hshow
        rw [Slots.showing, Option.isSome_map]
        exact Option.ne_none_iff_isSome.mp hshow
      have hpick : (u.store.slots.ballotPick u.ballot.p (resultOf u.ballot.lineResult)).isSome = true := by
        rw [Slots.ballotPick, if_pos ⟨hd, hshow', hnone⟩, Option.isSome_map, List.find?_isSome]
        obtain ⟨j, hst, hlcs⟩ := hready
        exact ⟨(j, u.store.slots.get j), (u.store.slots.mem_toList j _).mpr rfl, by simp [hst, hlcs]⟩
      obtain ⟨i, hi⟩ := Option.isSome_iff_exists.mp hpick
      rw [ne_eq, Slots.first_eq_none_iff]
      push Not
      exact ⟨i, by rw [hget, State.ballotReport_get, if_pos hi]⟩
    case rest =>
      refine SameBut.settle (fun p hp => ?_) (by simp)
      rw [heffect]
      cases p <;> simp_all [Part.same]
  case faulted =>
    obtain ⟨k, hk⟩ := Option.ne_none_iff_exists'.mp hfault
    have heffect : u.endBallot = u.ballotTrouble .ballotFaults := by simp only [State.endBallot, hk]
    obtain ⟨hphase, hd, hmember, hother⟩ := u.ballotTrouble_parts .ballotFaults
    refine ⟨_, event_at (due := State.ballotEnds) (effect := State.endBallot) hu hdue, ?_⟩
    rw [heffect]
    refine ⟨by simpa using hphase, by simpa using hd, ?counted, fun j => ?pledged, fun hnone => ?chosen, fun hst => ?joins,
      fun hst => ?other⟩
    case counted =>
      by_cases hst : u.member.station = .member
      · simp [(hmember hst).2.2, Counters.get_bump]
      · simp [(hother hst).2.2.2, Counters.get_bump]
    case pledged =>
      rw [State.settle_slots]
      rcases u.ballotTrouble_get .ballotFaults j with h | h <;> rw [h]
      rfl
    case chosen =>
      rw [Slots.first_eq_none_iff] at hnone ⊢
      intro j
      rw [State.settle_slots]
      rcases u.ballotTrouble_get .ballotFaults j with h | h <;> rw [h]
      · exact hnone j
      · simp [Slot.free]
    case joins =>
      obtain ⟨hjoin, hflag, hcounters⟩ := hmember hst
      exact ⟨by simpa using hjoin, by simpa using hflag, by simp [hcounters, Counters.get_bump]⟩
    case other =>
      obtain ⟨hm, hmodes, hport, hcounters⟩ := hother hst
      exact ⟨by simpa using hm, by simpa using hmodes, by simpa using hport, by simp [hcounters, Counters.get_bump]⟩

end Sys2Proof.Machine
end

