-- ==== Sys2Proof/Proofs/MemoryPort.lean ====
section
/-! O6 and O7, the memory port: what the end of a transfer stores and fetches, and whom a free port serves
(R73 to R76, section 4.6). -/

namespace Sys2Proof.Machine

/-! ## Pixels in memory -/

theorem pixelAddress_succ (i : Fin 5) (l c : Nat) : pixelAddress i l (c + 1) = pixelAddress i l c + 4 := by
  simp only [pixelAddress]
  omega

/-- The pixel just stored is loaded back. -/
theorem loadPixel_memWriteBytes {m : List Host.Cell} (h : Memory.wf m = true) (i : Fin 5) (l c : Nat) (v : Rgb) :
    loadPixel (memWriteBytes m (pixelAddress i l c) (pixelBytes v)) i l c = v := by
  have hread : ∀ k (hk : k < 4), memRead (memWriteBytes m (pixelAddress i l c) (pixelBytes v)) (pixelAddress i l c + k) =
      (pixelBytes v)[k] := by
    intro k hk
    have hin : pixelAddress i l c ≤ pixelAddress i l c + k ∧
        pixelAddress i l c + k < pixelAddress i l c + (pixelBytes v).length := ⟨by omega, by simpa [pixelBytes] using hk⟩
    rw [memRead_memWriteBytes _ _ _ _ h, dif_pos hin]
    congr 1
    omega
  have h0 := hread 0 (by omega)
  have h1 := hread 1 (by omega)
  have h2 := hread 2 (by omega)
  simp only [loadPixel]
  rw [Nat.add_zero] at h0
  rw [h0, h1, h2]
  simp only [pixelBytes, List.getElem_cons_zero, List.getElem_cons_succ]
  apply BitVec.eq_of_getLsbD_eq
  intro k hk
  simp only [BitVec.getLsbD_append, BitVec.getLsbD_extractLsb']
  by_cases h8 : k < 8
  · simp [h8]
  · by_cases h16 : k - 8 < 8
    · simp [h8, h16, show 8 + (k - 8) = k by omega]
    · simp [h8, h16, show k - 8 - 8 < 8 by omega, show 16 + (k - 8 - 8) = k by omega]

theorem loadPixel_congr {m n : List Host.Cell} {i : Fin 5} {l c : Nat}
    (h : ∀ k, k < 4 → memRead m (pixelAddress i l c + k) = memRead n (pixelAddress i l c + k)) :
    loadPixel m i l c = loadPixel n i l c := by
  have h0 := h 0 (by omega)
  rw [Nat.add_zero] at h0
  simp only [loadPixel, h0, h 1 (by omega), h 2 (by omega)]

/-- Each pixel stored is loaded back from its place. -/
theorem loadPixel_storePixels {m : List Host.Cell} (h : Memory.wf m = true) (i : Fin 5) (l c : Nat) (px : List Rgb)
    {k : Nat} {v : Rgb} (hk : px[k]? = some v) : loadPixel (storePixels m i l c px) i l (c + k) = v := by
  induction px generalizing m c k with
  | nil => simp at hk
  | cons p rest ih =>
    have hwf := memWriteBytes_wf m (pixelAddress i l c) (pixelBytes p) h
    simp only [storePixels]
    cases k with
    | zero =>
      obtain rfl : p = v := by simpa using hk
      refine (loadPixel_congr (i := i) (l := l) (c := c) fun k hk => ?_).trans (loadPixel_memWriteBytes h i l c p)
      have hnext := pixelAddress_succ i l c
      exact memRead_storePixels_other _ _ _ _ _ _ hwf (.inl (by omega))
    | succ k =>
      rw [show c + (k + 1) = c + 1 + k by omega]
      exact ih hwf (c + 1) (by simpa using hk)

/-! ## The end of a transfer -/

theorem State.finishTransfer_write {s : State} {i : Fin 5} {l c : Nat} {px : List Rgb}
    (ht : s.store.transfer = some (.write i l c px)) (hin : insideSlot l c px.length = true) : s.finishTransfer =
      some ((s.setStore { s.store with transfer := none }).setMem (storePixels s.mem i l c px)) := by
  simp only [State.finishTransfer, ht, if_pos hin]

theorem State.finishTransfer_read {s : State} {i : Fin 5} {l c n : Nat} {live : Bool}
    (ht : s.store.transfer = some (.read i l c n live)) (hin : insideSlot l c n = true) : s.finishTransfer =
      some (s.setStore { s.store with
        transfer := none,
        readFifo := s.store.readFifo ++ (if live then loadPixels s.mem i l c n else []) }) := by
  simp only [State.finishTransfer, ht, if_pos hin]
  cases live <;> simp [State.receiveRead]

theorem State.finishTransfer_refresh {s : State} (ht : s.store.transfer = some .refresh ∨ s.store.transfer = none) :
    s.finishTransfer = some (s.setStore { s.store with transfer := none }) := by
  rcases ht with ht | ht
  · simp only [State.finishTransfer, ht]
  · have hsame : s.setStore { s.store with transfer := none } = s := by
      rw [← ht]
      rfl
    rw [hsame]
    simp only [State.finishTransfer, ht]

/-- Settles O6. -/
theorem transfersStoreAndFetch : Obligations.TransfersStoreAndFetch := by
  unfold Obligations.TransfersStoreAndFetch
  intro w s u hu
  subst hu
  refine ⟨fun i l c px hmem ht hin => ?write, fun i l c n live ht hin => ?read, fun ht => ?refresh⟩
  case write =>
    refine ⟨_, exec_memoryTransferEnd (State.finishTransfer_write ht hin), fun k v hk => ?_, fun a ha => ?_,
      SameBut.settle (fun p hp => ?_) (by simp), by simp, by simp [State.settle_store]⟩
    · simpa using loadPixel_storePixels hmem i l c px hk
    · simpa using memRead_storePixels_other _ i l c a px hmem ha
    · cases p <;> simp_all [Part.same]
  case read =>
    refine ⟨_, exec_memoryTransferEnd (State.finishTransfer_read ht hin), SameBut.settle (fun p hp => ?_) (by simp),
      by simp, by simp [State.settle_store]⟩
    cases p <;> simp_all [Part.same]
  case refresh =>
    refine ⟨_, exec_memoryTransferEnd (State.finishTransfer_refresh ht), SameBut.settle (fun p hp => ?_) (by simp),
      by simp, by simp [State.settle_store]⟩
    cases p <;> simp_all [Part.same]

/-! ## Whom a free port serves (R73 to R75) -/

theorem State.settle_store_busy {s : State} (h : s.store.transfer ≠ none) : s.settle.store = s.store := by
  have hsome : s.store.transfer.isNone = false := by
    cases ht : s.store.transfer with
    | none => exact absurd ht h
    | some x => rfl
  rw [State.settle_store, State.arbitrate_eq]
  simp [hsome]

theorem State.settle_store_free {s : State} (hrun : s.timing.running = true) (h : s.store.transfer = none) :
    s.settle.store = s.store.granted s.cfg.rw s.readRequest := by
  rw [State.settle_store, State.arbitrate_eq]
  simp [hrun, h]

theorem Store.granted_refresh {x : Store} (rw : Nat) (r : Option Transfer) (h : 0 < x.refreshWaiting) :
    x.granted rw r = { x with transfer := some .refresh, refreshWaiting := x.refreshWaiting - 1 } := by
  simp only [Store.granted, if_pos h]

theorem Store.granted_read {x : Store} (rw : Nat) (h : x.refreshWaiting = 0) (i : Fin 5) (l c n : Nat) (live : Bool) :
    x.granted rw (some (.read i l c n live)) =
      { advanceFetch rw x n with transfer := some (.read i l c n live) } := by
  simp [Store.granted, h]

theorem Store.granted_none {x : Store} (rw : Nat) (h : x.refreshWaiting = 0) : x.granted rw none =
    if writerWants rw x.writeFifo then
      (match writeTransfer x.writeFifo with
        | some (t, rest) => { x with transfer := some t, writeFifo := rest }
        | none => x)
    else x := by
  simp only [Store.granted, h, Nat.lt_irrefl, if_false] <;> rfl

theorem headRun_cons (x : WritePixel) (l : List WritePixel) :
    headRun (x :: l) = x :: l.takeWhile (fun y => y.slot == x.slot && y.line == x.line) := by
  simp [headRun]

theorem writerWants_iff (rw : Nat) (l : List WritePixel) : writerWants rw l = true ↔
    64 ≤ (headRun l).length ∨ ∃ x, (headRun l).getLast? = some x ∧ x.col + 1 = rw := by
  simp only [writerWants, Bool.or_eq_true, decide_eq_true_eq]
  refine or_congr Iff.rfl ?_
  cases (headRun l).getLast? <;> simp

/-- The writer's request is the first 64 pixels of a region line, or its last ones, which leave the FIFO (R74). -/
theorem Store.granted_write {x : Store} (rw : Nat) (h : x.refreshWaiting = 0)
    (hwants : writerWants rw x.writeFifo = true) : ∃ y run, headRun x.writeFifo = y :: run ∧ x.granted rw none =
      { x with
        transfer := some (.write y.slot y.line y.col (((y :: run).take 64).map (·.rgb))),
        writeFifo := x.writeFifo.drop ((y :: run).take 64).length } := by
  cases hrun : headRun x.writeFifo with
  | nil =>
    rw [writerWants_iff, hrun] at hwants
    simp at hwants
  | cons y run =>
    refine ⟨y, run, rfl, ?_⟩
    rw [Store.granted_none rw h, if_pos hwants]
    simp [writeTransfer, hrun, Config.burst]

theorem advanceFetch_cases (rw : Nat) (x : Store) (n : Nat) :
    (x.fetchCol + n < rw → advanceFetch rw x n = { x with fetchCol := x.fetchCol + n })
    ∧ (rw ≤ x.fetchCol + n → advanceFetch rw x n = { x with named := x.named.drop 1, fetchCol := 0 }) :=
  ⟨fun h => if_pos h, fun h => if_neg (by omega)⟩

/-- When the reader asks, and for what (R75). -/
theorem State.readRequest_eq_some (s : State) (r : Transfer) : s.readRequest = some r ↔
    ∃ (i : Fin 5) (line n : Nat) (live : Bool) (rest : List NamedLine),
      s.store.slots.first .showing = some i ∧ s.store.named = ⟨line, live⟩ :: rest
      ∧ min 64 (s.cfg.rw - s.store.fetchCol) = n ∧ n ≠ 0
      ∧ (s.picture.selection = .slot ∨ s.findSelection = .slot) ∧ s.store.readFifo.length + 64 ≤ 2048
      ∧ (∀ y ∈ s.store.writeFifo, ¬(y.slot = i ∧ y.line = line ∧ s.store.fetchCol ≤ y.col
          ∧ y.col < s.store.fetchCol + n))
      ∧ r = .read i line s.store.fetchCol n live := by
  cases hshow : s.store.slots.first .showing with
  | none => simp [State.readRequest, hshow]
  | some i =>
    cases hnamed : s.store.named with
    | nil => simp [State.readRequest, hshow, hnamed]
    | cons x rest =>
      obtain ⟨line, live⟩ := x
      simp only [State.readRequest, hshow, hnamed, State.takesSlot, Config.burst, Config.fifoSize,
        Option.ite_none_right_eq_some, Option.some.injEq, Bool.and_eq_true, Bool.or_eq_true, beq_iff_eq,
        decide_eq_true_eq, bne_iff_ne, Bool.not_eq_true', List.any_eq_false, List.cons.injEq, NamedLine.mk.injEq,
        and_assoc]
      constructor
      · rintro ⟨hsel, hroom, hn, hwait, rfl⟩
        refine ⟨i, line, _, live, rest, rfl, rfl, rfl, rfl, rfl, hn, hsel, of_decide_eq_true hroom, ?_, rfl⟩
        rintro y hy ⟨hslot, hline, hlow, hhigh⟩
        exact hwait y hy ⟨hslot, hline, hlow, decide_eq_true hhigh⟩
      · rintro ⟨_, _, _, _, _, rfl, rfl, rfl, rfl, rfl, hn, hsel, hroom, hwait, rfl⟩
        refine ⟨hsel, decide_eq_true hroom, hn, ?_, rfl⟩
        rintro y hy ⟨hslot, hline, hlow, hhigh⟩
        exact hwait y hy ⟨hslot, hline, hlow, of_decide_eq_true hhigh⟩

/-- What the end of a transfer leaves of the store, its slots and FIFOs aside. -/
theorem State.finishTransfer_store {s t : State} (h : s.finishTransfer = some t) : t.store.transfer = none
    ∧ t.store.refreshWaiting = s.store.refreshWaiting ∧ t.store.writeFifo = s.store.writeFifo
    ∧ t.store.named = s.store.named ∧ t.store.fetchCol = s.store.fetchCol := by
  simp only [State.finishTransfer] at h
  split at h
  · next hnone =>
    cases h
    exact ⟨hnone, rfl, rfl, rfl, rfl⟩
  · cases h
    exact ⟨rfl, rfl, rfl, rfl, rfl⟩
  · split at h
    · cases h
      exact ⟨rfl, rfl, rfl, rfl, rfl⟩
    · cases h
  · split at h
    · cases h
      simp only [State.receiveRead]
      split <;> exact ⟨rfl, rfl, rfl, rfl, rfl⟩
    · cases h

/-- Settles O7. -/
theorem portServesByRank : Obligations.PortServesByRank := by
  unfold Obligations.PortServesByRank
  refine ⟨fun w s u hu hrun => ?request, fun w s u hu hrun hwait hinside => ?transfer, fun u hrun hfree hwait => ?granted,
    fun u hrun => ⟨State.settle_store_busy, fun r hw hfree hr => ?reader, fun hw hfree hr hwants => ?writer,
      fun hw hfree hr hwants => ?idle, u.readRequest_eq_some, fun i line c n live hw hfree hr => ?fetch,
      writerWants_iff, rfl, headRun_cons⟩⟩
  case request =>
    have hstore : u.wantRefresh.store = { u.store with refreshWaiting := u.store.refreshWaiting + 1 } := rfl
    have hsame : SameBut [.bus, .store, .picture] u u.wantRefresh.settle := by
      refine SameBut.settle (fun p hp => ?_) (by simp)
      cases p <;> simp_all [Part.same, State.wantRefresh]
    refine ⟨_, event_at (due := fun t => t.timing.running) (effect := State.wantRefresh) hu hrun, hsame, ?_⟩
    cases ht : u.store.transfer with
    | none =>
      rw [State.settle_store_free (s := u.wantRefresh) hrun (by rw [hstore]; exact ht),
        Store.granted_refresh _ _ (by rw [hstore]; exact Nat.succ_pos _), hstore]
      simp
    | some x =>
      rw [State.settle_store_busy (s := u.wantRefresh) (by rw [hstore]; simp [ht]), hstore]
      simp [ht]
  case transfer =>
    have hend := u.finishTransfer_isSome_iff
    rw [hinside] at hend
    obtain ⟨t, ht⟩ := Option.isSome_iff_exists.mp hend
    obtain ⟨hnone, hwaiting, hfifo, hnamed, hcol⟩ := State.finishTransfer_store ht
    have hrun' : t.timing.running = true := by
      rw [(State.finishTransfer_frame ht).2.2.1]
      exact hrun
    refine ⟨_, exec_memoryTransferEnd (hu ▸ ht), ?_⟩
    rw [State.settle_store_free hrun' hnone, Store.granted_refresh _ _ (hwaiting ▸ hwait)]
    exact ⟨rfl, by rw [← hwaiting], hfifo, hnamed, hcol⟩
  case granted => rw [State.settle_store_free hrun hfree, Store.granted_refresh _ _ hwait]
  case reader =>
    obtain ⟨i, line, n, live, rest, -, -, -, -, -, -, -, rfl⟩ := (u.readRequest_eq_some r).mp hr
    rw [State.settle_store_free hrun hfree, hr, Store.granted_read _ hw]
    exact ⟨rfl, by simp only [advanceFetch]; split <;> rfl⟩
  case writer =>
    obtain ⟨y, run, hhead, hgranted⟩ := Store.granted_write u.cfg.rw hw hwants
    refine ⟨y, run, hhead, ?_⟩
    rw [State.settle_store_free hrun hfree, hr, hgranted]
    exact ⟨rfl, rfl⟩
  case idle =>
    rw [State.settle_store_free hrun hfree, hr, Store.granted_none _ hw, if_neg (by simp [hwants])]
  case fetch =>
    obtain ⟨_, _, _, _, _, -, -, -, -, -, -, -, hread⟩ := (u.readRequest_eq_some _).mp hr
    cases hread
    obtain ⟨hwithin, hpast⟩ := advanceFetch_cases u.cfg.rw u.store n
    rw [State.settle_store_free hrun hfree, hr, Store.granted_read _ hw]
    refine ⟨fun h => ?_, fun h => ?_⟩
    · rw [hwithin h]
      exact ⟨rfl, rfl⟩
    · rw [hpast h]
      exact ⟨rfl, rfl⟩

end Sys2Proof.Machine
end

