-- ==== Sys2Proof/Proofs/FrameEvaluation.lean ====
section
/-! O22 to O24, the frame start: the lock evaluation, what it leaves of the generator, and the named frame starts
(R10 to R17, R103). -/

namespace Sys2Proof.Machine

/-! ## The evaluation (R11 to R16) -/

theorem seekError_eq_some (c : Settings) (x : Timing) (a : Nat) :
    seekError c x = some a ↔ x.keptEdge = some a ∧ a < c.nominal := by
  simp only [seekError]
  cases hedge : x.keptEdge with
  | none => simp
  | some b =>
    by_cases hb : b < c.nominal
    · simp only [if_pos hb, Option.some.injEq]
      exact ⟨fun h => ⟨h, h ▸ hb⟩, fun h => h.1⟩
    · simp only [if_neg hb, Option.some.injEq]
      exact ⟨nofun, fun h => absurd (h.1 ▸ h.2) hb⟩

theorem seekError_eq_none (c : Settings) (x : Timing) :
    seekError c x = none ↔ ∀ a, x.keptEdge = some a → c.nominal ≤ a := by
  rw [Option.eq_none_iff_forall_ne_some]
  refine forall_congr' fun a => ?_
  rw [ne_eq, seekError_eq_some, not_and, Nat.not_lt]

theorem lockedError_of_near {c : Settings} {x : Timing} {a : Nat} (hedge : x.keptEdge = some a)
    (hafter : a < c.nominal - x.shortening) (hhalf : a ≤ c.nominal / 2) : lockedError c x = a := by
  simp only [lockedError, hedge, if_pos (And.intro hafter hhalf)]

theorem lockedError_of_far {c : Settings} {x : Timing}
    (h : ∀ a, x.keptEdge = some a → c.nominal - x.shortening ≤ a ∨ c.nominal / 2 < a) : lockedError c x = 0 := by
  simp only [lockedError]
  cases hedge : x.keptEdge with
  | none => rfl
  | some a =>
    have hfar := h a hedge
    exact if_neg (by omega)

/-- A frame start in SEEK with an edge within a nominal frame (R15). -/
theorem evaluateSeek_edge {c : Settings} {x : Timing} {a : Nat} (h : seekError c x = some a) : evaluateSeek c x =
    ⟨a, if a ≤ c.lockwin ∧ 4 ≤ x.lockStreak + 1 then .locked else .seek,
     if a ≤ c.lockwin ∧ x.lockStreak + 1 < 4 then x.lockStreak + 1 else 0, x.unlockStreak, 0, false⟩ := by
  simp only [evaluateSeek, h]
  by_cases hwin : a ≤ c.lockwin
  · by_cases hfour : 4 ≤ x.lockStreak + 1
    · simp [hwin, hfour, Nat.not_lt.mpr hfour]
    · simp [hwin, hfour, Nat.lt_of_not_le hfour]
  · simp [hwin]

/-- A lone frame start in SEEK (R15). -/
theorem evaluateSeek_lone {c : Settings} {x : Timing} (h : seekError c x = none) : evaluateSeek c x =
    ⟨0, if c.lonewait ≤ x.loneWait + 1 then .locked else .seek, 0, x.unlockStreak,
     if c.lonewait ≤ x.loneWait + 1 then 0 else x.loneWait + 1, decide (c.lonewait ≤ x.loneWait + 1)⟩ := by
  simp only [evaluateSeek, h]
  by_cases hwait : c.lonewait ≤ x.loneWait + 1 <;> simp [hwait]

/-- A frame start in LOCKED (R16). -/
theorem evaluateLocked_eq (c : Settings) (x : Timing) : evaluateLocked c x =
    ⟨lockedError c x, if c.lockwin < lockedError c x ∧ x.unlockStreak ≠ 0 then .seek else .locked, x.lockStreak,
     if c.lockwin < lockedError c x ∧ x.unlockStreak = 0 then 1 else 0, x.loneWait, false⟩ := by
  simp only [evaluateLocked]
  by_cases hwin : lockedError c x ≤ c.lockwin
  · simp [hwin, Nat.not_lt.mpr hwin]
  · by_cases hstreak : x.unlockStreak = 0
    · simp [hwin, hstreak]
    · simp [hwin, hstreak, Nat.lt_of_not_le hwin]

/-- Settles O22. -/
theorem lockEvaluationTables : Obligations.LockEvaluationTables := by
  unfold Obligations.LockEvaluationTables
  intro c x
  refine ⟨fun hseek => ?seek, fun hlocked => ⟨lockedError c x, ?near, lockedError_of_far, ?table⟩⟩
  case seek =>
    have heval : evaluation c x = evaluateSeek c x := by simp only [evaluation, hseek]
    rw [heval]
    cases herror : seekError c x with
    | some a =>
      obtain ⟨hedge, hnominal⟩ := (seekError_eq_some c x a).mp herror
      exact .inl ⟨a, hedge, hnominal, evaluateSeek_edge herror⟩
    | none => exact .inr ⟨(seekError_eq_none c x).mp herror, evaluateSeek_lone herror⟩
  case near => exact fun a hedge hafter hhalf => lockedError_of_near hedge hafter hhalf
  case table =>
    have heval : evaluation c x = evaluateLocked c x := by simp only [evaluation, hlocked]
    rw [heval, evaluateLocked_eq]

/-! ## What the blocks leave of the flags and the counters -/

theorem State.flag_of_port_eq {s t : State} {e : Event} (h : t.port = s.port) (hs : s.flag e = true) : t.flag e = true :=
  (State.flag_of_port h e).trans hs

theorem State.takeHold_flag_of_flag {s : State} {e : Event} (h : s.flag e = true) : s.takeHold.flag e = true := by
  have hdrop : (s.setMember { s.member with hostHold := true, holdTimer := 0 }).dropPicture.flag e = true :=
    State.flag_of_port_eq (by simp) h
  have hset := State.setStation_flag_of_flag .detached hdrop
  have hport : ∀ u : State, u.flag e = true →
      (u.setPort { u.port with result := .done, inFlight := none }).flag e = true := fun u hu => hu
  simp only [State.takeHold]
  refine hport _ ?_
  split
  · exact (State.flag_of_flags (by simp) e).trans hset
  · simpa using hset
  · exact hdrop

theorem State.realign_flag_of_flag {s : State} {e : Event} (h : s.flag e = true) : s.realign.flag e = true := by
  simp only [State.realign]
  split
  · have hset := State.setStation_flag_of_flag .joining h
    rw [State.outOfMember_flag]
    exact State.flag_raise_of_flag _ (by simpa using hset)
  · exact h

theorem State.joinTest_flag_of_flag {s : State} {e : Event} (h : s.flag e = true) : s.joinTest.flag e = true := by
  simp only [State.joinTest]
  split
  · exact State.setStation_flag_of_flag _ (State.flag_of_port_eq (by simp) h)
  · exact h

theorem State.countLapses_flag_of_flag {s : State} {e : Event} (l : List (Nat × Entry)) (h : s.flag e = true) :
    (s.countLapses l).flag e = true := by
  induction l generalizing s with
  | nil => exact h
  | cons x rest ih =>
    simp only [State.countLapses]
    split
    · exact ih (State.flag_raise_of_flag _ (by simpa using h))
    · exact ih h

theorem State.ageRoster_flag_of_flag {s : State} {e : Event} (h : s.flag e = true) : s.ageRoster.flag e = true :=
  State.countLapses_flag_of_flag _ h

theorem State.modeFrameStart_flag_of_flag {s : State} {e : Event} (h : s.flag e = true) :
    s.modeFrameStart.flag e = true := by
  have hrepair : s.applyRepair.flag e = true := by
    simp only [State.applyRepair]
    split
    · exact State.flag_raise_of_flag _ h
    · exact h
  have hentry : s.applyRepair.applyEntry.flag e = true := by
    simp only [State.applyEntry]
    repeat' split
    · exact State.flag_raise_of_flag _ hrepair
    · exact hrepair
    · exact hrepair
  simp only [State.modeFrameStart]
  split
  · exact State.flag_of_port_eq (by simp) hentry
  · exact h

theorem State.blockFrameStart_flag_of_flag (b : Block) {s : State} {e : Event} (h : s.flag e = true) :
    (s.blockFrameStart b).flag e = true := by
  cases b with
  | store => exact State.flag_of_port_eq (by simp [State.blockFrameStart]) h
  | picture => exact State.flag_of_port_eq (by simp [State.blockFrameStart]) h
  | mode => exact State.modeFrameStart_flag_of_flag h
  | membership =>
    exact State.memberFrameStart_keeps (P := fun u => u.flag e = true) h State.takeHold_flag_of_flag
      (fun _ => State.realign_flag_of_flag) (fun _ => State.joinTest_flag_of_flag)
      (fun _ hu => State.flag_of_port_eq (by simp) hu) (fun _ => State.ageRoster_flag_of_flag)

theorem State.blocksFrameStart_flag_of_flag (order : List Block) {s : State} {e : Event} (h : s.flag e = true) :
    (s.blocksFrameStart order).flag e = true :=
  State.blocksFrameStart_keeps (P := fun u => u.flag e = true) (fun b _ => State.blockFrameStart_flag_of_flag b) order h

theorem State.countLapses_counter {s : State} {c : Counter} (l : List (Nat × Entry)) (hc : c ≠ .lapses) :
    (s.countLapses l).counters.get c = s.counters.get c := by
  induction l generalizing s with
  | nil => rfl
  | cons x rest ih =>
    simp only [State.countLapses]
    split
    · exact ih.trans (by simp [State.count, Counters.get_bump, hc])
    · exact ih

theorem State.realign_counter {s : State} {c : Counter} (hc : c ≠ .realigns) :
    s.realign.counters.get c = s.counters.get c := by
  simp only [State.realign]
  split <;> simp [State.count, Counters.get_bump, hc]

theorem State.modeFrameStart_counter {s : State} {c : Counter} (hc : c ≠ .modeRepairs) :
    s.modeFrameStart.counters.get c = s.counters.get c := by
  simp only [State.modeFrameStart, State.applyRepair]
  repeat' split
  all_goals simp [State.count, Counters.get_bump, hc]

/-- The blocks count repairs of the mode, realigns and lapses, and nothing else. -/
theorem State.blockFrameStart_counter (b : Block) (s : State) {c : Counter} (hrepair : c ≠ .modeRepairs)
    (hrealign : c ≠ .realigns) (hlapse : c ≠ .lapses) : (s.blockFrameStart b).counters.get c = s.counters.get c := by
  cases b with
  | store => simp [State.blockFrameStart]
  | picture => simp [State.blockFrameStart]
  | mode => exact State.modeFrameStart_counter hrepair
  | membership =>
    exact State.memberFrameStart_keeps (P := fun u => u.counters.get c = s.counters.get c) rfl (fun _ => by simp)
      (fun u hu => (State.realign_counter hrealign).trans hu) (fun u hu => by simpa using hu)
      (fun u hu => by simpa using hu) (fun u hu => (State.countLapses_counter _ hlapse).trans hu)

theorem State.blocksFrameStart_counter (s : State) (order : List Block) {c : Counter} (hrepair : c ≠ .modeRepairs)
    (hrealign : c ≠ .realigns) (hlapse : c ≠ .lapses) :
    (s.blocksFrameStart order).counters.get c = s.counters.get c :=
  State.blocksFrameStart_keeps (P := fun u => u.counters.get c = s.counters.get c)
    (fun b u hu => (State.blockFrameStart_counter b u hrepair hrealign hlapse).trans hu) order rfl

/-! ## The generator at a frame start -/

theorem State.toLineEnd_eq (s : State) : s.toLineEnd =
    (if s.timing.line = s.cfg.vtot - 1 - s.timing.shortening / s.cfg.htot
      then s.cfg.htot - s.timing.shortening % s.cfg.htot else s.cfg.htot) - s.timing.pixel := rfl

theorem State.frameEnds_iff (s : State) : s.frameEnds = true ↔ s.timing.running = true
    ∧ s.timing.line = s.cfg.vtot - 1 - s.timing.shortening / s.cfg.htot := by
  simp [State.frameEnds, State.inLastLine, lastLine]

/-- The kept edge grows older with the pixels that pass (R10). -/
theorem State.passPixels_keptEdge (s : State) (d : Nat) :
    (s.passPixels d).timing = { s.timing with keptEdge := s.timing.keptEdge.map (· + d) } := (s.passPixels_edges d).1

/-- The generator at the end of its frame: an edge at the last moment counts unless the station may drive there (R10,
R11). -/
theorem State.endFrame_keptEdge (s : State) (edge : Bool) : (s.endFrame edge).timing = { s.timing with
    keptEdge := if edge = true ∧ ¬(s.timing.lock = .locked ∧ s.bus.latch = false) then some 0
      else s.timing.keptEdge.map (· + s.toLineEnd) } := by
  simp only [State.endFrame, State.edgeAtStart, State.locked]
  simp only [State.passPixels_frame, State.passPixels_keptEdge, beq_iff_eq]
  split <;> simp [State.passPixels_keptEdge]

/-- The generator at a frame start: the evaluation's results, and an edge that the station does not drive (R17, R10). -/
theorem State.generatorFrameStart_timing (s : State) (edge : Bool) {e : Evaluation}
    (he : evaluation s.cfg (s.endFrame edge).timing = e) : (s.generatorFrameStart edge).timing =
    { (s.endFrame edge).timing with
      keptEdge := if edge = true ∧ ¬(e.lock = .locked ∧ s.bus.latch = false) then some 0
        else (s.endFrame edge).timing.keptEdge,
      pixel := 0, line := 0, wfn := s.timing.wfn + 1, lock := e.lock, phaseError := e.error,
      shortening := min e.error s.cfg.slew, lockStreak := e.lockStreak, unlockStreak := e.unlockStreak,
      loneWait := e.loneWait, fsDrive := e.lock == .locked && !s.bus.latch } := by
  have hwfn : (s.endFrame edge).timing.wfn = s.timing.wfn := by rw [s.endFrame_keptEdge edge]
  have hdrive : (e.lock == .locked && !s.bus.latch) = false ↔ ¬(e.lock = .locked ∧ s.bus.latch = false) := by simp
  simp only [State.generatorFrameStart, State.reportLock_frame, State.keepUndriven, State.endFrame_frame, he]
  rw [apply_ite State.timing]
  simp only [State.applyEvaluation, State.setTiming_timing, State.endFrame_frame, hwfn, hdrive]
  split <;> rfl

/-- The lock events of a frame start (R15, R16). -/
theorem State.reportLock_flag {s : State} {before after : Lock} (hoff : before = .off ↔ after = .off)
    (h : before ≠ after) : (s.reportLock before after).flag .lockChange = true := by
  cases before <;> cases after <;> simp_all [State.reportLock, State.flag_raise]

theorem State.reportLock_counter (s : State) (before after : Lock) :
    (s.reportLock before after).counters.get .lockLosses =
      if before = .locked ∧ after = .seek then satInc (s.counters.get .lockLosses) else s.counters.get .lockLosses := by
  cases before <;> cases after <;> simp [State.reportLock, State.count, Counters.get_bump]

/-- Nothing is evaluated in OFF, and no evaluation leads there (R14). -/
theorem evaluation_off_iff (c : Settings) (x : Timing) : x.lock = .off ↔ (evaluation c x).lock = .off := by
  simp only [evaluation]
  cases hlock : x.lock with
  | off => simp
  | seek =>
    cases herror : seekError c x with
    | none => simp only [evaluateSeek_lone herror]; split <;> simp
    | some a => simp only [evaluateSeek_edge herror]; split <;> simp
  | locked => simp only [evaluateLocked_eq]; split <;> simp

theorem State.generatorFrameStart_eq (s : State) (edge : Bool) {e : Evaluation}
    (he : evaluation s.cfg (s.endFrame edge).timing = e) : s.generatorFrameStart edge =
    (((s.endFrame edge).applyEvaluation e).keepUndriven edge).reportLock s.timing.lock e.lock := by
  have hlock : (s.endFrame edge).timing.lock = s.timing.lock := by rw [s.endFrame_keptEdge edge]
  simp only [State.generatorFrameStart, State.endFrame_frame, he, hlock]

theorem exec_frameStart {w : Span} {s u : State} (hu : s.pass w = u) (hdue : u.frameEnds = true) (edge : Bool)
    (order : List Block) : exec (.frameStart w edge order) s = .next (u.frameStarts edge order).settle :=
  event_at (due := State.frameEnds) (effect := fun t => t.frameStarts edge order) hu hdue

/-- Settles O23. -/
theorem frameStartEvaluates : Obligations.FrameStartEvaluates := by
  unfold Obligations.FrameStartEvaluates
  refine ⟨fun u => ⟨u.frameEnds_iff, u.toLineEnd_eq⟩, fun w edge order s u e hu hdue he => ⟨u.endFrame_keptEdge edge, _,
    exec_frameStart hu hdue edge order, ?timing, fun hchange => ?change, ?losses, ?rest⟩⟩
  case timing =>
    simp only [State.settle_frame, State.frameStarts, State.blocksFrameStart_frame]
    exact State.generatorFrameStart_timing u edge he
  case change =>
    rw [State.settle_flag]
    refine State.blocksFrameStart_flag_of_flag order ?_
    rw [State.generatorFrameStart_eq u edge he]
    refine State.reportLock_flag ?_ hchange
    have hoff := evaluation_off_iff u.cfg (u.endFrame edge).timing
    rw [he, u.endFrame_keptEdge edge] at hoff
    exact hoff
  case losses =>
    simp only [State.settle_frame, State.frameStarts]
    rw [State.blocksFrameStart_counter _ _ (by decide) (by decide) (by decide),
      State.generatorFrameStart_eq u edge he, State.reportLock_counter]
    simp [State.applyEvaluation]
  case rest =>
    refine SameBut.settle (fun p hp => ?_) (by simp)
    cases p <;> simp_all [Part.same]

end Sys2Proof.Machine
end

