-- ==== Sys2Proof/Proofs/BlocksInTurn.lean ====
section
/-! The work of the blocks at a frame start, block by block: what membership makes of the station and its roster, what
the others leave alone, and each block's turn among the others' (R103, R139). -/

namespace Sys2Proof.Machine

/-! ## One block's turn -/

/-- The work of some blocks, one after another. -/
def State.blocksWork (s : State) (l : List Block) : State := l.foldl State.blockFrameStart s

@[simp] theorem State.blocksWork_nil (s : State) : s.blocksWork [] = s := rfl

@[simp] theorem State.blocksWork_cons (s : State) (b : Block) (l : List Block) :
    s.blocksWork (b :: l) = (s.blockFrameStart b).blocksWork l := rfl

theorem State.blocksWork_append (s : State) (l m : List Block) :
    s.blocksWork (l ++ m) = (s.blocksWork l).blocksWork m := by
  simp only [State.blocksWork, List.foldl_append]

/-- A block has its turn after some of the others and before the rest of them. -/
theorem State.blocksFrameStart_turn (s : State) (order : List Block) (k : Block) : ∃ l m : List Block,
    fullOrder order = l ++ k :: m ∧ k ∉ l ∧ k ∉ m ∧ l.Nodup ∧ m.Nodup
    ∧ s.blocksFrameStart order = ((s.blocksWork l).blockFrameStart k).blocksWork m := by
  obtain ⟨l, m, hlist⟩ := List.append_of_mem (mem_fullOrder k order)
  have hnodup := nodup_fullOrder order
  rw [hlist] at hnodup
  obtain ⟨hl, hkm, hdisjoint⟩ := List.nodup_append'.mp hnodup
  obtain ⟨hk, hm⟩ := List.nodup_cons.mp hkm
  refine ⟨l, m, hlist, fun h => hdisjoint h List.mem_cons_self, hk, hl, hm, ?_⟩
  have hwork : s.blocksFrameStart order = s.blocksWork (fullOrder order) := rfl
  rw [hwork, hlist, State.blocksWork_append, State.blocksWork_cons]

/-- What each of some blocks keeps, they keep together. -/
theorem State.blocksWork_keeps {P : State → Prop} {l : List Block}
    (hblock : ∀ b ∈ l, ∀ u, P u → P (u.blockFrameStart b)) {s : State} (hs : P s) : P (s.blocksWork l) := by
  induction l generalizing s with
  | nil => exact hs
  | cons b rest ih =>
    exact ih (fun c hc => hblock c (List.mem_cons_of_mem _ hc)) (hblock b List.mem_cons_self s hs)

/-! ## What is beside membership -/

/-- The work of blocks other than membership, as far as membership goes. -/
structure Aside (s t : State) : Prop where
  rest : SameBut [.store, .picture, .modes, .port, .counters] s t
  inFlight : t.port.inFlight = s.port.inFlight
  result : t.port.result = s.port.result
  flag : ∀ e, s.flag e = true → t.flag e = true
  modes : s.member.station ≠ .member → t.modes = s.modes
  counter : ∀ c, c ≠ .modeRepairs → t.counters.get c = s.counters.get c

theorem Aside.refl (s : State) : Aside s s :=
  ⟨fun p _ => by cases p <;> simp [Part.same], rfl, rfl, fun _ h => h, fun _ => rfl, fun _ _ => rfl⟩

theorem Aside.member {s t : State} (h : Aside s t) : t.member = s.member := h.rest .member (by decide)
theorem Aside.bus {s t : State} (h : Aside s t) : t.bus = s.bus := h.rest .bus (by decide)
theorem Aside.timing {s t : State} (h : Aside s t) : t.timing = s.timing := h.rest .timing (by decide)
theorem Aside.input {s t : State} (h : Aside s t) : t.input = s.input := h.rest .input (by decide)
theorem Aside.loader {s t : State} (h : Aside s t) : t.loader = s.loader := h.rest .loader (by decide)

theorem Aside.trans {s t u : State} (h : Aside s t) (k : Aside t u) : Aside s u where
  rest p hp := by
    have hst := h.rest p hp
    have htu := k.rest p hp
    cases p <;> simp_all [Part.same]
  inFlight := k.inFlight.trans h.inFlight
  result := k.result.trans h.result
  flag e he := k.flag e (h.flag e he)
  modes hs := (k.modes (by rw [h.member]; exact hs)).trans (h.modes hs)
  counter c hc := (k.counter c hc).trans (h.counter c hc)

theorem Aside.of_picture {s t : State} (h : SameBut [.store, .picture] s t) : Aside s t where
  rest p hp := h p (fun hmem => hp (by simp at hmem ⊢; tauto))
  inFlight := by rw [show t.port = s.port from h .port (by decide)]
  result := by rw [show t.port = s.port from h .port (by decide)]
  flag e he := State.flag_of_port_eq (h .port (by decide)) he
  modes _ := h .modes (by decide)
  counter c _ := by rw [show t.counters = s.counters from h .counters (by decide)]

theorem State.applyRepair_port (s : State) : s.applyRepair.port.inFlight = s.port.inFlight
    ∧ s.applyRepair.port.result = s.port.result := by
  simp only [State.applyRepair]
  split <;> simp [State.raise, State.count]

theorem State.applyEntry_port (s : State) : s.applyEntry.port.inFlight = s.port.inFlight
    ∧ s.applyEntry.port.result = s.port.result := by
  simp only [State.applyEntry]
  repeat' split
  all_goals simp [State.raise]

theorem State.modeFrameStart_port (s : State) : s.modeFrameStart.port.inFlight = s.port.inFlight
    ∧ s.modeFrameStart.port.result = s.port.result := by
  obtain ⟨hflight, hresult⟩ := s.applyRepair_port
  simp only [State.modeFrameStart]
  split
  · simp [s.applyRepair.applyEntry_port, hflight, hresult]
  · exact ⟨rfl, rfl⟩

theorem Aside.block {b : Block} (hb : b ≠ .membership) (s : State) : Aside s (s.blockFrameStart b) := by
  cases b with
  | membership => exact absurd rfl hb
  | store => exact .of_picture fun p hp => by cases p <;> simp_all [Part.same, State.blockFrameStart]
  | picture => exact .of_picture fun p hp => by cases p <;> simp_all [Part.same, State.blockFrameStart]
  | mode =>
    refine ⟨fun p hp => ?_, s.modeFrameStart_port.1, s.modeFrameStart_port.2,
      fun _ => State.modeFrameStart_flag_of_flag, fun h => ?_, fun _ => State.modeFrameStart_counter⟩
    · cases p <;> simp_all [Part.same, State.blockFrameStart]
    · simp [State.blockFrameStart, State.modeFrameStart, h]

theorem Aside.work {l : List Block} (hl : .membership ∉ l) (s : State) : Aside s (s.blocksWork l) :=
  State.blocksWork_keeps (P := Aside s) (fun _ hb u hu => hu.trans (.block (fun h => hl (h ▸ hb)) u)) (.refl s)

/-! ## The drop-picture (R71) -/

/-- No slot is SHOWING, and one that is CHOSEN will not be. -/
def State.NothingShows (s : State) : Prop :=
  s.store.slots.first .showing = none ∧ (s.store.slots.first .chosen = none ∨ s.store.dropPending = true)

theorem Slots.dropped_showing (x : Slots) : x.dropped.first .showing = none := by
  rw [Slots.first_eq_none_iff]
  intro i
  rcases x.dropped_get i with ⟨hfree, -⟩ | ⟨hsame, hne⟩
  · simp [hfree, Slot.free]
  · rwa [hsame]

/-- A drop-picture takes no CHOSEN slot and makes none. -/
theorem Slots.dropped_chosen (x : Slots) (i : Fin 5) :
    (x.dropped.get i).state = .chosen ↔ (x.get i).state = .chosen := by
  rcases x.dropped_get i with ⟨hfree, hstate⟩ | ⟨hsame, -⟩
  · rw [hfree]
    rcases hstate with hstate | hstate <;> simp [hstate, Slot.free]
  · rw [hsame]

@[simp] theorem State.nameRow_dropPending (s : State) (j : Nat) :
    (s.nameRow j).store.dropPending = s.store.dropPending := by
  simp only [State.nameRow]
  split <;> rfl

@[simp] theorem State.emptyReader_dropPending (s : State) :
    s.emptyReader.store.dropPending = s.store.dropPending := rfl

@[simp] theorem State.slotChanged_dropPending (s : State) :
    s.slotChanged.store.dropPending = s.store.dropPending := by
  simp only [State.slotChanged]
  repeat' split
  all_goals simp

@[simp] theorem State.pictureFrameStart_dropPending (s : State) :
    s.pictureFrameStart.store.dropPending = s.store.dropPending := by
  simp only [State.pictureFrameStart]
  split <;> simp

/-- With a CHOSEN slot a drop-picture waits for the switch as well (R71). -/
theorem State.dropPicture_dropPending (s : State) : s.dropPicture.store.dropPending =
    (s.store.dropPending || (s.store.slots.first .chosen).isSome) := by
  simp only [State.dropPicture]
  rw [apply_ite (fun t : State => t.store.dropPending), State.slotChanged_dropPending, ite_self, Slots.first]
  cases s.store.slots.toList.find? (fun e => e.2.state == .chosen) <;> simp [State.setSlots]

theorem State.dropPicture_nothingShows (s : State) : s.dropPicture.NothingShows := by
  refine ⟨by rw [State.dropPicture_slots, Slots.dropped_showing], ?_⟩
  rw [State.dropPicture_dropPending, State.dropPicture_slots]
  cases hchosen : s.store.slots.first .chosen with
  | some i => exact .inr (by simp)
  | none =>
    refine .inl ((Slots.first_eq_none_iff _ _).mpr fun i hi => ?_)
    exact (Slots.first_eq_none_iff _ _).mp hchosen i ((Slots.dropped_chosen _ _).mp hi)

theorem State.NothingShows.of_eq {s t : State} (hs : s.NothingShows) (hslots : t.store.slots = s.store.slots)
    (hdrop : t.store.dropPending = s.store.dropPending) : t.NothingShows := by
  simpa only [State.NothingShows, hslots, hdrop] using hs

/-- The switch that follows a drop-picture frees what it shows. -/
theorem State.NothingShows.switch {s : State} (hs : s.NothingShows) : s.switch.store.slots.first .showing = none := by
  obtain ⟨hshow, hchosen⟩ := hs
  cases h : s.store.slots.first .chosen with
  | none => rw [State.switch_none h, hshow]
  | some i =>
    have hdrop : s.store.dropPending = true := hchosen.resolve_left (by simp [h])
    rw [State.switch_slots h, if_pos hdrop, Slots.first_eq_none_iff]
    intro j
    rw [Slots.get_modify]
    split
    · simp [Slot.free]
    · next hne =>
      have hbefore := (Slots.first_eq_none_iff _ _).mp hshow j
      rw [showSlot_get_other _ hne]
      repeat' split
      all_goals simp_all [Slot.free]

/-- The mode and the picture leave the slots and a pending drop. -/
theorem State.blockFrameStart_slots {b : Block} (hmember : b ≠ .membership) (hstore : b ≠ .store) (s : State) :
    (s.blockFrameStart b).store.slots = s.store.slots
    ∧ (s.blockFrameStart b).store.dropPending = s.store.dropPending := by
  cases b with
  | membership => exact absurd rfl hmember
  | store => exact absurd rfl hstore
  | mode => simp [State.blockFrameStart]
  | picture => simp [State.blockFrameStart]

theorem State.blocksWork_slots {l : List Block} (hmember : .membership ∉ l) (hstore : .store ∉ l) (s : State) :
    (s.blocksWork l).store.slots = s.store.slots ∧ (s.blocksWork l).store.dropPending = s.store.dropPending := by
  refine State.blocksWork_keeps (P := fun u => u.store.slots = s.store.slots
    ∧ u.store.dropPending = s.store.dropPending) (fun b hb u hu => ?_) ⟨rfl, rfl⟩
  obtain ⟨hslots, hdrop⟩ := u.blockFrameStart_slots (fun h => hmember (h ▸ hb)) (fun h => hstore (h ▸ hb))
  exact ⟨hslots.trans hu.1, hdrop.trans hu.2⟩

/-- Once nothing shows, nothing shows when the other blocks have had their turns. -/
theorem State.NothingShows.work {l : List Block} (hmember : .membership ∉ l) (hl : l.Nodup) {s : State}
    (hs : s.NothingShows) : (s.blocksWork l).store.slots.first .showing = none := by
  induction l generalizing s with
  | nil => exact hs.1
  | cons b rest ih =>
    obtain ⟨hb, hrest⟩ := List.nodup_cons.mp hl
    have hmem : Block.membership ∉ rest := fun h => hmember (List.mem_cons_of_mem _ h)
    rw [State.blocksWork_cons]
    by_cases hstore : b = .store
    · subst hstore
      rw [(State.blocksWork_slots hmem hb _).1]
      exact hs.switch
    · obtain ⟨hslots, hdrop⟩ := s.blockFrameStart_slots (fun h => hmember (h ▸ List.mem_cons_self)) hstore
      exact ih hmem hrest (hs.of_eq hslots hdrop)

/-! ## The messages of a station that leaves the wall (R104) -/

theorem State.announceLeave_bus (s : State) (r : LeaveReason) : (s.announceLeave r).bus =
    if (s.member.announced || s.withdrawStatus.sendingStatus) = true then (s.withdrawStatus.placeLeave r).bus
    else s.withdrawStatus.bus := by
  simp only [State.announceLeave, State.withdrawStatus_frame, State.setMember_bus]
  rw [apply_ite State.bus]

theorem State.withdrawStatus_sending {s : State} {d : Sending} (h : s.bus.sending = some d) (hkind : d.kind = .status) :
    s.withdrawStatus.bus = { s.bus with sending := some { d with withdraw := true, nextStatus := none } } := by
  simp [State.withdrawStatus, h, hkind]

theorem State.withdrawStatus_waiting {s : State} (h : s.sendingStatus = false) :
    s.withdrawStatus.bus = { s.bus with statusPlace := none } := by
  simp only [State.withdrawStatus]
  cases hsending : s.bus.sending with
  | none => simp
  | some d =>
    have hkind : d.kind ≠ .status := by simpa [State.sendingStatus, Bus.sendingKind, hsending] using h
    simp [hkind]

theorem State.sendingStatus_iff (s : State) :
    s.sendingStatus = true ↔ ∃ d, s.bus.sending = some d ∧ d.kind = .status := by
  simp [State.sendingStatus, Bus.sendingKind]

@[simp] theorem State.withdrawStatus_sendingStatus (s : State) : s.withdrawStatus.sendingStatus = s.sendingStatus := by
  cases h : s.sendingStatus with
  | false =>
    rw [← h]
    simp only [State.sendingStatus, Bus.sendingKind, State.withdrawStatus_waiting h]
  | true =>
    obtain ⟨d, hd, hkind⟩ := s.sendingStatus_iff.mp h
    simp [State.sendingStatus, Bus.sendingKind, State.withdrawStatus_sending hd hkind, hkind]

theorem State.placeLeave_sending {s : State} {d : Sending} (r : LeaveReason) (hlatch : s.bus.latch = false)
    (hactive : s.bus.active = true) (h : s.bus.sending = some d) (hkind : d.kind = .leave) :
    (s.placeLeave r).bus = { s.bus with sending := some { d with nextLeave := some r } } := by
  simp [State.placeLeave, State.placementRefused, hlatch, hactive, h, hkind]

theorem State.placeLeave_waiting {s : State} (r : LeaveReason) (hlatch : s.bus.latch = false)
    (hactive : s.bus.active = true) (h : s.bus.sendingKind ≠ some .leave) :
    (s.placeLeave r).bus = { s.bus with leavePlace := some r } := by
  cases hsending : s.bus.sending with
  | none => simp [State.placeLeave, State.placementRefused, hlatch, hactive, hsending]
  | some d =>
    have hkind : d.kind ≠ .leave := by simpa [Bus.sendingKind, hsending] using h
    simp [State.placeLeave, State.placementRefused, hlatch, hactive, hsending, hkind]

/-- A LEAVE has no say in the place of the STATUS, nor in a message of another kind. -/
theorem State.placeLeave_keeps (s : State) (r : LeaveReason) :
    (s.placeLeave r).bus.statusPlace = s.bus.statusPlace
    ∧ ∀ d, s.bus.sending = some d → d.kind ≠ .leave → (s.placeLeave r).bus.sending = some d := by
  simp only [State.placeLeave]
  repeat' split
  all_goals simp_all

/-- The STATUS of a station that leaves the wall is withdrawn, waiting or on its way. -/
theorem State.announceLeave_status (s : State) (r : LeaveReason) :
    (s.sendingStatus = false → (s.announceLeave r).bus.statusPlace = none)
    ∧ ∀ d, s.bus.sending = some d → d.kind = .status →
      (s.announceLeave r).bus.sending = some { d with withdraw := true, nextStatus := none }
      ∧ (s.announceLeave r).bus.statusPlace = s.bus.statusPlace := by
  obtain ⟨hplace, hother⟩ := s.withdrawStatus.placeLeave_keeps r
  refine ⟨fun h => ?_, fun d hd hkind => ?_⟩
  · rw [State.announceLeave_bus]
    split
    · rw [hplace, State.withdrawStatus_waiting h]
    · rw [State.withdrawStatus_waiting h]
  · have hbus := State.withdrawStatus_sending hd hkind
    rw [State.announceLeave_bus]
    split
    · rw [hplace, hother { d with withdraw := true, nextStatus := none } (by rw [hbus]) (by simp [hkind]), hbus]
      exact ⟨rfl, rfl⟩
    · rw [hbus]
      exact ⟨rfl, rfl⟩

/-- Its LEAVE is placed where the peers have heard the station or are hearing it. -/
theorem State.announceLeave_heard {s : State} (r : LeaveReason)
    (hheard : s.member.announced = true ∨ s.sendingStatus = true) (hlatch : s.bus.latch = false)
    (hactive : s.bus.active = true) :
    (s.bus.sendingKind ≠ some .leave → (s.announceLeave r).bus.leavePlace = some r)
    ∧ ∀ d, s.bus.sending = some d → d.kind = .leave →
      (s.announceLeave r).bus.sending = some { d with nextLeave := some r }
      ∧ (s.announceLeave r).bus.leavePlace = s.bus.leavePlace := by
  have hbus : (s.announceLeave r).bus = (s.withdrawStatus.placeLeave r).bus := by
    rw [State.announceLeave_bus, if_pos (by simpa using hheard)]
  have hkept : s.withdrawStatus.bus.latch = s.bus.latch ∧ s.withdrawStatus.bus.active = s.bus.active
      ∧ s.withdrawStatus.bus.sendingKind = s.bus.sendingKind
      ∧ s.withdrawStatus.bus.leavePlace = s.bus.leavePlace := by
    cases h : s.sendingStatus with
    | false => simp [State.withdrawStatus_waiting h, Bus.sendingKind]
    | true =>
      obtain ⟨d, hd, hkind⟩ := s.sendingStatus_iff.mp h
      simp [State.withdrawStatus_sending hd hkind, Bus.sendingKind, hd]
  obtain ⟨hlatch', hactive', hsame, hplace⟩ := hkept
  rw [hbus]
  refine ⟨fun h => ?_, fun d hd hkind => ?_⟩
  · rw [State.placeLeave_waiting r (hlatch'.trans hlatch) (hactive'.trans hactive) (hsame ▸ h)]
  · have hstatus : s.sendingStatus = false := by simp [State.sendingStatus, Bus.sendingKind, hd, hkind]
    have hd' : s.withdrawStatus.bus.sending = some d := by rw [State.withdrawStatus_waiting hstatus]; exact hd
    rw [State.placeLeave_sending r (hlatch'.trans hlatch) (hactive'.trans hactive) hd' hkind]
    exact ⟨rfl, hplace⟩

theorem State.announceLeave_unheard {s : State} (r : LeaveReason) (hannounced : s.member.announced = false)
    (hsending : s.sendingStatus = false) : (s.announceLeave r).bus.leavePlace = s.bus.leavePlace := by
  rw [State.announceLeave_bus, if_neg (by simp [hannounced, hsending]), State.withdrawStatus_waiting hsending]

/-- The mode controller, told that the station leaves MEMBER, touches the MODE alone. -/
theorem State.modeLeave_places (s : State) : s.modeLeave.bus.statusPlace = s.bus.statusPlace
    ∧ s.modeLeave.bus.leavePlace = s.bus.leavePlace
    ∧ ∀ d, s.bus.sending = some d → d.kind ≠ .mode → s.modeLeave.bus.sending = some d := by
  simp only [State.modeLeave, State.withdrawMode, State.setModes_bus]
  repeat' split
  all_goals simp_all

/-- A station that may join withdraws a LEAVE. -/
theorem State.withdrawLeave_bus (s : State) :
    (s.bus.sendingKind ≠ some .leave → s.withdrawLeave.bus.leavePlace = none)
    ∧ ∀ d, s.bus.sending = some d → d.kind = .leave →
      s.withdrawLeave.bus.sending = some { d with withdraw := true, nextLeave := none }
      ∧ s.withdrawLeave.bus.leavePlace = s.bus.leavePlace := by
  simp only [State.withdrawLeave, Bus.sendingKind]
  repeat' split
  all_goals simp_all

end Sys2Proof.Machine
end

