-- ==== Sys2Proof/Proofs/MembershipFrame.lean ====
section
/-! O25 and O24, membership at a frame start: a HOLD in flight, the loss of the lock, the join test, the hold-picture
timer and the roster (R98 to R110). -/

namespace Sys2Proof.Machine

/-! ## The roster grows older (R110) -/

theorem toNat_satInc (v : Word) : (satInc v).toNat = min 65535 (v.toNat + 1) := by
  have hv := v.isLt
  simp only [satInc]
  split
  · next h =>
    subst h
    rfl
  · next h =>
    have hne : v.toNat ≠ 65535 := fun heq => h (BitVec.eq_of_toNat_eq heq)
    have hadd : (v + 1).toNat = (v.toNat + 1) % 2 ^ 16 := BitVec.toNat_add v 1
    omega

theorem State.countLapses_lapses (s : State) (l : List (Nat × Entry)) :
    ((s.countLapses l).counters.get .lapses).toNat =
      min 65535 ((s.counters.get .lapses).toNat + l.countP (fun e => e.2.lapses s.cfg.lapse)) := by
  induction l generalizing s with
  | nil =>
    have := (s.counters.get .lapses).isLt
    simp only [State.countLapses, List.countP_nil]
    omega
  | cons x rest ih =>
    simp only [State.countLapses, List.countP_cons]
    by_cases h : x.2.lapses s.cfg.lapse = true
    · have hget : ((s.count .lapses).raise .rosterChange).counters.get .lapses = satInc (s.counters.get .lapses) := by
        simp [State.count, Counters.get_bump]
      rw [if_pos h, if_pos h, ih, hget, toNat_satInc]
      simp only [State.raise_frame, State.count_frame]
      omega
    · rw [if_neg h, if_neg h, ih, Nat.add_zero]

theorem State.countLapses_flag {s : State} {l : List (Nat × Entry)} (h : ∃ e ∈ l, e.2.lapses s.cfg.lapse = true) :
    (s.countLapses l).flag .rosterChange = true := by
  induction l generalizing s with
  | nil => simp at h
  | cons x rest ih =>
    simp only [State.countLapses]
    by_cases hx : x.2.lapses s.cfg.lapse = true
    · rw [if_pos hx]
      exact State.countLapses_flag_of_flag _ (State.flag_raise _ _)
    · obtain ⟨e, he, hlapse⟩ := h
      rw [if_neg hx]
      refine ih ⟨e, (List.mem_cons.mp he).resolve_left (fun heq => hx (heq ▸ hlapse)), hlapse⟩

@[simp] theorem State.countLapses_port (s : State) (l : List (Nat × Entry)) :
    (s.countLapses l).port.result = s.port.result ∧ (s.countLapses l).port.inFlight = s.port.inFlight := by
  induction l generalizing s with
  | nil => exact ⟨rfl, rfl⟩
  | cons x rest ih =>
    simp only [State.countLapses]
    split
    · exact (ih _).imp (fun h => h.trans rfl) (fun h => h.trans rfl)
    · exact ih s

/-- The ageing of the roster leaves the rest of the membership controller. -/
@[simp] theorem State.ageRoster_member (s : State) : s.ageRoster.member.holdTimer = s.member.holdTimer
    ∧ s.ageRoster.member.hostHold = s.member.hostHold ∧ s.ageRoster.member.announced = s.member.announced
    ∧ s.ageRoster.member.quiet = s.member.quiet := by
  simp [State.ageRoster]

@[simp] theorem State.ageRoster_port (s : State) : s.ageRoster.port.result = s.port.result
    ∧ s.ageRoster.port.inFlight = s.port.inFlight := s.countLapses_port _

theorem State.ageRoster_counter {s : State} {c : Counter} (hc : c ≠ .lapses) :
    s.ageRoster.counters.get c = s.counters.get c := State.countLapses_counter _ hc

theorem mem_range_zip {α : Type} (l : List α) (n k : Nat) (x : α) :
    (k, x) ∈ (List.range n).zip l ↔ k < n ∧ l[k]? = some x := by
  rw [List.mem_iff_getElem?]
  constructor
  · rintro ⟨i, hi⟩
    obtain ⟨hrange, hx⟩ := List.getElem?_zip_eq_some.mp hi
    obtain ⟨hin, rfl⟩ := List.getElem?_eq_some_iff.mp hrange
    simp only [List.length_range] at hin
    simpa [hin] using hx
  · rintro ⟨hk, hx⟩
    exact ⟨k, List.getElem?_zip_eq_some.mpr ⟨by simp [hk], hx⟩⟩

theorem State.mem_peerEntries (s : State) (k : Nat) (x : Entry) :
    (k, x) ∈ s.peerEntries ↔ (k < 32 ∧ s.member.roster[k]? = some x) ∧ k ≠ s.tile.toNat := by
  simp only [State.peerEntries, List.mem_filter, bne_iff_ne, mem_range_zip]

theorem State.ageRoster_roster (s : State) (k : Nat) : s.ageRoster.member.roster[k]? =
    s.member.roster[k]?.map (fun x => if k = s.tile.toNat then x else x.age s.cfg.lapse) := by
  have htile : (s.countLapses s.peerEntries).tile = s.tile := by simp [State.tile]
  simp only [State.ageRoster, State.setMember_member, State.countLapses_frame, htile]
  by_cases hk : k < s.member.roster.length
  · simp [hk]
  · simp [Nat.le_of_not_lt hk]

theorem countP_range'_zip {α : Type} (p : Nat × α → Bool) (n a : Nat) (l : List α) :
    ((List.range' a n).zip l).countP p =
      (List.range' a n).countP (fun k => match l[k - a]? with | some x => p (k, x) | none => false) := by
  induction n generalizing a l with
  | zero => rfl
  | succ n ih =>
    rw [List.range'_succ]
    cases l with
    | nil => simp
    | cons x rest =>
      simp only [List.zip_cons_cons, List.countP_cons, ih (a + 1) rest, Nat.sub_self, List.getElem?_cons_zero]
      refine congrArg (· + _) (List.countP_congr fun k hk => ?_)
      obtain ⟨hlow, -⟩ := List.mem_range'_1.mp hk
      rw [show k - a = k - (a + 1) + 1 by omega, List.getElem?_cons_succ]

/-- The lapses of a frame start, counted place by place. -/
theorem State.countP_peerEntries (s : State) : s.peerEntries.countP (fun e => e.2.lapses s.cfg.lapse) =
    (List.range 32).countP (fun k => k != s.tile.toNat && (match s.member.roster[k]? with
      | some x => (x.state == .joining || x.state == .member) && min 255 (x.heard + 1) == s.cfg.lapse
      | none => false)) := by
  rw [State.peerEntries, List.countP_filter, List.range_eq_range', countP_range'_zip]
  refine List.countP_congr fun k _ => ?_
  simp only [Nat.sub_zero]
  cases s.member.roster[k]? with
  | none => simp
  | some x => simp [Entry.lapses, and_comm]

theorem Entry.age_away {e : Entry} (n : Nat) (h : e.state = .absent) : e.age n = e := by
  simp only [Entry.age, h]

theorem Entry.age_gone {e : Entry} (n : Nat) (h : e.state = .lapsed ∨ e.state = .left) :
    e.age n = { e with heard := min 255 (e.heard + 1) } := by
  rcases h with h | h <;> simp only [Entry.age, h]

theorem Entry.age_present {e : Entry} (n : Nat) (h : e.state = .joining ∨ e.state = .member) : e.age n = { e with
    heard := min 255 (e.heard + 1), state := if min 255 (e.heard + 1) = n then .lapsed else e.state } := by
  rcases h with h | h <;> simp only [Entry.age, h]

/-! ## Membership's work, case by case (R98 to R106) -/

theorem State.joinTest_of_not {s : State}
    (h : ¬(s.member.station = .detached ∧ s.usable = true ∧ s.member.hostHold = false ∧ s.bus.latch = false)) :
    s.joinTest = s := if_neg h

theorem State.countHoldTimer_of_not {s : State} (h : s.member.station = .member ∨ s.member.holdTimer = 0) :
    s.countHoldTimer = s := by
  refine if_neg fun ⟨hmember, htimer⟩ => ?_
  rcases h with h | h
  · exact hmember h
  · omega

theorem State.takeHold_parts (s : State) : s.takeHold.member.hostHold = true ∧ s.takeHold.member.holdTimer = 0
    ∧ s.takeHold.member.roster = s.member.roster ∧ s.takeHold.port.result = .done
    ∧ s.takeHold.port.inFlight = none ∧ s.takeHold.NothingShows := by
  have hdrop := (s.setMember { s.member with hostHold := true, holdTimer := 0 }).dropPicture_nothingShows
  simp only [State.takeHold]
  split
  all_goals exact ⟨by simp, by simp, by simp, rfl, rfl, hdrop.of_eq (by simp) (by simp)⟩

theorem State.memberFrameStart_hold {s : State} (h : s.port.inFlight = some .hold) :
    s.memberFrameStart = s.takeHold.ageRoster := by
  have hheld : s.heldFrameStart = s.takeHold := if_pos h
  obtain ⟨hhost, htimer, -⟩ := s.takeHold_parts
  rw [State.memberFrameStart_eq, hheld, if_neg (fun hlost => s.takeHold_station.2 hlost.1),
    State.joinTest_of_not (by simp [hhost]), State.countHoldTimer_of_not (.inr htimer)]

theorem State.memberFrameStart_locked {s : State} (hhold : s.port.inFlight ≠ some .hold)
    (hmember : s.member.station = .member) (hlocked : s.locked = true) : s.memberFrameStart = s.ageRoster := by
  have hheld : s.heldFrameStart = s := if_neg hhold
  rw [State.memberFrameStart_eq, hheld, if_neg (by simp [hlocked]), State.joinTest_of_not (by simp [hmember]),
    State.countHoldTimer_of_not (.inl hmember)]

theorem State.memberFrameStart_lost {s : State} (hhold : s.port.inFlight ≠ some .hold)
    (hmember : s.member.station = .member) (hlost : s.locked = false) :
    s.memberFrameStart = s.realign.ageRoster := by
  have hheld : s.heldFrameStart = s := if_neg hhold
  have hstation : s.realign.member.station = .joining := by rw [State.realign_station, if_pos hmember]
  rw [State.memberFrameStart_eq, hheld, if_pos ⟨hmember, hlost⟩, State.joinTest_of_not (by simp [hstation])]

theorem State.memberFrameStart_apart {s : State} (hhold : s.port.inFlight ≠ some .hold)
    (hmember : s.member.station ≠ .member) : s.memberFrameStart = s.joinTest.countHoldTimer.ageRoster := by
  have hheld : s.heldFrameStart = s := if_neg hhold
  rw [State.memberFrameStart_eq, hheld, if_neg (fun h => hmember h.1)]

/-! ## What leaving the wall makes of the messages (R104) -/

/-- The holding area of a station, announced or not, that leaves the wall for a reason. -/
structure LeftWall (r : LeaveReason) (announced : Bool) (b c : Bus) : Prop where
  waiting : (b.sendingKind == some .status) = false → c.statusPlace = none
  onItsWay : ∀ d, b.sending = some d → d.kind = .status →
    c.sending = some { d with withdraw := true, nextStatus := none } ∧ c.statusPlace = b.statusPlace
  heard : announced = true ∨ (b.sendingKind == some .status) = true → b.latch = false → b.active = true →
    (b.sendingKind ≠ some .leave → c.leavePlace = some r)
    ∧ ∀ d, b.sending = some d → d.kind = .leave →
      c.sending = some { d with nextLeave := some r } ∧ c.leavePlace = b.leavePlace
  unheard : announced = false → (b.sendingKind == some .status) = false → c.leavePlace = b.leavePlace

theorem State.announceLeave_leftWall (s : State) (r : LeaveReason) :
    LeftWall r s.member.announced s.bus (s.announceLeave r).bus where
  waiting := (s.announceLeave_status r).1
  onItsWay := (s.announceLeave_status r).2
  heard h hlatch hactive := State.announceLeave_heard r h hlatch hactive
  unheard := State.announceLeave_unheard r

theorem LeftWall.modeLeave {r : LeaveReason} {announced : Bool} {b : Bus} {u : State} (h : LeftWall r announced b u.bus) :
    LeftWall r announced b u.modeLeave.bus := by
  obtain ⟨hstatus, hleave, hsending⟩ := u.modeLeave_places
  refine ⟨fun hw => hstatus.trans (h.waiting hw), fun d hd hkind => ?_, fun hheard hlatch hactive => ?_,
    fun hannounced hw => hleave.trans (h.unheard hannounced hw)⟩
  · obtain ⟨hway, hplace⟩ := h.onItsWay d hd hkind
    exact ⟨hsending _ hway (by simp [hkind]), hstatus.trans hplace⟩
  · obtain ⟨hplaced, hway⟩ := h.heard hheard hlatch hactive
    refine ⟨fun hk => hleave.trans (hplaced hk), fun d hd hkind => ?_⟩
    obtain ⟨hnext, hplace⟩ := hway d hd hkind
    exact ⟨hsending _ hnext (by simp [hkind]), hleave.trans hplace⟩

/-- A HOLD taken on the wall or while joining (R100). -/
theorem State.takeHold_wall {s : State} (h : s.member.station = .joining ∨ s.member.station = .member) :
    s.takeHold.member.station = .detached ∧ s.takeHold.flag .stateChange = true
    ∧ s.takeHold.member.announced = false ∧ LeftWall .hostHold s.member.announced s.bus s.takeHold.bus := by
  have hwall := ((((s.setMember { s.member with hostHold := true, holdTimer := 0 }).dropPicture).setStation
    .detached).announceLeave_leftWall .hostHold)
  have hflag := ((s.setMember { s.member with hostHold := true, holdTimer := 0 }).dropPicture).setStation_flag .detached
  simp only [State.takeHold]
  split
  · refine ⟨by simp, (State.flag_of_flags ?_ _).trans hflag, by simp, ?_⟩
    · simp
    · simpa using hwall.modeLeave
  · refine ⟨by simp, (State.flag_of_flags ?_ _).trans hflag, by simp, ?_⟩
    · simp
    · simpa using hwall
  · next hmember hjoining => exact (h.elim hjoining hmember).elim

/-- A HOLD taken by a DETACHED station leaves the bus alone. -/
theorem State.takeHold_detached {s : State} (h : s.member.station = .detached) :
    s.takeHold.member.station = .detached ∧ s.takeHold.bus = s.bus := by
  simp only [State.takeHold, h]
  simp

/-- A DETACHED station that may join does (R98). -/
theorem State.joinTest_joins {s : State} (hstation : s.member.station = .detached) (husable : s.usable = true)
    (hhold : s.member.hostHold = false) (hlatch : s.bus.latch = false) :
    s.joinTest.member = { s.member with station := .joining, quiet := 0 } ∧ s.joinTest.flag .stateChange = true
    ∧ s.joinTest.bus = (s.setMember { s.member with quiet := 0 }).withdrawLeave.bus := by
  have hjoin : s.joinTest = ((s.setMember { s.member with quiet := 0 }).withdrawLeave).setStation .joining :=
    if_pos ⟨hstation, husable, hhold, hlatch⟩
  rw [hjoin]
  exact ⟨by simp, State.setStation_flag _ _, by simp⟩

theorem State.joinTest_holdTimer (s : State) : s.joinTest.member.holdTimer = s.member.holdTimer
    ∧ s.joinTest.member.hostHold = s.member.hostHold ∧ s.joinTest.member.roster = s.member.roster := by
  simp only [State.joinTest]
  split <;> simp

/-- Outside MEMBER the hold-picture timer falls, and the hold picture goes as it reaches 0 (R105). -/
theorem State.countHoldTimer_parts {s : State} (h : s.member.station ≠ .member) :
    s.countHoldTimer.member = { s.member with holdTimer := s.member.holdTimer - 1 }
    ∧ (s.member.holdTimer = 1 → s.countHoldTimer.NothingShows) := by
  simp only [State.countHoldTimer]
  by_cases htimer : 0 < s.member.holdTimer
  · rw [if_pos ⟨h, htimer⟩]
    split
    · exact ⟨by simp, fun _ => State.dropPicture_nothingShows _⟩
    · next hne => exact ⟨by simp, fun hone => absurd (by simp [hone]) hne⟩
  · rw [if_neg (fun hc => htimer hc.2)]
    have hzero : s.member.holdTimer = 0 := by omega
    have hsame : s.member.holdTimer - 1 = s.member.holdTimer := by omega
    exact ⟨by rw [hsame], fun hone => by omega⟩

/-! ## The whole of membership's work -/

/-- Outside MEMBER, and with no HOLD in flight, the join test and the hold-picture timer are all that changes the
controller, its roster aside. -/
theorem State.memberFrameStart_timer {s : State} (hhold : s.port.inFlight ≠ some .hold)
    (hmember : s.member.station ≠ .member) :
    s.memberFrameStart.member.hostHold = s.member.hostHold
    ∧ s.memberFrameStart.member.station = s.joinTest.member.station
    ∧ s.memberFrameStart.member.quiet = s.joinTest.member.quiet
    ∧ s.memberFrameStart.member.holdTimer = s.member.holdTimer - 1
    ∧ s.memberFrameStart.bus = s.joinTest.bus
    ∧ (s.joinTest.flag .stateChange = true → s.memberFrameStart.flag .stateChange = true)
    ∧ (s.member.holdTimer = 1 → s.memberFrameStart.NothingShows) := by
  have hjoin : s.joinTest.member.station ≠ .member := by
    rcases s.joinTest_station with h | ⟨h, -⟩ <;> simp [h, hmember]
  obtain ⟨htimer, hhost, -⟩ := s.joinTest_holdTimer
  obtain ⟨hcount, hshows⟩ := State.countHoldTimer_parts hjoin
  rw [State.memberFrameStart_apart hhold hmember]
  simp only [State.ageRoster_member, State.ageRoster_station, State.ageRoster_frame, State.countHoldTimer_frame, hcount]
  refine ⟨hhost, trivial, trivial, by rw [htimer], trivial, fun h => ?_, fun h => ?_⟩
  · exact State.ageRoster_flag_of_flag (State.flag_of_port_eq (by simp) h)
  · exact (hshows (htimer.trans h)).of_eq (by simp) (by simp)

/-- The roster that membership's work leaves, whatever else it does. -/
theorem State.memberFrameStart_roster (s : State) : ∃ u : State, s.memberFrameStart = u.ageRoster
    ∧ u.member.roster = s.member.roster ∧ u.cfg = s.cfg ∧ u.tile = s.tile
    ∧ u.counters.get .lapses = s.counters.get .lapses := by
  by_cases hhold : s.port.inFlight = some .hold
  · exact ⟨_, State.memberFrameStart_hold hhold, s.takeHold_parts.2.2.1, by simp, by simp [State.tile], by simp⟩
  by_cases hmember : s.member.station = .member
  · cases hlocked : s.locked with
    | true => exact ⟨_, State.memberFrameStart_locked hhold hmember hlocked, rfl, rfl, rfl, rfl⟩
    | false =>
      refine ⟨_, State.memberFrameStart_lost hhold hmember hlocked, ?_, by simp, by simp [State.tile],
        State.realign_counter (by decide)⟩
      rw [(State.realign_parts hmember).1]
  · have hjoin : s.joinTest.member.station ≠ .member := by
      rcases s.joinTest_station with h | ⟨h, -⟩ <;> simp [h, hmember]
    refine ⟨_, State.memberFrameStart_apart hhold hmember, ?_, by simp, by simp [State.tile], by simp⟩
    rw [(State.countHoldTimer_parts hjoin).1, s.joinTest_holdTimer.2.2]

@[simp] theorem State.generatorFrameStart_inFlight (s : State) (edge : Bool) :
    (s.generatorFrameStart edge).port.inFlight = s.port.inFlight := by
  rw [State.generatorFrameStart_eq s edge rfl]
  cases s.timing.lock <;> cases (evaluation s.cfg (s.endFrame edge).timing).lock <;>
    simp [State.reportLock, State.raise, State.keepUndriven, apply_ite State.port]

theorem State.generatorFrameStart_counter (s : State) (edge : Bool) {c : Counter} (hc : c ≠ .lockLosses) :
    (s.generatorFrameStart edge).counters.get c = s.counters.get c := by
  rw [State.generatorFrameStart_eq s edge rfl]
  cases s.timing.lock <;> cases (evaluation s.cfg (s.endFrame edge).timing).lock <;>
    simp [State.reportLock, State.count, Counters.get_bump, hc]

/-- Membership's work in its turn: what a frame start leaves of the membership controller, the bus and the port is what
membership leaves of them. -/
theorem State.frameStarts_membership (s : State) (edge : Bool) (order : List Block) {e : Evaluation}
    (he : evaluation s.cfg (s.endFrame edge).timing = e) : ∃ u : State, ∃ m : List Block,
    u.member = s.member ∧ u.bus = s.bus ∧ u.port.inFlight = s.port.inFlight ∧ u.locked = (e.lock == .locked)
    ∧ u.cfg = s.cfg ∧ u.usable = s.usable
    ∧ (∀ c, c ≠ .modeRepairs → c ≠ .lockLosses → u.counters.get c = s.counters.get c)
    ∧ .membership ∉ m ∧ m.Nodup ∧ s.frameStarts edge order = u.memberFrameStart.blocksWork m := by
  obtain ⟨l, m, -, hl, hm, -, hnodup, hturn⟩ :=
    (s.generatorFrameStart edge).blocksFrameStart_turn order .membership
  have haside := Aside.work hl (s.generatorFrameStart edge)
  have hlock : (s.generatorFrameStart edge).timing.lock = e.lock := by rw [State.generatorFrameStart_timing s edge he]
  have hcfg : ((s.generatorFrameStart edge).blocksWork l).cfg = s.cfg := by
    simp only [State.cfg, haside.loader, State.generatorFrameStart_frame]
  refine ⟨_, m, haside.member.trans (by simp), haside.bus.trans (by simp), haside.inFlight.trans (by simp), ?_, hcfg,
    ?_, fun c hc hloss => (haside.counter c hc).trans (s.generatorFrameStart_counter edge hloss), hm, hnodup, hturn⟩
  · simp only [State.locked, haside.timing, hlock]
  · simp only [State.usable, haside.input, hcfg, State.generatorFrameStart_frame]

/-- Settles O25. -/
theorem membershipAtFrameStart : Obligations.MembershipAtFrameStart := by
  unfold Obligations.MembershipAtFrameStart
  intro w edge order s u e hu hdue he
  obtain ⟨v, m, hmember, hbus, hflight, hlocked, hcfg, husable, hcounter, hm, hnodup, hframe⟩ :=
    u.frameStarts_membership edge order he
  have haside : Aside v.memberFrameStart (u.frameStarts edge order) := hframe ▸ Aside.work hm _
  have hnothing : v.memberFrameStart.NothingShows → (u.frameStarts edge order).store.slots.first .showing = none :=
    fun h => hframe ▸ h.work hm hnodup
  have htile : v.tile = u.tile := by simp only [State.tile, hcfg]
  refine ⟨_, exec_frameStart hu hdue edge order, ?_⟩
  simp only [State.settle_frame, State.settle_bus, State.settle_flag, haside.member, haside.bus, haside.result,
    haside.inFlight]
  refine ⟨fun hhold => ?hold, fun hhold => ?noHold, ?lapses, fun k x hx hk => ?roster⟩
  case hold =>
    have hwork := State.memberFrameStart_hold (hflight.trans hhold)
    obtain ⟨hhost, htimer, -, hresult, hnone, hshows⟩ := v.takeHold_parts
    have hshowing := hnothing (hwork ▸ hshows.of_eq (by simp) (by simp))
    simp only [hwork, State.ageRoster_member, State.ageRoster_port, State.ageRoster_station, State.ageRoster_frame,
      State.settle_slots]
    refine ⟨hhost, htimer, hresult, hnone, hshowing, fun hwall => ?_, fun hdetached => ?_⟩
    · rw [← hmember] at hwall
      obtain ⟨hstation, hchange, hannounced, hleft⟩ := State.takeHold_wall hwall
      rw [hbus, hmember] at hleft
      refine ⟨hstation, haside.flag _ ?_, hannounced, hleft.waiting, hleft.onItsWay, hleft.heard, hleft.unheard⟩
      rw [hwork]
      exact State.ageRoster_flag_of_flag hchange
    · rw [← hmember] at hdetached
      obtain ⟨hstation, hsame⟩ := State.takeHold_detached hdetached
      rw [hstation, hsame, hbus]
      exact ⟨rfl, rfl, rfl⟩
  case noHold =>
    have hno : v.port.inFlight ≠ some .hold := hflight ▸ hhold
    rw [← hmember]
    refine ⟨?host, fun hon hlock => ?stays, fun hoff => ?timer, fun hon hlock => ?lost, fun hjoining => ?joining,
      fun hdetached hcannot => ?cannot, fun hdetached hinput hfree hlatch => ?joins⟩
    case host =>
      by_cases hon : v.member.station = .member
      · cases hl : v.locked with
        | true => rw [State.memberFrameStart_locked hno hon hl, v.ageRoster_member.2.1]
        | false =>
          rw [State.memberFrameStart_lost hno hon hl, v.realign.ageRoster_member.2.1, (State.realign_parts hon).1]
      · exact (State.memberFrameStart_timer hno hon).1
    case stays =>
      rw [State.memberFrameStart_locked hno hon (by rw [hlocked, hlock]; rfl)]
      simpa using hon
    case timer =>
      obtain ⟨-, -, -, htimer, -, -, hshows⟩ := State.memberFrameStart_timer hno hoff
      refine ⟨htimer, fun hone => ?_⟩
      rw [State.settle_slots]
      exact hnothing (hshows hone)
    case lost =>
      have hwork := State.memberFrameStart_lost hno hon (by rw [hlocked]; simpa using hlock)
      obtain ⟨hparts, hqueue, hrealign, hchange, hcount⟩ := State.realign_parts hon
      have hoff : v.memberFrameStart.member.station ≠ .member := by rw [hwork]; simp [hparts]
      rw [haside.modes hoff, haside.counter _ (by decide), hwork]
      have hflag : ∀ f, v.realign.flag f = true → (u.frameStarts edge order).flag f = true :=
        fun f hf => haside.flag f (hwork ▸ State.ageRoster_flag_of_flag hf)
      refine ⟨by simp [hparts], by simp [hparts, hcfg], by simp [hparts], by simpa using hqueue, hflag _ hrealign,
        hflag _ hchange, ?_⟩
      rw [State.ageRoster_counter (by decide), hcount, ← hcounter .realigns (by decide) (by decide)]
      simp [Counters.get_bump]
    case joining =>
      have hsame := State.joinTest_of_not (s := v) (by simp [hjoining])
      obtain ⟨-, hstation, hquiet, -⟩ := State.memberFrameStart_timer hno (s := v) (by simp [hjoining])
      rw [hstation, hquiet, hsame]
      exact ⟨hjoining, rfl⟩
    case cannot =>
      have hsame := State.joinTest_of_not (s := v) (by
        rw [husable, hbus]
        exact fun h => hcannot h.2)
      obtain ⟨-, hstation, -⟩ := State.memberFrameStart_timer hno (s := v) (by simp [hdetached])
      rw [hstation, hsame]
      exact hdetached
    case joins =>
      obtain ⟨hjoin, hchange, hplaces⟩ :=
        State.joinTest_joins hdetached (husable.trans hinput) hfree (hbus ▸ hlatch)
      obtain ⟨-, hstation, hquiet, -, hsame, hflag, -⟩ := State.memberFrameStart_timer hno (s := v) (by simp [hdetached])
      obtain ⟨hwaiting, hsending⟩ := (v.setMember { v.member with quiet := 0 }).withdrawLeave_bus
      rw [hstation, hquiet, hsame, hplaces, hjoin]
      simp only [State.setMember_bus, hbus] at hwaiting hsending
      exact ⟨rfl, rfl, haside.flag _ (hflag hchange), hwaiting, hsending⟩
  case lapses =>
    obtain ⟨y, hy, hroster, hycfg, hytile, hlapses⟩ := v.memberFrameStart_roster
    have hcounted := y.countLapses_lapses y.peerEntries
    rw [State.countP_peerEntries, hroster, hmember, hytile, htile, hycfg, hcfg, hlapses,
      hcounter _ (by decide) (by decide)] at hcounted
    rw [haside.counter _ (by decide), hy]
    exact hcounted
  case roster =>
    obtain ⟨y, hy, hroster, hycfg, hytile, -⟩ := v.memberFrameStart_roster
    rw [hmember] at hroster
    have hpeers : k ≠ u.tile.toNat → x.state = .joining ∨ x.state = .member →
        min 255 (x.heard + 1) = u.cfg.lapse → (u.frameStarts edge order).flag .rosterChange = true := by
      intro hne hstate hlapse
      refine haside.flag _ ?_
      rw [hy]
      refine State.countLapses_flag ⟨(k, x), (State.mem_peerEntries _ _ _).mpr ⟨⟨hk, hroster ▸ hx⟩, ?_⟩, ?_⟩
      · rw [hytile, htile]
        exact hne
      · rw [hycfg, hcfg]
        rcases hstate with hstate | hstate <;> simp [Entry.lapses, hstate, hlapse]
    rw [hy, State.ageRoster_roster, hroster, hx, hytile, htile, hycfg, hcfg, Option.map_some]
    refine ⟨fun h => ?_, fun hne hgone => ?_, fun hne hstate => ⟨?_, hpeers hne hstate⟩⟩
    · rcases h with h | h
      · rw [if_pos h]
      · rw [Entry.age_away _ h, ite_self]
    · rw [if_neg hne, Entry.age_gone _ hgone]
    · rw [if_neg hne, Entry.age_present _ hstate]

/-! ## The named frame starts -/

/-- The evaluation that locks alone found no edge (R15). -/
theorem evaluation_lone {c : Settings} {x : Timing} (h : (evaluation c x).lone = true) :
    x.lock = .seek ∧ (evaluation c x).lock = .locked ∧ (evaluation c x).loneWait = 0 ∧ (evaluation c x).error = 0 := by
  cases hlock : x.lock with
  | off => simp [evaluation, hlock] at h
  | locked => simp [evaluation, hlock, evaluateLocked_eq] at h
  | seek =>
    have heval : evaluation c x = evaluateSeek c x := by simp only [evaluation, hlock]
    rw [heval] at h ⊢
    cases herror : seekError c x with
    | some a => simp [evaluateSeek_edge herror] at h
    | none =>
      rw [evaluateSeek_lone herror] at h ⊢
      have hwait := of_decide_eq_true h
      exact ⟨rfl, if_pos hwait, if_pos hwait, rfl⟩

theorem State.someLapse_iff (s : State) : s.someLapse = true ↔ ∃ (k : Nat) (x : Entry), k < 32
    ∧ s.member.roster[k]? = some x ∧ k ≠ s.tile.toNat ∧ (x.state = .joining ∨ x.state = .member)
    ∧ min 255 (x.heard + 1) = s.cfg.lapse := by
  simp only [State.someLapse, List.any_eq_true, Prod.exists, State.mem_peerEntries, Entry.lapses, Bool.and_eq_true,
    Bool.or_eq_true, beq_iff_eq, and_assoc]

/-- Settles O24. -/
theorem namedFrameStarts : Obligations.NamedFrameStarts := by
  unfold Obligations.NamedFrameStarts
  refine fun w edge order s u hu => ⟨fun hlone => ?lone, fun htimer => ?timer, fun hlapse => ?lapse⟩
  case lone =>
    obtain ⟨hdue, hfound⟩ := Bool.and_eq_true_iff.mp hlone
    obtain ⟨hended, hlock, hwait, herror⟩ := evaluation_lone hfound
    have hseek : u.timing.lock = .seek := by rwa [u.endFrame_keptEdge false] at hended
    obtain ⟨-, hstarts⟩ := frameStartEvaluates
    obtain ⟨-, t, hexec, htiming, hchange, -⟩ := hstarts w false order s u _ hu hdue rfl
    rw [exec_frameStart hu hdue] at hexec
    cases hexec
    refine ⟨_, event_at (due := State.loneLockDue) (effect := fun t => t.frameStarts false order) hu hlone,
      exec_frameStart hu hdue false order, ?_, ?_, ?_, hchange (by rw [hseek, hlock]; decide)⟩
    · rw [htiming]
      exact hlock
    · rw [htiming]
      exact hwait
    · rw [htiming]
      simp [herror]
  case timer =>
    simp only [State.holdTimerDue, Bool.and_eq_true, bne_iff_ne, beq_iff_eq] at htimer
    obtain ⟨⟨⟨hdue, hstation⟩, hone⟩, hhold⟩ := id htimer
    obtain ⟨t, hexec, -, hother, -⟩ := membershipAtFrameStart w edge order s u _ hu hdue rfl
    rw [exec_frameStart hu hdue] at hexec
    cases hexec
    obtain ⟨-, -, hcount, -⟩ := hother hhold
    obtain ⟨hholdTimer, hshowing⟩ := hcount hstation
    refine ⟨_, event_at (due := State.holdTimerDue) (effect := fun t => t.frameStarts edge order) hu ?_,
      exec_frameStart hu hdue edge order, by rw [hholdTimer, hone], hshowing hone⟩
    simp [State.holdTimerDue, hdue, hstation, hone, hhold]
  case lapse =>
    obtain ⟨hdue, hsome⟩ := Bool.and_eq_true_iff.mp hlapse
    obtain ⟨k, x, hk, hx, hne, hstate, hheard⟩ := u.someLapse_iff.mp hsome
    obtain ⟨t, hexec, -, -, -, hroster⟩ := membershipAtFrameStart w edge order s u _ hu hdue rfl
    rw [exec_frameStart hu hdue] at hexec
    cases hexec
    obtain ⟨-, -, hpresent⟩ := hroster k x hx hk
    exact ⟨_, event_at (due := State.lapseDue) (effect := fun t => t.frameStarts edge order) hu hlapse,
      exec_frameStart hu hdue edge order, (hpresent hne hstate).2 hheard⟩

end Sys2Proof.Machine
end

