-- ==== Sys2Proof/Proofs/ModesAndSwitch.lean ====
section
/-! O26 and O27, the modes, the switch and the picture at a frame start (R68, R130, R134, R138 to R144). -/

namespace Sys2Proof.Machine

/-! ## The modes (R130, R134) -/

theorem State.applyRepair_modes (s : State) : s.applyRepair.modes =
    { s.modes with record := s.modes.repair.getD s.modes.record, repair := none } := by
  simp only [State.applyRepair]
  cases h : s.modes.repair with
  | none =>
    simp only [Option.getD_none]
    rw [← h]
  | some r => simp

theorem State.applyRepair_some {s : State} (h : s.modes.repair.isSome = true) :
    s.applyRepair.flag .modeApplied = true
    ∧ s.applyRepair.counters.get .modeRepairs = satInc (s.counters.get .modeRepairs) := by
  obtain ⟨r, hr⟩ := Option.isSome_iff_exists.mp h
  simp only [State.applyRepair, hr]
  exact ⟨State.flag_raise _ _, by simp [State.count, Counters.get_bump]⟩

theorem State.applyEntry_first {s : State} {q : ModeEntry} {rest : List ModeEntry} (hq : s.modes.queue = q :: rest)
    (ht : q.target = s.timing.wfn) :
    s.applyEntry.modes = { s.modes with record := ⟨q.mode, q.target, q.origin⟩, queue := rest }
    ∧ s.applyEntry.flag .modeApplied = true := by
  simp only [State.applyEntry, hq, if_pos ht]
  exact ⟨by simp, State.flag_raise _ _⟩

theorem State.applyEntry_waits {s : State} (h : ∀ q rest, s.modes.queue = q :: rest → q.target ≠ s.timing.wfn) :
    s.applyEntry = s := by
  simp only [State.applyEntry]
  split
  · next q rest hq => exact if_neg (h q rest hq)
  · rfl

theorem State.applyEntry_flag_of_flag {s : State} {e : Event} (h : s.flag e = true) : s.applyEntry.flag e = true := by
  simp only [State.applyEntry]
  repeat' split
  · exact State.flag_raise_of_flag _ h
  · exact h
  · exact h

theorem State.advanceEffective_modes (s : State) : s.advanceEffective.modes = { s.modes with
    record := { s.modes.record with effective :=
      if s.timing.wfn - s.modes.record.effective = 0x8000#16 then s.modes.record.effective + 1
      else s.modes.record.effective } } := by
  simp only [State.advanceEffective]
  split
  · rfl
  · rfl

/-- The mode controller's work at the frame start of a MEMBER. -/
theorem State.modeFrameStart_member {s : State} (h : s.member.station = .member) : ∃ r : ModeRecord,
    (∀ q rest, s.modes.queue = q :: rest → q.target = s.timing.wfn →
      r = ⟨q.mode, s.timing.wfn, q.origin⟩ ∧ s.modeFrameStart.modes.queue = rest
      ∧ s.modeFrameStart.flag .modeApplied = true)
    ∧ ((∀ q rest, s.modes.queue = q :: rest → q.target ≠ s.timing.wfn) →
      r = s.modes.repair.getD s.modes.record ∧ s.modeFrameStart.modes.queue = s.modes.queue)
    ∧ (s.modes.repair.isSome = true → s.modeFrameStart.flag .modeApplied = true
      ∧ s.modeFrameStart.counters.get .modeRepairs = satInc (s.counters.get .modeRepairs))
    ∧ s.modeFrameStart.modes.repair = none ∧ s.modeFrameStart.modes.outstanding = s.modes.outstanding
    ∧ s.modeFrameStart.modes.record = { r with effective :=
        if s.timing.wfn - r.effective = 0x8000#16 then r.effective + 1 else r.effective } := by
  have hwork : s.modeFrameStart = s.applyRepair.applyEntry.advanceEffective := if_pos h
  have hmodes := s.applyRepair_modes
  have hflag : ∀ f, s.applyRepair.applyEntry.flag f = true → s.modeFrameStart.flag f = true :=
    fun f hf => hwork ▸ State.flag_of_port_eq (by simp) hf
  have hrepair : s.modes.repair.isSome = true → s.modeFrameStart.flag .modeApplied = true
      ∧ s.modeFrameStart.counters.get .modeRepairs = satInc (s.counters.get .modeRepairs) := by
    intro hsome
    obtain ⟨hset, hcount⟩ := State.applyRepair_some hsome
    exact ⟨hflag _ (State.applyEntry_flag_of_flag hset), by rw [hwork]; simpa using hcount⟩
  by_cases hfirst : ∃ q rest, s.modes.queue = q :: rest ∧ q.target = s.timing.wfn
  · obtain ⟨q, rest, hq, ht⟩ := hfirst
    obtain ⟨hentry, hset⟩ := State.applyEntry_first (s := s.applyRepair) (by rw [hmodes]; exact hq) (by simpa using ht)
    refine ⟨⟨q.mode, q.target, q.origin⟩, fun q' rest' hq' _ => ?_, fun hnone => absurd ht (hnone q rest hq), hrepair,
      ?_, ?_, ?_⟩
    · rw [hq] at hq'
      cases hq'
      exact ⟨by rw [ht], by rw [hwork, State.advanceEffective_modes, hentry], hflag _ hset⟩
    all_goals rw [hwork, State.advanceEffective_modes, hentry, hmodes]
    simp
  · have hwaits : ∀ q rest, s.modes.queue = q :: rest → q.target ≠ s.timing.wfn :=
      fun q rest hq ht => hfirst ⟨q, rest, hq, ht⟩
    have hentry : s.applyRepair.applyEntry = s.applyRepair :=
      State.applyEntry_waits (by rw [hmodes]; simpa using hwaits)
    refine ⟨s.modes.repair.getD s.modes.record, fun q rest hq ht => absurd ht (hwaits q rest hq), fun _ => ⟨rfl, ?_⟩,
      hrepair, ?_, ?_, ?_⟩
    all_goals rw [hwork, hentry, State.advanceEffective_modes, hmodes]
    simp

/-- A station on the wall, in LOCKED, with no HOLD in flight: it stays a MEMBER over a frame start. -/
structure Steady (s : State) : Prop where
  member : s.member.station = .member
  locked : s.locked = true
  hold : s.port.inFlight ≠ some .hold

/-- The work of the blocks other than the mode controller, as far as the modes of a steady MEMBER go. -/
structure ModesAside (s t : State) : Prop where
  steady : Steady t
  modes : t.modes = s.modes
  timing : t.timing = s.timing
  repairs : t.counters.get .modeRepairs = s.counters.get .modeRepairs
  flag : ∀ e, s.flag e = true → t.flag e = true

theorem ModesAside.block {b : Block} (hb : b ≠ .mode) {s : State} (hs : Steady s) :
    ModesAside s (s.blockFrameStart b) := by
  obtain ⟨hmember, hlocked, hhold⟩ := hs
  cases b with
  | mode => exact absurd rfl hb
  | store =>
    have hport : s.switch.port = s.port := by simp
    exact ⟨⟨by simpa [State.blockFrameStart] using hmember, by simpa [State.blockFrameStart, State.locked] using hlocked,
      by simpa [State.blockFrameStart] using hhold⟩, by simp [State.blockFrameStart], by simp [State.blockFrameStart],
      by simp [State.blockFrameStart], fun _ he => State.flag_of_port_eq hport he⟩
  | picture =>
    have hport : s.pictureFrameStart.port = s.port := by simp
    exact ⟨⟨by simpa [State.blockFrameStart] using hmember, by simpa [State.blockFrameStart, State.locked] using hlocked,
      by simpa [State.blockFrameStart] using hhold⟩, by simp [State.blockFrameStart], by simp [State.blockFrameStart],
      by simp [State.blockFrameStart], fun _ he => State.flag_of_port_eq hport he⟩
  | membership =>
    have hwork : s.blockFrameStart .membership = s.ageRoster := State.memberFrameStart_locked hhold hmember hlocked
    rw [hwork]
    exact ⟨⟨by simpa using hmember, by simpa [State.locked] using hlocked, by simpa using hhold⟩, by simp, by simp,
      State.ageRoster_counter (by decide), fun _ => State.ageRoster_flag_of_flag⟩

theorem ModesAside.work {l : List Block} (hl : .mode ∉ l) {s : State} (hs : Steady s) :
    ModesAside s (s.blocksWork l) := by
  refine State.blocksWork_keeps (P := ModesAside s) (fun b hb u hu => ?_) ⟨hs, rfl, rfl, rfl, fun _ h => h⟩
  have hblock := ModesAside.block (fun h => hl (h ▸ hb)) hu.steady
  exact ⟨hblock.steady, hblock.modes.trans hu.modes, hblock.timing.trans hu.timing, hblock.repairs.trans hu.repairs,
    fun e he => hblock.flag e (hu.flag e he)⟩

/-- Outside MEMBER the blocks leave the modes alone. -/
theorem State.blockFrameStart_apart (b : Block) {s : State} (h : s.member.station ≠ .member) :
    (s.blockFrameStart b).member.station ≠ .member ∧ (s.blockFrameStart b).modes = s.modes := by
  cases b with
  | store => simpa [State.blockFrameStart] using h
  | picture => simpa [State.blockFrameStart] using h
  | mode => simp [State.blockFrameStart, State.modeFrameStart, h]
  | membership =>
    refine ⟨fun hmember => h (State.memberFrameStart_member hmember).1, ?_⟩
    by_cases hhold : s.port.inFlight = some .hold
    · have hwork : s.blockFrameStart .membership = s.takeHold.ageRoster := State.memberFrameStart_hold hhold
      simp only [hwork, State.ageRoster_frame, State.takeHold]
      split
      · next hm => exact absurd hm h
      · simp
      · simp
    · have hwork : s.blockFrameStart .membership = _ := State.memberFrameStart_apart hhold h
      rw [hwork]
      simp

/-- Settles O26. -/
theorem modesAtFrameStart : Obligations.ModesAtFrameStart := by
  unfold Obligations.ModesAtFrameStart
  intro w edge order s u e n hu hdue he hn
  have htiming := u.generatorFrameStart_timing edge he
  refine ⟨_, exec_frameStart hu hdue edge order, fun hoff => ?apart, fun hon hlock hhold => ?member⟩
  case apart =>
    have hkept := State.blocksFrameStart_keeps (s := u.generatorFrameStart edge)
      (P := fun v => v.member.station ≠ .member ∧ v.modes = u.modes)
      (fun b v hv => ⟨(State.blockFrameStart_apart b hv.1).1, (State.blockFrameStart_apart b hv.1).2.trans hv.2⟩) order
      ⟨by simpa using hoff, by simp⟩
    simpa [State.frameStarts] using hkept.2
  case member =>
    have hlocked : (u.generatorFrameStart edge).timing.lock = e.lock := by rw [htiming]
    have hwfn : (u.generatorFrameStart edge).timing.wfn = n := by rw [htiming]; exact hn
    have hsteady : Steady (u.generatorFrameStart edge) :=
      ⟨by simpa using hon, by simp [State.locked, hlocked, hlock], by simpa using hhold⟩
    obtain ⟨l, m, -, hl, hm, -, -, hturn⟩ := (u.generatorFrameStart edge).blocksFrameStart_turn order .mode
    have hbefore := ModesAside.work hl hsteady
    have hquiet : Steady ((((u.generatorFrameStart edge).blocksWork l)).blockFrameStart .mode) := by
      obtain ⟨hmember, hlocked', hhold'⟩ := hbefore.steady
      exact ⟨by simpa [State.blockFrameStart] using hmember, by simpa [State.blockFrameStart, State.locked] using hlocked',
        by simpa [State.blockFrameStart, State.modeFrameStart_port] using hhold'⟩
    have hafter := ModesAside.work hm hquiet
    obtain ⟨r, hfirst, hwaits, hrepair, hnone, hout, hrecord⟩ := State.modeFrameStart_member hbefore.steady.member
    have hwfn' : ((u.generatorFrameStart edge).blocksWork l).timing.wfn = n := by rw [hbefore.timing, hwfn]
    have hmodes : ((u.generatorFrameStart edge).blocksWork l).modes = u.modes := by rw [hbefore.modes]; simp
    have hframe : (u.frameStarts edge order).modes = ((u.generatorFrameStart edge).blocksWork l).modeFrameStart.modes := by
      rw [State.frameStarts, hturn, hafter.modes]
      rfl
    have hflag : ∀ f, ((u.generatorFrameStart edge).blocksWork l).modeFrameStart.flag f = true →
        (u.frameStarts edge order).flag f = true := by
      intro f hf
      rw [State.frameStarts, hturn]
      exact hafter.flag f hf
    have hcount : (u.frameStarts edge order).counters.get .modeRepairs =
        ((u.generatorFrameStart edge).blocksWork l).modeFrameStart.counters.get .modeRepairs := by
      rw [State.frameStarts, hturn, hafter.repairs]
      rfl
    rw [hmodes, hwfn'] at hfirst hwaits
    rw [hmodes, hbefore.repairs, u.generatorFrameStart_counter edge (by decide)] at hrepair
    rw [hmodes] at hout
    rw [hwfn'] at hrecord
    simp only [State.settle_frame, State.settle_flag, hframe, hcount]
    refine ⟨r, fun q rest hq ht => ?_, hwaits, fun h => ?_, hnone, hout, hrecord⟩
    · obtain ⟨hr, hqueue, hset⟩ := hfirst q rest hq ht
      exact ⟨hr, hqueue, hflag _ hset⟩
    · obtain ⟨hset, hbumped⟩ := hrepair h
      exact ⟨hflag _ hset, hbumped⟩

end Sys2Proof.Machine
end

