-- ==== Sys2Proof/Proofs/SwitchAndPicture.lean ====
section
/-! O27, the switch and the picture at a frame start (R68, R138 to R146). -/

namespace Sys2Proof.Machine

/-! ## The switch (R68) -/

/-- What a switch leaves of each slot. -/
theorem State.switch_get {s : State} {i : Fin 5} (h : s.store.slots.first .chosen = some i) :
    s.switch.store.dropPending = false ∧ ∀ j, s.switch.store.slots.get j =
      (if j = i then
         (if s.store.dropPending then .free else { s.store.slots.get i with state := .showing, pledged := false })
       else if (s.store.slots.get j).state = .showing then .free
       else if (s.store.slots.get j).state = .ready
           ∧ later (s.store.slots.get i).lcs (s.store.slots.get j).lcs = true then .free
       else s.store.slots.get j) := by
  constructor
  · simp only [State.switch, h, State.slotChanged_dropPending]
    by_cases hdrop : s.store.dropPending = true
    · have hpending : (s.setSlots (showSlot s.store.slots i)).store.dropPending = true := hdrop
      rw [if_pos hpending]
      rfl
    · have hpending : ¬(s.setSlots (showSlot s.store.slots i)).store.dropPending = true := hdrop
      rw [if_neg hpending]
      exact Bool.eq_false_iff.mpr hdrop
  · intro j
    rw [State.switch_slots h]
    by_cases hj : j = i
    · subst hj
      by_cases hdrop : s.store.dropPending = true <;> simp [hdrop]
    · have hother := showSlot_get_other s.store.slots hj
      by_cases hshow : (s.store.slots.get j).state = .showing
      · by_cases hdrop : s.store.dropPending = true <;> simp [hdrop, hj, hother, hshow]
      · by_cases hdrop : s.store.dropPending = true <;> simp [hdrop, hj, hother, hshow]

/-- No drop-picture comes at the frame start of such a station. -/
structure QuietFrame (s : State) : Prop where
  hold : s.port.inFlight ≠ some .hold
  locked : s.member.station = .member → s.locked = true
  timer : s.member.station ≠ .member → s.member.holdTimer ≠ 1

theorem QuietFrame.aside {s t : State} (hs : QuietFrame s) (h : Aside s t) : QuietFrame t where
  hold := h.inFlight ▸ hs.hold
  locked := by
    rw [h.member, State.locked, h.timing]
    exact hs.locked
  timer := by
    rw [h.member]
    exact hs.timer

theorem State.countHoldTimer_quiet {s : State} (h : s.member.holdTimer ≠ 1) :
    s.countHoldTimer.store = s.store := by
  simp only [State.countHoldTimer]
  split
  · next hrun =>
    rw [if_neg]
    · rfl
    · simp only [State.setMember_member]
      omega
  · rfl

/-- Membership leaves the picture store alone. -/
theorem QuietFrame.membership {s : State} (hs : QuietFrame s) : s.memberFrameStart.store = s.store := by
  by_cases hmember : s.member.station = .member
  · rw [State.memberFrameStart_locked hs.hold hmember (hs.locked hmember)]
    simp
  · simp only [State.memberFrameStart_apart hs.hold hmember, State.ageRoster_frame]
    rw [State.countHoldTimer_quiet]
    · simp
    · rw [s.joinTest_holdTimer.1]
      exact hs.timer hmember

/-- Blocks other than the picture store leave the slots and a pending drop as they are. -/
theorem QuietFrame.work {l : List Block} (hstore : .store ∉ l) (hl : l.Nodup) {s : State} (hs : QuietFrame s) :
    (s.blocksWork l).store.slots = s.store.slots ∧ (s.blocksWork l).store.dropPending = s.store.dropPending := by
  induction l generalizing s with
  | nil => exact ⟨rfl, rfl⟩
  | cons b rest ih =>
    obtain ⟨hb, hrest⟩ := List.nodup_cons.mp hl
    have hstore' : Block.store ∉ rest := fun h => hstore (List.mem_cons_of_mem _ h)
    rw [State.blocksWork_cons]
    by_cases hmember : b = .membership
    · subst hmember
      obtain ⟨hslots, hdrop⟩ := State.blocksWork_slots hb hstore' (s.blockFrameStart .membership)
      have hsame : (s.blockFrameStart .membership).store = s.store := hs.membership
      rw [hslots, hdrop, hsame]
      exact ⟨rfl, rfl⟩
    · obtain ⟨hslots, hdrop⟩ := s.blockFrameStart_slots hmember (fun h => hstore (h ▸ List.mem_cons_self))
      obtain ⟨hslots', hdrop'⟩ := ih hstore' hrest (hs.aside (.block hmember s))
      exact ⟨hslots'.trans hslots, hdrop'.trans hdrop⟩

/-- The slots after the blocks' work are those that a switch leaves. -/
theorem QuietFrame.switched {s : State} (hs : QuietFrame s) (order : List Block) : ∃ v : State,
    v.store.slots = s.store.slots ∧ v.store.dropPending = s.store.dropPending
    ∧ (s.blocksFrameStart order).store.slots = v.switch.store.slots
    ∧ (s.blocksFrameStart order).store.dropPending = v.switch.store.dropPending := by
  obtain ⟨l, m, hlist, hl, hm, hlnodup, hmnodup, hturn⟩ := s.blocksFrameStart_turn order .store
  obtain ⟨hslots, hdrop⟩ := hs.work hl hlnodup
  refine ⟨_, hslots, hdrop, ?_⟩
  rw [hturn]
  have hnodup := nodup_fullOrder order
  rw [hlist] at hnodup
  by_cases hmember : .membership ∈ l
  · have hnot : Block.membership ∉ m := fun h =>
      (List.nodup_append'.mp hnodup).2.2 hmember (List.mem_cons_of_mem _ h)
    exact State.blocksWork_slots hnot hm _
  · have hquiet := (hs.aside (.work hmember s)).aside (.block (b := .store) (by decide) _)
    exact hquiet.work hm hmnodup

/-! ## The picture while the SHOWING slot changes (R139) -/

/-- What a naming of region lines leaves of the picture and the reader. -/
@[simp] theorem State.nameRow_keeps (s : State) (j : Nat) : (s.nameRow j).picture.selection = s.picture.selection
    ∧ (s.nameRow j).picture.field = s.picture.field ∧ (s.nameRow j).picture.fillFrom = s.picture.fillFrom
    ∧ (s.nameRow j).picture.row = s.picture.row ∧ (s.nameRow j).picture.dither = s.picture.dither
    ∧ (s.nameRow j).picture.patternWfn = s.picture.patternWfn
    ∧ (s.nameRow j).picture.nextPatternWfn = s.picture.nextPatternWfn
    ∧ (s.nameRow j).store.readFifo = s.store.readFifo ∧ (s.nameRow j).store.fetchCol = s.store.fetchCol
    ∧ (s.nameRow j).store.transfer = s.store.transfer := by
  simp only [State.nameRow]
  split <;> simp

/-- The fill colour begins at the present column, or where it began before. -/
def State.fillNow (s : State) : Option Nat :=
  if s.picture.selection = .slot then
    some (match s.picture.fillFrom with | some k => min k s.column | none => s.column)
  else s.picture.fillFrom

/-- Picture output as a change of the SHOWING slot leaves it, before it names lines. -/
def State.emptied (s : State) : State :=
  s.emptyReader.setPicture { s.picture with lineStore := [], namedRow := none, fillFrom := s.fillNow }

theorem State.slotChanged_eq (s : State) : s.slotChanged =
    if s.picture.selection = .slot ∧ s.emptied.findSelection = .slot
    then s.emptied.nameRow (contentRowFrom s.cfg (s.timing.line + 1)) else s.emptied := rfl

/-- What a change of the SHOWING slot leaves of the picture and the reader (R75, R139). -/
@[simp] theorem State.slotChanged_keeps (s : State) : s.slotChanged.picture.selection = s.picture.selection
    ∧ s.slotChanged.picture.field = s.picture.field ∧ s.slotChanged.picture.fillFrom = s.fillNow
    ∧ s.slotChanged.picture.row = s.picture.row ∧ s.slotChanged.picture.dither = s.picture.dither
    ∧ s.slotChanged.picture.patternWfn = s.picture.patternWfn
    ∧ s.slotChanged.picture.nextPatternWfn = s.picture.nextPatternWfn
    ∧ s.slotChanged.store.readFifo = [] ∧ s.slotChanged.store.fetchCol = 0
    ∧ s.slotChanged.store.transfer = staleTransfer s.store.transfer := by
  rw [State.slotChanged_eq]
  split
  · simp only [State.nameRow_keeps]
    exact ⟨rfl, rfl, rfl, rfl, rfl, rfl, rfl, rfl, rfl, rfl⟩
  · exact ⟨rfl, rfl, rfl, rfl, rfl, rfl, rfl, rfl, rfl, rfl⟩

theorem State.slotChanged_away {s : State} (h : s.picture.selection ≠ .slot) :
    s.slotChanged.picture.lineStore = [] ∧ s.slotChanged.store.named = [] := by
  rw [State.slotChanged_eq, if_neg (fun hc => h hc.1)]
  exact ⟨rfl, rfl⟩

theorem staleTransfer_staleTransfer (t : Option Transfer) : staleTransfer (staleTransfer t) = staleTransfer t := by
  cases t with
  | none => rfl
  | some t => cases t <;> rfl

/-! ## The region lines of content row 0 -/

/-- The region lines named at a frame start. -/
def State.firstLines (s : State) : List Nat :=
  if s.findSelection = .slot ∧ s.rowExists 0 = true then (if s.cfg.rh = 1 then [0] else [0, 1]) else []

theorem rowLines_zero (c : Settings) : rowLines c 0 = if c.rh = 1 then [0] else [0, 1] := by
  simp only [rowLines, axisIndex, Nat.zero_mul, Nat.zero_div, Nat.zero_mod, Nat.zero_add]
  by_cases h : c.rh = 1
  · simp [h]
  · simp [h, Ne.symm h]

theorem State.nameRow_fresh {s : State} (j : Nat) (hlines : s.picture.lineStore = []) (hnamed : s.store.named = []) :
    (s.nameRow j).picture.lineStore = (if s.rowExists j then rowLines s.cfg j else []).map (fun k => ⟨k, [], .arriving⟩)
    ∧ (s.nameRow j).store.named = (if s.rowExists j then rowLines s.cfg j else []).map (fun k => ⟨k, true⟩) := by
  simp only [State.nameRow]
  split
  · simp [hlines, hnamed]
  · simp [hlines, hnamed]

/-- Picture output at a frame start, before it names lines. -/
def State.freshPicture (s : State) : State :=
  s.emptyReader.setPicture { s.picture with
    selection := s.findSelection, nextSelection := s.findSelection, field := s.identityField, fillFrom := none, row := 0,
    namedRow := none, lineStore := [], patternWfn := s.timing.wfn, nextPatternWfn := s.timing.wfn,
    dither := s.timing.wfn.toNat % 4 }

theorem State.pictureFrameStart_eq (s : State) : s.pictureFrameStart =
    if s.findSelection = .slot then s.freshPicture.nameRow 0 else s.freshPicture := rfl

/-- The picture after its frame-start work (R138, R140, R144, R146, R151). -/
theorem State.pictureFrameStart_parts (s : State) :
    s.pictureFrameStart.picture.selection = s.findSelection
    ∧ s.pictureFrameStart.picture.field = s.identityField ∧ s.pictureFrameStart.picture.fillFrom = none
    ∧ s.pictureFrameStart.picture.row = 0 ∧ s.pictureFrameStart.picture.dither = s.timing.wfn.toNat % 4
    ∧ s.pictureFrameStart.picture.patternWfn = s.timing.wfn
    ∧ s.pictureFrameStart.picture.nextPatternWfn = s.timing.wfn
    ∧ s.pictureFrameStart.store.readFifo = [] ∧ s.pictureFrameStart.store.fetchCol = 0
    ∧ s.pictureFrameStart.store.transfer = staleTransfer s.store.transfer := by
  rw [State.pictureFrameStart_eq]
  split
  · simp only [State.nameRow_keeps]
    exact ⟨rfl, rfl, rfl, rfl, rfl, rfl, rfl, rfl, rfl, rfl⟩
  · exact ⟨rfl, rfl, rfl, rfl, rfl, rfl, rfl, rfl, rfl, rfl⟩

theorem State.pictureFrameStart_lines (s : State) :
    s.pictureFrameStart.picture.lineStore = s.firstLines.map (fun k => ⟨k, [], .arriving⟩)
    ∧ s.pictureFrameStart.store.named = s.firstLines.map (fun k => ⟨k, true⟩) := by
  rw [State.pictureFrameStart_eq, State.firstLines]
  by_cases hslot : s.findSelection = .slot
  · obtain ⟨hlines, hnamed⟩ := State.nameRow_fresh (s := s.freshPicture) 0 rfl rfl
    rw [if_pos hslot, hlines, hnamed, rowLines_zero]
    by_cases hrow : s.rowExists 0 = true
    · have hrow' : s.freshPicture.rowExists 0 = true := hrow
      have hboth : s.findSelection = .slot ∧ s.rowExists 0 = true := ⟨hslot, hrow⟩
      rw [if_pos hrow', if_pos hboth]
      exact ⟨rfl, rfl⟩
    · have hrow' : ¬s.freshPicture.rowExists 0 = true := hrow
      rw [if_neg hrow', if_neg (fun h => hrow h.2)]
      exact ⟨rfl, rfl⟩
  · rw [if_neg hslot, if_neg (fun h => hslot h.1)]
    exact ⟨rfl, rfl⟩

/-! ## The other blocks and the picture -/

/-- A drop-picture changes the slots, and with a SHOWING slot the picture as well. -/
theorem State.dropPicture_cases (s : State) : ∃ d : Bool,
    (s.store.slots.first .showing = none
      ∧ s.dropPicture = s.setStore { s.store with slots := s.store.slots.dropped, dropPending := d })
    ∨ ((s.store.slots.first .showing).isSome = true
      ∧ s.dropPicture = (s.setStore { s.store with slots := s.store.slots.dropped, dropPending := d }).slotChanged) := by
  simp only [State.dropPicture, Slots.dropped]
  cases s.store.slots.toList.find? (fun e => e.2.state == .chosen) with
  | none =>
    refine ⟨s.store.dropPending, ?_⟩
    cases s.store.slots.first .showing with
    | none => exact .inl ⟨rfl, rfl⟩
    | some i => exact .inr ⟨rfl, rfl⟩
  | some x =>
    refine ⟨true, ?_⟩
    cases s.store.slots.first .showing with
    | none => exact .inl ⟨rfl, rfl⟩
    | some i => exact .inr ⟨rfl, rfl⟩

theorem State.switch_cases (s : State) : s.switch = s ∨ ∃ (i : Fin 5) (d : Bool),
    s.store.slots.first .chosen = some i
    ∧ s.switch = (s.setStore { s.store with slots := s.switch.store.slots, dropPending := d }).slotChanged := by
  cases h : s.store.slots.first .chosen with
  | none => exact .inl (State.switch_none h)
  | some i =>
    refine .inr ⟨i, false, rfl, ?_⟩
    rw [State.switch_slots h]
    simp only [State.switch, h]
    by_cases hdrop : s.store.dropPending = true
    · have hpending : (s.setSlots (showSlot s.store.slots i)).store.dropPending = true := hdrop
      rw [if_pos hpending, if_pos hdrop]
      rfl
    · have hpending : ¬(s.setSlots (showSlot s.store.slots i)).store.dropPending = true := hdrop
      rw [if_neg hpending, if_neg hdrop, ← Bool.eq_false_iff.mpr hdrop]
      rfl

/-- What a switch and a drop-picture keep, the blocks other than picture output keep. -/
theorem State.blockFrameStart_pictureKeeps {P : State → Prop}
    (hsame : ∀ u v : State, v.picture = u.picture → v.store = u.store → v.timing = u.timing → P u → P v)
    (hdrop : ∀ u, P u → P u.dropPicture) (hswitch : ∀ u, P u → P u.switch) {b : Block} (hb : b ≠ .picture) {s : State}
    (hs : P s) : P (s.blockFrameStart b) := by
  cases b with
  | picture => exact absurd rfl hb
  | store => exact hswitch _ hs
  | mode =>
    have hwork : s.blockFrameStart .mode = s.modeFrameStart := rfl
    rw [hwork]
    exact hsame _ _ (by simp) (by simp) (by simp) hs
  | membership =>
    have hout : ∀ u, P u → P u.outOfMember := by
      intro u hu
      have htimed := hsame u (u.setMember { u.member with holdTimer := u.cfg.holdframes }) rfl rfl rfl hu
      simp only [State.outOfMember]
      split
      · exact hsame _ _ (by simp) (by simp) (by simp) (hdrop _ htimed)
      · exact hsame _ _ (by simp) (by simp) (by simp) htimed
    refine State.memberFrameStart_keeps hs (fun h => ?hold) (fun u hu => ?realign) (fun u hu => ?join) (fun u hu => ?timer)
      (fun u hu => hsame _ _ (by simp) (by simp) (by simp) hu)
    case hold =>
      refine hsame _ _ ?_ ?_ ?_ (hdrop _ (hsame s (s.setMember { s.member with hostHold := true, holdTimer := 0 })
        (by simp) (by simp) (by simp) h))
      all_goals simp only [State.takeHold]; split <;> simp
    case realign =>
      simp only [State.realign]
      split
      · exact hout _ (hsame u _ (by simp) (by simp) (by simp) hu)
      · exact hu
    case join => exact hsame _ _ (by simp) (by simp) (by simp) hu
    case timer =>
      simp only [State.countHoldTimer]
      split
      · split
        · exact hdrop _ (hsame _ _ (by simp) (by simp) (by simp) hu)
        · exact hsame _ _ (by simp) (by simp) (by simp) hu
      · exact hu

/-- Picture output after its frame-start work, whatever the other blocks do before or after it. -/
structure PictureRestarted (n : Word) (transfer : Option Transfer) (s : State) : Prop where
  dither : s.picture.dither = n.toNat % 4
  patternWfn : s.picture.patternWfn = n
  nextPatternWfn : s.picture.nextPatternWfn = n
  row : s.picture.row = 0
  readFifo : s.store.readFifo = []
  fetchCol : s.store.fetchCol = 0
  transfer : s.store.transfer = staleTransfer transfer

theorem PictureRestarted.of_eq {n : Word} {t : Option Transfer} {u v : State} (hu : PictureRestarted n t u)
    (hpicture : v.picture = u.picture) (hfifo : v.store.readFifo = u.store.readFifo)
    (hcol : v.store.fetchCol = u.store.fetchCol) (htransfer : v.store.transfer = u.store.transfer) :
    PictureRestarted n t v :=
  ⟨hpicture ▸ hu.dither, hpicture ▸ hu.patternWfn, hpicture ▸ hu.nextPatternWfn, hpicture ▸ hu.row,
    hfifo.trans hu.readFifo, hcol.trans hu.fetchCol, htransfer.trans hu.transfer⟩

theorem PictureRestarted.slotChanged {n : Word} {t : Option Transfer} {u : State} (hu : PictureRestarted n t u) :
    PictureRestarted n t u.slotChanged := by
  obtain ⟨-, -, -, hrow, hdither, hpattern, hnext, hfifo, hcol, htransfer⟩ := u.slotChanged_keeps
  exact ⟨hdither.trans hu.dither, hpattern.trans hu.patternWfn, hnext.trans hu.nextPatternWfn, hrow.trans hu.row, hfifo,
    hcol, by rw [htransfer, hu.transfer, staleTransfer_staleTransfer]⟩

/-- The WFN of the frame start, and a transfer that is or was wanted: what holds before picture output's turn. -/
def BeforePicture (n : Word) (transfer : Option Transfer) (s : State) : Prop :=
  s.timing.wfn = n ∧ staleTransfer s.store.transfer = staleTransfer transfer

theorem State.pictureFrameStart_restarted {n : Word} {t : Option Transfer} {s : State} (hs : BeforePicture n t s) :
    PictureRestarted n t s.pictureFrameStart := by
  obtain ⟨hn, ht⟩ := hs
  obtain ⟨-, -, -, hrow, hdither, hpattern, hnext, hfifo, hcol, htransfer⟩ := s.pictureFrameStart_parts
  rw [hn] at hdither hpattern hnext
  exact ⟨hdither, hpattern, hnext, hrow, hfifo, hcol, htransfer.trans ht⟩

theorem BeforePicture.slotChanged {n : Word} {t : Option Transfer} {u : State} (hu : BeforePicture n t u) :
    BeforePicture n t u.slotChanged := by
  refine ⟨by simpa using hu.1, ?_⟩
  simp only [State.slotChanged_keeps, staleTransfer_staleTransfer]
  exact hu.2

theorem BeforePicture.block {n : Word} {t : Option Transfer} (b : Block) {s : State} (hs : BeforePicture n t s) :
    BeforePicture n t (s.blockFrameStart b) := by
  by_cases hb : b = .picture
  · subst hb
    refine ⟨by simpa [State.blockFrameStart] using hs.1, ?_⟩
    have htransfer := (State.pictureFrameStart_restarted hs).transfer
    rw [State.blockFrameStart, htransfer, staleTransfer_staleTransfer]
  · refine State.blockFrameStart_pictureKeeps (P := BeforePicture n t) (fun u v _ hstore htiming hu => ?_)
      (fun u hu => ?_) (fun u hu => ?_) hb hs
    · simpa only [BeforePicture, hstore, htiming] using hu
    · obtain ⟨d, ⟨-, hdrop⟩ | ⟨-, hdrop⟩⟩ := u.dropPicture_cases
      · rw [hdrop]
        exact hu
      · rw [hdrop]
        exact BeforePicture.slotChanged hu
    · rcases u.switch_cases with hsame | ⟨i, d, -, hswitch⟩
      · rwa [hsame]
      · rw [hswitch]
        exact BeforePicture.slotChanged hu

theorem PictureRestarted.block {n : Word} {t : Option Transfer} (b : Block) {s : State} (hbefore : BeforePicture n t s)
    (hs : PictureRestarted n t s) : PictureRestarted n t (s.blockFrameStart b) := by
  by_cases hb : b = .picture
  · subst hb
    exact State.pictureFrameStart_restarted hbefore
  · refine State.blockFrameStart_pictureKeeps (P := PictureRestarted n t) (fun u v hpicture hstore _ hu => ?_)
      (fun u hu => ?_) (fun u hu => ?_) hb hs
    · exact hu.of_eq hpicture (by rw [hstore]) (by rw [hstore]) (by rw [hstore])
    · obtain ⟨d, ⟨-, hdrop⟩ | ⟨-, hdrop⟩⟩ := u.dropPicture_cases
      · rw [hdrop]
        exact hu.of_eq rfl rfl rfl rfl
      · rw [hdrop]
        exact PictureRestarted.slotChanged (hu.of_eq rfl rfl rfl rfl)
    · rcases u.switch_cases with hsame | ⟨i, d, -, hswitch⟩
      · rwa [hsame]
      · rw [hswitch]
        exact PictureRestarted.slotChanged (hu.of_eq rfl rfl rfl rfl)

theorem State.blocksFrameStart_restarted {n : Word} {t : Option Transfer} {s : State} (order : List Block)
    (hs : BeforePicture n t s) : PictureRestarted n t (s.blocksFrameStart order) :=
  State.blocksFrameStart_makes (P := BeforePicture n t) .picture (fun b _ => BeforePicture.block b)
    (fun _ => State.pictureFrameStart_restarted) (fun b _ => PictureRestarted.block b) order hs

/-! ## Picture output's turn before the others' -/

theorem State.findSelection_showing {s : State} (h : s.findSelection = .slot) :
    (s.store.slots.first .showing).isSome = true := by
  cases hshow : s.store.slots.first .showing with
  | some i => rfl
  | none =>
    simp only [State.findSelection, hshow] at h
    cases hstation : s.member.station <;> cases hdet : s.cfg.detachedShow <;> simp [hstation, hdet] at h

/-- Line 0 with a picture other than the slot's: no later change of the slots is seen in it. -/
structure LineAway (selection : Selection) (field : Rgb) (s : State) : Prop where
  away : s.picture.selection ≠ .slot
  selection : s.picture.selection = selection
  field : s.picture.field = field
  fillFrom : s.picture.fillFrom = none
  lineStore : s.picture.lineStore = []
  named : s.store.named = []

theorem LineAway.slotChanged {x : Selection} {f : Rgb} {u : State} (hu : LineAway x f u) : LineAway x f u.slotChanged := by
  obtain ⟨hsel, hfield, hfill, -⟩ := u.slotChanged_keeps
  obtain ⟨hlines, hnamed⟩ := State.slotChanged_away hu.away
  exact ⟨hsel ▸ hu.away, hsel.trans hu.selection, hfield.trans hu.field,
    hfill.trans ((if_neg hu.away).trans hu.fillFrom), hlines, hnamed⟩

theorem LineAway.work {x : Selection} {f : Rgb} {l : List Block} (hl : .picture ∉ l) {s : State} (hs : LineAway x f s) :
    LineAway x f (s.blocksWork l) := by
  refine State.blocksWork_keeps (P := LineAway x f) (fun b hb u hu => State.blockFrameStart_pictureKeeps
    (fun u v hpicture hstore _ hu => ?_) (fun u hu => ?_) (fun u hu => ?_) (fun h => hl (h ▸ hb)) hu) hs
  · obtain ⟨haway, hsel, hfield, hfill, hlines, hnamed⟩ := hu
    exact ⟨hpicture ▸ haway, hpicture ▸ hsel, hpicture ▸ hfield, hpicture ▸ hfill, hpicture ▸ hlines, hstore ▸ hnamed⟩
  · obtain ⟨haway, hsel, hfield, hfill, hlines, hnamed⟩ := hu
    obtain ⟨d, ⟨-, hdrop⟩ | ⟨-, hdrop⟩⟩ := u.dropPicture_cases
    · rw [hdrop]
      exact ⟨haway, hsel, hfield, hfill, hlines, hnamed⟩
    · rw [hdrop]
      exact LineAway.slotChanged ⟨haway, hsel, hfield, hfill, hlines, hnamed⟩
  · obtain ⟨haway, hsel, hfield, hfill, hlines, hnamed⟩ := hu
    rcases u.switch_cases with hsame | ⟨i, d, -, hswitch⟩
    · rw [hsame]
      exact ⟨haway, hsel, hfield, hfill, hlines, hnamed⟩
    · rw [hswitch]
      exact LineAway.slotChanged ⟨haway, hsel, hfield, hfill, hlines, hnamed⟩

/-- Line 0 with the picture of slot `i`: as it began, or all fill colour once the slot has gone. -/
structure LineOfSlot (i : Fin 5) (field : Rgb) (lines : List StoreLine) (named : List NamedLine) (s : State) : Prop where
  pixel : s.timing.pixel = 0
  selection : s.picture.selection = .slot
  field : s.picture.field = field
  shows : (s.store.slots.first .showing = some i ∧ s.picture.fillFrom = none ∧ s.picture.lineStore = lines
      ∧ s.store.named = named)
    ∨ ((s.store.slots.get i).state = .free ∧ s.picture.fillFrom = some 0)

theorem State.fillNow_first {s : State} (hpixel : s.timing.pixel = 0) (hslot : s.picture.selection = .slot)
    : s.fillNow = some 0 := by
  have hcol : s.column = 0 := by simp [State.column, hpixel]
  rw [State.fillNow, if_pos hslot, hcol]
  cases s.picture.fillFrom <;> simp

/-- A change of the slots that takes slot `i`, or finds it gone, leaves the line to the fill colour. -/
theorem LineOfSlot.slotChanged {i : Fin 5} {f : Rgb} {x : List StoreLine} {y : List NamedLine} {u : State}
    (hpixel : u.timing.pixel = 0) (hslot : u.picture.selection = .slot) (hfield : u.picture.field = f)
    (hgone : (u.store.slots.get i).state = .free) : LineOfSlot i f x y u.slotChanged := by
  obtain ⟨hsel, hf, hfill, -⟩ := u.slotChanged_keeps
  exact ⟨by simpa using hpixel, hsel.trans hslot, hf.trans hfield,
    .inr ⟨by simpa using hgone, hfill.trans (State.fillNow_first hpixel hslot)⟩⟩

theorem LineOfSlot.work {i : Fin 5} {f : Rgb} {x : List StoreLine} {y : List NamedLine} {l : List Block}
    (hl : .picture ∉ l) {s : State} (hs : LineOfSlot i f x y s) : LineOfSlot i f x y (s.blocksWork l) := by
  refine State.blocksWork_keeps (P := LineOfSlot i f x y) (fun b hb u hu => State.blockFrameStart_pictureKeeps
    (fun u v hpicture hstore htiming hu => ?same) (fun u hu => ?drop) (fun u hu => ?switch) (fun h => hl (h ▸ hb)) hu) hs
  case same =>
    obtain ⟨hpixel, hslot, hfield, hshows⟩ := hu
    exact ⟨htiming ▸ hpixel, hpicture ▸ hslot, hpicture ▸ hfield, by rw [hpicture, hstore]; exact hshows⟩
  case drop =>
    obtain ⟨hpixel, hslot, hfield, hshows⟩ := hu
    have hgone : (u.store.slots.dropped.get i).state = .free := by
      rcases u.store.slots.dropped_get i with ⟨hfree, -⟩ | ⟨hsame, hne⟩
      · rw [hfree]
        rfl
      · rcases hshows with ⟨hfirst, -⟩ | ⟨hfree, -⟩
        · exact absurd ((Slots.first_eq_some_iff _ _ _).mp hfirst).1 hne
        · rw [hsame, hfree]
    obtain ⟨d, ⟨hnone, hdrop⟩ | ⟨-, hdrop⟩⟩ := u.dropPicture_cases
    · rw [hdrop]
      refine ⟨hpixel, hslot, hfield, .inr ⟨hgone, ?_⟩⟩
      rcases hshows with ⟨hfirst, -⟩ | ⟨-, hfill⟩
      · simp [hnone] at hfirst
      · exact hfill
    · rw [hdrop]
      exact LineOfSlot.slotChanged hpixel hslot hfield hgone
  case switch =>
    rcases u.switch_cases with hsame | ⟨j, d, hj, hswitch⟩
    · rwa [hsame]
    · obtain ⟨hpixel, hslot, hfield, hshows⟩ := hu
      have hchosen := ((Slots.first_eq_some_iff _ _ _).mp hj).1
      obtain ⟨-, hget⟩ := State.switch_get hj
      have hgone : (u.switch.store.slots.get i).state = .free := by
        rw [hget i]
        rcases hshows with ⟨hfirst, -⟩ | ⟨hfree, -⟩
        · have hshowing := ((Slots.first_eq_some_iff _ _ _).mp hfirst).1
          have hne : i ≠ j := fun h => by simp [h, hchosen] at hshowing
          rw [if_neg hne, if_pos hshowing]
          rfl
        · have hne : i ≠ j := fun h => by simp [h, hchosen] at hfree
          rw [if_neg hne, if_neg (by simp [hfree]), if_neg (by simp [hfree]), hfree]
      rw [hswitch]
      exact LineOfSlot.slotChanged hpixel hslot hfield hgone

/-! ## The order of the blocks (R139) -/

theorem mem_allBlocks (b : Block) : b ∈ [Block.store, .mode, .membership, .picture] := by
  cases b <;> simp

/-- Named last, or not named, picture output has its turn when the others have had theirs. -/
theorem fullOrder_last {order : List Block}
    (h : .picture ∉ order ∨ (order.Nodup ∧ order.length = 4 ∧ order.getLast? = some .picture)) :
    ∃ l, fullOrder order = l ++ [.picture] := by
  rcases h with hnot | ⟨hnodup, hlen, hlast⟩
  · refine ⟨order.dedup ++ [Block.store, .mode, .membership].filter (fun b => !order.dedup.contains b), ?_⟩
    simp only [fullOrder, List.append_assoc]
    refine congrArg (order.dedup ++ ·) ?_
    rw [show [Block.store, .mode, .membership, .picture] = [Block.store, .mode, .membership] ++ [.picture] from rfl,
      List.filter_append]
    simp [hnot]
  · have hsub : order.Subperm [Block.store, .mode, .membership, .picture] :=
      List.subperm_of_subset hnodup (fun b _ => mem_allBlocks b)
    have hperm := hsub.perm_of_length_le (by rw [hlen]; decide)
    have hrest : [Block.store, .mode, .membership, .picture].filter (fun b => !order.dedup.contains b) = [] := by
      rw [List.filter_eq_nil_iff]
      intro b hb
      simpa using hperm.mem_iff.mpr hb
    obtain ⟨l, hl⟩ := List.getLast?_eq_some_iff.mp hlast
    refine ⟨l, ?_⟩
    simp only [fullOrder, hrest, List.append_nil]
    rw [hnodup.dedup, hl]

/-- Named first, picture output has its turn before the others. -/
theorem fullOrder_head {order : List Block} (hnodup : order.Nodup) (h : order.head? = some .picture) :
    ∃ m, fullOrder order = .picture :: m ∧ .picture ∉ m := by
  obtain ⟨rest, hrest⟩ := List.head?_eq_some_iff.mp h
  have hfull := nodup_fullOrder order
  have heq : fullOrder order = .picture :: (rest ++
      [Block.store, .mode, .membership, .picture].filter (fun b => !order.dedup.contains b)) := by
    simp only [fullOrder, hnodup.dedup]
    rw [hrest]
    rfl
  rw [heq] at hfull
  exact ⟨_, heq, (List.nodup_cons.mp hfull).1⟩

/-! ## The frame start as the picture sees it -/

theorem State.findSelection_congr {s t : State} (hmember : t.member.station = s.member.station)
    (hslots : t.store.slots = s.store.slots) (hmodes : t.modes = s.modes) (hcfg : t.cfg = s.cfg) :
    t.findSelection = s.findSelection := by
  simp only [State.findSelection, hmember, hslots, hmodes, hcfg]

theorem State.identityField_congr {s t : State} (hmember : t.member.station = s.member.station)
    (hlatch : t.bus.latch = s.bus.latch) : t.identityField = s.identityField := by
  simp only [State.identityField, hmember, hlatch]

@[simp] theorem State.generatorFrameStart_store (s : State) (edge : Bool) :
    (s.generatorFrameStart edge).store.dropPending = s.store.dropPending
    ∧ (s.generatorFrameStart edge).store.transfer = s.store.transfer := by
  have hpass : ∀ d, (s.passPixels d).store.dropPending = s.store.dropPending
      ∧ (s.passPixels d).store.transfer = s.store.transfer := by
    intro d
    simp only [State.passPixels]
    split
    · exact ⟨rfl, rfl⟩
    · simp
  have hend : (s.generatorFrameStart edge).store = (s.passPixels s.toLineEnd).store := by
    simp [State.generatorFrameStart, State.endFrame]
  rw [hend]
  exact hpass _

theorem QuietFrame.generator {s : State} (edge : Bool) {e : Evaluation}
    (he : evaluation s.cfg (s.endFrame edge).timing = e) (hhold : s.port.inFlight ≠ some .hold)
    (hlock : s.member.station = .member → e.lock = .locked) (htimer : s.member.station ≠ .member → s.member.holdTimer ≠ 1) :
    QuietFrame (s.generatorFrameStart edge) where
  hold := by simpa using hhold
  locked := by
    simp only [State.locked, State.generatorFrameStart_timing s edge he, State.generatorFrameStart_frame, beq_iff_eq]
    exact hlock
  timer := by simpa using htimer

@[simp] theorem State.blocksWork_frame (s : State) (l : List Block) :
    (s.blocksWork l).timing = s.timing ∧ (s.blocksWork l).cfg = s.cfg := by
  refine State.blocksWork_keeps (P := fun u => u.timing = s.timing ∧ u.cfg = s.cfg) (fun b _ u hu => ?_) ⟨rfl, rfl⟩
  simpa using hu

theorem State.firstLines_eq (s : State) : s.firstLines =
    if s.findSelection = .slot ∧ 0 < s.cfg.ch
      ∧ s.cfg.vstart + s.cfg.cy ≤ s.cfg.vtot - 1 - s.timing.shortening / s.cfg.htot
    then (if s.cfg.rh = 1 then [0] else [0, 1]) else [] := by
  have hrow : s.rowExists 0 = true ↔ 0 < s.cfg.ch
      ∧ s.cfg.vstart + s.cfg.cy ≤ s.cfg.vtot - 1 - s.timing.shortening / s.cfg.htot := by
    simp [State.rowExists, firstContentLine, lastLine]
  simp only [State.firstLines, hrow]

/-- The work of the other blocks after picture output's, with line 0 as it has found it. -/
theorem State.lineAfter {s : State} {m : List Block} (hm : .picture ∉ m) (hpixel : s.timing.pixel = 0) :
    (s.pictureFrameStart.blocksWork m).picture.selection = s.findSelection
    ∧ (s.pictureFrameStart.blocksWork m).picture.field = s.identityField
    ∧ ((s.pictureFrameStart.blocksWork m).store.slots.first .showing = s.store.slots.first .showing →
      (s.pictureFrameStart.blocksWork m).picture.fillFrom = none
      ∧ (s.pictureFrameStart.blocksWork m).picture.lineStore = s.firstLines.map (fun k => ⟨k, [], .arriving⟩)
      ∧ (s.pictureFrameStart.blocksWork m).store.named = s.firstLines.map (fun k => ⟨k, true⟩))
    ∧ ((s.pictureFrameStart.blocksWork m).store.slots.first .showing ≠ s.store.slots.first .showing →
      (s.pictureFrameStart.blocksWork m).picture.fillFrom = if s.findSelection = .slot then some 0 else none) := by
  obtain ⟨hsel, hfield, hfill, -⟩ := s.pictureFrameStart_parts
  obtain ⟨hlines, hnamed⟩ := s.pictureFrameStart_lines
  by_cases hslot : s.findSelection = .slot
  · obtain ⟨i, hi⟩ := Option.isSome_iff_exists.mp (State.findSelection_showing hslot)
    have hline : LineOfSlot i s.identityField _ _ s.pictureFrameStart :=
      ⟨by simpa using hpixel, hsel.trans hslot, hfield, .inl ⟨by simpa using hi, hfill, hlines, hnamed⟩⟩
    obtain ⟨-, hsel', hfield', hshows⟩ := hline.work hm
    refine ⟨hsel'.trans hslot.symm, hfield', fun hsame => ?_, fun hchange => ?_⟩
    · rcases hshows with ⟨-, hkept⟩ | ⟨hfree, -⟩
      · exact hkept
      · have hshowing := ((Slots.first_eq_some_iff _ _ _).mp (hsame.trans hi)).1
        simp [hfree] at hshowing
    · rcases hshows with ⟨hfirst, -⟩ | ⟨-, hnow⟩
      · exact absurd (hfirst.trans hi.symm) hchange
      · rw [hnow, if_pos hslot]
  · have hnone : s.firstLines = [] := if_neg (fun h => hslot h.1)
    rw [hnone] at hlines hnamed ⊢
    have hline : LineAway s.findSelection s.identityField s.pictureFrameStart :=
      ⟨hsel.symm ▸ hslot, hsel, hfield, hfill, hlines, hnamed⟩
    obtain ⟨-, hsel', hfield', hfill', hlines', hnamed'⟩ := hline.work hm
    refine ⟨hsel', hfield', fun _ => ⟨hfill', hlines', hnamed'⟩, fun _ => ?_⟩
    rw [hfill', if_neg hslot]

/-- Settles O27. -/
theorem switchAtFrameStart : Obligations.SwitchAtFrameStart := by
  unfold Obligations.SwitchAtFrameStart
  refine ⟨fun w edge order s u e hu hdue he hhold hlock htimer => ?switch, fun w edge order s u e n hu hdue he hn => ?picture⟩
  case switch =>
    obtain ⟨v, hslots, hdrop, hframe, hpending⟩ := (QuietFrame.generator edge he hhold hlock htimer).switched order
    simp only [State.generatorFrameStart_slots, State.generatorFrameStart_store] at hslots hdrop
    refine ⟨_, exec_frameStart hu hdue edge order, fun hnone => ?_, fun i j hi => ?_⟩
    · rw [State.settle_slots, State.frameStarts, hframe, State.switch_none (hslots ▸ hnone), hslots]
    · obtain ⟨hclear, hget⟩ := State.switch_get (s := v) (hslots ▸ hi)
      rw [State.settle_slots, (State.settle_settled _).2.2.2.2.1, State.frameStarts, hframe, hpending, hget j, hslots, hdrop]
      exact ⟨hclear, rfl⟩
  case picture =>
    have htiming := State.generatorFrameStart_timing u edge he
    have hwfn : (u.generatorFrameStart edge).timing.wfn = n := by rw [htiming]; exact hn
    have hshort : (u.generatorFrameStart edge).timing.shortening = min e.error u.cfg.slew := by rw [htiming]
    have hpixel : (u.generatorFrameStart edge).timing.pixel = 0 := by rw [htiming]
    obtain ⟨hdither, hpattern, hnext, hrow, hfifo, hcol, htransfer⟩ :=
      State.blocksFrameStart_restarted (n := n) (t := u.store.transfer) order
        ⟨hwfn, by rw [(u.generatorFrameStart_store edge).2]⟩
    refine ⟨u.frameStarts edge order, exec_frameStart hu hdue edge order, hdither, hpattern, hnext, hrow, hfifo, hcol, ?_,
      fun lines hlines => ⟨fun hlast => ?last, fun hnodup hhead => ?head⟩⟩
    · rw [State.frameStarts, htransfer]
      rfl
    case last =>
      obtain ⟨l, hl⟩ := fullOrder_last hlast
      have hframe : u.frameStarts edge order = ((u.generatorFrameStart edge).blocksWork l).pictureFrameStart := by
        have hwork : u.frameStarts edge order = (u.generatorFrameStart edge).blocksWork (fullOrder order) := rfl
        rw [hwork, hl, State.blocksWork_append]
        rfl
      have hfirst := ((u.generatorFrameStart edge).blocksWork l).firstLines_eq
      obtain ⟨hsel, hfield, hfill, -⟩ := ((u.generatorFrameStart edge).blocksWork l).pictureFrameStart_parts
      obtain ⟨hstore, hnamed⟩ := ((u.generatorFrameStart edge).blocksWork l).pictureFrameStart_lines
      rw [← hframe] at hsel hfield hfill hstore hnamed
      simp only [State.blocksWork_frame, State.generatorFrameStart_frame, hshort, ← hsel] at hfirst
      rw [hfirst, hlines] at hstore hnamed
      refine ⟨hsel.trans ?_, hfield.trans ?_, hfill, hstore, hnamed⟩
      · rw [hframe]
        exact (State.findSelection_congr (by simp) (by simp) (by simp) (by simp)).symm
      · rw [hframe]
        exact (State.identityField_congr (by simp) (by simp)).symm
    case head =>
      obtain ⟨m, hm, hnot⟩ := fullOrder_head hnodup hhead
      have hframe : u.frameStarts edge order = (u.generatorFrameStart edge).pictureFrameStart.blocksWork m := by
        have hwork : u.frameStarts edge order = (u.generatorFrameStart edge).blocksWork (fullOrder order) := rfl
        rw [hwork, hm]
        rfl
      have hfound : (u.generatorFrameStart edge).findSelection = u.findSelection :=
        State.findSelection_congr (by simp) (by simp) (by simp) (by simp)
      have hident : (u.generatorFrameStart edge).identityField = u.identityField :=
        State.identityField_congr (by simp) (by simp)
      have hfirst := (u.generatorFrameStart edge).firstLines_eq
      obtain ⟨hsel, hfield, hsame, hchange⟩ := State.lineAfter hnot hpixel
      rw [← hframe] at hsel hfield hsame hchange
      simp only [State.generatorFrameStart_frame, hshort, ← hsel] at hfirst
      rw [hfirst, hlines] at hsame
      rw [hfound] at hsel hchange
      rw [hident] at hfield
      simp only [State.generatorFrameStart_slots] at hsame hchange
      exact ⟨hsel, hfield, hsame, hchange⟩

end Sys2Proof.Machine
end

