-- ==== Sys2Proof/Proofs/LinesAndWindow.lean ====
section
/-! O28 and O29, the lines of a frame, the edges of FS, the underflow of the read FIFO, and the status window (R2, R9,
R10, R33, R37, R76, R111 to R113, R139 to R145). -/

namespace Sys2Proof.Machine

/-! ## Pixels and edges -/

theorem Ballot.read_edge (b : Ballot) (n : Nat) (l : List Level) : (b.read n l).edge = b.edge := by
  induction l generalizing b with
  | nil => rfl
  | cons x rest ih =>
    simp only [Ballot.read]
    split
    · exact ih _
    · rfl

theorem Ballot.pass_edge (b : Ballot) (htot : Nat) (w : Span) : (b.pass htot w).edge = b.edge := by
  simp only [Ballot.pass]
  split
  · exact Ballot.read_edge _ _ _
  · rfl

theorem State.fsPulseOver_iff (s : State) : s.fsPulseOver = true ↔
    (s.timing.running = true ∧ s.timing.fsDrive = true) ∧ 2 ≤ s.timing.line := by
  simp [State.fsPulseOver]

theorem State.seesForeign_iff (s : State) : s.seesForeign = true ↔
    s.timing.running = true ∧ s.timing.fsDrive = false := by
  simp [State.seesForeign]

theorem State.edgeTooOld_of {s : State} {a : Nat} (hrun : s.timing.running = true) (hedge : s.timing.keptEdge = some a)
    (hold : s.cfg.nominal ≤ a) : s.edgeTooOld = true := by
  simp [State.edgeTooOld, hedge, hrun, hold]

theorem State.lineFollows_iff (s : State) : s.lineFollows = true ↔ s.timing.running = true
    ∧ s.timing.line < s.cfg.vtot - 1 - s.timing.shortening / s.cfg.htot := by
  rw [State.lineFollows, Bool.and_eq_true, decide_eq_true_iff]
  exact Iff.rfl

/-! ## The naming of region lines (R140, R142) -/

theorem rowLines_eq (c : Settings) {j b : Nat} (hb : j * (65536 * c.rh / c.ch) / 65536 = b) :
    rowLines c j = if b + 1 = c.rh then [b] else [b, b + 1] := by
  subst hb
  simp only [rowLines, axisIndex, Settings.stepY]
  by_cases h : j * (65536 * c.rh / c.ch) / 65536 + 1 = c.rh
  · have hlast : c.rh - 1 = j * (65536 * c.rh / c.ch) / 65536 := by omega
    simp only [if_pos h, hlast, if_true]
  · simp [h]

theorem State.rowExists_iff (s : State) (j : Nat) : s.rowExists j = true ↔ j < s.cfg.ch
    ∧ s.cfg.vstart + s.cfg.cy + j ≤ s.cfg.vtot - 1 - s.timing.shortening / s.cfg.htot := by
  rw [State.rowExists, Bool.and_eq_true, decide_eq_true_iff, decide_eq_true_iff]
  exact Iff.rfl

theorem State.nameRow_eq {s : State} {j : Nat} {kept : List StoreLine} {missing : List Nat}
    (hkept : s.picture.lineStore.filter (fun l => decide (l.status = .complete ∧ l.line ∈ rowLines s.cfg j)) = kept)
    (hmissing : (rowLines s.cfg j).filter (fun n => decide (n ∉ kept.map (·.line))) = missing)
    (h : s.rowExists j = true) : s.nameRow j = (s.setPicture { s.picture with
        lineStore := kept ++ missing.map (fun n => ⟨n, [], .arriving⟩), namedRow := some j }).setStore
      { s.store with named := s.store.named ++ missing.map (fun n => ⟨n, true⟩) } := by
  have hkept' : s.picture.lineStore.filter (fun l => l.status == .complete && (rowLines s.cfg j).contains l.line) =
      kept := by
    rw [← hkept]
    refine List.filter_congr fun l _ => ?_
    rw [Bool.eq_iff_iff]
    simp
  have hmissing' : (rowLines s.cfg j).filter (fun n => !(kept.any (fun l => l.line == n))) = missing := by
    rw [← hmissing]
    refine List.filter_congr fun n _ => ?_
    rw [Bool.eq_iff_iff]
    simp
  simp only [State.nameRow, if_pos h, hkept', hmissing']

theorem State.nameRow_none {s : State} {j : Nat} (h : ¬s.rowExists j = true) : s.nameRow j = s := if_neg h

/-! ## The end of an output line (R2, R139, R140) -/

/-- The station after some pixels of its line, with what the scaler has then taken. -/
theorem State.passPixels_eq (s : State) (d : Nat) : s.passPixels d = { s with
    timing := { s.timing with keptEdge := s.timing.keptEdge.map (· + d) }
    ballot := { s.ballot with edge := s.ballot.edge.map (· + d) }
    picture := { s.picture with lineStore := if d ≠ 0 ∧ (s.picture.selection = .slot ∨ s.findSelection = .slot)
      then s.store.readFifo.foldl (Machine.takePixel s.cfg.rw) s.picture.lineStore else s.picture.lineStore }
    store := { s.store with readFifo := if d ≠ 0 ∧ (s.picture.selection = .slot ∨ s.findSelection = .slot)
      then [] else s.store.readFifo } } := by
  by_cases hd : d = 0
  · subst hd
    simp [State.passPixels]
  · have hpass : s.passPixels d = ((s.setTiming { s.timing with keptEdge := s.timing.keptEdge.map (· + d) }).setBallot
        { s.ballot with edge := s.ballot.edge.map (· + d) }).drainFifo := if_neg hd
    have htakes : s.takesSlot = true ↔ s.picture.selection = .slot ∨ s.findSelection = .slot := by
      simp [State.takesSlot]
    by_cases hslot : s.picture.selection = .slot ∨ s.findSelection = .slot
    · rw [hpass, if_pos ⟨hd, hslot⟩, if_pos ⟨hd, hslot⟩]
      exact if_pos (htakes.mpr hslot)
    · rw [hpass, if_neg (fun h => hslot h.2), if_neg (fun h => hslot h.2)]
      exact if_neg (fun h => hslot (htakes.mp h))

/-- Picture output at the end of a line, before it names lines. -/
def State.lineTurned (s : State) : State := s.setPicture { s.picture with
  selection := s.findSelection, nextSelection := s.findSelection, field := s.identityField, fillFrom := none,
  row := min (contentRowFrom s.cfg s.timing.line) (s.cfg.ch - 1), patternWfn := s.picture.nextPatternWfn }

theorem State.pictureLineEnd_away {s : State} (h : s.findSelection ≠ .slot) : s.pictureLineEnd = s.lineTurned :=
  if_neg h

theorem State.pictureLineEnd_begins {s : State} (h : s.findSelection = .slot)
    (hbefore : s.picture.selection ≠ .slot ∨ s.picture.namedRow = none) : s.pictureLineEnd =
    (s.lineTurned.discardFetches.setPicture { s.lineTurned.picture with lineStore := [], namedRow := none }).nameRow
      (contentRowFrom s.cfg s.timing.line) := by
  have hnot : ∀ (a b : State), (if s.picture.selection ≠ .slot ∨ s.picture.namedRow = none then a else b) = a :=
    fun a b => if_pos hbefore
  exact (if_pos h).trans (hnot _ _)

/-- With SLOT standing, the row after one that has been output is named, unless it is. -/
theorem State.pictureLineEnd_stands {s : State} (h : s.findSelection = .slot) (hbefore : s.picture.selection = .slot)
    (hnamed : s.picture.namedRow ≠ none) : s.pictureLineEnd =
    match contentRowAt s.cfg (s.timing.line - 1) with
    | some j => if s.picture.namedRow = some (j + 1) then s.lineTurned else s.lineTurned.nameRow (j + 1)
    | none => s.lineTurned := by
  have hnot : ∀ (a b : State), (if s.picture.selection ≠ .slot ∨ s.picture.namedRow = none then a else b) = b :=
    fun a b => if_neg (by simp [hbefore, hnamed])
  exact (if_pos h).trans (hnot _ _)

/-- Whatever is named, the new line has the selection found for it (R139, R146). -/
theorem State.pictureLineEnd_picture (s : State) : s.pictureLineEnd.picture.selection = s.findSelection
    ∧ s.pictureLineEnd.picture.fillFrom = none ∧ s.pictureLineEnd.picture.field = s.identityField
    ∧ s.pictureLineEnd.picture.patternWfn = s.picture.nextPatternWfn := by
  by_cases hslot : s.findSelection = .slot
  · by_cases hbegins : s.picture.selection ≠ .slot ∨ s.picture.namedRow = none
    · rw [State.pictureLineEnd_begins hslot hbegins]
      simp only [State.nameRow_keeps]
      exact ⟨rfl, rfl, rfl, rfl⟩
    · simp only [not_or, not_not] at hbegins
      rw [State.pictureLineEnd_stands hslot hbegins.1 hbegins.2]
      split
      · split
        · exact ⟨rfl, rfl, rfl, rfl⟩
        · simp only [State.nameRow_keeps]
          exact ⟨rfl, rfl, rfl, rfl⟩
      · exact ⟨rfl, rfl, rfl, rfl⟩
  · rw [State.pictureLineEnd_away hslot]
    exact ⟨rfl, rfl, rfl, rfl⟩

theorem contentRowAt_some {c : Settings} {line : Nat} (hlow : c.vstart + c.cy ≤ line)
    (hhigh : line < c.vstart + c.cy + c.ch) : contentRowAt c line = some (line - (c.vstart + c.cy)) :=
  if_pos ⟨hlow, hhigh⟩

theorem contentRowAt_none {c : Settings} {line : Nat}
    (h : ¬(c.vstart + c.cy ≤ line ∧ line < c.vstart + c.cy + c.ch)) : contentRowAt c line = none := if_neg h

/-- The station at pixel 0 of the next line, before picture output's work. -/
def State.lineStart (s : State) : State :=
  (s.passPixels s.toLineEnd).setTiming { (s.passPixels s.toLineEnd).timing with
    pixel := 0, line := (s.passPixels s.toLineEnd).timing.line + 1 }

theorem State.nextLine_eq (s : State) : s.nextLine = s.lineStart.pictureLineEnd := rfl

theorem State.lineStart_eq (s : State) : s.lineStart = { s with
    timing := { s.timing with pixel := 0, line := s.timing.line + 1, keptEdge := s.timing.keptEdge.map (· + s.toLineEnd) }
    ballot := { s.ballot with edge := s.ballot.edge.map (· + s.toLineEnd) }
    picture := { s.picture with lineStore :=
      if s.toLineEnd ≠ 0 ∧ (s.picture.selection = .slot ∨ s.findSelection = .slot)
      then s.store.readFifo.foldl (Machine.takePixel s.cfg.rw) s.picture.lineStore else s.picture.lineStore }
    store := { s.store with readFifo :=
      if s.toLineEnd ≠ 0 ∧ (s.picture.selection = .slot ∨ s.findSelection = .slot) then [] else s.store.readFifo } } := by
  rw [State.lineStart, State.passPixels_eq]
  rfl

/-! ## The underflow of the read FIFO (R76, R145) -/

theorem State.pixelMissing_iff (s : State) : s.pixelMissing = true ↔ s.timing.running = true
    ∧ s.picture.selection = .slot ∧ s.picture.fillFrom = none
    ∧ (s.cfg.hstart ≤ s.timing.pixel ∧ s.timing.pixel < s.cfg.hstart + s.cfg.aw
      ∧ s.cfg.vstart ≤ s.timing.line ∧ s.timing.line < s.cfg.vstart + s.cfg.ah)
    ∧ ∃ i j : Nat, s.timing.pixel = s.cfg.hstart + s.cfg.cx + i ∧ i < s.cfg.cw
      ∧ s.timing.line = s.cfg.vstart + s.cfg.cy + j ∧ j < s.cfg.ch
      ∧ scaledPixel s.cfg (s.store.readFifo.foldl (Machine.takePixel s.cfg.rw) s.picture.lineStore) i j = none := by
  simp only [State.pixelMissing, inActiveArea, inWindow, Bool.and_eq_true, beq_iff_eq, Option.isNone_iff_eq_none,
    decide_eq_true_eq, and_assoc]
  refine and_congr_right fun _ => and_congr_right fun _ => and_congr_right fun _ => ?_
  constructor
  · rintro ⟨hx, hx', hy, hy', hcx, hcx', hcy, hcy', hnone⟩
    exact ⟨hx, hx', hy, hy', s.timing.pixel - s.cfg.hstart - s.cfg.cx, s.timing.line - s.cfg.vstart - s.cfg.cy, by omega,
      by omega, by omega, by omega, hnone⟩
  · rintro ⟨hx, hx', hy, hy', i, j, hi, hi', hj, hj', hnone⟩
    have hi'' : s.timing.pixel - s.cfg.hstart - s.cfg.cx = i := by omega
    have hj'' : s.timing.line - s.cfg.vstart - s.cfg.cy = j := by omega
    refine ⟨hx, hx', hy, hy', by omega, by omega, by omega, by omega, ?_⟩
    rw [hi'', hj'']
    exact hnone

/-- The underflow's effect on picture output and the reader. -/
theorem State.underflow_parts {s : State} (h : s.picture.selection = .slot) :
    s.underflow.picture.fillFrom = some s.column ∧ s.underflow.store.readFifo = []
    ∧ s.underflow.store.named = s.store.named.map (fun l => { l with live := false })
    ∧ s.underflow.picture.lineStore =
      (s.store.readFifo.foldl (Machine.takePixel s.cfg.rw) s.picture.lineStore).map StoreLine.cut
    ∧ s.underflow.counters = s.counters.bump .readUnderflow ∧ s.underflow.store.slots = s.store.slots := by
  have hdrain : s.drainFifo = (s.setPicture { s.picture with lineStore := s.arrivedLines }).setStore
      { s.store with readFifo := [] } := if_pos (by simp [State.takesSlot, h])
  rw [State.underflow, hdrain]
  exact ⟨rfl, rfl, rfl, rfl, rfl, rfl⟩

/-- A grant takes from what is named to the reader, and names nothing. -/
theorem advanceFetch_named (rw : Nat) (x : Store) (n : Nat) : ∀ l ∈ (advanceFetch rw x n).named, l ∈ x.named := by
  intro l hl
  simp only [advanceFetch] at hl
  split at hl
  · exact hl
  · exact List.mem_of_mem_drop hl

theorem Store.granted_named (rw : Nat) (r : Option Transfer) (x : Store) :
    ∀ l ∈ (x.granted rw r).named, l ∈ x.named := by
  intro l hl
  simp only [Store.granted] at hl
  split at hl
  · exact hl
  · split at hl
    · exact advanceFetch_named rw x _ l hl
    · split at hl
      · split at hl <;> exact hl
      · exact hl

theorem State.settle_named (s : State) : ∀ l ∈ s.settle.store.named, l ∈ s.store.named := by
  intro l hl
  rw [State.settle_store, State.arbitrate_eq] at hl
  split at hl
  · exact Store.granted_named _ _ _ l hl
  · exact hl

/-- Settles O28. -/
theorem linesAndEdges : Obligations.LinesAndEdges := by
  unfold Obligations.LinesAndEdges
  refine ⟨fun w s u n hu hn => ?span, fun w s u hu hrun => ⟨fun hdrive hline => ?release, fun hdrive => ?foreign,
      fun hdrive => ?own, fun a hedge hold => ?expiry⟩,
    State.lineFollows_iff, fun c j b hb => rowLines_eq c hb, fun u j kept missing hkept hmissing => ?name,
    fun rw l ls x => ⟨rfl, rfl⟩, fun w s u x first line hu hdue hfirst hline hx => ?turn, State.pixelMissing_iff,
    fun w s u hu => ⟨fun hdue => ?ends, fun hdue => ?under⟩⟩
  case span =>
    subst hu hn
    obtain ⟨htiming, hballot⟩ := s.passPanel_edges w
    obtain ⟨-, -, hspan, -⟩ := s.pass_parts w
    have hread : (s.pass w).ballot.edge = (s.passPanel w).ballot.edge := by
      simp only [State.pass, State.setBallot_ballot, Ballot.pass_edge, State.setInput_ballot, State.setLoader_ballot]
    rw [hspan, htiming, hread, hballot]
    exact ⟨rfl, rfl⟩
  case release =>
    exact event_settled (due := State.fsPulseOver) (effect := State.releaseFs) hu
      ((State.fsPulseOver_iff u).mpr ⟨⟨hrun, hdrive⟩, hline⟩) rfl
  case foreign =>
    exact event_settled (due := State.seesForeign) (effect := State.keepEdge) hu
      ((State.seesForeign_iff u).mpr ⟨hrun, hdrive⟩) rfl
  case own =>
    have hnot : u.seesForeign = false := by simp [State.seesForeign, hdrive]
    exact event_passed (due := State.seesForeign) (effect := State.keepEdge) hu hnot
  case expiry =>
    exact event_settled (due := State.edgeTooOld) (effect := State.dropEdge) hu
      (State.edgeTooOld_of hrun hedge hold) rfl
  case name =>
    rw [← State.rowExists_iff]
    exact ⟨State.nameRow_eq hkept hmissing, State.nameRow_none⟩
  case turn =>
    subst hfirst hline
    have hturned : u.lineStart.lineTurned = x := by
      rw [State.lineStart_eq, ← hx]
      rfl
    have hfound : u.lineStart.findSelection = u.findSelection := by
      rw [State.lineStart_eq]
      rfl
    have hpicture : u.lineStart.picture.selection = u.picture.selection
        ∧ u.lineStart.picture.namedRow = u.picture.namedRow := by
      rw [State.lineStart_eq]
      exact ⟨rfl, rfl⟩
    have hcfg : u.lineStart.cfg = u.cfg ∧ u.lineStart.timing.line = u.timing.line + 1 := by
      rw [State.lineStart_eq]
      exact ⟨rfl, rfl⟩
    obtain ⟨hcfg, hline⟩ := hcfg
    refine ⟨u.nextLine, event_at (due := State.lineFollows) (effect := State.nextLine) hu hdue, fun haway => ?away,
      fun hslot hbegins => ?begins, fun hslot hbefore hnamed => ?stands⟩
    case away => rw [State.nextLine_eq, State.pictureLineEnd_away (hfound ▸ haway), hturned]
    case begins =>
      rw [State.nextLine_eq, State.pictureLineEnd_begins (hfound.trans hslot) (by rwa [hpicture.1, hpicture.2]), hturned,
        hcfg, hline, ← hx]
      rfl
    case stands =>
      have hstands := State.pictureLineEnd_stands (hfound.trans hslot) (hpicture.1.trans hbefore)
        (by rwa [hpicture.2])
      rw [hturned, hcfg, hline, hpicture.2, Nat.add_sub_cancel] at hstands
      rw [State.nextLine_eq, hstands]
      refine ⟨fun hlow hhigh hnot => ?_, fun h => ?_⟩
      · rw [contentRowAt_some hlow hhigh]
        exact if_neg hnot
      · by_cases hin : u.cfg.vstart + u.cfg.cy ≤ u.timing.line ∧ u.timing.line < u.cfg.vstart + u.cfg.cy + u.cfg.ch
        · rw [contentRowAt_some hin.1 hin.2]
          exact if_pos (h.resolve_left (fun hnot => hnot hin))
        · rw [contentRowAt_none hin]
  case ends =>
    have hpicture : u.nextLine.picture.selection = u.findSelection ∧ u.nextLine.picture.fillFrom = none
        ∧ u.nextLine.picture.field = u.identityField
        ∧ u.nextLine.picture.patternWfn = u.picture.nextPatternWfn := by
      have hline := u.lineStart.pictureLineEnd_picture
      rw [← State.nextLine_eq, State.lineStart_eq] at hline
      exact hline
    obtain ⟨hsel, hfill, hfield, hpattern⟩ := hpicture
    have hparts : u.nextLine.timing = u.lineStart.timing ∧ u.nextLine.ballot = u.lineStart.ballot := by
      rw [State.nextLine_eq]
      simp
    rw [State.lineStart_eq] at hparts
    obtain ⟨htiming, hballot⟩ := hparts
    refine ⟨_, event_at (due := State.lineFollows) (effect := State.nextLine) hu hdue, ?_, ?_, ?_, ?_, ?_, ?_, by simp,
      SameBut.settle (fun p hp => ?_) (by simp)⟩
    · simpa only [State.settle_frame] using htiming
    · simpa only [State.settle_frame] using hballot
    · simpa only [State.settle_picture] using hsel
    · simpa only [State.settle_picture] using hfill
    · simpa only [State.settle_picture] using hfield
    · simpa only [State.settle_picture] using hpattern
    · cases p <;> simp_all [Part.same]
  case under =>
    obtain ⟨-, hslot, -⟩ := u.pixelMissing_iff.mp hdue
    obtain ⟨hfill, hfifo, hnamed, hlines, hcounters, hslots⟩ := State.underflow_parts hslot
    obtain ⟨-, -, -, -, -, hread⟩ := State.settle_settled u.underflow
    refine ⟨_, event_at (due := State.pixelMissing) (effect := State.underflow) hu hdue, ?_, hread.trans hfifo,
      fun l hl => ?_, ?_, ?_, by rw [State.settle_slots, hslots], SameBut.settle (fun p hp => ?_) (by simp)⟩
    · simpa only [State.settle_picture] using hfill
    · have hmem := State.settle_named _ l hl
      rw [hnamed] at hmem
      obtain ⟨k, -, rfl⟩ := List.mem_map.mp hmem
      rfl
    · simp only [State.settle_picture, hlines]
      rfl
    · simpa only [State.settle_frame] using hcounters
    · cases p <;> simp_all [Part.same]

end Sys2Proof.Machine
end

