-- ==== Sys2Proof/Proofs/StatusCutoff.lean ====
section
/-! O29 and O31 to O34, the status window and its cut-off: the reference, the alignment of a joiner, the check of a
MEMBER, the founding of a wall, and the mode controller's work (R33, R37, R111 to R117, R126, R133). -/

namespace Sys2Proof.Machine

/-! ## Status open (R33, R111 to R113) -/

theorem State.placeStatus_refused {s : State} (m : StatusMsg) (h : s.bus.latch = true ∨ s.bus.active = false) :
    s.placeStatus m = s := by
  refine if_pos ?_
  rcases h with h | h <;> simp [State.placementRefused, h]

theorem State.placementRefused_eq_false {s : State} (hlatch : s.bus.latch = false) (hactive : s.bus.active = true) :
    s.placementRefused = false := by simp [State.placementRefused, hlatch, hactive]

/-- A STATUS goes to an empty place. -/
theorem State.placeStatus_empty {s : State} (m : StatusMsg) (hlatch : s.bus.latch = false) (hactive : s.bus.active = true)
    (h : s.bus.statusPlace = none) : s.placeStatus m = s.setBus { s.bus with statusPlace := some m } := by
  simp only [State.placeStatus, State.placementRefused_eq_false hlatch hactive, h]
  cases s.bus.sending <;> rfl

/-- A STATUS takes the place of one that waits, which is counted as dropped. -/
theorem State.placeStatus_waiting {s : State} (m : StatusMsg) (hlatch : s.bus.latch = false)
    (hactive : s.bus.active = true) (h : s.bus.statusPlace ≠ none) (hsending : s.sendingStatus = false) :
    s.placeStatus m = (s.setBus { s.bus with statusPlace := some m }).count .statusDropped := by
  obtain ⟨x, hx⟩ := Option.ne_none_iff_exists'.mp h
  simp only [State.placeStatus, State.placementRefused_eq_false hlatch hactive, hx]
  cases hs : s.bus.sending with
  | none => rfl
  | some d =>
    have hkind : d.kind ≠ .status := by simpa [State.sendingStatus, Bus.sendingKind, hs] using hsending
    exact if_neg hkind

/-- Behind a STATUS that is being sent the new one is held. -/
theorem State.placeStatus_held {s : State} {d : Sending} (m : StatusMsg) (hlatch : s.bus.latch = false)
    (hactive : s.bus.active = true) (h : s.bus.statusPlace ≠ none) (hs : s.bus.sending = some d)
    (hkind : d.kind = .status) :
    s.placeStatus m = s.setBus { s.bus with sending := some { d with nextStatus := some m } } := by
  obtain ⟨x, hx⟩ := Option.ne_none_iff_exists'.mp h
  simp only [State.placeStatus, State.placementRefused_eq_false hlatch hactive, hx, hs]
  exact if_pos hkind

/-- The window opened, before a STATUS is placed. -/
def State.windowOpened (s : State) : State :=
  (s.setBus { s.bus with windowOpen := true }).setMember { s.member with frameSet := [], reference := none }

theorem State.openWindow_eq (s : State) : s.openWindow =
    if s.member.station = .joining ∨ s.member.station = .member
    then s.windowOpened.placeStatus s.windowOpened.makeStatus else s.windowOpened := rfl

/-- Placing a STATUS changes the holding area and its counter, and neither the window nor the controllers. -/
theorem State.placeStatus_keeps (s : State) (m : StatusMsg) :
    (s.placeStatus m).bus.windowOpen = s.bus.windowOpen ∧ SameBut [.bus, .counters] s (s.placeStatus m) := by
  simp only [State.placeStatus]
  refine ⟨?_, fun p hp => ?_⟩
  · repeat' split
    all_goals simp
  · repeat' split
    all_goals cases p <;> simp_all [Part.same]

/-! ## The cut-off and the deadline of a SET_MODE (R37, R126) -/

/-- What the deadline of a SET_MODE leaves alone. -/
structure DeadlineAside (s t : State) : Prop where
  rest : SameBut [.bus, .modes, .port] s t
  flags : t.port.flags = s.port.flags
  record : t.modes.record = s.modes.record
  repair : t.modes.repair = s.modes.repair
  queue : s.modes.queue = [] → t.modes.queue = []
  windowOpen : t.bus.windowOpen = s.bus.windowOpen
  statusPlace : t.bus.statusPlace = s.bus.statusPlace
  sending : ∀ d, s.bus.sending = some d → d.kind ≠ .mode → t.bus.sending = some d

theorem DeadlineAside.refl (s : State) : DeadlineAside s s :=
  ⟨fun p _ => by cases p <;> simp [Part.same], rfl, rfl, rfl, id, rfl, rfl, fun _ h _ => h⟩

theorem DeadlineAside.member {s t : State} (h : DeadlineAside s t) : t.member = s.member := h.rest .member (by decide)
theorem DeadlineAside.timing {s t : State} (h : DeadlineAside s t) : t.timing = s.timing := h.rest .timing (by decide)
theorem DeadlineAside.store {s t : State} (h : DeadlineAside s t) : t.store = s.store := h.rest .store (by decide)
theorem DeadlineAside.counters {s t : State} (h : DeadlineAside s t) : t.counters = s.counters :=
  h.rest .counters (by decide)
theorem DeadlineAside.loader {s t : State} (h : DeadlineAside s t) : t.loader = s.loader := h.rest .loader (by decide)
theorem DeadlineAside.input {s t : State} (h : DeadlineAside s t) : t.input = s.input := h.rest .input (by decide)

theorem State.endSetMode_aside (s : State) (r : CmdResult) : DeadlineAside s (s.endSetMode r) := by
  refine ⟨fun p hp => ?_, by simp, ?_, ?_, ?_, by simp, by simp, fun d hd _ => by simpa using hd⟩
  · cases p <;> simp_all [Part.same]
  all_goals
    simp only [State.endSetMode]
    split <;> simp

theorem State.removeOwnEntry_aside (s : State) : DeadlineAside s s.removeOwnEntry := by
  refine ⟨fun p hp => ?_, by simp, ?_, ?_, ?_, by simp, by simp, fun d hd _ => by simpa using hd⟩
  · cases p <;> simp_all [Part.same]
  all_goals
    simp only [State.removeOwnEntry]
    split <;> simp +contextual

theorem DeadlineAside.trans {s t u : State} (h : DeadlineAside s t) (k : DeadlineAside t u) : DeadlineAside s u where
  rest p hp := by
    have hst := h.rest p hp
    have htu := k.rest p hp
    cases p <;> simp_all [Part.same]
  flags := k.flags.trans h.flags
  record := k.record.trans h.record
  repair := k.repair.trans h.repair
  queue hs := k.queue (h.queue hs)
  windowOpen := k.windowOpen.trans h.windowOpen
  statusPlace := k.statusPlace.trans h.statusPlace
  sending d hd hkind := k.sending d (h.sending d hd hkind) hkind

theorem State.modeWithdrawn_aside (s : State) : DeadlineAside s s.modeWithdrawn := by
  simp only [State.modeWithdrawn]
  split
  · exact .refl s
  · split
    · exact s.removeOwnEntry_aside.trans (State.endSetMode_aside _ _)
    · exact State.endSetMode_aside _ _

theorem State.withdrawMode_aside (s : State) (e : Ending) : DeadlineAside s (s.withdrawMode e) := by
  have hending : ∀ o : Outstanding, DeadlineAside s (s.setModes { s.modes with outstanding := some o }) := fun o =>
    ⟨fun p hp => by cases p <;> simp_all [Part.same], rfl, rfl, rfl, id, rfl, rfl, fun _ h _ => h⟩
  have hempty : ∀ t : State, DeadlineAside t (t.setBus { t.bus with modePlace := none }) := fun t =>
    ⟨fun p hp => by cases p <;> simp_all [Part.same], rfl, rfl, rfl, id, rfl, rfl, fun _ h _ => h⟩
  simp only [State.withdrawMode]
  split
  · exact .refl s
  · next o _ =>
    refine (hending { o with ending := e }).trans ?_
    split
    · next d hd =>
      split
      · next hkind =>
        refine ⟨fun p hp => by cases p <;> simp_all [Part.same], rfl, rfl, rfl, id, rfl, rfl, fun x hx hne => ?_⟩
        have hsame : x = d := Option.some.inj (hx.symm.trans hd)
        exact absurd (hsame ▸ hkind) hne
      · exact (hempty _).trans (State.modeWithdrawn_aside _)
    · exact (hempty _).trans (State.modeWithdrawn_aside _)

theorem State.modeDeadline_aside (s : State) : DeadlineAside s s.modeDeadline := by
  simp only [State.modeDeadline]
  split
  · split
    · exact State.withdrawMode_aside _ _
    · exact .refl s
  · exact .refl s

/-- The cut-off: the window closes, and the deadline of a SET_MODE comes before the evaluation or after it. -/
theorem State.cutoff_turns (s : State) (b : Bool) : ∃ v : State, DeadlineAside s.closeWindow v
    ∧ DeadlineAside v.cutoffEvaluation (s.cutoff b) := by
  cases b with
  | true => exact ⟨_, s.closeWindow.modeDeadline_aside, .refl _⟩
  | false => exact ⟨_, .refl _, State.modeDeadline_aside _⟩

/-- The deadline finds the MODE waiting: the SET_MODE ends LATE (R126). -/
theorem State.modeDeadline_waiting {s : State} {o : Outstanding} (ho : s.modes.outstanding = some o)
    (hending : o.ending = .none) (htarget : s.timing.wfn = o.target - 2) (hsending : s.bus.sendingKind ≠ some .mode) :
    s.modeDeadline.bus.modePlace = none ∧ s.modeDeadline.modes.outstanding = none
    ∧ s.modeDeadline.port.result = .late ∧ s.modeDeadline.port.inFlight ≠ some .setMode
    ∧ s.modeDeadline.modes.queue =
      s.modes.queue.filter (fun e => !(e.target == o.target && e.origin == s.tile)) := by
  have hdeadline : s.modeDeadline = s.withdrawMode .late := by
    simp only [State.modeDeadline, ho]
    exact if_pos ⟨htarget, hending⟩
  have hwithdraw : s.withdrawMode .late = ((s.setModes { s.modes with
      outstanding := some { o with ending := .late } }).setBus { s.bus with modePlace := none }).modeWithdrawn := by
    simp only [State.withdrawMode, ho, State.setModes_bus]
    cases hs : s.bus.sending with
    | none => rfl
    | some d =>
      have hkind : d.kind ≠ .mode := by simpa [Bus.sendingKind, hs] using hsending
      exact if_neg hkind
  rw [hdeadline, hwithdraw]
  refine ⟨rfl, rfl, rfl, ?_, rfl⟩
  change (if s.port.inFlight = some .setMode then none else s.port.inFlight) ≠ some .setMode
  split
  · exact nofun
  · next h => exact h

/-- The deadline finds the MODE on its way: its withdrawal is held, and the SET_MODE will end LATE (R126). -/
theorem State.modeDeadline_sending {s : State} {o : Outstanding} {d : Sending} (ho : s.modes.outstanding = some o)
    (hending : o.ending = .none) (htarget : s.timing.wfn = o.target - 2) (hd : s.bus.sending = some d)
    (hkind : d.kind = .mode) :
    s.modeDeadline = (s.setModes { s.modes with outstanding := some { o with ending := .late } }).setBus
      { s.bus with sending := some { d with withdraw := true } } := by
  have hdeadline : s.modeDeadline = s.withdrawMode .late := by
    simp only [State.modeDeadline, ho]
    exact if_pos ⟨htarget, hending⟩
  rw [hdeadline]
  simp only [State.withdrawMode, ho, State.setModes_bus, hd]
  exact if_pos hkind

/-! ## The window closes (R37) -/

theorem State.closeWindow_dropped {s : State} (h : s.bus.statusPlace.isSome = true) (hsending : s.sendingStatus = false) :
    s.closeWindow = (s.setBus { s.bus with windowOpen := false, statusPlace := none }).count .statusDropped := by
  refine (if_pos ?_).trans rfl
  rw [Bool.and_eq_true, Bool.not_eq_true']
  exact ⟨h, hsending⟩

theorem State.closeWindow_kept {s : State} (h : ¬(s.bus.statusPlace.isSome = true ∧ s.sendingStatus = false)) :
    s.closeWindow = s.setBus { s.bus with windowOpen := false } := by
  refine (if_neg ?_).trans rfl
  rw [Bool.and_eq_true, Bool.not_eq_true']
  exact h

/-- What the close of the window leaves of the bus. -/
theorem State.closeWindow_bus (s : State) : s.closeWindow.bus.windowOpen = false
    ∧ s.closeWindow.bus.sending = s.bus.sending ∧ s.closeWindow.bus.modePlace = s.bus.modePlace
    ∧ (s.sendingStatus = false → s.closeWindow.bus.statusPlace = none)
    ∧ (s.sendingStatus = true → s.closeWindow.bus.statusPlace = s.bus.statusPlace)
    ∧ s.closeWindow.counters.get .statusDropped =
      (if s.bus.statusPlace.isSome = true ∧ s.sendingStatus = false then satInc (s.counters.get .statusDropped)
       else s.counters.get .statusDropped)
    ∧ ∀ c, c ≠ .statusDropped → s.closeWindow.counters.get c = s.counters.get c := by
  by_cases h : s.bus.statusPlace.isSome = true ∧ s.sendingStatus = false
  · rw [State.closeWindow_dropped h.1 h.2, if_pos h]
    refine ⟨rfl, rfl, rfl, fun _ => rfl, fun hs => by simp [h.2] at hs, rfl, fun c hc => ?_⟩
    simp [State.count, Counters.get_bump, hc]
  · rw [State.closeWindow_kept h, if_neg h]
    refine ⟨rfl, rfl, rfl, fun hs => ?_, fun _ => rfl, rfl, fun _ _ => rfl⟩
    simpa [hs] using h

/-! ## The alignment of a joiner (R115, R116) -/

theorem State.align_some {s : State} {p : Stamp} {d : Nat} {i : Fin 5} {l : Word}
    (h : bestMatch (matchesOf s.cfg s.store.slots p) = some (d, i, l)) : ∃ v, s.align p = some v
    ∧ v.store.slots = showSlot s.store.slots i ∧ v.store.dropPending = s.store.dropPending
    ∧ SameBut [.store, .picture] s v := by
  simp only [State.align, h]
  refine ⟨_, rfl, ?_, ?_, fun q hq => ?_⟩
  · split <;> simp
  · split <;> simp [State.setSlots]
  · split
    all_goals cases q <;> simp_all [Part.same]

theorem State.align_none {s : State} {p : Stamp} (h : bestMatch (matchesOf s.cfg s.store.slots p) = none) :
    s.align p = none := by
  simp only [State.align, h]

/-- The stamps of the slots, shifted by an adoption offset (R72). -/
def Slots.shifted (x : Slots) (offset : Word) : Slots :=
  x.map (fun _ q => if q.state = .free then q else { q with stamp := { q.stamp with wfn := q.stamp.wfn + offset } })

/-- An adoption moves the WFN and the stamps (R8, R72). -/
theorem State.adopt_parts {s : State} (w : Word) (hrun : s.timing.running = true) :
    (s.adopt w).timing = { s.timing with wfn := w }
    ∧ (s.adopt w).store.slots = s.store.slots.shifted (w - s.timing.wfn)
    ∧ (s.adopt w).store.dropPending = s.store.dropPending
    ∧ SameBut [.timing, .store, .picture] s (s.adopt w) := by
  simp only [State.adopt, if_pos hrun]
  refine ⟨by simp, rfl, rfl, fun q hq => ?_⟩
  cases q <;> simp_all [Part.same]

/-- An entry to MEMBER, counted (R106, R116, R117). -/
theorem State.enterMember_parts (v : State) (c : Counter) (r : ModeRecord) :
    ((v.count c).enterMember r).member = { v.member with station := .member, holdTimer := 0 }
    ∧ ((v.count c).enterMember r).store = v.store
    ∧ ((v.count c).enterMember r).modes = { v.modes with record := r }
    ∧ ((v.count c).enterMember r).counters = v.counters.bump c
    ∧ ((v.count c).enterMember r).timing = v.timing
    ∧ ((v.count c).enterMember r).flag .stateChange = true
    ∧ ∀ f, v.flag f = true → ((v.count c).enterMember r).flag f = true :=
  ⟨rfl, rfl, rfl, rfl, rfl, (v.count c).setStation_flag .member, fun _ hf =>
    State.setStation_flag_of_flag (s := v.count c) .member hf⟩

/-- The attempt with a match: MEMBER, with the matching slot shown and the reference's mode record (R115, R116). -/
theorem State.attemptAlign_matched {s : State} {t : Tile} {m : StatusMsg} {p : Stamp} {d : Nat} {i : Fin 5} {l : Word}
    (hrun : s.timing.running = true) (hp : m.stamp = some p)
    (hbest : bestMatch (matchesOf s.cfg (s.store.slots.shifted (m.wfn - s.timing.wfn)) p) = some (d, i, l)) :
    (s.attemptAlign t m).member = { s.member with station := .member, holdTimer := 0 }
    ∧ (s.attemptAlign t m).store.slots = showSlot (s.store.slots.shifted (m.wfn - s.timing.wfn)) i
    ∧ (s.attemptAlign t m).store.dropPending = s.store.dropPending
    ∧ (s.attemptAlign t m).modes = { s.modes with record := ⟨m.mode, m.effective, t⟩ }
    ∧ (s.attemptAlign t m).counters = s.counters.bump .joins
    ∧ (s.attemptAlign t m).timing = { s.timing with wfn := m.wfn }
    ∧ (s.attemptAlign t m).flag .stateChange = true
    ∧ ∀ f, s.flag f = true → (s.attemptAlign t m).flag f = true := by
  obtain ⟨htiming, hslots, hdrop, hsame⟩ := State.adopt_parts m.wfn hrun
  have hcfg : (s.adopt m.wfn).cfg = s.cfg := by simp
  obtain ⟨v, hv, hvslots, hvdrop, hvsame⟩ :=
    State.align_some (s := s.adopt m.wfn) (p := p) (by rw [hslots, hcfg]; exact hbest)
  have hattempt : s.attemptAlign t m = (v.count .joins).enterMember ⟨m.mode, m.effective, t⟩ := by
    simp only [State.attemptAlign, hp, Option.bind_some, hv]
  have hmember : v.member = s.member := (hvsame .member (by decide)).trans (hsame .member (by decide))
  have hmodes : v.modes = s.modes := (hvsame .modes (by decide)).trans (hsame .modes (by decide))
  have hcounters : v.counters = s.counters := (hvsame .counters (by decide)).trans (hsame .counters (by decide))
  have hport : v.port = s.port := (hvsame .port (by decide)).trans (hsame .port (by decide))
  have hvtiming : v.timing = (s.adopt m.wfn).timing := hvsame .timing (by decide)
  obtain ⟨emember, estore, emodes, ecounters, etiming, eset, ekept⟩ :=
    v.enterMember_parts .joins ⟨m.mode, m.effective, t⟩
  rw [hattempt]
  exact ⟨by rw [emember, hmember], by rw [estore, hvslots, hslots], by rw [estore, hvdrop, hdrop], by rw [emodes, hmodes],
    by rw [ecounters, hcounters], by rw [etiming, hvtiming, htiming], eset,
    fun f hf => ekept f (State.flag_of_port_eq hport hf)⟩

/-- The attempt without a match: only the adoption is left, and the miss is counted (R115). -/
theorem State.attemptAlign_missed {s : State} {t : Tile} {m : StatusMsg} (hrun : s.timing.running = true)
    (hmiss : ∀ p, m.stamp = some p →
      bestMatch (matchesOf s.cfg (s.store.slots.shifted (m.wfn - s.timing.wfn)) p) = none) :
    (s.attemptAlign t m).member = s.member
    ∧ (s.attemptAlign t m).store.slots = s.store.slots.shifted (m.wfn - s.timing.wfn)
    ∧ (s.attemptAlign t m).store.dropPending = s.store.dropPending
    ∧ (s.attemptAlign t m).modes = s.modes
    ∧ (s.attemptAlign t m).counters = s.counters.bump .alignMisses
    ∧ (s.attemptAlign t m).timing = { s.timing with wfn := m.wfn }
    ∧ ∀ f, s.flag f = true → (s.attemptAlign t m).flag f = true := by
  obtain ⟨htiming, hslots, hdrop, hsame⟩ := State.adopt_parts m.wfn hrun
  have hcfg : (s.adopt m.wfn).cfg = s.cfg := by simp
  have hnone : m.stamp.bind (s.adopt m.wfn).align = none := by
    rw [Option.bind_eq_none_iff]
    exact fun p hp => State.align_none (by rw [hslots, hcfg]; exact hmiss p hp)
  have hattempt : s.attemptAlign t m = (s.adopt m.wfn).count .alignMisses := by
    simp only [State.attemptAlign, hnone]
  rw [hattempt]
  exact ⟨hsame .member (by decide), hslots, hdrop, hsame .modes (by decide),
    congrArg (Counters.bump · .alignMisses) (hsame .counters (by decide)), htiming,
    fun f hf => State.flag_of_port_eq (s := s) (hsame .port (by decide)) hf⟩

/-- The evaluation where the reference is a peer (R114, R115). -/
theorem State.evaluate_peer {s : State} {t : Tile} {m : StatusMsg} (ht : s.member.reference = some t)
    (hm : s.referenceMsg = some m) : s.evaluate =
    if (if s.member.station = .member ∧ s.checkFails m = true then s.realign else s).member.station = .joining
        ∧ (if s.member.station = .member ∧ s.checkFails m = true then s.realign else s).locked = true
        ∧ (if s.member.station = .member ∧ s.checkFails m = true then s.realign else s).usable = true
    then (if s.member.station = .member ∧ s.checkFails m = true then s.realign else s).attemptAlign t m
    else (if s.member.station = .member ∧ s.checkFails m = true then s.realign else s) := by
  simp only [State.evaluate, ht, hm]

/-- Without a reference a wall is founded where the wait for one is over (R117). -/
theorem State.evaluate_none {s : State} (h : s.member.reference = none) :
    s.evaluate = if s.foundDue = true then s.foundWall else s := by
  simp only [State.evaluate, h]

/-- A station that is its own reference has nothing to check (R114). -/
theorem State.evaluate_own {s : State} {t : Tile} (ht : s.member.reference = some t) (hm : s.referenceMsg = none) :
    s.evaluate = s := by
  simp only [State.evaluate, ht, hm]

/-! ## The cut-off's evaluation (R113 to R117, R133) -/

theorem State.takeReference_member (s : State) : s.takeReference.member = { s.member with
    reference := s.findReference,
    quiet := if s.findReference = none ∧ s.member.station = .joining ∧ s.timing.lock = .locked
      then min 511 (s.member.quiet + 1) else 0 } := by
  simp only [State.takeReference, State.locked, beq_iff_eq]
  cases s.findReference <;> simp

theorem State.holdRepair_keeps (s : State) : s.holdRepair.modes.record = s.modes.record
    ∧ s.holdRepair.modes.queue = s.modes.queue ∧ s.holdRepair.modes.outstanding = s.modes.outstanding := by
  simp only [State.holdRepair]
  split <;> simp

/-- What the evaluation leaves alone, whatever it finds. -/
structure EvaluationAside (s t : State) : Prop where
  windowOpen : t.bus.windowOpen = s.bus.windowOpen
  statusPlace : t.bus.statusPlace = s.bus.statusPlace
  sending : ∀ d, s.bus.sending = some d → d.kind ≠ .mode → t.bus.sending = some d
  reference : t.member.reference = s.member.reference
  quiet : t.member.quiet = s.member.quiet
  frameSet : t.member.frameSet = s.member.frameSet
  dropped : t.counters.get .statusDropped = s.counters.get .statusDropped

theorem EvaluationAside.refl (s : State) : EvaluationAside s s := ⟨rfl, rfl, fun _ h _ => h, rfl, rfl, rfl, rfl⟩

theorem EvaluationAside.trans {s t u : State} (h : EvaluationAside s t) (k : EvaluationAside t u) :
    EvaluationAside s u :=
  ⟨k.windowOpen.trans h.windowOpen, k.statusPlace.trans h.statusPlace,
    fun d hd hkind => k.sending d (h.sending d hd hkind) hkind, k.reference.trans h.reference, k.quiet.trans h.quiet,
    k.frameSet.trans h.frameSet, k.dropped.trans h.dropped⟩

theorem EvaluationAside.enters {s v : State} {c : Counter} (r : ModeRecord) (hc : c ≠ .statusDropped)
    (hbus : v.bus = s.bus) (hmember : v.member = s.member) (hcounters : v.counters = s.counters) :
    EvaluationAside s ((v.count c).enterMember r) := by
  obtain ⟨emember, -, -, ecounters, -⟩ := v.enterMember_parts c r
  have ebus : ((v.count c).enterMember r).bus = s.bus := by simpa using hbus
  refine ⟨by rw [ebus], by rw [ebus], fun d hd _ => by rw [ebus, hd], by rw [emember, hmember], by rw [emember, hmember],
    by rw [emember, hmember], ?_⟩
  rw [ecounters, hcounters, Counters.get_bump, if_neg (Ne.symm hc)]

theorem State.attemptAlign_aside (s : State) (t : Tile) (m : StatusMsg) : EvaluationAside s (s.attemptAlign t m) := by
  simp only [State.attemptAlign]
  split
  · next v hv =>
    obtain ⟨p, -, hp⟩ := Option.bind_eq_some_iff.mp hv
    have hframe := State.align_frame hp
    refine .enters _ (by decide) ?_ ?_ ?_ <;> simp [hframe]
  · exact ⟨by simp, by simp, fun d hd _ => by simpa using hd, by simp, by simp, by simp,
      by simp [State.count, Counters.get_bump]⟩

theorem State.foundWall_aside (s : State) : EvaluationAside s s.foundWall := by
  simp only [State.foundWall]
  split
  · next v hv =>
    have hframe := State.foundPicture_frame hv
    refine .enters _ (by decide) ?_ ?_ ?_ <;> simp [hframe]
  · exact .refl s

theorem State.outOfMember_bus (s : State) : s.outOfMember.bus.windowOpen = s.bus.windowOpen
    ∧ s.outOfMember.bus.statusPlace = s.bus.statusPlace
    ∧ ∀ d, s.bus.sending = some d → d.kind ≠ .mode → s.outOfMember.bus.sending = some d := by
  simp only [State.outOfMember]
  have hleave : ∀ u : State, u.bus = s.bus → u.modeLeave.bus.windowOpen = s.bus.windowOpen
      ∧ u.modeLeave.bus.statusPlace = s.bus.statusPlace
      ∧ ∀ d, s.bus.sending = some d → d.kind ≠ .mode → u.modeLeave.bus.sending = some d := by
    intro u hu
    obtain ⟨hstatus, -, hsending⟩ := u.modeLeave_places
    have hwindow := (u.withdrawMode_aside .abandoned).windowOpen
    rw [hu] at hstatus hsending hwindow
    exact ⟨hwindow, hstatus, hsending⟩
  split
  · exact hleave _ (by simp)
  · exact hleave _ rfl

/-- A MEMBER's quiet count is 0 when it is realigned, and a realign leaves it there. -/
theorem State.realign_aside {s : State} (hquiet : s.member.station = .member → s.member.quiet = 0) :
    EvaluationAside s s.realign := by
  by_cases h : s.member.station = .member
  · obtain ⟨hmember, -⟩ := State.realign_parts h
    have hcounter := State.realign_counter (s := s) (c := .statusDropped) (by decide)
    have hrealign : s.realign = (((((s.setStation .joining).setMember { s.member with station := .joining, quiet := 0
      }).count .realigns).raise .realign)).outOfMember := if_pos h
    obtain ⟨hwindow, hstatus, hsending⟩ := State.outOfMember_bus ((((s.setStation .joining).setMember
      { s.member with station := .joining, quiet := 0 }).count .realigns).raise .realign)
    rw [← hrealign] at hwindow hstatus hsending
    exact ⟨hwindow, hstatus, hsending, by rw [hmember], by rw [hmember, hquiet h], by rw [hmember], hcounter⟩
  · rw [State.realign_other h]
    exact .refl s

theorem State.evaluate_aside {s : State} (hquiet : s.member.station = .member → s.member.quiet = 0) :
    EvaluationAside s s.evaluate :=
  State.evaluate_keeps (P := EvaluationAside s) (.refl s) (fun _ => State.realign_aside hquiet)
    (fun u t m hu _ _ _ _ => hu.trans (u.attemptAlign_aside t m)) (fun _ => s.foundWall_aside)

theorem State.holdRepair_aside (s : State) : EvaluationAside s s.holdRepair :=
  ⟨by simp, by simp, fun d hd _ => by simpa using hd, by simp, by simp, by simp, by simp⟩

theorem DeadlineAside.evaluation {s t : State} (h : DeadlineAside s t) : EvaluationAside s t :=
  ⟨h.windowOpen, h.statusPlace, h.sending, by rw [h.member], by rw [h.member], by rw [h.member], by rw [h.counters]⟩

/-- What the cut-off leaves of the bus and of the frame's own record of membership (R37, R112, R113). -/
theorem State.cutoffEvaluation_aside (s : State) : EvaluationAside s.takeReference s.cutoffEvaluation := by
  refine (State.evaluate_aside fun h => ?_).trans (State.holdRepair_aside _)
  have hmember := s.takeReference_member
  have hstation : s.member.station = .member := by simpa [hmember] using h
  rw [hmember]
  simp [hstation]

/-! ## The reference is taken from what the deadline leaves alone -/

theorem State.findReference_congr {s t : State} (hmember : t.member = s.member) (htile : t.tile = s.tile) :
    t.findReference = s.findReference := by
  simp only [State.findReference, State.memberMessages, hmember, htile]

theorem State.cutoffDue_iff (s : State) : s.cutoffDue = true ↔ s.timing.running = true ∧ s.timing.line = s.cfg.scut
    ∧ s.timing.pixel = 0 ∧ s.bus.windowOpen = true := by
  simp only [State.cutoffDue, Bool.and_eq_true, atLine_iff, and_assoc]

/-- A cut-off from the station as the command finds it: the evaluation, in turn with the deadline, which leaves what
membership and the store hold alone. -/
structure CutoffWork (u v : State) (b : Bool) : Prop where
  before : DeadlineAside u.closeWindow v
  after : DeadlineAside v.cutoffEvaluation (u.cutoff b)

theorem CutoffWork.member {u v : State} {b : Bool} (h : CutoffWork u v b) : v.member = u.member := by
  rw [h.before.member]; simp

theorem CutoffWork.timing {u v : State} {b : Bool} (h : CutoffWork u v b) : v.timing = u.timing := by
  rw [h.before.timing]; simp

theorem CutoffWork.store {u v : State} {b : Bool} (h : CutoffWork u v b) : v.store = u.store := by
  rw [h.before.store]; simp

theorem CutoffWork.cfg {u v : State} {b : Bool} (h : CutoffWork u v b) : v.cfg = u.cfg := by
  rw [State.cfg, h.before.loader]; simp [State.cfg]

theorem CutoffWork.usable {u v : State} {b : Bool} (h : CutoffWork u v b) : v.usable = u.usable := by
  simp only [State.usable, h.cfg, h.before.input, State.closeWindow_frame]

theorem CutoffWork.tile {u v : State} {b : Bool} (h : CutoffWork u v b) : v.tile = u.tile := by
  simp only [State.tile, h.cfg]

theorem CutoffWork.record {u v : State} {b : Bool} (h : CutoffWork u v b) : v.modes.record = u.modes.record := by
  rw [h.before.record]; simp

theorem CutoffWork.flag {u v : State} {b : Bool} (h : CutoffWork u v b) (f : Event) : v.flag f = u.flag f :=
  State.flag_of_flags (by rw [h.before.flags]; simp) f

theorem CutoffWork.counter {u v : State} {b : Bool} (h : CutoffWork u v b) {c : Counter} (hc : c ≠ .statusDropped) :
    v.counters.get c = u.counters.get c := by
  obtain ⟨-, -, -, -, -, -, hcounter⟩ := u.closeWindow_bus
  rw [h.before.counters, hcounter c hc]

theorem CutoffWork.findReference {u v : State} {b : Bool} (h : CutoffWork u v b) :
    v.findReference = u.findReference := State.findReference_congr h.member h.tile

theorem exec_statusCutoff {w : Span} {s u : State} (hu : s.pass w = u) (hdue : u.cutoffDue = true) (b : Bool) :
    exec (.statusCutoff w b) s = .next (u.cutoff b).settle :=
  event_at (due := State.cutoffDue) (effect := State.cutoff b) hu hdue

/-- Settles O29. -/
theorem statusWindowOpensAndCloses : Obligations.StatusWindowOpensAndCloses := by
  unfold Obligations.StatusWindowOpensAndCloses
  refine ⟨fun w s u hu hrun hline hpixel hclosed => ?opens, State.cutoffDue_iff, fun w b s u hu hdue => ?closes⟩
  case opens =>
    have hdue : u.openDue = true := by
      rw [State.openDue, Bool.and_eq_true, State.atLine_iff]
      exact ⟨⟨hrun, hline, hpixel⟩, by simp [hclosed]⟩
    have hopened : u.windowOpened.bus = { u.bus with windowOpen := true }
        ∧ u.windowOpened.member = { u.member with frameSet := [], reference := none } := ⟨rfl, rfl⟩
    have hsame : SameBut [.bus, .member, .counters] u u.openWindow
        ∧ u.openWindow.bus.windowOpen = true
        ∧ u.openWindow.member = { u.member with frameSet := [], reference := none } := by
      rw [State.openWindow_eq]
      obtain ⟨hwindow, hkept⟩ := u.windowOpened.placeStatus_keeps u.windowOpened.makeStatus
      split
      · refine ⟨fun p hp => ?_, hwindow, hkept .member (by decide)⟩
        have hp' := hkept p (fun h => hp (by simp at h ⊢; tauto))
        cases p <;> simp_all [Part.same, State.windowOpened]
      · exact ⟨fun p hp => by cases p <;> simp_all [Part.same, State.windowOpened], rfl, rfl⟩
    obtain ⟨hrest, hwindow, hmember⟩ := hsame
    refine ⟨_, event_at (due := State.openDue) (effect := State.openWindow) hu hdue, ?_, ?_, fun hnone => ?_,
      fun m hwall hlatch hactive hm => ?_, ?_, SameBut.settle (fun p hp => ?_) (by simp)⟩
    · simpa using hwindow
    · simpa using hmember
    · have hplain : u.openWindow = u.windowOpened := by
        rw [State.openWindow_eq]
        rcases hnone with hoff | hrefused
        · exact if_neg (by simp [hoff])
        · rw [State.placeStatus_refused (s := u.windowOpened) _ hrefused, ite_self]
      simp only [hplain, State.settle_bus, State.settle_frame]
      exact ⟨rfl, rfl, rfl⟩
    · have hmade : u.windowOpened.makeStatus = m := by
        rw [hm]
        simp only [State.makeStatus, beq_iff_eq]
        rfl
      have hplaced : u.openWindow = u.windowOpened.placeStatus m := by
        rw [State.openWindow_eq, if_pos hwall, hmade]
      simp only [hplaced, State.settle_bus, State.settle_frame]
      refine ⟨fun hempty => ?_, fun hfull hwaits => ?_, fun d hfull hd hkind => ?_⟩
      · rw [State.placeStatus_empty (s := u.windowOpened) m hlatch hactive hempty]
        exact ⟨rfl, rfl, rfl⟩
      · rw [State.placeStatus_waiting (s := u.windowOpened) m hlatch hactive hfull hwaits]
        exact ⟨rfl, rfl, rfl⟩
      · rw [State.placeStatus_held (s := u.windowOpened) m hlatch hactive hfull hd hkind]
        exact ⟨rfl, rfl, rfl⟩
    · rw [State.settle_slots, show u.openWindow.store = u.store from hrest .store (by decide)]
    · exact hrest p (fun h => hp (by simp at h ⊢; tauto))
  case closes =>
    obtain ⟨v, hbefore, hafter⟩ := u.cutoff_turns b
    have hwork : CutoffWork u v b := ⟨hbefore, hafter⟩
    have hall := (v.cutoffEvaluation_aside).trans hafter.evaluation
    have htaken := v.takeReference_member
    obtain ⟨hwindow, hsending, -, hempty, hkept, hdropped, -⟩ := u.closeWindow_bus
    refine ⟨_, exec_statusCutoff hu hdue b, ?_, fun h => ?_, fun h => ?_, ?_, ?_, ?_, ?_,
      SameBut.settle (fun p hp => ?_) (by simp)⟩
    · rw [State.settle_bus, hall.windowOpen]
      simpa [hbefore.windowOpen] using hwindow
    · rw [State.settle_bus, hall.statusPlace]
      simpa [hbefore.statusPlace] using hempty h
    · obtain ⟨d, hd, hkind⟩ := u.sendingStatus_iff.mp h
      have hd' := hbefore.sending d (hsending.trans hd) (by simp [hkind])
      have hd'' := hall.sending d (by simpa using hd') (by simp [hkind])
      simp only [State.settle_bus, hall.statusPlace, State.takeReference_frame, hbefore.statusPlace, hkept h, hd'', hd]
      exact ⟨trivial, trivial⟩
    · simp only [State.settle_frame, hall.dropped, State.takeReference_frame, hbefore.counters, hdropped]
    · simp only [State.settle_frame, hall.reference, htaken, hwork.findReference]
    · simp only [State.settle_frame, hall.quiet, htaken, hwork.findReference, hwork.member, hwork.timing]
    · rcases u.cutoff_timing b with h | ⟨-, n, h⟩
      · simp only [State.settle_frame, h]
      · simp only [State.settle_frame, h]
    · cases p <;> simp_all [Part.same]

end Sys2Proof.Machine
end

