-- ==== Sys2Proof/Proofs/CutoffDecides.lean ====
section
/-! O31 to O34, what the cut-off decides: the alignment of a joiner, the check of a MEMBER, the founding of a wall, and
the mode controller's repair and deadline (R113 to R117, R126, R133). -/

namespace Sys2Proof.Machine

/-! ## The reference's message -/

theorem State.referenceMsg_peer {s : State} {r : Tile} {m : StatusMsg} (hr : s.member.reference = some r)
    (hpeer : ¬(s.member.station = .member ∧ r = s.tile))
    (hm : s.memberMessages.find? (fun e => e.1 == r) = some (r, m)) : s.referenceMsg = some m := by
  simp only [State.referenceMsg, hr, if_neg hpeer, hm]
  rfl

theorem State.referenceMsg_own {s : State} (hr : s.member.reference = some s.tile) (h : s.member.station = .member) :
    s.referenceMsg = none := by
  simp only [State.referenceMsg, hr]
  exact if_pos ⟨h, trivial⟩

theorem CutoffWork.reference {u v : State} {b : Bool} (h : CutoffWork u v b) :
    v.takeReference.member.reference = u.findReference := by
  rw [State.takeReference_member, h.findReference]

theorem CutoffWork.station {u v : State} {b : Bool} (h : CutoffWork u v b) :
    v.takeReference.member.station = u.member.station := by
  rw [State.takeReference_member, h.member]

theorem CutoffWork.memberMessages {u v : State} {b : Bool} (h : CutoffWork u v b) :
    v.takeReference.memberMessages = u.memberMessages := by
  simp only [State.memberMessages, State.takeReference_member, h.member]

theorem CutoffWork.referenceMsg {u v : State} {b : Bool} {r : Tile} {m : StatusMsg} (h : CutoffWork u v b)
    (hr : u.findReference = some r) (hpeer : ¬(u.member.station = .member ∧ r = u.tile))
    (hm : u.memberMessages.find? (fun e => e.1 == r) = some (r, m)) : v.takeReference.referenceMsg = some m := by
  have htile : v.takeReference.tile = u.tile := by simp only [State.tile, State.takeReference_frame, h.cfg]
  exact State.referenceMsg_peer (h.reference.trans hr) (by rwa [h.station, htile]) (by rwa [h.memberMessages])

theorem State.settle_dropPending (s : State) : s.settle.store.dropPending = s.store.dropPending :=
  (State.settle_settled s).2.2.2.2.1

/-- What the cut-off leaves, from what its evaluation leaves. -/
structure CutoffLeaves (e t : State) : Prop where
  member : t.member = e.member
  store : t.store = e.store
  timing : t.timing = e.timing
  counters : t.counters = e.counters
  record : t.modes.record = e.modes.record
  queue : e.modes.queue = [] → t.modes.queue = []
  repair : t.modes.repair = e.holdRepair.modes.repair
  flag : ∀ f, t.flag f = e.flag f

theorem CutoffWork.leaves {u v : State} {b : Bool} (h : CutoffWork u v b) :
    CutoffLeaves v.takeReference.evaluate (u.cutoff b) := by
  have hafter := h.after
  obtain ⟨hrecord, hqueue, -⟩ := v.takeReference.evaluate.holdRepair_keeps
  have hevaluation : v.cutoffEvaluation = v.takeReference.evaluate.holdRepair := rfl
  rw [hevaluation] at hafter
  exact ⟨hafter.member.trans (by simp), hafter.store.trans (by simp), hafter.timing.trans (by simp),
    hafter.counters.trans (by simp), hafter.record.trans hrecord, fun hq => hafter.queue (hqueue.trans hq), hafter.repair,
    fun f => (State.flag_of_flags hafter.flags f).trans (State.flag_of_port (by simp) f)⟩

theorem State.cutoff_work (u : State) (b : Bool) : ∃ v, CutoffWork u v b :=
  (u.cutoff_turns b).imp fun _ h => ⟨h.1, h.2⟩

/-- The counters that the evaluation can change are, before it, those of the station as the command finds it. -/
theorem CutoffWork.takenCounter {u v : State} {b : Bool} (h : CutoffWork u v b) {c : Counter} (hc : c ≠ .statusDropped) :
    v.takeReference.counters.get c = u.counters.get c := by
  simp only [State.takeReference_frame, h.counter hc]

/-- What the reference leaves of the station as the command finds it. -/
theorem CutoffWork.taken {u v : State} {b : Bool} (h : CutoffWork u v b) : v.takeReference.timing = u.timing
    ∧ v.takeReference.store = u.store ∧ v.takeReference.cfg = u.cfg ∧ v.takeReference.locked = u.locked
    ∧ v.takeReference.usable = u.usable ∧ v.takeReference.modes.record = u.modes.record := by
  have htiming : v.takeReference.timing = u.timing := by simp only [State.takeReference_frame, h.timing]
  refine ⟨htiming, by simp only [State.takeReference_frame, h.store], by simp only [State.takeReference_frame, h.cfg],
    by simp only [State.locked, htiming], ?_, by simp only [State.takeReference_frame, h.record]⟩
  simpa only [State.usable, State.takeReference_frame] using h.usable

/-- Settles O31. -/
theorem joinerAligns : Obligations.JoinerAligns := by
  unfold Obligations.JoinerAligns
  refine ⟨fun x i j => ?shown, fun w b s u r m x hu hdue hstation hlock husable hr hm hx => ?aligns⟩
  case shown =>
    by_cases hj : j = i
    · subst hj
      simp
    · have hother := showSlot_get_other x hj
      by_cases hshow : (x.get j).state = .showing <;> simp [hj, hother, hshow]
  case aligns =>
    obtain ⟨v, hwork⟩ := u.cutoff_work b
    have hleaves := hwork.leaves
    have hslots : x = u.store.slots.shifted (m.wfn - u.timing.wfn) := hx
    obtain ⟨htiming, hstore, hcfg, hlocked, husable', -⟩ := hwork.taken
    have hrun : v.takeReference.timing.running = true := by
      rw [htiming]
      exact (u.cutoffDue_iff.mp hdue).1
    have hmsg := hwork.referenceMsg hr (by simp [hstation]) hm
    have hevaluate : v.takeReference.evaluate = v.takeReference.attemptAlign r m := by
      have hstation' := hwork.station.trans hstation
      have hnot : ¬(v.takeReference.member.station = .member ∧ v.takeReference.checkFails m = true) := by
        rw [hstation']
        exact fun h => nomatch h.1
      have hlocks : v.takeReference.locked = true := by rw [hlocked, State.locked, hlock]; rfl
      rw [State.evaluate_peer (hwork.reference.trans hr) hmsg, if_neg hnot,
        if_pos ⟨hstation', hlocks, husable'.trans husable⟩]
    have hshift : v.takeReference.store.slots.shifted (m.wfn - v.takeReference.timing.wfn) = x := by
      rw [hslots, hstore, htiming]
    rw [hevaluate] at hleaves
    refine ⟨_, exec_statusCutoff hu hdue b, ?_, fun p d i l hp hbest => ?_, fun hmiss => ?_⟩
    · simp only [State.settle_frame, hleaves.timing, State.attemptAlign_timing, State.adopt_timing, if_pos hrun]
    · obtain ⟨hmember, hshown, -, hmodes, hcounters, -, hflag, -⟩ := State.attemptAlign_matched (t := r) hrun hp
        (by rw [hshift, hcfg]; exact hbest)
      simp only [State.settle_frame, State.settle_flag, State.settle_slots, hleaves.member, hleaves.store, hleaves.record,
        hleaves.counters, hleaves.flag, hmember, hshown, hmodes, hcounters, hshift]
      refine ⟨trivial, trivial, hflag, trivial, trivial, ?_⟩
      rw [Counters.get_bump, if_pos rfl, hwork.takenCounter (by decide)]
    · obtain ⟨hmember, hshown, -, -, hcounters, -⟩ := State.attemptAlign_missed (t := r) hrun
        (by rw [hshift, hcfg]; exact hmiss)
      simp only [State.settle_frame, State.settle_slots, hleaves.member, hleaves.store, hleaves.counters, hmember, hshown,
        hcounters, hshift]
      refine ⟨hwork.station.trans hstation, trivial, ?_⟩
      rw [Counters.get_bump, if_pos rfl, hwork.takenCounter (by decide)]

/-! ## The check of a MEMBER (R114) -/

theorem State.checkFails_iff (s : State) (m : StatusMsg) : s.checkFails m = true ↔
    ¬(m.wfn = s.timing.wfn ∧ ∃ a b, m.stamp = some a ∧ s.presented = some b ∧ stampsMatch s.cfg a b = true) := by
  simp only [State.checkFails, Bool.or_eq_true, bne_iff_ne]
  cases m.stamp with
  | none => simp
  | some a =>
    cases s.presented with
    | none => simp
    | some b =>
      by_cases hwfn : m.wfn = s.timing.wfn
      · by_cases hmatch : stampsMatch s.cfg a b = true <;> simp [hwfn, hmatch]
      · simp [hwfn]

theorem Slots.dropped_of_none {x : Slots} (h : x.first .chosen = none) :
    x.dropped = x.freeWhere (fun r => r.state == .showing) := by
  have hfind := Option.map_eq_none_iff.mp h
  simp only [Slots.dropped, hfind]
  rfl

theorem Slots.dropped_of_some {x : Slots} {k : Fin 5} (h : x.first .chosen = some k) :
    x.dropped = (x.freeWhere (fun r => r.state == .showing)).freeOlder (x.get k).lcs := by
  obtain ⟨⟨i, r⟩, hfind, hk⟩ := Option.map_eq_some_iff.mp h
  obtain ⟨rfl, -⟩ := (Slots.find?_eq_some_iff _ _ _ _).mp hfind
  simp only [Slots.dropped, hfind]
  rw [← show i = k from hk]
  rfl

/-- The slots after a drop-picture, one by one (R71). -/
theorem Slots.dropped_eq (x : Slots) : x.dropped = x.map (fun _ q =>
    if q.state = .showing ∨ (q.state = .ready ∧ ∃ k, x.first .chosen = some k ∧ later (x.get k).lcs q.lcs = true)
    then .free else q) := by
  refine Slots.ext_get fun i => ?_
  rw [Slots.get_map]
  rcases Option.eq_none_or_eq_some (x.first .chosen) with h | ⟨k, h⟩
  · simp [Slots.dropped_of_none h, h]
  · rw [Slots.dropped_of_some h]
    by_cases hshow : (x.get i).state = .showing <;> simp [Slots.freeOlder, hshow, h, Slot.free]

/-- The slots that a realign leaves (R102, R105). -/
def Slots.realigned (x : Slots) (holdframes : Nat) : Slots := x.map (fun _ q =>
  if holdframes = 0 ∧ (q.state = .showing ∨ (q.state = .ready ∧
      ∃ k, x.first .chosen = some k ∧ later (x.get k).lcs q.lcs = true)) then .free
  else q)

theorem Slots.realigned_zero (x : Slots) : x.realigned 0 = x.dropped := by
  rw [Slots.dropped_eq, Slots.realigned]
  simp only [true_and]

theorem Slots.realigned_pos {n : Nat} (x : Slots) (h : n ≠ 0) : x.realigned n = x := by
  refine Slots.ext_get fun i => ?_
  rw [Slots.realigned, Slots.get_map, if_neg (fun hc => h hc.1)]

theorem State.outOfMember_store (s : State) : s.outOfMember.store.slots = s.store.slots.realigned s.cfg.holdframes
    ∧ s.outOfMember.store.dropPending = (s.store.dropPending
      || decide (s.cfg.holdframes = 0 ∧ s.store.slots.first .chosen ≠ none)) := by
  by_cases h : s.cfg.holdframes = 0
  · have hout : s.outOfMember =
        ((s.setMember { s.member with holdTimer := s.cfg.holdframes }).dropPicture).modeLeave :=
      congrArg State.modeLeave (if_pos h)
    simp only [hout, State.modeLeave_frame, State.dropPicture_slots, State.dropPicture_dropPending,
      State.setMember_store, h, true_and, Slots.realigned_zero]
    refine congrArg (_ || ·) ?_
    cases s.store.slots.first .chosen <;> simp
  · have hout : s.outOfMember = (s.setMember { s.member with holdTimer := s.cfg.holdframes }).modeLeave :=
      congrArg State.modeLeave (if_neg h)
    simp only [hout, State.modeLeave_frame, State.setMember_store, Slots.realigned_pos _ h, true_and]
    simp [h]

theorem State.modeLeave_record (s : State) : s.modeLeave.modes.record = s.modes.record :=
  (s.withdrawMode_aside .abandoned).record

theorem State.outOfMember_record (s : State) : s.outOfMember.modes.record = s.modes.record := by
  simp only [State.outOfMember]
  split <;> simp [State.modeLeave_record]

/-- The store and the record that a realign leaves. -/
theorem State.realign_store {s : State} (h : s.member.station = .member) :
    s.realign.store.slots = s.store.slots.realigned s.cfg.holdframes
    ∧ s.realign.store.dropPending = (s.store.dropPending
      || decide (s.cfg.holdframes = 0 ∧ s.store.slots.first .chosen ≠ none))
    ∧ s.realign.modes.record = s.modes.record := by
  obtain ⟨hslots, hdrop⟩ := State.outOfMember_store ((((s.setStation .joining).setMember
    { s.member with station := .joining, quiet := 0 }).count .realigns).raise .realign)
  have hrecord := State.outOfMember_record ((((s.setStation .joining).setMember
    { s.member with station := .joining, quiet := 0 }).count .realigns).raise .realign)
  simp only [State.realign, if_pos h]
  exact ⟨hslots, hdrop, hrecord⟩

/-- Settles O32. -/
theorem memberChecksReference : Obligations.MemberChecksReference := by
  unfold Obligations.MemberChecksReference
  intro w b s u r m p q x y hu hdue hstation hr hne hm hp hq hx hy
  have hslots : x = u.store.slots.realigned u.cfg.holdframes := hx
  have hshifted : y = x.shifted (m.wfn - u.timing.wfn) := hy
  obtain ⟨v, hwork⟩ := u.cutoff_work b
  have hleaves := hwork.leaves
  obtain ⟨htiming, hstore, hcfg, hlocked, husable, hrecord⟩ := hwork.taken
  have hmember := hwork.station.trans hstation
  have hevaluate := State.evaluate_peer (hwork.reference.trans hr) (hwork.referenceMsg hr (fun h => hne h.2) hm)
  have hrun : v.takeReference.timing.running = true := by
    rw [htiming]
    exact (u.cutoffDue_iff.mp hdue).1
  have hquiet : v.takeReference.member.quiet = 0 := by
    rw [State.takeReference_member, hwork.findReference, hr]
    simp
  have hchecks : v.takeReference.checkFails m = true ↔ ¬(m.wfn = u.timing.wfn ∧ stampsMatch u.cfg p q = true) := by
    have hpresented : v.takeReference.presented = some q := by
      rw [State.presented, hstore]
      exact hq
    rw [State.checkFails_iff, htiming, hcfg, hp, hpresented]
    simp
  refine ⟨_, exec_statusCutoff hu hdue b, fun hfail => ?fails, fun hwfn hmatch => ?passes⟩
  case passes =>
    have hpass : ¬(v.takeReference.member.station = .member ∧ v.takeReference.checkFails m = true) :=
      fun h => hchecks.mp h.2 ⟨hwfn, hmatch⟩
    rw [if_neg hpass, if_neg (by rw [hmember]; exact fun h => nomatch h.1)] at hevaluate
    rw [hevaluate] at hleaves
    simp only [State.settle_frame, State.settle_slots, hleaves.member, hleaves.store, hleaves.timing, hleaves.record,
      hleaves.counters, hmember, hstore, htiming, hrecord, hwork.takenCounter (c := .realigns) (by decide)]
    exact ⟨trivial, trivial, trivial, trivial, trivial⟩
  case fails =>
    have hfails : v.takeReference.checkFails m = true :=
      hchecks.mpr fun h => hfail.elim (fun hw => hw h.1) (fun hs => by simp [h.2] at hs)
    have hrealigns : v.takeReference.member.station = .member ∧ v.takeReference.checkFails m = true := ⟨hmember, hfails⟩
    rw [if_pos hrealigns] at hevaluate
    obtain ⟨rmember, rqueue, rrealign, rchange, rcounters⟩ := State.realign_parts hmember
    obtain ⟨rslots, rdrop, rrecord⟩ := State.realign_store hmember
    have rtiming : v.takeReference.realign.timing = u.timing := by simp only [State.realign_frame, htiming]
    have rcfg : v.takeReference.realign.cfg = u.cfg := by simp only [State.realign_frame, hcfg]
    rw [hstore, hcfg, ← hslots] at rslots
    rw [hstore, hcfg] at rdrop
    rw [hrecord] at rrecord
    rw [hcfg] at rmember
    have rjoining : v.takeReference.realign.member.station = .joining := by rw [rmember]
    have rshift : v.takeReference.realign.store.slots.shifted (m.wfn - v.takeReference.realign.timing.wfn) = y := by
      rw [rslots, rtiming, hshifted]
    have rcount : ∀ c, c ≠ .statusDropped → v.takeReference.realign.counters.get c =
        if c = .realigns then satInc (u.counters.get c) else u.counters.get c := by
      intro c hc
      rw [rcounters, Counters.get_bump, hwork.takenCounter hc]
    by_cases hgo : u.timing.lock = .locked ∧ u.usable = true
    · obtain ⟨hlock, hinput⟩ := hgo
      have hready : v.takeReference.realign.member.station = .joining ∧ v.takeReference.realign.locked = true
          ∧ v.takeReference.realign.usable = true := by
        refine ⟨rjoining, by rw [State.locked, rtiming, hlock]; rfl, ?_⟩
        rw [← hinput, ← husable]
        simp only [State.usable, State.realign_frame]
      have rrun : v.takeReference.realign.timing.running = true := by rw [rtiming, ← htiming]; exact hrun
      rw [if_pos hready] at hevaluate
      rw [hevaluate] at hleaves
      cases hbest : bestMatch (matchesOf u.cfg y p) with
      | some found =>
        obtain ⟨d, i, l⟩ := found
        obtain ⟨amember, aslots, adrop, amodes, acounters, atiming, -, aflag⟩ := State.attemptAlign_matched (t := r) rrun hp
          (by rw [rshift, rcfg]; exact hbest)
        have acount : ∀ c, c ≠ .statusDropped → (v.takeReference.realign.attemptAlign r m).counters.get c =
            if c = .joins ∨ c = .realigns then satInc (u.counters.get c) else u.counters.get c := by
          intro c hc
          rw [acounters, Counters.get_bump, rcount c hc]
          cases c <;> simp
        have tqueue := hleaves.queue (by rw [amodes]; exact rqueue)
        simp only [State.settle_frame, State.settle_flag, State.settle_slots, State.settle_dropPending, hleaves.flag,
          hleaves.member, hleaves.store, hleaves.timing, hleaves.record, hleaves.counters]
        refine ⟨aflag _ rrealign, aflag _ rchange, by rw [acount _ (by decide)]; rfl, by simp [amember], tqueue,
          adrop.trans rdrop, fun hnot => ?_, fun _ _ => ⟨by rw [atiming, rtiming], fun d' i' l' hfound => ?_,
            fun hnone => nomatch hnone⟩⟩
        · rcases hnot with hnot | hnot
          · exact absurd hlock hnot
          · exact absurd hnot (by simp [hinput])
        · cases hfound
          refine ⟨by rw [amember], by rw [amember], by rw [aslots, rshift], by rw [amodes], ?_, ?_⟩
          · rw [acount _ (by decide)]
            rfl
          · rw [acount _ (by decide)]
            rfl
      | none =>
        obtain ⟨amember, aslots, adrop, amodes, acounters, atiming, aflag⟩ := State.attemptAlign_missed (t := r) rrun
          (fun p' hp' => by
            cases hp.symm.trans hp'
            rw [rshift, rcfg]
            exact hbest)
        have acount : ∀ c, c ≠ .statusDropped → (v.takeReference.realign.attemptAlign r m).counters.get c =
            if c = .alignMisses ∨ c = .realigns then satInc (u.counters.get c) else u.counters.get c := by
          intro c hc
          rw [acounters, Counters.get_bump, rcount c hc]
          cases c <;> simp
        have tqueue := hleaves.queue (by rw [amodes]; exact rqueue)
        simp only [State.settle_frame, State.settle_flag, State.settle_slots, State.settle_dropPending, hleaves.flag,
          hleaves.member, hleaves.store, hleaves.timing, hleaves.record, hleaves.counters]
        refine ⟨aflag _ rrealign, aflag _ rchange, by rw [acount _ (by decide)]; rfl, by simp [amember, rjoining], tqueue,
          adrop.trans rdrop, fun hnot => ?_, fun _ _ => ⟨by rw [atiming, rtiming], nofun, fun _ => ?_⟩⟩
        · rcases hnot with hnot | hnot
          · exact absurd hlock hnot
          · exact absurd hnot (by simp [hinput])
        · refine ⟨by rw [amember, rjoining], by rw [amember, rmember], by rw [amember, rmember], by rw [aslots, rshift],
            by rw [amodes, rrecord], ?_, ?_⟩
          · rw [acount _ (by decide)]
            rfl
          · rw [acount _ (by decide)]
            rfl
    · have hstays : ¬(v.takeReference.realign.member.station = .joining ∧ v.takeReference.realign.locked = true
          ∧ v.takeReference.realign.usable = true) := by
        rintro ⟨-, hlock, hinput⟩
        refine hgo ⟨?_, ?_⟩
        · simpa only [State.locked, rtiming, beq_iff_eq] using hlock
        · rw [← husable, ← hinput]
          simp only [State.usable, State.realign_frame]
      rw [if_neg hstays] at hevaluate
      rw [hevaluate] at hleaves
      simp only [State.settle_frame, State.settle_flag, State.settle_slots, State.settle_dropPending, hleaves.flag,
        hleaves.member, hleaves.store, hleaves.timing, hleaves.record, hleaves.counters]
      refine ⟨rrealign, rchange, by rw [rcount _ (by decide)]; rfl, .inl rjoining, hleaves.queue rqueue, rdrop,
        fun _ => ⟨rjoining, by rw [rmember], by rw [rmember], rslots, rtiming, rrecord⟩,
        fun hlock hinput => absurd ⟨hlock, hinput⟩ hgo⟩

/-! ## The founding of a wall (R117) -/

theorem State.foundDue_iff (s : State) : s.foundDue = true ↔ s.member.station = .joining ∧ s.timing.lock = .locked
    ∧ s.usable = true ∧ s.cfg.foundwait + 2 * s.tile.toNat ≤ s.member.quiet := by
  simp [State.foundDue, State.locked, and_assoc]

/-- Founding is due with the quiet frame of this cut-off counted. -/
theorem State.takeReference_foundDue {s : State} (hr : s.findReference = none) : s.takeReference.foundDue = true ↔
    s.member.station = .joining ∧ s.timing.lock = .locked ∧ s.usable = true
    ∧ s.cfg.foundwait + 2 * s.tile.toNat ≤ min 511 (s.member.quiet + 1) := by
  have husable : s.takeReference.usable = s.usable := by simp only [State.usable, State.takeReference_frame]
  have htile : s.takeReference.tile = s.tile := by simp only [State.tile, State.takeReference_frame]
  rw [State.foundDue_iff, State.takeReference_member, husable, htile, hr]
  simp only [State.takeReference_frame, true_and]
  refine and_congr_right fun hstation => and_congr_right fun hlock => and_congr_right fun _ => ?_
  rw [if_pos ⟨hstation, hlock⟩]

theorem State.foundingDue_iff (u : State) : u.foundingDue = true ↔ u.cutoffDue = true ∧ u.findReference = none
    ∧ u.member.station = .joining ∧ u.timing.lock = .locked ∧ u.usable = true
    ∧ u.cfg.foundwait + 2 * u.tile.toNat ≤ min 511 (u.member.quiet + 1)
    ∧ ∃ j, (u.store.slots.get j).state = .ready := by
  have hready : u.store.slots.ready.isEmpty = false ↔ ∃ j, (u.store.slots.get j).state = .ready := by
    rw [Bool.eq_false_iff, ne_eq, List.isEmpty_iff, List.eq_nil_iff_forall_not_mem]
    simp [Slots.mem_ready]
  have hreference : u.closeWindow.findReference = u.findReference :=
    State.findReference_congr (by simp) (by simp [State.tile])
  have husable : u.closeWindow.usable = u.usable := by simp only [State.usable, State.closeWindow_frame]
  have htile : u.closeWindow.tile = u.tile := by simp only [State.tile, State.closeWindow_frame]
  simp only [State.foundingDue, Bool.and_eq_true, Option.isNone_iff_eq_none, Bool.not_eq_true', State.takeReference_frame,
    State.closeWindow_frame, hready, State.takeReference_member, hreference, and_assoc]
  refine and_congr_right fun _ => and_congr_right fun hnone => ?_
  rw [State.takeReference_foundDue (hreference.trans hnone), husable, htile]
  simp only [State.closeWindow_frame, and_assoc]

/-- The picture of a founding: the newest READY slot is shown, the others go (R70). -/
theorem State.foundPicture_some {s : State} {i : Fin 5} {q : Slot} (h : newest s.store.slots.ready = some (i, q)) :
    ∃ v, s.foundPicture = some v ∧ v.store.slots = (showSlot s.store.slots i).freeWhere (fun r => r.state == .ready)
    ∧ SameBut [.store, .picture] s v := by
  simp only [State.foundPicture, h]
  refine ⟨_, rfl, by simp, fun p hp => ?_⟩
  cases p <;> simp_all [Part.same]

/-- Settles O33. -/
theorem foundingShowsNewest : Obligations.FoundingShowsNewest := by
  unfold Obligations.FoundingShowsNewest
  refine ⟨State.foundingDue_iff, fun w s u i q hu hfound hi hq hlatest => ?_⟩
  obtain ⟨hdue, hnone, hstation, hlock, husable, hwait, -⟩ := u.foundingDue_iff.mp hfound
  obtain ⟨v, hwork⟩ := u.cutoff_work true
  have hleaves := hwork.leaves
  obtain ⟨htiming, hstore, hcfg, -⟩ := hwork.taken
  have htile : v.takeReference.tile = u.tile := by simp only [State.tile, hcfg]
  have hfounds : v.takeReference.foundDue = true := by
    rw [State.takeReference_foundDue (hwork.findReference.trans hnone), hwork.member, hwork.timing, hwork.usable,
      hwork.cfg, hwork.tile]
    exact ⟨hstation, hlock, husable, hwait⟩
  have hnewest : newest u.store.slots.ready = some (i, q) := by
    refine newest_eq ((Slots.mem_ready _ _ _).mpr ⟨hi.symm, hq⟩) fun a ha hne => ?_
    obtain ⟨j, r⟩ := a
    obtain ⟨rfl, hr⟩ := (Slots.mem_ready _ _ _).mp ha
    exact hlatest j (fun hji => hne (by rw [hji, hi])) hr
  obtain ⟨x, hx, hslots, hsame⟩ := State.foundPicture_some (s := v.takeReference) (by rw [hstore]; exact hnewest)
  have hwall : v.takeReference.evaluate =
      (x.count .foundings).enterMember ⟨v.takeReference.cfg.initialMode, v.takeReference.timing.wfn,
        v.takeReference.tile⟩ := by
    rw [State.evaluate_none (hwork.reference.trans hnone), if_pos hfounds]
    simp only [State.foundWall, hx]
  obtain ⟨emember, estore, emodes, ecounters, etiming, eflag, -⟩ := x.enterMember_parts .foundings
    ⟨v.takeReference.cfg.initialMode, v.takeReference.timing.wfn, v.takeReference.tile⟩
  rw [hwall] at hleaves
  have hget : ∀ j, (u.cutoff true).store.slots.get j =
      if ((showSlot u.store.slots i).get j).state = .ready then .free else (showSlot u.store.slots i).get j := by
    intro j
    rw [hleaves.store, estore, hslots, hstore, Slots.get_freeWhere]
    simp
  refine ⟨_, event_at (due := State.foundingDue) (effect := State.cutoff true) hu hfound,
    exec_statusCutoff hu hdue true, ?_⟩
  simp only [State.settle_frame, State.settle_flag, State.settle_slots, hleaves.flag, hleaves.member, hleaves.timing,
    hleaves.record, hleaves.counters, hget]
  refine ⟨by rw [emember], by rw [emember], eflag, by rw [emodes, htiming, hcfg, htile], ?_, ?_, ?_, fun j hj => ?_⟩
  · rw [etiming, show x.timing = v.takeReference.timing from hsame .timing (by decide), htiming]
  · rw [ecounters, Counters.get_bump, if_pos rfl,
      show x.counters = v.takeReference.counters from hsame .counters (by decide), hwork.takenCounter (by decide)]
  · simp [hi]
  · have hother := showSlot_get_other u.store.slots hj
    rw [hother]
    by_cases hshow : (u.store.slots.get j).state = .showing
    · simp [hshow, Slot.free]
    · by_cases hready : (u.store.slots.get j).state = .ready
      · have hnext := hlatest j hj hready
        rw [← hi] at hnext
        simp [hready, hnext, Slot.free]
      · simp [hshow, hready]

/-! ## The repair of a mode (R133) -/

theorem repairCandidate_iff (held : ModeRecord) (wfn : Word) (own r : Tile) (m : StatusMsg) :
    repairCandidate held wfn own (r, m) = true ↔ m.wfn = wfn ∧ later m.effective wfn = false
      ∧ (later m.effective held.effective = true
        ∨ (m.effective = held.effective ∧ m.mode ≠ held.mode ∧ r.toNat < own.toNat)) := by
  simp [repairCandidate, and_assoc]

/-- A candidate's effective WFN is not ahead, where the held record's is not. -/
theorem near_of_repairCandidate {held : ModeRecord} {wfn : Word} {own : Tile} {e : Tile × StatusMsg}
    (hheld : Near wfn held.effective) (h : repairCandidate held wfn own e = true) : Near wfn e.2.effective := by
  obtain ⟨r, m⟩ := e
  obtain ⟨-, hahead, hnewer⟩ := (repairCandidate_iff held wfn own r m).mp h
  rcases hnewer with hlater | ⟨heq, -⟩
  · rw [← Bool.not_eq_true, later_iff] at hahead
    rw [later_iff] at hlater
    simp only [Near] at hheld ⊢
    have h1 := wfn.isLt
    have h2 := held.effective.isLt
    have h3 := m.effective.isLt
    simp only [BitVec.toNat_sub] at hahead hlater hheld ⊢
    omega
  · rw [show (r, m).2.effective = held.effective from heq]
    exact hheld

theorem bestCandidate_mem {l : List (Tile × StatusMsg)} {x : Tile × StatusMsg} (h : bestCandidate l = some x) :
    x ∈ l := by
  induction l generalizing x with
  | nil => cases h
  | cons e rest ih =>
    simp only [bestCandidate] at h
    cases hb : bestCandidate rest with
    | none =>
      rw [hb] at h
      cases h
      exact List.mem_cons_self
    | some b =>
      rw [hb] at h
      simp only at h
      split at h
      · cases h
        exact List.mem_cons_self
      · cases h
        exact List.mem_cons_of_mem _ (ih hb)

theorem bestCandidate_eq_none (l : List (Tile × StatusMsg)) : bestCandidate l = none ↔ l = [] := by
  cases l with
  | nil => simp [bestCandidate]
  | cons e rest =>
    simp only [bestCandidate]
    cases bestCandidate rest with
    | none => simp
    | some b => simp only; split <;> simp

/-- None of the candidates is newer than the best one, and of those as new none has a lower tile (R133). -/
theorem bestCandidate_best {n : Word} {l : List (Tile × StatusMsg)} {x : Tile × StatusMsg}
    (hnear : ∀ e ∈ l, Near n e.2.effective) (h : bestCandidate l = some x) :
    ∀ e ∈ l, later e.2.effective x.2.effective = false
      ∧ (e.2.effective = x.2.effective → x.1.toNat ≤ e.1.toNat) := by
  induction l generalizing x with
  | nil => cases h
  | cons a rest ih =>
    have ha := hnear a List.mem_cons_self
    have hrest : ∀ e ∈ rest, Near n e.2.effective := fun e he => hnear e (List.mem_cons_of_mem _ he)
    simp only [bestCandidate] at h
    cases hb : bestCandidate rest with
    | none =>
      rw [hb] at h
      cases h
      rw [(bestCandidate_eq_none rest).mp hb]
      intro e he
      rw [List.mem_singleton.mp he]
      exact ⟨later_irrefl _, fun _ => le_rfl⟩
    | some b =>
      rw [hb] at h
      have hbnear := hrest b (bestCandidate_mem hb)
      have hbest := ih hrest hb
      simp only at h
      split at h
      · next hbetter =>
        cases h
        simp only [Bool.or_eq_true, Bool.and_eq_true, beq_iff_eq, decide_eq_true_eq] at hbetter
        intro e he
        rcases List.mem_cons.mp he with rfl | he
        · exact ⟨later_irrefl _, fun _ => le_rfl⟩
        · obtain ⟨hnot, htie⟩ := hbest e he
          have henear := hrest e he
          rw [later_eq_false_iff_age henear hbnear] at hnot
          rw [later_eq_false_iff_age henear ha]
          rw [later_iff_age ha hbnear] at hbetter
          rcases hbetter with hage | ⟨heq, htile⟩
          · refine ⟨by omega, fun heq => ?_⟩
            rw [heq] at hnot
            omega
          · rw [heq]
            refine ⟨hnot, fun hsame => ?_⟩
            have := htie hsame
            omega
      · next hbetter =>
        cases h
        simp only [Bool.or_eq_true, Bool.and_eq_true, beq_iff_eq, decide_eq_true_eq, not_or, not_and,
          Bool.not_eq_true] at hbetter
        intro e he
        rcases List.mem_cons.mp he with rfl | he
        · exact ⟨hbetter.1, fun heq => by have := hbetter.2 heq; omega⟩
        · exact hbest e he

/-- The repair that a MEMBER holds after the cut-off. -/
theorem State.holdRepair_repair {s : State} (h : s.member.station = .member) : s.holdRepair.modes.repair =
    (bestCandidate (s.memberMessages.filter (repairCandidate s.modes.record s.timing.wfn s.tile))).map
      (fun e => ⟨e.2.mode, e.2.effective, e.1⟩) := by
  simp only [State.holdRepair, if_pos h]
  rfl

/-- A MEMBER that is its own reference, or whose check against a peer passes, is left as it was (R114). -/
theorem CutoffWork.stays {u v : State} {b : Bool} (h : CutoffWork u v b) (hstation : u.member.station = .member)
    (hpass : u.findReference = some u.tile
      ∨ (∃ r m, u.findReference = some r ∧ r ≠ u.tile
          ∧ u.memberMessages.find? (fun e => e.1 == r) = some (r, m) ∧ u.checkFails m = false)) :
    v.takeReference.evaluate = v.takeReference := by
  have hmember := h.station.trans hstation
  obtain ⟨htiming, hstore, hcfg, -⟩ := h.taken
  rcases hpass with hown | ⟨r, m, hr, hne, hm, hcheck⟩
  · have htile : v.takeReference.tile = u.tile := by simp only [State.tile, hcfg]
    have href := h.reference.trans hown
    exact State.evaluate_own href (State.referenceMsg_own (htile ▸ href) hmember)
  · have hsame : v.takeReference.checkFails m = u.checkFails m := by
      simp only [State.checkFails, State.presented, htiming, hstore, hcfg]
    have hpasses : ¬(v.takeReference.member.station = .member ∧ v.takeReference.checkFails m = true) := by
      rw [hsame, hcheck]
      exact fun hc => Bool.false_ne_true hc.2
    rw [State.evaluate_peer (h.reference.trans hr) (h.referenceMsg hr (fun hc => hne hc.2) hm), if_neg hpasses,
      if_neg (by rw [hmember]; exact fun hc => nomatch hc.1)]

/-- What the deadline of a SET_MODE makes of the station at the cut-off of frame t - 2 (R126). -/
structure SetModeLate (u t : State) (o : Outstanding) : Prop where
  waiting : u.bus.sendingKind ≠ some .mode → t.bus.modePlace = none ∧ t.modes.outstanding = none
    ∧ t.port.result = .late ∧ t.port.inFlight ≠ some .setMode
    ∧ t.modes.queue = u.modes.queue.filter (fun e => !(e.target == o.target && e.origin == u.tile))
  sending : ∀ d, u.bus.sending = some d → d.kind = .mode →
    t.bus.sending = some { d with withdraw := true } ∧ t.bus.modePlace = u.bus.modePlace
    ∧ t.modes.outstanding = some { o with ending := .late } ∧ t.port.result = u.port.result

theorem State.modeDeadline_late {s : State} {o : Outstanding} (ho : s.modes.outstanding = some o)
    (hending : o.ending = .none) (htarget : s.timing.wfn = o.target - 2) : SetModeLate s s.modeDeadline o where
  waiting := State.modeDeadline_waiting ho hending htarget
  sending d hd hkind := by
    rw [State.modeDeadline_sending ho hending htarget hd hkind]
    exact ⟨rfl, rfl, rfl, rfl⟩

/-- The parts of the station that the deadline reads and changes. -/
structure SameModes (s t : State) : Prop where
  outstanding : t.modes.outstanding = s.modes.outstanding
  queue : t.modes.queue = s.modes.queue
  port : t.port = s.port
  sending : t.bus.sending = s.bus.sending
  modePlace : t.bus.modePlace = s.bus.modePlace
  tile : t.tile = s.tile

theorem SetModeLate.of_before {s s' t : State} {o : Outstanding} (h : SameModes s s') (k : SetModeLate s' t o) :
    SetModeLate s t o where
  waiting hs := by
    rw [← h.queue, ← h.tile]
    exact k.waiting (by simpa only [Bus.sendingKind, h.sending] using hs)
  sending d hd hkind := by
    rw [← h.modePlace, ← h.port]
    exact k.sending d (h.sending.trans hd) hkind

theorem SetModeLate.of_after {s t t' : State} {o : Outstanding} (k : SetModeLate s t o) (h : SameModes t t') :
    SetModeLate s t' o where
  waiting hs := by
    rw [h.modePlace, h.outstanding, h.port, h.queue]
    exact k.waiting hs
  sending d hd hkind := by
    rw [h.sending, h.modePlace, h.outstanding, h.port]
    exact k.sending d hd hkind

theorem State.closeWindow_sameModes (s : State) : SameModes s s.closeWindow := by
  obtain ⟨-, hsending, hplace, -⟩ := s.closeWindow_bus
  exact ⟨by simp, by simp, by simp, hsending, hplace, by simp [State.tile]⟩

/-- A cut-off that leaves the MEMBER as it was leaves what the deadline reads as well. -/
theorem State.settledEvaluation_sameModes {s : State} (h : s.takeReference.evaluate = s.takeReference) :
    SameModes s s.cutoffEvaluation := by
  have heval : s.cutoffEvaluation = s.takeReference.holdRepair := congrArg State.holdRepair h
  obtain ⟨-, hqueue, hout⟩ := s.takeReference.holdRepair_keeps
  rw [heval]
  exact ⟨hout.trans (by simp), hqueue.trans (by simp), by simp, by simp, by simp, by simp [State.tile]⟩

/-- At the cut-off of frame t - 2 the SET_MODE of such a MEMBER ends, whichever comes first. -/
theorem State.cutoff_late {u : State} (b : Bool) {o : Outstanding}
    (hstays : ∀ v, CutoffWork u v b → v.takeReference.evaluate = v.takeReference) (ho : u.modes.outstanding = some o)
    (hending : o.ending = .none) (htarget : u.timing.wfn = o.target - 2) : SetModeLate u (u.cutoff b) o := by
  have hclosed := u.closeWindow_sameModes
  cases b with
  | true =>
    have hwork : CutoffWork u u.closeWindow.modeDeadline true := ⟨State.modeDeadline_aside _, .refl _⟩
    have hlate := State.modeDeadline_late (hclosed.outstanding.trans ho) hending (by simpa using htarget)
    exact (hlate.of_before hclosed).of_after (State.settledEvaluation_sameModes (hstays _ hwork))
  | false =>
    have hwork : CutoffWork u u.closeWindow false := ⟨.refl _, State.modeDeadline_aside _⟩
    have hevaluated := State.settledEvaluation_sameModes (hstays _ hwork)
    have heval : u.closeWindow.cutoffEvaluation = u.closeWindow.takeReference.holdRepair :=
      congrArg State.holdRepair (hstays _ hwork)
    have hlate := State.modeDeadline_late (s := u.closeWindow.cutoffEvaluation)
      (hevaluated.outstanding.trans (hclosed.outstanding.trans ho)) hending (by rw [heval]; simpa using htarget)
    exact (hlate.of_before hevaluated).of_before hclosed

/-- Settles O34. -/
theorem cutoffModeWork : Obligations.CutoffModeWork := by
  unfold Obligations.CutoffModeWork
  refine ⟨repairCandidate_iff, State.checkFails_iff, fun w b s u hu hdue => ?_⟩
  obtain ⟨v, hwork⟩ := u.cutoff_work b
  have hleaves := hwork.leaves
  refine ⟨_, exec_statusCutoff hu hdue b, fun hmember => ?repairs, fun hmember hpass => ?stays⟩
  case repairs =>
    have hon : v.takeReference.evaluate.member.station = .member := by
      rw [← hleaves.member]
      simpa using hmember
    have hmessages : v.takeReference.evaluate.memberMessages = u.memberMessages := by
      have hframe := v.cutoffEvaluation_aside.frameSet
      rw [State.cutoffEvaluation, show v.takeReference.evaluate.holdRepair.member = v.takeReference.evaluate.member by simp] at hframe
      rw [← hwork.memberMessages, State.memberMessages, State.memberMessages, hframe]
    have htile : v.takeReference.evaluate.tile = u.tile := by
      simp only [State.tile, State.evaluate_frame, hwork.taken.2.2.1]
    have hrepair := State.holdRepair_repair hon
    rw [hmessages, htile, ← hleaves.repair, ← hleaves.record, ← hleaves.timing] at hrepair
    simp only [State.settle_frame]
    have hmem : ∀ e, e ∈ u.memberMessages.filter
        (repairCandidate (u.cutoff b).modes.record (u.cutoff b).timing.wfn u.tile) ↔
        (e ∈ u.member.frameSet ∧ e.2.isMember = true)
        ∧ repairCandidate (u.cutoff b).modes.record (u.cutoff b).timing.wfn u.tile e = true := by
      intro e
      simp only [State.memberMessages, List.mem_filter]
    refine ⟨fun hnone e he hm => ?_, fun x hx => ?_, fun x e hx hheld he hm hc => ?_⟩
    · rw [hnone] at hrepair
      have hempty := (bestCandidate_eq_none _).mp (Option.map_eq_none_iff.mp hrepair.symm)
      rw [← Bool.not_eq_true]
      intro hc
      have hin := (hmem e).mpr ⟨⟨he, hm⟩, hc⟩
      rw [hempty] at hin
      exact absurd hin List.not_mem_nil
    · rw [hx] at hrepair
      obtain ⟨e, hbest, hxe⟩ := Option.map_eq_some_iff.mp hrepair.symm
      obtain ⟨⟨he, hm⟩, hc⟩ := (hmem e).mp (bestCandidate_mem hbest)
      exact ⟨e, he, hm, hc, hxe.symm⟩
    · rw [hx] at hrepair
      obtain ⟨y, hbest, rfl⟩ := Option.map_eq_some_iff.mp hrepair.symm
      exact bestCandidate_best (fun f hf => near_of_repairCandidate hheld ((hmem f).mp hf).2) hbest e
        ((hmem e).mpr ⟨⟨he, hm⟩, hc⟩)
  case stays =>
    have hstays : ∀ v, CutoffWork u v b → v.takeReference.evaluate = v.takeReference :=
      fun v hv => hv.stays hmember hpass
    obtain ⟨htiming, -, -, -, -, hrecord⟩ := hwork.taken
    rw [hstays v hwork] at hleaves
    simp only [State.settle_frame, State.settle_bus, hleaves.member, hleaves.timing, hleaves.record, htiming, hrecord]
    refine ⟨hwork.station.trans hmember, trivial, trivial, fun o ho hending htarget => ?_⟩
    have hlate := State.cutoff_late b hstays ho hending htarget
    exact ⟨hlate.waiting, hlate.sending⟩

end Sys2Proof.Machine
end

