-- ==== Sys2Proof/Proofs/Grants.lean ====
section
/-! O50 and O51, the grant of a slot, with its window check, and the timers of the input (R52, R64, R65). -/

namespace Sys2Proof.Machine

/-! ## The window check (R64) -/

/-- The rebase advances the LCS by 11 as often as brings the gap into 1 to 11 (R64). -/
theorem rebasedLcs_steps (n : Word) (q : Slot) : ∃ k : Nat, rebasedLcs n q = q.lcs + BitVec.ofNat 16 (11 * k)
    ∧ 11 * k + (n - rebasedLcs n q).toNat = (if (n - q.lcs).toNat = 0 then 65536 else (n - q.lcs).toNat)
    ∧ (n - rebasedLcs n q).toNat = rebasedGap (n - q.lcs).toNat := by
  have hn := n.isLt
  have hq := q.lcs.isLt
  have hgap : (n - rebasedLcs n q).toNat = rebasedGap (n - q.lcs).toNat := by
    obtain ⟨hlow, hhigh⟩ := rebasedGap_range (n - q.lcs).toNat
    rw [rebasedLcs, sub_sub_cancel, BitVec.toNat_ofNat]
    omega
  generalize hg : (n - q.lcs).toNat = g at hgap
  have hrange := rebasedGap_range g
  refine ⟨((if g = 0 then 65536 else g) - 1) / 11, BitVec.eq_of_toNat_eq ?_, ?_, hgap⟩
  · rw [BitVec.toNat_sub] at hg hgap
    rw [BitVec.toNat_add, BitVec.toNat_ofNat]
    have hv := (rebasedLcs n q).isLt
    simp only [rebasedGap] at hgap hrange
    split at hgap <;> rename_i h0 <;> simp only [h0, if_true, if_false] <;> omega
  · rw [hgap, rebasedGap]
    split <;> omega

theorem Slots.get_rebased {s : State} {n : Word} {r : Slot} (h : s.store.slots.Rebased n r) (j : Fin 5) :
    (s.windowChecked n).store.slots.get j =
      if (s.store.slots.get j).state = .showing then { s.store.slots.get j with lcs := rebasedLcs n r }
      else if (s.store.slots.get j).state = .ready
          ∧ (later (s.store.slots.get j).lcs (rebasedLcs n r) = false
            ∨ gapInWindow (n - (s.store.slots.get j).lcs).toNat = false) then .free
      else s.store.slots.get j := by
  have hpledged := (h.2.2 j).1
  simp only [State.windowChecked, State.staleCheck, State.rebase_of_rebased h, State.setSlots_slots, State.count_frame,
    Slots.get_freeWhere, Slots.get_map]
  by_cases hshow : (s.store.slots.get j).state = .showing
  · simp [hshow]
  · by_cases hready : (s.store.slots.get j).state = .ready
    · by_cases hlater : later (s.store.slots.get j).lcs (rebasedLcs n r) = true
      · simp [hready, hlater, hpledged, -BitVec.toNat_sub]
      · simp [hready, hlater, Slot.free]
    · simp [hshow, hready]

theorem Slots.get_notRebased {s : State} {n : Word} (h : ∀ r, ¬s.store.slots.Rebased n r) (j : Fin 5) :
    (s.windowChecked n).store.slots.get j =
      if (s.store.slots.get j).state = .ready ∧ (s.store.slots.get j).pledged = false
          ∧ gapInWindow (n - (s.store.slots.get j).lcs).toNat = false then .free
      else s.store.slots.get j := by
  simp only [State.windowChecked, State.staleCheck, State.rebase_of_not_rebased h, State.setSlots_slots,
    Slots.get_freeWhere, Bool.and_eq_true, Bool.not_eq_true', beq_iff_eq, and_assoc]

theorem State.windowChecked_rebases (s : State) (n : Word) :
    (∀ r, s.store.slots.Rebased n r →
      (s.windowChecked n).counters.get .rebases = satInc (s.counters.get .rebases))
    ∧ ((∀ r, ¬s.store.slots.Rebased n r) → (s.windowChecked n).counters.get .rebases = s.counters.get .rebases)
    ∧ ∀ c, c ≠ .rebases → (s.windowChecked n).counters.get c = s.counters.get c := by
  refine ⟨fun r h => ?_, fun h => ?_, fun c hc => ?_⟩
  · simp [State.windowChecked, State.staleCheck, State.rebase_of_rebased h, State.count, Counters.get_bump]
  · simp [State.windowChecked, State.staleCheck, State.rebase_of_not_rebased h]
  · by_cases hr : ∃ r, s.store.slots.Rebased n r
    · obtain ⟨r, hr⟩ := hr
      simp [State.windowChecked, State.staleCheck, State.rebase_of_rebased hr, State.count, Counters.get_bump, hc]
    · push Not at hr
      simp [State.windowChecked, State.staleCheck, State.rebase_of_not_rebased hr]

theorem Slots.not_rebased_iff {x : Slots} {n : Word} (h : x.showing = none
    ∨ (∃ q, x.showing = some q ∧ gapInWindow (n - q.lcs).toNat = true)
    ∨ ∃ j, (x.get j).pledged = true ∨ (x.get j).state = .chosen) : ∀ r, ¬x.Rebased n r := by
  rintro r ⟨hshow, hgap, hbusy⟩
  rcases h with h | ⟨q, hq, hin⟩ | ⟨j, hpledged | hchosen⟩
  · simp [h] at hshow
  · cases hq.symm.trans hshow
    rw [hgap] at hin; cases hin
  · simp [(hbusy j).1] at hpledged
  · exact (hbusy j).2 hchosen

/-- After the window check every unpledged READY slot is 1 to 11 frames old (R64). -/
theorem State.windowChecked_fresh {s : State} {n : Word} {j : Fin 5}
    (hready : ((s.windowChecked n).store.slots.get j).state = .ready)
    (hpledged : ((s.windowChecked n).store.slots.get j).pledged = false) :
    gapInWindow (n - ((s.windowChecked n).store.slots.get j).lcs).toNat = true := by
  simp only [State.windowChecked, State.staleCheck, State.setSlots_slots, Slots.get_freeWhere] at hready hpledged ⊢
  split at hready
  · cases hready
  · next hkept =>
    rw [if_neg hkept] at hpledged ⊢
    simp only [Bool.and_eq_true, Bool.not_eq_true', beq_iff_eq, not_and, Bool.not_eq_false] at hkept
    exact hkept ⟨hready, hpledged⟩

/-! ## The grant (R65) -/

/-- The slot a grant takes: the lowest FREE slot, else the oldest unpledged READY slot (R65). -/
theorem grantChoice_some {x : Slots} {n : Word} {i : Fin 5} (h : grantChoice x = some i)
    (hnear : ∀ j, (x.get j).state = .ready → (x.get j).pledged = false → Near n (x.get j).lcs) :
    ((x.get i).state = .free ∧ ∀ j, j < i → (x.get j).state ≠ .free)
    ∨ ((∀ j, (x.get j).state ≠ .free) ∧ (x.get i).state = .ready ∧ (x.get i).pledged = false
      ∧ ∀ j, (x.get j).state = .ready → (x.get j).pledged = false → later (x.get i).lcs (x.get j).lcs = false) := by
  have hin : ∀ j, (j, x.get j) ∈ x.ready.filter (fun e => !e.2.pledged)
      ↔ (x.get j).state = .ready ∧ (x.get j).pledged = false := by
    simp [Slots.mem_ready]
  simp only [grantChoice] at h
  split at h
  · next j hj =>
    cases h
    exact .inl ((Slots.first_eq_some_iff _ _ _).mp hj)
  · next hnone =>
    obtain ⟨⟨j, r⟩, hr, rfl⟩ := Option.map_eq_some_iff.mp h
    have hmem := List.mem_filter.mp (pickBy_mem hr)
    obtain rfl : r = x.get j := ((Slots.mem_ready _ _ _).mp hmem.1).1
    have hj := (hin j).mp (pickBy_mem hr)
    have hall : SlotsNear n (x.ready.filter (fun e => !e.2.pledged)) := by
      rintro ⟨m, q⟩ hq
      obtain rfl : q = x.get m := ((Slots.mem_ready _ _ _).mp (List.mem_filter.mp hq).1).1
      exact hnear m ((hin m).mp hq).1 ((hin m).mp hq).2
    have hold := oldest_not_later hall hr
    exact .inr ⟨(Slots.first_eq_none_iff _ _).mp hnone, hj.1, hj.2,
      fun k hready hfree => hold (k, x.get k) ((hin k).mpr ⟨hready, hfree⟩)⟩

theorem grantChoice_none {x : Slots} (h : grantChoice x = none) (j : Fin 5) :
    (x.get j).state ≠ .free ∧ ((x.get j).state = .ready → (x.get j).pledged = true) := by
  simp only [grantChoice] at h
  split at h
  · cases h
  · next hnone =>
    refine ⟨(Slots.first_eq_none_iff _ _).mp hnone j, fun hready => ?_⟩
    by_contra hfree
    have hmem : (j, x.get j) ∈ x.ready.filter (fun e => !e.2.pledged) := by
      simpa [Slots.mem_ready, hready] using hfree
    rw [pickBy_eq_none.mp (Option.map_eq_none_iff.mp h)] at hmem
    cases hmem

/-- A grant counts the READY slot it overwrites, and no other counter moves after the window check (R65). -/
theorem State.grant_counters {s : State} {n : Word} {st : Stamp} {i : Fin 5}
    (h : grantChoice (s.windowChecked n).store.slots = some i) (c : Counter) :
    (s.grant n st).1.counters.get c =
      if ((s.windowChecked n).store.slots.get i).state = .ready ∧ c = .slotsOverwritten then
        satInc ((s.windowChecked n).counters.get c)
      else (s.windowChecked n).counters.get c := by
  simp only [State.windowChecked] at h ⊢
  simp only [State.grant, h]
  by_cases hready : (((s.rebase n).staleCheck n).store.slots.get i).state = .ready
  · by_cases hc : c = .slotsOverwritten <;> simp [hready, hc, State.count, Counters.get_bump]
  · simp [hready]

theorem State.grant_sameBut (s : State) (n : Word) (st : Stamp) : SameBut [.store, .counters] s (s.grant n st).1 := by
  intro p hp
  cases p <;> simp_all [Part.same]

theorem State.windowChecked_near {s : State} {n : Word} (j : Fin 5)
    (hready : ((s.windowChecked n).store.slots.get j).state = .ready)
    (hpledged : ((s.windowChecked n).store.slots.get j).pledged = false) :
    Near n ((s.windowChecked n).store.slots.get j).lcs := by
  have hgap := State.windowChecked_fresh hready hpledged
  simp only [gapInWindow, Bool.and_eq_true, decide_eq_true_eq] at hgap
  unfold Near
  omega

/-- The counter of the rebases after a grant is that of the window check. -/
theorem State.grant_rebases (s : State) (n : Word) (st : Stamp) :
    (s.grant n st).1.counters.get .rebases = (s.windowChecked n).counters.get .rebases := by
  rcases Option.eq_none_or_eq_some (grantChoice (s.windowChecked n).store.slots) with h | ⟨i, h⟩
  · rw [State.grant_none h]
  · rw [State.grant_counters h, if_neg (by simp)]

/-- Settles O50. -/
theorem grantTakesSlot : Obligations.GrantTakesSlot := by
  intro s n st t o ht
  obtain ⟨rfl, rfl⟩ : (s.grant n st).1 = t ∧ (s.grant n st).2 = o := by simp [ht]
  obtain ⟨hcounted, hnot, hother⟩ := s.windowChecked_rebases n
  refine ⟨(s.windowChecked n).store.slots, ⟨fun q hq hgap hbusy => ?_, fun h => ?_⟩, fun i hi => ?_, fun hnone => ?_,
    s.grant_sameBut n st⟩
  · have hrebased : s.store.slots.Rebased n q := ⟨hq, hgap, hbusy⟩
    obtain ⟨k, hk, hsum, hmod⟩ := rebasedLcs_steps n q
    have hrange := rebasedGap_range (n - q.lcs).toNat
    rw [← hmod] at hrange
    exact ⟨rebasedLcs n q, k, hk, hsum, hmod, hrange.1, hrange.2, (s.grant_rebases n st).trans (hcounted q hrebased),
      Slots.get_rebased hrebased⟩
  · have hrebased := Slots.not_rebased_iff h
    exact ⟨(s.grant_rebases n st).trans (hnot hrebased), Slots.get_notRebased hrebased⟩
  · rcases Option.eq_none_or_eq_some (grantChoice (s.windowChecked n).store.slots) with h | ⟨k, h⟩
    · rw [State.grant_none h] at hi
      cases hi
    · obtain ⟨hnumber, hslots⟩ := State.grant_some (t := st) h
      obtain rfl : k = i := Option.some.inj (hnumber.symm.trans hi)
      have hcount := State.grant_counters (st := st) h .slotsOverwritten
      refine ⟨by simp [hslots, Slots.get_modify], fun j hj => by simp [hslots, Slots.get_modify, hj], ?_⟩
      rcases grantChoice_some h State.windowChecked_near with ⟨hfree, hlow⟩ | ⟨hfree, hready, hrest⟩
      · exact .inl ⟨hfree, hlow, by simp [hcount, hfree, hother]⟩
      · exact .inr ⟨hfree, hready, hrest.1, hrest.2, by simp [hcount, hready, hother]⟩
  · rcases Option.eq_none_or_eq_some (grantChoice (s.windowChecked n).store.slots) with h | ⟨k, h⟩
    · rw [State.grant_none h]
      exact ⟨rfl, hother _ (by simp), grantChoice_none h⟩
    · rw [(State.grant_some h).1] at hnone
      cases hnone

/-! ## What leaves the write FIFO alone -/

/-- What waits to be written, and whether a transfer is in progress. -/
def Store.writing (x : Store) : List WritePixel × Bool := (x.writeFifo, x.transfer.isSome)

theorem Store.writing_eq_iff {x y : Store} :
    y.writing = x.writing ↔ y.writeFifo = x.writeFifo ∧ y.transfer.isSome = x.transfer.isSome := Prod.mk_inj

@[simp] theorem State.nameRow_writing (s : State) (j : Nat) : (s.nameRow j).store.writing = s.store.writing := by
  simp only [State.nameRow]
  split <;> rfl

@[simp] theorem State.emptyReader_writing (s : State) : s.emptyReader.store.writing = s.store.writing := by
  rw [Store.writing_eq_iff]
  refine ⟨rfl, ?_⟩
  simp only [State.emptyReader, State.setStore_store]
  rcases Option.eq_none_or_eq_some s.store.transfer with h | ⟨x, h⟩
  · rw [h]
    rfl
  · cases x <;> rw [h] <;> rfl

theorem State.slotChanged_writing (s : State) : s.slotChanged.store.writing = s.store.writing := by
  simp only [State.slotChanged]
  repeat' split
  all_goals simp

theorem State.dropPicture_writing (s : State) : s.dropPicture.store.writing = s.store.writing := by
  obtain ⟨d, ⟨-, h⟩ | ⟨-, h⟩⟩ := s.dropPicture_cases
  · rw [h]
    rfl
  · rw [h, State.slotChanged_writing]
    rfl

theorem State.outOfMember_writing (s : State) : s.outOfMember.store.writing = s.store.writing := by
  simp only [State.outOfMember, State.modeLeave_frame]
  split
  · exact State.dropPicture_writing _
  · rfl

theorem State.inputLost_writing (s : State) : s.inputLost.store.writing = s.store.writing := by
  cases h : s.member.station <;> simp [State.inputLost, h, State.outOfMember_writing]

/-- The end of a command takes from the head of the write FIFO at most. -/
theorem State.settle_writeFifo (s : State) : ∀ y ∈ s.settle.store.writeFifo, y ∈ s.store.writeFifo := by
  intro y hy
  rw [State.settle_store, State.arbitrate_eq] at hy
  split at hy
  · simp only [Store.granted] at hy
    split at hy
    · exact hy
    · split at hy
      · simp only [advanceFetch] at hy
        split at hy <;> exact hy
      · split at hy
        · cases hw : writeTransfer s.store.writeFifo with
          | none => simpa [hw] using hy
          | some r =>
            rw [hw] at hy
            simp only [writeTransfer] at hw
            split at hw
            · cases hw
            · cases hw
              exact List.mem_of_mem_drop hy
        · exact hy
  · exact hy

/-! ## Loss of the input (R49, R58, R99) -/

/-- The input at an expiry, before the membership hears of it (R43, R46, R49, R58). -/
def State.signalGone (s : State) : State :=
  let t := s.setInput { s.input with
    state := .noSignal, record := .zero, count := .zero, heldVs := none, candidate := none, agreement := 0,
    stable := none, hs := s.input.hs.forget, vs := s.input.vs.forget }
  if s.input.state = .stable then (t.raise .inputChange).abandonCapture else t

theorem State.loseSignal_eq (s : State) : s.loseSignal = s.signalGone.inputLost := by
  have husable : s.signalGone.usable = false := by
    simp only [State.signalGone]
    split <;> rfl
  exact (if_neg (by rw [husable]; exact Bool.false_ne_true) : s.signalGone.reportInput = s.signalGone.inputLost)

@[simp] theorem State.signalGone_frame (s : State) : s.signalGone.bus = s.bus ∧ s.signalGone.member = s.member
    ∧ s.signalGone.cfg = s.cfg ∧ s.signalGone.counters = s.counters ∧ s.signalGone.timing = s.timing
    ∧ s.signalGone.ballot = s.ballot := by
  simp only [State.signalGone]
  split <;> simp

/-- In STABLE the FILLING slot is freed, and its pixels leave the write FIFO (R58). -/
theorem State.signalGone_stable {s : State} (h : s.input.state = .stable) :
    s.signalGone.flag .inputChange = true ∧ s.signalGone.input.progress = none
    ∧ s.signalGone.store.slots.first .filling = none
    ∧ s.signalGone.store.writing =
      (s.store.writeFifo.filter (fun y => (s.store.slots.get y.slot).state != .filling), s.store.transfer.isSome) := by
  simp only [State.signalGone, if_pos h]
  refine ⟨(State.flag_of_port (State.abandonCapture_frame _).2.2.2.2.2.2.2.2.1 _).trans (State.flag_raise _ _), rfl, ?_,
    rfl⟩
  rw [Slots.first_eq_none_iff]
  intro i
  by_cases hi : (s.store.slots.get i).state = .filling <;>
    simp [State.abandonCapture, State.freeFilling, Slots.get_freeWhere, hi, Slot.free]

theorem State.signalGone_other {s : State} (h : s.input.state ≠ .stable) : s.signalGone.store = s.store := by
  simp only [State.signalGone, if_neg h]
  rfl

theorem State.inputLost_flag_of_flag {s : State} {e : Event} (h : s.flag e = true) : s.inputLost.flag e = true := by
  have hset := State.setStation_flag_of_flag .detached h
  simp only [State.inputLost]
  split
  · exact (State.flag_of_flags (by simp) e).trans hset
  · exact (State.flag_of_flags (by simp) e).trans hset
  · exact h

/-- A station that loses its input leaves the wall (R99, R104). -/
theorem State.inputLost_wall {s : State} (h : s.member.station = .joining ∨ s.member.station = .member) :
    LeftWall .inputLost s.member.announced s.bus s.inputLost.bus
    ∧ (s.member.station = .member → s.inputLost.modes.queue = []) := by
  have hwall := (s.setStation .detached).announceLeave_leftWall .inputLost
  rcases h with h | h
  · simp only [State.inputLost, h]
    exact ⟨by simpa using hwall, fun hm => by cases hm⟩
  · simp only [State.inputLost, h]
    refine ⟨?_, fun _ => rfl⟩
    simp only [State.outOfMember]
    split
    · exact LeftWall.modeLeave (by simpa using hwall)
    · exact LeftWall.modeLeave (by simpa using hwall)

theorem State.inputLost_progress_slots (s : State) (h : s.store.slots.first .filling = none) :
    s.inputLost.store.slots.first .filling = none := by
  rw [Slots.first_eq_none_iff] at h ⊢
  intro i hi
  rcases (Thinned.inputLost (s := s) (.of_eq rfl rfl)).slot i with ⟨hfree, -⟩ | ⟨hsame, -⟩
  · rw [hfree] at hi
    cases hi
  · exact h i (hsame.symm.trans hi)

/-- What waits to be written, while a transfer is in progress, is what waited before the end of the command. -/
theorem State.settle_writeFifo_busy {s : State} {l : List WritePixel} {busy : Bool} (h : s.store.writing = (l, busy))
    (hbusy : busy = true) : s.settle.store.writeFifo = l := by
  obtain ⟨hl, htransfer⟩ := Prod.mk_inj.mp h
  rw [State.settle_store_busy (by rw [← Option.isSome_iff_ne_none, htransfer, hbusy]), hl]

/-- Settles O51. -/
theorem inputTimerExpires : Obligations.InputTimerExpires := by
  intro w s u hu hactive hstate hexpired
  have hdue : u.inputTimerDue = true := by
    have hlimit : (decide (Config.hsLimit ≤ u.input.hsTimer) || decide (Config.vsLimit ≤ u.input.vsTimer)) = true :=
      Bool.or_eq_true_iff.mpr (hexpired.imp decide_eq_true decide_eq_true)
    have hneq : (u.input.state != .noSignal) = true := bne_iff_ne.mpr hstate
    rw [State.inputTimerDue, Input.timerExpired, hactive, hneq, hlimit]
    rfl
  refine event_exists hu hdue ?_
  have hinput : u.loseSignal.input = u.signalGone.input := by simp [State.loseSignal_eq]
  have hwriting : u.loseSignal.store.writing = u.signalGone.store.writing := by
    rw [State.loseSignal_eq, State.inputLost_writing]
  have hmember : u.loseSignal.member = u.member.detach u.cfg.holdframes := by
    simp [State.loseSignal_eq, State.inputLost_member]
  have hforget : u.signalGone.input = { u.input with
      state := .noSignal, record := .zero, count := .zero, heldVs := none, candidate := none, agreement := 0,
      stable := none, hs := u.input.hs.forget, vs := u.input.vs.forget, progress := u.signalGone.input.progress } := by
    simp only [State.signalGone]
    split <;> rfl
  have hparts : u.loseSignal.settle.input = u.signalGone.input := by simp [hinput]
  have hfield {α : Type} (f : Input → α) := congrArg f (hparts.trans hforget)
  refine ⟨hfield (·.state), hfield (·.record), hfield (·.count), hfield (·.heldVs), hfield (·.candidate),
    hfield (·.stable), hfield (·.lcs), hfield (·.hs.pulse), hfield (·.vs.pulse), hfield (·.hs.keptHigh),
    hfield (·.hs.keptLow), hfield (·.vs.keptHigh), hfield (·.vs.keptLow), fun hstable => ?stable,
    fun hother hbusy => ?other, by simp, by simp, by simp, fun hwall => ?wall, fun hdetached => ?detached⟩
  case stable =>
    obtain ⟨hflag, hprogress, hslots, hfifo⟩ := State.signalGone_stable hstable
    refine ⟨?_, by rw [hparts, hprogress], ?_, fun y hy => ?_, fun hbusy => ?_⟩
    · rw [State.settle_flag, State.loseSignal_eq]
      exact State.inputLost_flag_of_flag hflag
    · rw [State.settle_slots, State.loseSignal_eq]
      exact State.inputLost_progress_slots _ hslots
    · have hin := State.settle_writeFifo _ y hy
      rw [(Prod.mk_inj.mp (hwriting.trans hfifo)).1] at hin
      simpa using (List.mem_filter.mp hin).2
    · exact State.settle_writeFifo_busy (hwriting.trans hfifo) (Option.isSome_iff_ne_none.mpr hbusy)
  case other =>
    rw [State.signalGone_other hother] at hwriting
    exact State.settle_writeFifo_busy hwriting (Option.isSome_iff_ne_none.mpr hbusy)
  case wall =>
    obtain ⟨hleft, hqueue⟩ := State.inputLost_wall (s := u.signalGone) (by simpa using hwall)
    rw [← State.loseSignal_eq] at hleft hqueue
    simp only [State.signalGone_frame] at hleft hqueue
    have hraised : u.loseSignal.flag .stateChange = true := by
      rw [State.loseSignal_eq]
      exact State.inputLost_stateChange (by simpa using hwall)
    simp only [State.settle_frame, State.settle_flag, State.settle_bus, hmember]
    refine ⟨?_, ?_, hraised, fun hm => ⟨?_, hqueue hm⟩, hleft.waiting,
      fun hheard hlatch hactive hkind => (hleft.heard hheard hlatch hactive).1 hkind, hleft.unheard⟩
    · rcases hwall with h | h
      · rw [Membership.detach_joining _ h]
      · rw [Membership.detach_member _ h]
    · rcases hwall with h | h
      · rw [Membership.detach_joining _ h]
      · rw [Membership.detach_member _ h]
    · rw [Membership.detach_member _ hm]
  case detached => simp [hmember, Membership.detach_detached _ hdetached]

end Sys2Proof.Machine
end

