-- ==== Sys2Proof/Proofs/RegionPixels.lean ====
section
/-! O52, the entry of DE pixels, and the completion of a capture (R45, R46, R54 to R56, R63). -/

namespace Sys2Proof.Machine

/-! ## The counts and the region -/

theorem inRegion_iff (c : Settings) (p : Progress) : inRegion c p = true ↔
    c.ry ≤ p.line ∧ p.line < c.ry + c.rh ∧ c.rx ≤ p.pixel ∧ p.pixel < c.rx + c.rw := by
  simp only [inRegion, isRegionLine, Bool.and_eq_true, decide_eq_true_eq, and_assoc]

theorem FrameCount.pixel_eq (n : FrameCount) {a : Nat}
    (ha : (if n.lineActive then n.activeLines else min 4095 (n.activeLines + 1)) = a) :
    n.pixel = { n with
      lineActive := true, activeLines := a,
      activePixels := if a = 1 then min 4095 (n.activePixels + 1) else n.activePixels } := by
  rw [FrameCount.pixel, ha]

/-! ## A pixel offered to the write FIFO (R56) -/

theorem State.offerPixel_torn {s : State} {x : WritePixel} (h : (s.store.slots.get x.slot).torn = true) :
    s.offerPixel x = s := if_pos h

theorem State.offerPixel_taken {s : State} {x : WritePixel} (h : (s.store.slots.get x.slot).torn = false)
    (hroom : s.store.writeFifo.length < 2048) :
    s.offerPixel x = s.setStore { s.store with writeFifo := s.store.writeFifo ++ [x] } := by
  rw [State.offerPixel, h, if_neg Bool.false_ne_true, if_pos (by simpa [Config.fifoSize] using hroom)]

theorem State.offerPixel_lost {s : State} {x : WritePixel} (h : (s.store.slots.get x.slot).torn = false)
    (hfull : 2048 ≤ s.store.writeFifo.length) : s.offerPixel x = s.markTorn x.slot := by
  rw [State.offerPixel, h, if_neg Bool.false_ne_true, if_neg (by simpa [Config.fifoSize] using hfull)]

/-- An offered pixel leaves the lines counted in every slot. -/
theorem State.offerPixel_lines (s : State) (x : WritePixel) (j : Fin 5) :
    ((s.offerPixel x).store.slots.get j).lines = (s.store.slots.get j).lines := by
  simp only [State.offerPixel]
  split
  · rfl
  · split
    · rfl
    · simp only [State.markTorn, State.setSlots_slots, Slots.get_modify]
      split <;> rfl

/-! ## The entry of a pixel (R54) -/

/-- The write FIFO's entry of a region pixel. -/
def regionEntry (c : Settings) (p : Progress) (v : Rgb) : WritePixel := ⟨p.slot, p.line - c.ry, p.pixel - c.rx, v⟩

/-- The pixel is the last of its region line. -/
def LastOfLine (c : Settings) (p : Progress) : Prop := p.pixel + 1 = c.rx + c.rw

theorem State.enterPixel_outside {s : State} {p : Progress} (v : Rgb) (h : inRegion s.cfg p = false) :
    s.enterPixel p v = s := by
  rw [State.enterPixel, h, if_neg Bool.false_ne_true]

theorem State.enterPixel_last {s : State} {p : Progress} (v : Rgb) (h : inRegion s.cfg p = true)
    (hlast : LastOfLine s.cfg p) : s.enterPixel p v = (s.offerPixel (regionEntry s.cfg p v)).finishRegionLine p := by
  rw [State.enterPixel, if_pos h]
  exact if_pos hlast

theorem State.enterPixel_within {s : State} {p : Progress} (v : Rgb) (h : inRegion s.cfg p = true)
    (hlast : ¬LastOfLine s.cfg p) : s.enterPixel p v = s.offerPixel (regionEntry s.cfg p v) := by
  rw [State.enterPixel, if_pos h]
  exact if_neg hlast

/-- The state with a DE pixel counted. -/
def State.pixelCounted (s : State) : State := s.setInput { s.input with count := s.input.count.pixel }

/-- The next pixel of the line is looked for (R45, R54). -/
def Progress.nextPixel (q : Progress) : Progress := { q with pixel := min 4095 (q.pixel + 1), lineActive := true }

theorem State.takePixel_idle {s : State} (v : Rgb) (h : s.input.progress = none) :
    Machine.State.takePixel s v = s.pixelCounted := by
  simp only [State.takePixel, State.pixelCounted, State.setInput_input, h]

theorem State.takePixel_progress {s : State} {p q : Progress} {v : Rgb} (h : s.input.progress = some p)
    (hq : (s.pixelCounted.enterPixel p v).input.progress = some q) :
    Machine.State.takePixel s v = (s.pixelCounted.enterPixel p v).setInput
      { (s.pixelCounted.enterPixel p v).input with progress := some q.nextPixel } := by
  rw [State.takePixel]
  split
  · next hn => cases h.symm.trans hn
  · next r hr =>
    cases h.symm.trans hr
    dsimp only
    split
    · next z hz =>
      cases hq.symm.trans hz
      rfl
    · next hz => cases hq.symm.trans hz

@[simp] theorem State.pixelCounted_parts (s : State) : s.pixelCounted.cfg = s.cfg ∧ s.pixelCounted.store = s.store
    ∧ s.pixelCounted.input.progress = s.input.progress ∧ s.pixelCounted.input.count = s.input.count.pixel :=
  ⟨rfl, rfl, rfl, rfl⟩

/-- The entry of a pixel in its three cases: outside the region, at the end of a region line, and within one (R54). -/
theorem State.takePixel_cases {s : State} {p : Progress} (v : Rgb) (h : s.input.progress = some p) :
    ∃ e : State, ∃ q, Machine.State.takePixel s v = e.setInput { e.input with progress := some q.nextPixel }
      ∧ e.input.count = s.input.count.pixel ∧ SameBut [.input, .store] s e
      ∧ (inRegion s.cfg p = false ∧ e.store = s.store ∧ q = p
        ∨ inRegion s.cfg p = true ∧ LastOfLine s.cfg p ∧ q = { p with entered := p.entered + 1 }
          ∧ e.store = ((s.offerPixel (regionEntry s.cfg p v)).lineWritten p.slot).store
        ∨ inRegion s.cfg p = true ∧ ¬LastOfLine s.cfg p ∧ q = p
          ∧ e.store = (s.offerPixel (regionEntry s.cfg p v)).store) := by
  have hsame : SameBut [.input, .store] s (s.pixelCounted.enterPixel p v) := by
    intro part hpart
    cases part <;> simp_all [Part.same, State.pixelCounted]
  have hoffer : ∀ x, (s.pixelCounted.offerPixel x).store = (s.offerPixel x).store := by
    intro x
    simp only [State.offerPixel, State.pixelCounted_parts]
    repeat' split
    all_goals rfl
  cases hin : inRegion s.cfg p with
  | false =>
    have henter : s.pixelCounted.enterPixel p v = s.pixelCounted := State.enterPixel_outside v hin
    refine ⟨_, p, State.takePixel_progress h (by simp [henter, h]), ?_, hsame, .inl ⟨rfl, ?_, rfl⟩⟩
    · simp [henter]
    · simp [henter]
  | true =>
    by_cases hlast : LastOfLine s.cfg p
    · have henter : s.pixelCounted.enterPixel p v =
          (s.pixelCounted.offerPixel (regionEntry s.cfg p v)).finishRegionLine p := State.enterPixel_last v hin hlast
      refine ⟨_, _, State.takePixel_progress h (by rw [henter]; rfl), ?_, hsame, .inr (.inl ⟨rfl, hlast, rfl, ?_⟩)⟩
      · simp [henter, State.finishRegionLine]
      · rw [henter]
        simp [State.finishRegionLine, State.lineWritten, State.setSlots, hoffer]
    · have henter : s.pixelCounted.enterPixel p v = s.pixelCounted.offerPixel (regionEntry s.cfg p v) :=
        State.enterPixel_within v hin hlast
      refine ⟨_, p, State.takePixel_progress h (by simp [henter, h]), ?_, hsame, .inr (.inr ⟨rfl, hlast, rfl, ?_⟩)⟩
      · simp [henter]
      · rw [henter, hoffer]

/-! ## The completion of a capture (R55, R63) -/

theorem State.captureFull_iff (s : State) :
    s.captureFull = true ↔ ∃ p, s.input.progress = some p ∧ s.cfg.rh ≤ p.entered := by
  simp only [State.captureFull]
  cases s.input.progress <;> simp

theorem State.completeCapture_ready {s : State} {p : Progress} (h : s.input.progress = some p)
    (htorn : (s.store.slots.get p.slot).torn = false) :
    s.completeCapture = (((s.setInput { s.input with progress := none }).makeReady p.slot).count .captureDone) := by
  simp only [State.completeCapture, h, htorn, if_neg Bool.false_ne_true]

theorem State.completeCapture_torn {s : State} {p : Progress} (h : s.input.progress = some p)
    (htorn : (s.store.slots.get p.slot).torn = true) :
    s.completeCapture = (((s.setInput { s.input with progress := none }).freeSlot p.slot).count .captureTorn) := by
  simp only [State.completeCapture, h, htorn, if_true]

theorem State.completeCapture_sameBut {s : State} {p : Progress} (h : s.input.progress = some p) :
    SameBut [.input, .store, .counters] s s.completeCapture := by
  intro part hpart
  cases htorn : (s.store.slots.get p.slot).torn with
  | false =>
    rw [State.completeCapture_ready h htorn]
    cases part <;> simp_all [Part.same]
  | true =>
    rw [State.completeCapture_torn h htorn]
    cases part <;> simp_all [Part.same]

/-- Only the write FIFO and the slots are touched by a pixel offered. -/
theorem State.offerPixel_busy (s : State) (x : WritePixel) :
    (s.offerPixel x).store.writing.2 = s.store.transfer.isSome := by
  simp only [State.offerPixel]
  repeat' split
  all_goals rfl

theorem State.lineWritten_writing (s : State) (i : Fin 5) : (s.lineWritten i).store.writing = s.store.writing := rfl

theorem State.lineWritten_get (s : State) (i : Fin 5) :
    (s.lineWritten i).store.slots.get i = { s.store.slots.get i with lines := (s.store.slots.get i).lines + 1 } := by
  simp [State.lineWritten]

/-- The entry of a pixel that the FIFO takes, at the end of a line or within one. -/
theorem State.takePixel_writing {s : State} {p : Progress} (v : Rgb) (h : s.input.progress = some p)
    (hin : inRegion s.cfg p = true) :
    (Machine.State.takePixel s v).store.writing = (s.offerPixel (regionEntry s.cfg p v)).store.writing := by
  obtain ⟨e, q, htake, -, -, ⟨hout, -⟩ | ⟨-, -, -, hstore⟩ | ⟨-, -, -, hstore⟩⟩ := State.takePixel_cases v h
  · cases hout.symm.trans hin
  · rw [htake, State.setInput_store, hstore, State.lineWritten_writing]
  · rw [htake, State.setInput_store, hstore]

theorem State.takePixel_torn {s : State} {p : Progress} (v : Rgb) (h : s.input.progress = some p)
    (hin : inRegion s.cfg p = true) : ((Machine.State.takePixel s v).store.slots.get p.slot).torn =
      ((s.offerPixel (regionEntry s.cfg p v)).store.slots.get p.slot).torn := by
  obtain ⟨e, q, htake, -, -, ⟨hout, -⟩ | ⟨-, -, -, hstore⟩ | ⟨-, -, -, hstore⟩⟩ := State.takePixel_cases v h
  · cases hout.symm.trans hin
  · rw [htake, State.setInput_store, hstore, State.lineWritten_get]
  · rw [htake, State.setInput_store, hstore]

theorem State.overflowDue_of {s : State} {p : Progress} (hactive : s.input.active = true)
    (h : s.input.progress = some p) (hin : inRegion s.cfg p = true) (hfull : 2048 ≤ s.store.writeFifo.length)
    (htorn : (s.store.slots.get p.slot).torn = false) : s.overflowDue = true := by
  rw [State.overflowDue, hactive, h]
  simp [hin, htorn, Config.fifoSize, hfull]

/-- Settles O52. -/
theorem regionPixelsEnter : Obligations.RegionPixelsEnter := by
  refine ⟨fun n a ha => n.pixel_eq ha, inRegion_iff, fun w v s u hu => ⟨fun hactive hnone => ?idle,
    fun p hactive hp => ?entry, fun p hactive hp hin hfull htorn => ?lost, fun p hp hfull => ?complete⟩⟩
  case idle =>
    exact event_settled (due := fun t => t.input.active) (effect := fun t => Machine.State.takePixel t v) hu hactive
       (State.takePixel_idle v hnone)
  case entry =>
    refine event_exists (due := fun t => t.input.active) (effect := fun t => Machine.State.takePixel t v) hu hactive ?_
    obtain ⟨e, q, htake, hcount, hsame, hcases⟩ := State.takePixel_cases v hp
    have hinput : (Machine.State.takePixel u v).settle.input = { e.input with progress := some q.nextPixel } := by
      simp [htake]
    have hslots : (Machine.State.takePixel u v).settle.store.slots = e.store.slots := by simp [htake]
    have hnext : (Machine.State.takePixel u v).settle.input.progress = some q.nextPixel := by rw [hinput]
    refine ⟨by rw [hinput, hcount], ?_, fun hout => ?_, fun hin htorn hroom hbusy => ?_, fun hin hlast => ?_,
      fun hin hwithin => ?_⟩
    · refine (SameBut.mono (l := [.input, .store]) ?_ (by simp)).settle (by simp)
      intro part hpart
      have hpart' := hsame part hpart
      rw [htake]
      cases part <;> simp_all [Part.same]
    · obtain ⟨-, hstore, rfl⟩ | ⟨hin, -⟩ | ⟨hin, -⟩ := hcases
      · exact ⟨by rw [hslots, hstore], hnext⟩
      · cases hout.symm.trans hin
      · cases hout.symm.trans hin
    · have hwriting := State.takePixel_writing v hp hin
      rw [State.offerPixel_taken (x := regionEntry u.cfg p v) htorn hroom] at hwriting
      exact State.settle_writeFifo_busy hwriting (Option.isSome_iff_ne_none.mpr hbusy)
    · obtain ⟨hout, -⟩ | ⟨-, -, rfl, hstore⟩ | ⟨-, hnot, -⟩ := hcases
      · cases hout.symm.trans hin
      · refine ⟨?_, _, hnext, rfl⟩
        rw [hslots, hstore, State.lineWritten_get, State.offerPixel_lines]
      · exact absurd hlast hnot
    · obtain ⟨hout, -⟩ | ⟨-, hlast, -⟩ | ⟨-, -, rfl, hstore⟩ := hcases
      · cases hout.symm.trans hin
      · exact absurd hlast hwithin
      · exact ⟨by rw [hslots, hstore, State.offerPixel_lines], hnext⟩
  case lost =>
    have hlost : u.offerPixel (regionEntry u.cfg p v) = u.markTorn p.slot := State.offerPixel_lost htorn hfull
    have hwriting := State.takePixel_writing v hp hin
    have htorn' := State.takePixel_torn v hp hin
    rw [hlost] at hwriting htorn'
    refine ⟨_, event_at (effect := fun t => Machine.State.takePixel t v) hu (State.overflowDue_of hactive hp hin hfull htorn),
      event_at (due := fun t => t.input.active) (effect := fun t => Machine.State.takePixel t v) hu hactive, ?_, fun hbusy => ?_⟩
    · rw [State.settle_slots, htorn']
      simp [State.markTorn]
    · exact State.settle_writeFifo_busy hwriting (Option.isSome_iff_ne_none.mpr hbusy)
  case complete =>
    refine event_exists hu ((State.captureFull_iff u).mpr ⟨p, hp, hfull⟩) ?_
    have hsame := (State.completeCapture_sameBut hp).mono (m := [.bus, .input, .store, .picture, .counters]) (by simp)
    refine ⟨by rw [(State.settle_frame _).2.2.2.1, State.completeCapture_input], hsame.settle (by simp), fun j hj => ?_,
      fun htorn => ?_, fun htorn => ?_, fun htorn hbusy => ?_⟩
    · rw [State.settle_slots]
      cases htorn : (u.store.slots.get p.slot).torn with
      | false => simp [State.completeCapture_ready hp htorn, State.makeReady, hj]
      | true => simp [State.completeCapture_torn hp htorn, State.freeSlot, hj]
    · rw [State.completeCapture_ready hp htorn]
      exact ⟨by simp [State.makeReady], by simp [State.count]⟩
    · rw [State.completeCapture_torn hp htorn]
      refine ⟨by simp [State.freeSlot], by simp [State.count], fun y hy => ?_, fun hbusy => ?_⟩
      · have hin := State.settle_writeFifo _ y hy
        simpa using (List.mem_filter.mp hin).2
      · exact State.settle_writeFifo_busy (busy := u.store.transfer.isSome) rfl (Option.isSome_iff_ne_none.mpr hbusy)
    · rw [State.completeCapture_ready hp htorn]
      exact State.settle_writeFifo_busy (busy := u.store.transfer.isSome) rfl (Option.isSome_iff_ne_none.mpr hbusy)

end Sys2Proof.Machine
end

