-- ==== Sys2Proof/Proofs/SyncEdges.lean ====
section
/-! O48, the sync transitions, the passing of time in the input monitor and the HS leading edge (R43 to R46, R49, R54). -/

namespace Sys2Proof.Machine

/-! ## Sync transitions (R43) -/

theorem pulseLevel_undetermined {high low : Option Nat} (before : Option Pol) (h : high = none ∨ low = none) :
    pulseLevel high low before = none := by
  rcases h with rfl | rfl
  · rfl
  · cases high <;> rfl

theorem pulseLevel_some (h l : Nat) (before : Option Pol) :
    pulseLevel (some h) (some l) before = if h < l then some .high else if l < h then some .low else before := rfl

theorem Sync.transition_pulse (y : Sync) (v : Pol) :
    ((y.transition v).keptHigh = none ∨ (y.transition v).keptLow = none → (y.transition v).pulse = none)
    ∧ ∀ h l, (y.transition v).keptHigh = some h → (y.transition v).keptLow = some l →
      (h < l → (y.transition v).pulse = some .high) ∧ (l < h → (y.transition v).pulse = some .low)
      ∧ (h = l → (y.transition v).pulse = y.pulse) := by
  have hpulse : (y.transition v).pulse = pulseLevel (y.transition v).keptHigh (y.transition v).keptLow y.pulse := rfl
  refine ⟨fun h => hpulse.trans (pulseLevel_undetermined _ h), fun h l hh hl => ?_⟩
  rw [hpulse, hh, hl, pulseLevel_some]
  refine ⟨fun hlt => if_pos hlt, fun hlt => ?_, fun heq => ?_⟩
  · rw [if_neg (by omega), if_pos hlt]
  · rw [if_neg (by omega), if_neg (by omega)]

/-! ## Pixels offered one after another (R54, R56) -/

/-- What an offered pixel makes of the store. -/
def Store.offered (x : Store) (y : WritePixel) : Store :=
  if (x.slots.get y.slot).torn then x
  else if x.writeFifo.length < 2048 then { x with writeFifo := x.writeFifo ++ [y] }
  else { x with slots := x.slots.modify y.slot (fun r => { r with torn := true }) }

theorem State.offerPixel_eq (s : State) (y : WritePixel) : s.offerPixel y = s.setStore (s.store.offered y) := by
  cases htorn : (s.store.slots.get y.slot).torn with
  | true =>
    rw [State.offerPixel_torn htorn, Store.offered, if_pos htorn]
    rfl
  | false =>
    by_cases hroom : s.store.writeFifo.length < 2048
    · rw [State.offerPixel_taken htorn hroom, Store.offered, htorn, if_neg Bool.false_ne_true, if_pos hroom]
    · rw [State.offerPixel_lost htorn (by omega), Store.offered, htorn, if_neg Bool.false_ne_true, if_neg hroom]
      rfl

/-- What the pixels of a list, all of one slot, make of the store: those that the FIFO has room for are taken, and the slot
is TORN by the first that is lost. -/
theorem Store.offered_all (i : Fin 5) (l : List WritePixel) (hl : ∀ y ∈ l, y.slot = i) (x : Store) :
    ((x.slots.get i).torn = true → l.foldl Store.offered x = x)
    ∧ ((x.slots.get i).torn = false → l = [] ∨ x.writeFifo.length + l.length ≤ 2048 →
      l.foldl Store.offered x = { x with writeFifo := x.writeFifo ++ l })
    ∧ ((x.slots.get i).torn = false → l ≠ [] → 2048 < x.writeFifo.length + l.length →
      l.foldl Store.offered x = { x with
        writeFifo := (x.writeFifo ++ l).take (max x.writeFifo.length 2048)
        slots := x.slots.modify i (fun r => { r with torn := true }) }) := by
  induction l generalizing x with
  | nil => simp
  | cons y rest ih =>
    obtain rfl : y.slot = i := hl y List.mem_cons_self
    have hrest := fun x => ih (fun z hz => hl z (List.mem_cons_of_mem _ hz)) x
    simp only [List.foldl_cons, List.length_cons, reduceCtorEq, false_or, ne_eq, not_false_eq_true, true_implies]
    refine ⟨fun htorn => ?_, fun htorn hroom => ?_, fun htorn hfull => ?_⟩
    · rw [show x.offered y = x from if_pos htorn]
      exact (hrest x).1 htorn
    · have hoffer : x.offered y = { x with writeFifo := x.writeFifo ++ [y] } := by
        rw [Store.offered, htorn, if_neg Bool.false_ne_true, if_pos (by omega)]
      rw [hoffer, (hrest { x with writeFifo := x.writeFifo ++ [y] }).2.1 htorn (.inr (by simp; omega))]
      simp
    · by_cases hlen : x.writeFifo.length < 2048
      · have hoffer : x.offered y = { x with writeFifo := x.writeFifo ++ [y] } := by
          rw [Store.offered, htorn, if_neg Bool.false_ne_true, if_pos hlen]
        have hne : rest ≠ [] := by
          rintro rfl
          simp at hfull
          omega
        rw [hoffer, (hrest { x with writeFifo := x.writeFifo ++ [y] }).2.2 htorn hne (by simp; omega)]
        have hmax : max (x.writeFifo ++ [y]).length 2048 = max x.writeFifo.length 2048 := by
          simp
          omega
        simp only [hmax, List.append_assoc, List.cons_append, List.nil_append]
      · have hoffer : x.offered y = { x with slots := x.slots.modify y.slot (fun r => { r with torn := true }) } := by
          rw [Store.offered, htorn, if_neg Bool.false_ne_true, if_neg hlen]
        rw [hoffer, (hrest _).1 (by simp), Nat.max_eq_left (by omega), List.take_left']
        rfl

/-! ## The end of a line (R45, R54) -/

/-- The pixels that the end of a region line enters as 000000h. -/
def linePadding (c : Settings) (p : Progress) : List WritePixel :=
  (missingColumns c p.pixel).map (fun k => ⟨p.slot, p.line - c.ry, k, 0⟩)

/-- The line in progress is a region line whose entry has not finished. -/
def lineUnfinished (c : Settings) (p : Progress) : Bool :=
  p.lineActive && (isRegionLine c p.line && decide (p.pixel < c.rx + c.rw))

/-- What the end of a line makes of the store. -/
def Store.lineEnded (c : Settings) (p : Progress) (x : Store) : Store :=
  if lineUnfinished c p then
    let y := (linePadding c p).foldl Store.offered x
    { y with slots := y.slots.modify p.slot (fun r => { r with lines := r.lines + 1 }) }
  else x

/-- What the end of a line makes of the capture in progress. -/
def Progress.lineEnded (c : Settings) (p : Progress) : Progress :=
  if p.lineActive then (if lineUnfinished c p then { p with entered := p.entered + 1 } else p).nextLine else p

theorem State.padColumns_eq (s : State) (p : Progress) (l : List Nat) : s.padColumns p l =
    s.setStore ((l.map (fun k => ⟨p.slot, p.line - s.cfg.ry, k, 0⟩)).foldl Store.offered s.store) := by
  induction l generalizing s with
  | nil => rfl
  | cons k rest ih => simp only [State.padColumns, ih, State.offerPixel_eq]; rfl

theorem State.padLine_eq (s : State) {p : Progress} (h : s.input.progress = some p) (hactive : p.lineActive = true) :
    s.padLine p = (s.setStore (s.store.lineEnded s.cfg p)).setInput { s.input with
      progress := some (if lineUnfinished s.cfg p then { p with entered := p.entered + 1 } else p) } := by
  have hbool : lineUnfinished s.cfg p = decide (isRegionLine s.cfg p.line = true ∧ p.pixel < s.cfg.rx + s.cfg.rw) := by
    simp [lineUnfinished, hactive]
  by_cases hun : isRegionLine s.cfg p.line = true ∧ p.pixel < s.cfg.rx + s.cfg.rw
  · rw [State.padLine, if_pos hun, State.padColumns_eq, Store.lineEnded, hbool, decide_eq_true hun]
    rfl
  · rw [State.padLine, if_neg hun, Store.lineEnded, hbool, decide_eq_false hun, if_neg Bool.false_ne_true,
      if_neg Bool.false_ne_true, ← h]
    rfl

theorem State.endInputLine_none {s : State} (h : s.input.progress = none) :
    s.endInputLine = s.setInput { s.input with count := { s.input.count with lineActive := false } } := by
  simp only [State.endInputLine, State.setInput_input, h]

/-- The end of a line, with a capture in progress. -/
theorem State.endInputLine_some {s : State} {p : Progress} (h : s.input.progress = some p) :
    s.endInputLine = (s.setStore (s.store.lineEnded s.cfg p)).setInput { s.input with
      count := { s.input.count with lineActive := false }, progress := some (p.lineEnded s.cfg) } := by
  rw [State.endInputLine]
  dsimp only
  split
  · next hn => cases h.symm.trans hn
  · next q hq =>
    cases h.symm.trans hq
    cases hactive : p.lineActive with
    | true =>
      have hpad := (s.setInput { s.input with count := { s.input.count with lineActive := false } }).padLine_eq h hactive
      rw [if_pos rfl, hpad, Progress.lineEnded, hactive]
      rfl
    | false =>
      have hun : lineUnfinished s.cfg p = false := by simp [lineUnfinished, hactive]
      rw [if_neg Bool.false_ne_true, Progress.lineEnded, hactive, if_neg Bool.false_ne_true, Store.lineEnded, hun,
        if_neg Bool.false_ne_true, ← h]
      rfl

/-- The store after the pixels of a list, all of one slot, have been offered. -/
theorem Store.offered_all_parts {i : Fin 5} {l : List WritePixel} (hl : ∀ y ∈ l, y.slot = i) (x : Store) :
    l.foldl Store.offered x =
      { x with slots := (l.foldl Store.offered x).slots, writeFifo := (l.foldl Store.offered x).writeFifo }
    ∧ (∀ j, j ≠ i → (l.foldl Store.offered x).slots.get j = x.slots.get j)
    ∧ (l.foldl Store.offered x).slots.get i = { x.slots.get i with
        torn := (x.slots.get i).torn || decide (l ≠ [] ∧ 2048 < x.writeFifo.length + l.length) }
    ∧ ((x.slots.get i).torn = true → (l.foldl Store.offered x).writeFifo = x.writeFifo)
    ∧ ((x.slots.get i).torn = false → x.writeFifo.length ≤ 2048 →
      (l.foldl Store.offered x).writeFifo = (x.writeFifo ++ l).take 2048) := by
  obtain ⟨htorn', hroom', hfull'⟩ := Store.offered_all i l hl x
  cases htorn : (x.slots.get i).torn with
  | true =>
    rw [htorn' htorn]
    refine ⟨rfl, fun _ _ => rfl, ?_, fun _ => rfl, fun h => by cases h⟩
    rw [Bool.true_or, ← htorn]
  | false =>
    by_cases hroom : l = [] ∨ x.writeFifo.length + l.length ≤ 2048
    · have hnot : ¬(l ≠ [] ∧ 2048 < x.writeFifo.length + l.length) := by
        rintro ⟨hne, hlt⟩
        exact hroom.elim hne (by omega)
      rw [hroom' htorn hroom]
      refine ⟨rfl, fun _ _ => rfl, ?_, fun h => (by cases h), fun _ hle => ?_⟩
      · rw [decide_eq_false hnot, Bool.or_false, ← htorn]
      · refine (List.take_of_length_le ?_).symm
        rw [List.length_append]
        rcases hroom with rfl | hlen
        · simpa using hle
        · exact hlen
    · obtain ⟨hne, hlt⟩ : l ≠ [] ∧ 2048 < x.writeFifo.length + l.length := by
        push Not at hroom
        exact hroom
      rw [hfull' htorn hne hlt]
      refine ⟨rfl, fun j hj => by simp [hj], ?_, fun h => (by cases h), fun _ hle => ?_⟩
      · simp [hne, hlt]
      · simp [Nat.max_eq_right hle]

theorem linePadding_slot (c : Settings) (p : Progress) : ∀ y ∈ linePadding c p, y.slot = p.slot := by
  intro y hy
  obtain ⟨k, -, rfl⟩ := List.mem_map.mp hy
  rfl

theorem linePadding_eq (c : Settings) (p : Progress) : linePadding c p =
    (List.range (c.rw - min c.rw (p.pixel - c.rx))).map (fun k =>
      (⟨p.slot, p.line - c.ry, min c.rw (p.pixel - c.rx) + k, 0⟩ : WritePixel)) := by
  simp only [linePadding, missingColumns, List.map_map]
  refine List.map_congr_left fun k _ => ?_
  simp only [Function.comp_apply, Nat.add_comm]

theorem linePadding_length (c : Settings) (p : Progress) :
    (linePadding c p).length = c.rw - min c.rw (p.pixel - c.rx) := by
  rw [linePadding_eq, List.length_map, List.length_range]

theorem lineUnfinished_iff {c : Settings} {p : Progress} : lineUnfinished c p = true ↔
    p.lineActive = true ∧ c.ry ≤ p.line ∧ p.line < c.ry + c.rh ∧ p.pixel < c.rx + c.rw := by
  simp only [lineUnfinished, isRegionLine, Bool.and_eq_true, decide_eq_true_eq, and_assoc]

theorem Store.lineEnded_finished {c : Settings} {p : Progress} (x : Store) (h : lineUnfinished c p = false) :
    x.lineEnded c p = x := by
  rw [Store.lineEnded, h, if_neg Bool.false_ne_true]

/-- The end of a region line whose entry has not finished (R54, R56). -/
theorem Store.lineEnded_parts {c : Settings} {p : Progress} (x : Store) (h : lineUnfinished c p = true) :
    x.lineEnded c p = { x with slots := (x.lineEnded c p).slots, writeFifo := (x.lineEnded c p).writeFifo }
    ∧ (∀ j, j ≠ p.slot → (x.lineEnded c p).slots.get j = x.slots.get j)
    ∧ (x.lineEnded c p).slots.get p.slot = { x.slots.get p.slot with
        lines := (x.slots.get p.slot).lines + 1
        torn := (x.slots.get p.slot).torn || decide (linePadding c p ≠ []
          ∧ 2048 < x.writeFifo.length + (linePadding c p).length) }
    ∧ ((x.slots.get p.slot).torn = true → (x.lineEnded c p).writeFifo = x.writeFifo)
    ∧ ((x.slots.get p.slot).torn = false → x.writeFifo.length ≤ 2048 →
      (x.lineEnded c p).writeFifo = (x.writeFifo ++ linePadding c p).take 2048) := by
  obtain ⟨hrest, hother, hslot, htorn, htaken⟩ := Store.offered_all_parts (linePadding_slot c p) x
  rw [Store.lineEnded, if_pos h]
  refine ⟨?_, fun j hj => ?_, ?_, htorn, htaken⟩
  · rw [hrest]
  · rw [← hother j hj]
    simp [hj]
  · simp [hslot]

/-! ## The HS leading edge (R44 to R46, R49) -/

/-- What the end of the line in progress leaves in the store. -/
def State.lineEndStore (s : State) : Store := (s.input.progress.map (fun p => s.store.lineEnded s.cfg p)).getD s.store

theorem State.endInputLine_eq (s : State) : s.endInputLine = (s.setStore s.lineEndStore).setInput { s.input with
    count := { s.input.count with lineActive := false }, progress := s.input.progress.map (·.lineEnded s.cfg) } := by
  rcases Option.eq_none_or_eq_some s.input.progress with h | ⟨p, h⟩
  · rw [State.endInputLine_none h, State.lineEndStore, h, Option.map_none, Option.map_none, ← h]
    rfl
  · rw [State.endInputLine_some h, State.lineEndStore, h]
    rfl

/-- An HS leading edge taken, before a held VS is (R45, R46, R49). -/
def State.hsTaken (s : State) : State := (s.setStore s.lineEndStore).setInput { s.input with
  count := { s.input.countHs with lineActive := false }, progress := s.input.progress.map (·.lineEnded s.cfg)
  hsTimer := 0, hsSeen := true, hs := { s.input.hs with leading := false } }

theorem State.takeHs_eq (s : State) :
    s.takeHs = if s.input.heldVs.isSome then s.hsTaken.takeHeldVs else s.hsTaken := by
  rw [State.takeHs, State.endInputLine_eq]
  rfl

/-- An HS leading edge that meets a held VS: the VS is taken after it (R44). -/
theorem State.takeHs_held {s : State} (h : s.input.heldVs ≠ none) :
    s.takeHs = (s.setInput { s.input with heldVs := none }).takeHs.inputVs := by
  rw [State.takeHs_eq, State.takeHs_eq, if_pos (Option.isSome_iff_ne_none.mpr h)]
  rfl

theorem State.takeHs_unheld {s : State} (h : s.input.heldVs = none) : s.takeHs = s.hsTaken := by
  rw [State.takeHs_eq, h]
  rfl

@[simp] theorem State.pass_input (s : State) (w : Span) : (s.pass w).input = s.input.pass w := by
  simp [State.pass]

theorem Progress.lineEnded_unfinished {c : Settings} {p : Progress} (h : lineUnfinished c p = true) : p.lineEnded c =
    { p with line := min 4095 (p.line + 1), pixel := 0, lineActive := false, entered := p.entered + 1 } := by
  rw [Progress.lineEnded, if_pos (lineUnfinished_iff.mp h).1, if_pos h]
  rfl

theorem Progress.lineEnded_finished {c : Settings} {p : Progress} (hactive : p.lineActive = true)
    (h : lineUnfinished c p = false) :
    p.lineEnded c = { p with line := min 4095 (p.line + 1), pixel := 0, lineActive := false } := by
  rw [Progress.lineEnded, if_pos hactive, h]
  rfl

theorem Progress.lineEnded_inactive {c : Settings} {p : Progress} (hactive : p.lineActive = false) :
    p.lineEnded c = p ∧ lineUnfinished c p = false := by
  simp [Progress.lineEnded, lineUnfinished, hactive]

/-- Settles O48. -/
theorem syncEdges : Obligations.SyncEdges := by
  refine ⟨fun y v => ?transition, fun w s u hu => ?span, fun w s u hu hactive => ?edges, fun u t hheld ht => ?hs⟩
  case transition =>
    exact ⟨rfl, rfl, rfl, rfl, beq_iff_eq, y.transition_pulse v⟩
  case span =>
    subst hu
    rw [State.pass_input, Input.pass]
    refine ⟨fun hidle => ?_, fun hactive => ?_⟩
    · rw [hidle, if_neg Bool.false_ne_true]
    · rw [if_pos hactive]
      rfl
  case edges =>
    refine ⟨fun v hv => ?_, fun v hv => ?_, fun hlead => ?_, fun hlead hnone => ?_, fun hlead hheld => ?_⟩
    · exact event_settled (due := fun t => t.input.active && t.syncLevel .hs != some v)
        (effect := fun t => t.syncChange .hs v) hu (by simp [hactive, State.syncLevel, hv]) rfl
    · exact event_settled (due := fun t => t.input.active && t.syncLevel .vs != some v)
        (effect := fun t => t.syncChange .vs v) hu (by simp [hactive, State.syncLevel, hv]) rfl
    · exact event_settled (due := State.vsDue) (effect := State.holdVs) hu (by simp [State.vsDue, hactive, hlead]) rfl
    · exact event_at (due := State.hsDue) (effect := State.takeHs) hu (by simp [State.hsDue, hactive, hlead])
    · rw [← State.takeHs_held hheld]
      exact event_at (due := State.hsDue) (effect := State.takeHs) hu (by simp [State.hsDue, hactive, hlead])
  case hs =>
    rw [State.takeHs_unheld hheld] at ht
    subst ht
    refine ⟨rfl, rfl, rfl, rfl, rfl, hheld, rfl, rfl, rfl, rfl, rfl, rfl, rfl, ?_, fun hnone => ?_,
      fun p hp => ⟨fun hidle => ?_, fun hline => ⟨fun hout => ?_, fun e hlow hhigh hcol he => ?_⟩⟩⟩
    · intro part hpart
      cases part <;> simp_all [Part.same, State.hsTaken]
    · simp [State.hsTaken, State.lineEndStore, hnone]
    · obtain ⟨hend, hun⟩ := Progress.lineEnded_inactive (c := u.cfg) hidle
      simp [State.hsTaken, State.lineEndStore, hp, hend, Store.lineEnded_finished _ hun]
    · have hun : lineUnfinished u.cfg p = false := by
        rw [← Bool.not_eq_true, lineUnfinished_iff]
        exact fun h => hout h.2
      simp [State.hsTaken, State.lineEndStore, hp, Progress.lineEnded_finished hline hun,
        Store.lineEnded_finished _ hun]
    · have hun := (lineUnfinished_iff (c := u.cfg) (p := p)).mpr ⟨hline, hlow, hhigh, hcol⟩
      obtain ⟨hrest, hother, hslot, htorn, htaken⟩ := u.store.lineEnded_parts hun
      have hstore : u.hsTaken.store = u.store.lineEnded u.cfg p := by simp [State.hsTaken, State.lineEndStore, hp]
      have hprogress : u.hsTaken.input.progress = some (p.lineEnded u.cfg) := by simp [State.hsTaken, hp]
      have hsome : linePadding u.cfg p ≠ [] ↔ e < u.cfg.rw := by
        rw [← List.length_pos_iff, linePadding_length, he]
        omega
      rw [hprogress, hstore]
      refine ⟨by rw [Progress.lineEnded_unfinished hun], hother, ?_, hrest, htorn, fun hnot hle => ?_⟩
      · rw [hslot, linePadding_length, he]
        simp only [hsome]
      · rw [htaken hnot hle, linePadding_eq, he]

end Sys2Proof.Machine
end

