-- ==== Sys2Proof/Proofs/HostCommands.lean ====
section
/-! O56 and O58, the commands of the board controller: their checks, HOLD, RELEASE and the clears, and RESTART
(R169, R170, R173 to R177, R155, R182). -/

namespace Sys2Proof.Machine

/-! ## A write to an item (R170) -/

/-- The port after a whole write of `n` bytes to an item, before its bytes are taken. -/
def State.itemWritten (s : State) (i : Item) (n : Nat) : State :=
  s.setPort { s.port with
    tx := .waiting, selected := i, acks := true :: true :: (List.range n).map (fun k => decide (k < i.bytesTaken)) }

theorem Item.ofByte_byte (i : Item) : Item.ofByte i.byte = some i := by cases i <;> rfl

theorem State.writeBytes_item (s : State) (i : Item) (rest : List Byte) : s.writeBytes (i.byte :: rest) =
    s.setPort { s.port with
      selected := i, tx := .writing rest
      acks := true :: true :: (List.range rest.length).map (fun k => decide (k < i.bytesTaken)) } := by
  rw [State.writeBytes, Item.ofByte_byte]

theorem State.transaction_own {s : State} (bytes : List Byte) (fin : TxEnd) (h : s.loader.phase ≠ .held)
    (hw : s.port.tx = .waiting) : s.transaction s.port.address bytes fin = (s.writeBytes bytes).finishTransaction bytes fin := by
  rw [State.transaction_waiting _ _ _ h hw, if_pos rfl]

theorem State.hostWrite_eq {s : State} (i : Item) (bytes : List Byte) (h : s.loader.phase ≠ .held)
    (hw : s.port.tx = .waiting) : s.hostWrite i bytes = (s.writeBytes (i.byte :: bytes)).endTransaction :=
  State.transaction_own _ _ h hw

/-- A write to COMMAND that carries a byte issues its command. -/
theorem State.endTransaction_command (s : State) (b : Byte) (rest : List Byte) :
    (s.writeBytes (Item.command.byte :: b :: rest)).endTransaction =
      (s.itemWritten .command (rest.length + 1)).takeCommand (b :: rest) := rfl

/-- A write of two bytes to EVENTS clears the flags they mark. -/
theorem State.endTransaction_events (s : State) (a b : Byte) :
    (s.writeBytes [Item.events.byte, a, b]).endTransaction = (s.itemWritten .events 2).clearFlags (bytesWord a b) := rfl

/-- A write that carries no byte only selects. -/
theorem State.endTransaction_select (s : State) (i : Item) :
    (s.writeBytes [i.byte]).endTransaction = s.itemWritten i 0 := by
  rw [State.writeBytes_item]
  cases i <;> rfl

/-! ## The checks of a command (R173) -/

theorem decodeCommand_bytes (c : Command) : decodeCommand c.bytes = some c := by
  cases c with
  | clearEvents k => exact congrArg (fun v => some (Command.clearEvents v)) (bytesWord_wordBytes k)
  | _ => rfl

theorem Command.bytes_cons (c : Command) : ∃ b rest, c.bytes = b :: rest := by
  cases c <;> exact ⟨_, _, rfl⟩

/-- A command as the port takes it: COMMAND is selected and the code recorded. -/
def State.commandTaken (s : State) (bytes : List Byte) : State :=
  s.setPort { s.port with
    tx := .waiting, selected := .command, lastCode := bytes.head?
    acks := true :: true :: (List.range bytes.length).map (fun k => decide (k < 3)) }

theorem State.notRunning_iff (s : State) :
    s.notRunning = true ↔ s.member.station = .starting ∨ s.member.station = .fault := by
  simp [State.notRunning]

theorem State.hostWrite_restart {s : State} (h : s.loader.phase ≠ .held) (hw : s.port.tx = .waiting) :
    s.hostWrite .command Command.restart.bytes = (s.commandTaken [0x06#8]).takeRestart := by
  rw [State.hostWrite_eq _ _ h hw]
  rfl

/-- A command other than RESTART, checked in order (R173). -/
theorem State.hostWrite_checked {s : State} {c : Command} (hc : c ≠ .restart) (h : s.loader.phase ≠ .held)
    (hw : s.port.tx = .waiting) : s.hostWrite .command c.bytes =
      if s.notRunning then (s.commandTaken c.bytes).setResult .refusedState
      else if s.port.inFlight.isSome then (s.commandTaken c.bytes).setResult .busy
      else (s.commandTaken c.bytes).carryOut c := by
  rw [State.hostWrite_eq _ _ h hw]
  cases c with
  | restart => exact absurd rfl hc
  | hold => rfl
  | release => rfl
  | setMode b => rfl
  | clearCounters => rfl
  | clearEvents k =>
    rw [Command.bytes, wordBytes, State.endTransaction_command, State.takeCommand, ← wordBytes,
      show decodeCommand (0x04 :: wordBytes k) = some (.clearEvents k) from decodeCommand_bytes (.clearEvents k)]
    rfl

theorem issue_next {w : Span} {c : Command} {s u : State} (hu : s.pass w = u) :
    issue w c s = .next (u.hostWrite .command c.bytes).settle :=
  event_at (due := fun _ => true) (effect := fun t => t.hostWrite .command c.bytes) hu rfl

/-! ## What a command leaves of the port -/

/-- The port with what a command may answer: a result, a command in flight, flags. -/
def Port.Answers (p q : Port) : Prop := ∃ r f g, q = { p with result := r, inFlight := f, flags := g }

theorem Port.Answers.refl (p : Port) : p.Answers p := ⟨_, _, _, rfl⟩

theorem Port.Answers.trans {p q r : Port} (h : p.Answers q) (h' : q.Answers r) : p.Answers r := by
  obtain ⟨_, _, _, rfl⟩ := h
  obtain ⟨_, _, _, rfl⟩ := h'
  exact ⟨_, _, _, rfl⟩

theorem State.setResult_answers (s : State) (r : CmdResult) : s.port.Answers (s.setResult r).port := ⟨_, _, _, rfl⟩

theorem State.endSetMode_answers (s : State) (r : CmdResult) : s.port.Answers (s.endSetMode r).port := by
  simp only [State.endSetMode]
  split
  · exact .refl _
  · exact ⟨_, _, _, rfl⟩

/-- An accepted SET_MODE with its entry in the queue and its MODE not yet placed (R125). -/
def State.modeEntered (s : State) (m : Mode) : State :=
  let e : ModeEntry := ⟨s.modeTarget, m, s.tile⟩
  let u := match s.entryAt s.modeTarget with
    | some x => s.tieEntry e x
    | none => s.setModes { s.modes with queue := insertEntry s.timing.wfn e s.modes.queue }
  (u.setModes { u.modes with outstanding := some ⟨s.modeTarget, m, .none⟩ }).setPort
    { u.port with result := .accepted, inFlight := some .setMode }

theorem State.acceptMode_eq (s : State) (m : Mode) : s.acceptMode m =
    ((s.modeEntered m).placeMode ⟨s.modeTarget, m⟩).getD ((s.modeEntered m).removeOwnEntry.endSetMode .abandoned) := by
  rw [State.acceptMode]
  simp only [State.modeEntered]
  cases h : State.placeMode _ _ <;> rfl


theorem State.modeEntered_answers (s : State) (m : Mode) : s.port.Answers (s.modeEntered m).port := by
  simp only [State.modeEntered]
  split
  · exact ⟨.accepted, some .setMode, s.port.flags, by simp⟩
  · exact ⟨_, _, _, rfl⟩

theorem State.removeOwnEntry_port (s : State) : s.removeOwnEntry.port = s.port := by simp

theorem State.acceptMode_answers (s : State) (m : Mode) : s.port.Answers (s.acceptMode m).port := by
  rw [State.acceptMode_eq]
  rcases Option.eq_none_or_eq_some ((s.modeEntered m).placeMode ⟨s.modeTarget, m⟩) with h | ⟨t, h⟩
  · rw [h]
    refine (s.modeEntered_answers m).trans ?_
    have hend := (s.modeEntered m).removeOwnEntry.endSetMode_answers .abandoned
    rwa [State.removeOwnEntry_port] at hend
  · rw [h, State.placeMode_frame h]
    exact s.modeEntered_answers m

theorem State.takeSetMode_answers (s : State) (b : Byte) : s.port.Answers (s.takeSetMode b).port := by
  simp only [State.takeSetMode]
  repeat' split
  · exact s.setResult_answers _
  · exact s.setResult_answers _
  · exact s.setResult_answers _
  · exact s.acceptMode_answers _
  · exact s.setResult_answers _

theorem State.carryOut_answers (s : State) {c : Command} (hc : c ≠ .restart) : s.port.Answers (s.carryOut c).port := by
  cases c with
  | hold => exact ⟨_, _, _, rfl⟩
  | release => exact ⟨_, _, _, rfl⟩
  | setMode b => exact s.takeSetMode_answers b
  | clearEvents k => exact ⟨_, _, _, rfl⟩
  | clearCounters => exact ⟨_, _, _, rfl⟩
  | restart => exact absurd rfl hc

theorem State.hostWrite_answers {s : State} {c : Command} (hc : c ≠ .restart) (h : s.loader.phase ≠ .held)
    (hw : s.port.tx = .waiting) : (s.commandTaken c.bytes).port.Answers (s.hostWrite .command c.bytes).port := by
  rw [State.hostWrite_checked hc h hw]
  split
  · exact State.setResult_answers _ _
  · split
    · exact State.setResult_answers _ _
    · exact State.carryOut_answers _ hc

theorem State.commandTaken_sameBut (s : State) (bytes : List Byte) (r : CmdResult) :
    SameBut [.port] s ((s.commandTaken bytes).setResult r) := by
  intro p hp
  cases p <;> simp_all [Part.same, State.commandTaken, State.setResult]

/-- A command other than RESTART: what it answers before it is carried out (R173). -/
theorem issue_checked {w : Span} {c : Command} {s u : State} (hu : s.pass w = u) (hc : c ≠ .restart)
    (h : u.loader.phase ≠ .held) (hw : u.port.tx = .waiting) :
    ∃ t, issue w c s = .next t ∧ t.port.lastCode = c.bytes.head? ∧ t.port.selected = .command ∧ t.port.tx = .waiting
      ∧ (u.member.station = .starting ∨ u.member.station = .fault →
          t.port.result = .refusedState ∧ t.port.inFlight = u.port.inFlight ∧ t.port.flags = u.port.flags
          ∧ t.store.slots = u.store.slots ∧ SameBut [.bus, .store, .picture, .port] u t)
      ∧ (u.member.station ≠ .starting → u.member.station ≠ .fault → u.port.inFlight ≠ none →
          t.port.result = .busy ∧ t.port.inFlight = u.port.inFlight ∧ t.port.flags = u.port.flags
          ∧ t.store.slots = u.store.slots ∧ SameBut [.bus, .store, .picture, .port] u t)
      ∧ (u.member.station ≠ .starting → u.member.station ≠ .fault → u.port.inFlight = none →
          t = ((u.commandTaken c.bytes).carryOut c).settle) := by
  have hchecked := State.hostWrite_checked hc h hw
  have hport : (u.hostWrite .command c.bytes).settle.port = (u.hostWrite .command c.bytes).port := by simp
  refine ⟨_, issue_next hu, ?_, ?_, ?_, fun hrest => ?_, fun hstarting hfault hbusy => ?_,
    fun hstarting hfault hfree => ?_⟩
  · obtain ⟨_, _, _, hanswer⟩ := State.hostWrite_answers hc h hw
    rw [hport, hanswer]
    rfl
  · obtain ⟨_, _, _, hanswer⟩ := State.hostWrite_answers hc h hw
    rw [hport, hanswer]
    rfl
  · obtain ⟨_, _, _, hanswer⟩ := State.hostWrite_answers hc h hw
    rw [hport, hanswer]
    rfl
  · rw [if_pos ((State.notRunning_iff u).mpr hrest)] at hchecked
    rw [hport, State.settle_slots, hchecked]
    exact ⟨rfl, rfl, rfl, rfl, ((u.commandTaken_sameBut c.bytes .refusedState).mono (by simp)).settle (by simp)⟩
  · have hrun : u.notRunning ≠ true := fun hrun => ((State.notRunning_iff u).mp hrun).elim hstarting hfault
    rw [if_neg hrun, if_pos (Option.isSome_iff_ne_none.mpr hbusy)] at hchecked
    rw [hport, State.settle_slots, hchecked]
    exact ⟨rfl, rfl, rfl, rfl, ((u.commandTaken_sameBut c.bytes .busy).mono (by simp)).settle (by simp)⟩
  · have hrun : u.notRunning ≠ true := fun hrun => ((State.notRunning_iff u).mp hrun).elim hstarting hfault
    rw [if_neg hrun, hfree, if_neg (by simp)] at hchecked
    rw [hchecked]

theorem Counters.get_zero (c : Counter) : Counters.zero.get c = 0 := by cases c <;> rfl

/-- Settles O56. -/
theorem hostCommandsAreChecked : Obligations.HostCommandsAreChecked := by
  intro w b k c code s u hu h hw hc
  have hcarried : ∃ d : Command, d ≠ .restart ∧ exec c s = issue w d s ∧ d.bytes.head? = some code
      ∧ (c = .hold w → d = .hold) ∧ (c = .release w → d = .release) ∧ (c = .clearEvents w k → d = .clearEvents k)
      ∧ (c = .clearCounters w → d = .clearCounters) := by
    simp only [List.mem_cons, List.not_mem_nil, or_false, Prod.mk.injEq] at hc
    rcases hc with ⟨rfl, rfl⟩ | ⟨rfl, rfl⟩ | ⟨rfl, rfl⟩ | ⟨rfl, rfl⟩ | ⟨rfl, rfl⟩
    · exact ⟨.hold, by simp, rfl, rfl, by simp⟩
    · exact ⟨.release, by simp, rfl, rfl, by simp⟩
    · exact ⟨.setMode b, by simp, rfl, rfl, by simp⟩
    · exact ⟨.clearEvents k, by simp, rfl, rfl, by simp⟩
    · exact ⟨.clearCounters, by simp, rfl, rfl, by simp⟩
  obtain ⟨d, hd, hexec, hcode, hhold, hrelease, hevents, hcounters⟩ := hcarried
  obtain ⟨t, ht, hlast, hselected, htx, hrest, hbusy, hcarry⟩ := issue_checked hu hd h hw
  refine ⟨t, hexec.trans ht, hlast.trans hcode, hselected, htx, hrest, hbusy, fun hs hf hfree =>
    ⟨fun he => ?_, fun he => ?_, fun he => ?_, fun he => ?_⟩⟩
  · obtain rfl := hhold he
    rw [hcarry hs hf hfree]
    refine ⟨by simp [State.carryOut], by simp [State.carryOut], by simp [State.carryOut, State.commandTaken], ?_⟩
    refine SameBut.settle (fun p hp => ?_) (by simp)
    cases p <;> simp_all [Part.same, State.commandTaken, State.carryOut]
  · obtain rfl := hrelease he
    rw [hcarry hs hf hfree]
    refine ⟨by simp [State.carryOut, State.setResult], by simp [State.carryOut, State.commandTaken, State.setResult], ?_⟩
    refine SameBut.settle (fun p hp => ?_) (by simp)
    cases p <;> simp_all [Part.same, State.commandTaken, State.carryOut, State.setResult]
  · obtain rfl := hevents he
    rw [hcarry hs hf hfree]
    refine ⟨by simp [State.carryOut, State.setResult],
      by simp [State.carryOut, State.commandTaken, State.setResult, State.clearFlags], ?_⟩
    refine SameBut.settle (fun p hp => ?_) (by simp)
    cases p <;> simp_all [Part.same, State.commandTaken, State.carryOut, State.setResult, State.clearFlags]
  · obtain rfl := hcounters he
    rw [hcarry hs hf hfree]
    refine ⟨by simp [State.carryOut, State.setResult], fun n => ?_, ?_⟩
    · simp [State.carryOut, State.setResult, Counters.get_zero]
    · refine SameBut.settle (fun p hp => ?_) (by simp)
      cases p <;> simp_all [Part.same, State.commandTaken, State.carryOut, State.setResult]

/-- Settles O58. -/
theorem restartBeginsLoad : Obligations.RestartBeginsLoad := by
  intro w s u hu h hw
  refine ⟨_, issue_next (c := .restart) hu, ?_⟩
  rw [State.hostWrite_restart h hw, (State.takeRestart_atRest _).settle]
  exact ⟨rfl, rfl, rfl, rfl, rfl, rfl, rfl, rfl, rfl, rfl, rfl, rfl⟩

end Sys2Proof.Machine
end

