-- ==== Sys2Proof/Proofs/SetMode.lean ====
section
/-! O57, SET_MODE past the port's checks (R124, R125, R175). -/

namespace Sys2Proof.Machine

/-- The entry that a SET_MODE makes (R125). -/
def State.ownEntry (s : State) (m : Mode) : ModeEntry := ⟨s.modeTarget, m, s.tile⟩

theorem State.modeEntered_parts (s : State) (m : Mode) : (s.modeEntered m).bus = s.bus
    ∧ (s.modeEntered m).tile = s.tile
    ∧ (s.modeEntered m).modes.outstanding = some ⟨s.modeTarget, m, .none⟩
    ∧ (s.modeEntered m).port = { s.port with result := .accepted, inFlight := some .setMode } := by
  simp only [State.modeEntered]
  split <;> simp [State.tile]

/-- With no entry at the target the own entry is put in its place in the queue (R125). -/
theorem State.modeEntered_new {s : State} (m : Mode) (h : s.entryAt s.modeTarget = none) :
    (s.modeEntered m).counters = s.counters
    ∧ (s.modeEntered m).modes.queue = insertEntry s.timing.wfn (s.ownEntry m) s.modes.queue := by
  simp only [State.modeEntered, h]
  exact ⟨rfl, rfl⟩

/-- With an entry at the target the tie rules decide (R125). -/
theorem State.modeEntered_tie {s : State} (m : Mode) {x : ModeEntry} (h : s.entryAt s.modeTarget = some x) :
    (s.modeEntered m).counters = (if x.origin = s.tile then s.counters else s.counters.bump .modeConflicts)
    ∧ (x.origin.toNat < s.tile.toNat → (s.modeEntered m).modes.queue = s.modes.queue)
    ∧ (s.tile.toNat ≤ x.origin.toNat → (s.modeEntered m).modes.queue = replaceEntry (s.ownEntry m) s.modes.queue) := by
  have hcounters : (s.modeEntered m).counters = (s.tieEntry (s.ownEntry m) x).counters := by
    simp only [State.modeEntered, h]
    rfl
  have hqueue : (s.modeEntered m).modes.queue = (s.tieEntry (s.ownEntry m) x).modes.queue := by
    simp only [State.modeEntered, h]
    rfl
  rw [hcounters, hqueue]
  rcases Nat.lt_trichotomy x.origin.toNat s.tile.toNat with hlt | heq | hgt
  · have hne : x.origin ≠ s.tile := fun he => by simp [he] at hlt
    rw [State.tieEntry_lower (e := s.ownEntry m) hlt, if_neg hne]
    exact ⟨rfl, fun _ => rfl, fun hle => by omega⟩
  · have horigin : x.origin = s.tile := BitVec.eq_of_toNat_eq heq
    rw [State.tieEntry_same (e := s.ownEntry m) horigin, if_pos horigin]
    exact ⟨rfl, fun hlt => by omega, fun _ => rfl⟩
  · have hne : x.origin ≠ s.tile := fun he => by simp [he] at hgt
    rw [State.tieEntry_higher (e := s.ownEntry m) hgt, if_neg hne]
    exact ⟨rfl, fun hlt => by omega, fun _ => rfl⟩

theorem mem_replaceEntry_other {e x : ModeEntry} {l : List ModeEntry} (h : x.target ≠ e.target) :
    x ∈ replaceEntry e l ↔ x ∈ l := by
  simp only [replaceEntry, List.mem_map]
  constructor
  · rintro ⟨y, hy, rfl⟩
    by_cases hty : y.target = e.target
    · rw [if_pos hty] at h
      exact absurd rfl h
    · rwa [if_neg hty]
  · intro hx
    exact ⟨x, hx, if_neg h⟩

/-- An entry of the queue with another target stays. -/
theorem State.mem_modeEntered_other {s : State} (m : Mode) {e : ModeEntry} (h : e.target ≠ s.modeTarget) :
    e ∈ (s.modeEntered m).modes.queue ↔ e ∈ s.modes.queue := by
  rcases Option.eq_none_or_eq_some (s.entryAt s.modeTarget) with hx | ⟨x, hx⟩
  · rw [(State.modeEntered_new m hx).2, mem_insertEntry]
    refine or_iff_right ?_
    rintro rfl
    exact h rfl
  · obtain ⟨-, hlower, hupper⟩ := State.modeEntered_tie m hx
    rcases Nat.lt_or_ge x.origin.toNat s.tile.toNat with hlt | hge
    · rw [hlower hlt]
    · rw [hupper hge]
      exact mem_replaceEntry_other h

/-- The MODE is placed (R31, R125). -/
theorem State.acceptMode_placed {s : State} (m : Mode) (hlatch : s.bus.latch = false) (hactive : s.bus.active = true)
    (hplace : s.bus.modePlace = none) :
    s.acceptMode m = (s.modeEntered m).setBus { s.bus with modePlace := some ⟨s.modeTarget, m⟩ } := by
  obtain ⟨hbus, -⟩ := s.modeEntered_parts m
  rw [State.acceptMode_eq, State.placeMode, State.placementRefused, hbus, hlatch, hactive, hplace]
  rfl

/-- The placement is refused (R31, R125). -/
theorem State.acceptMode_refused {s : State} (m : Mode)
    (h : s.bus.latch = true ∨ s.bus.active = false ∨ s.bus.modePlace ≠ none) :
    s.acceptMode m = (s.modeEntered m).removeOwnEntry.endSetMode .abandoned := by
  obtain ⟨hbus, -⟩ := s.modeEntered_parts m
  have hrefused : ((s.modeEntered m).placementRefused || (s.modeEntered m).bus.modePlace.isSome) = true := by
    rw [State.placementRefused, hbus]
    rcases h with h | h | h
    · simp [h]
    · simp [h]
    · simp [Option.isSome_iff_ne_none, h]
  rw [State.acceptMode_eq, State.placeMode, if_pos hrefused]
  rfl

/-- A refused placement ends the command, its own entry removed (R125). -/
theorem State.acceptMode_refused_parts {s : State} (m : Mode)
    (h : s.bus.latch = true ∨ s.bus.active = false ∨ s.bus.modePlace ≠ none) :
    (s.acceptMode m).port.result = .abandoned ∧ (s.acceptMode m).port.inFlight = none
    ∧ (s.acceptMode m).modes.outstanding = none ∧ (s.acceptMode m).bus = s.bus
    ∧ (s.acceptMode m).counters = (s.modeEntered m).counters
    ∧ (s.acceptMode m).modes.queue =
      (s.modeEntered m).modes.queue.filter (fun e => !(e.target == s.modeTarget && e.origin == s.tile)) := by
  obtain ⟨hbus, htile, hout, hport⟩ := s.modeEntered_parts m
  have hremoved : (s.modeEntered m).removeOwnEntry = (s.modeEntered m).setModes { (s.modeEntered m).modes with
      queue := (s.modeEntered m).modes.queue.filter (fun e => !(e.target == s.modeTarget && e.origin == s.tile)) } := by
    simp only [State.removeOwnEntry, hout, htile]
  rw [State.acceptMode_refused m h, hremoved]
  simp [State.endSetMode, hout, hport, hbus]

/-- The checks of a SET_MODE in order (R124, R175). -/
theorem State.takeSetMode_checks {s : State} {b : Byte} {m : Mode} (hm : decodeMode b = some m) :
    (s.member.station ≠ .member → s.takeSetMode b = s.setResult .refusedState)
    ∧ (s.member.station = .member → s.modes.outstanding ≠ none → s.takeSetMode b = s.setResult .busy)
    ∧ (s.member.station = .member → s.modes.outstanding = none →
      (4 ≤ s.modes.queue.length → (∀ e ∈ s.modes.queue, e.target ≠ s.modeTarget) → s.takeSetMode b = s.setResult .busy)
      ∧ (s.modes.queue.length < 4 ∨ (∃ e ∈ s.modes.queue, e.target = s.modeTarget) →
        s.takeSetMode b = s.acceptMode m)) := by
  have hentry : (s.entryAt s.modeTarget).isSome = true ↔ ∃ e ∈ s.modes.queue, e.target = s.modeTarget := by
    simp [State.entryAt]
  simp only [State.takeSetMode, hm]
  refine ⟨fun hs => if_pos hs, fun hs hout => ?_, fun hs hout => ⟨fun hlen hnone => ?_, fun hroom => ?_⟩⟩
  · rw [if_neg (not_not.mpr hs), if_pos (Option.isSome_iff_ne_none.mpr hout)]
  · rw [if_neg (not_not.mpr hs), if_neg (by simp [hout]), if_neg]
    rw [Bool.or_eq_true, hentry, decide_eq_true_iff]
    rintro (hlt | ⟨e, he, htarget⟩)
    · omega
    · exact hnone e he htarget
  · rw [if_neg (not_not.mpr hs), if_neg (by simp [hout]), if_pos]
    rw [Bool.or_eq_true, hentry, decide_eq_true_iff]
    exact hroom

/-- An own entry past the port's checks: the queue and the counters that the SET_MODE leaves (R125). -/
theorem State.acceptMode_counters (s : State) (m : Mode) : (s.acceptMode m).counters = (s.modeEntered m).counters := by
  by_cases h : s.bus.latch = true ∨ s.bus.active = false ∨ s.bus.modePlace ≠ none
  · exact (State.acceptMode_refused_parts m h).2.2.2.2.1
  · push Not at h
    obtain ⟨hlatch, hactive, hplace⟩ := h
    rw [State.acceptMode_placed m (by simpa using hlatch) (by simpa using hactive) hplace]
    rfl

theorem State.takeSetMode_sameBut (s : State) (b : Byte) :
    SameBut [.bus, .modes, .port, .counters] s (s.takeSetMode b) := by
  intro p hp
  cases p <;> simp_all [Part.same]

theorem State.commandTaken_same (s : State) (bytes : List Byte) : SameBut [.port] s (s.commandTaken bytes) := by
  intro p hp
  cases p <;> simp_all [Part.same, State.commandTaken]

/-- Settles O57. -/
theorem setModeIsChecked : Obligations.SetModeIsChecked := by
  intro w b s u hu h hw hstarting hfault hfree
  obtain ⟨t, ht, hlast, -, -, -, -, hcarry⟩ := issue_checked (c := .setMode b) hu (by simp) h hw
  generalize hx : u.commandTaken (Command.setMode b).bytes = x at hcarry
  have hsame : SameBut [.port] u x := hx ▸ u.commandTaken_same _
  have hmodes : x.modes = u.modes := hsame .modes (by simp)
  have hmember : x.member = u.member := hsame .member (by simp)
  have hbus : x.bus = u.bus := hsame .bus (by simp)
  have hcounters : x.counters = u.counters := hsame .counters (by simp)
  have htile : x.tile = u.tile := by simp only [State.tile, State.cfg, show x.loader = u.loader from hsame .loader (by simp)]
  have htarget : x.modeTarget = u.timing.wfn + BitVec.ofNat 16 u.cfg.modelead := by
    simp only [State.modeTarget, State.cfg, show x.loader = u.loader from hsame .loader (by simp),
      show x.timing = u.timing from hsame .timing (by simp)]
  have hentry : ∀ a, x.entryAt a = u.modes.queue.find? (fun e => e.target == a) := by
    intro a
    rw [State.entryAt, hmodes]
  obtain rfl := hcarry hstarting hfault hfree
  have hresult : ∀ r, x.takeSetMode b = x.setResult r →
      ((x.carryOut (.setMode b)).settle.port.result = r ∧ (x.carryOut (.setMode b)).settle.modes = u.modes) := by
    intro r hr
    rw [State.carryOut, hr]
    exact ⟨by simp [State.setResult], by simp [State.setResult, hmodes]⟩
  refine ⟨_, ht, hlast, ?same, fun hnone => hresult _ ?bad, fun m hm => ?checked⟩
  case same =>
    refine SameBut.settle (fun p hp => ?_) (by simp)
    have hcarried := x.takeSetMode_sameBut b p
    have hbase := hsame p
    cases p <;> simp_all [Part.same, State.carryOut]
  case bad => simp only [State.takeSetMode, hnone]
  case checked =>
    obtain ⟨hout, hbusy, hcheck⟩ := State.takeSetMode_checks (s := x) hm
    rw [hmember] at hout
    rw [hmember, hmodes] at hbusy hcheck
    refine ⟨fun hs => hresult _ (hout hs), fun hs ho => hresult _ (hbusy hs ho), fun tg hs ho htg => ?_⟩
    obtain ⟨hfull, hroom⟩ := hcheck hs ho
    obtain rfl : x.modeTarget = tg := htarget.trans htg.symm
    refine ⟨fun hlen hnone => hresult _ (hfull hlen hnone), fun hspace => ?_⟩
    rw [State.carryOut, hroom hspace]
    obtain ⟨-, -, houtstanding, hport⟩ := x.modeEntered_parts m
    have hcount : (x.acceptMode m).settle.counters = (x.modeEntered m).counters := by
      simp [State.acceptMode_counters]
    refine ⟨fun hnew => ?_, fun y hy => ?_, fun hlatch hactive hplace => ?_, fun hrefused => ?_⟩
    · rw [hcount, (State.modeEntered_new m ((hentry _).trans hnew)).1, hcounters]
    · rw [hcount, (State.modeEntered_tie m ((hentry _).trans hy)).1, hcounters, htile]
    · have hplaced := State.acceptMode_placed (s := x) m (by rwa [hbus]) (by rwa [hbus]) (by rwa [hbus])
      have hqueue : (x.acceptMode m).settle.modes.queue = (x.modeEntered m).modes.queue := by simp [hplaced]
      refine ⟨by simp [hplaced, hport], by simp [hplaced, hport], by simp [hplaced, houtstanding], by simp [hplaced],
        fun hnew => ?_, fun y hy => ?_⟩
      · rw [hqueue, (State.modeEntered_new m ((hentry _).trans hnew)).2, hmodes, State.ownEntry, htile]
        exact ⟨length_insertEntry _ _ _, fun e => mem_insertEntry⟩
      · obtain ⟨-, hlower, hupper⟩ := State.modeEntered_tie m ((hentry _).trans hy)
        rw [htile] at hlower hupper
        rw [hqueue]
        refine ⟨fun hlt => (hlower hlt).trans (by rw [hmodes]), fun hle => (hupper hle).trans ?_⟩
        rw [State.ownEntry, htile, hmodes]
        rfl
    · obtain ⟨hres, hflight, ho', hbus', -, hqueue⟩ :=
        State.acceptMode_refused_parts (s := x) m (by rwa [hbus])
      refine ⟨by simp [hres], by simp [hflight], by simp [ho'], by simp [hbus', hbus], fun e he => ?_, fun e he => ?_⟩
      · simp only [State.settle_frame, hqueue, List.mem_filter] at he
        rw [← htile]
        simpa [imp_iff_not_or] using he.2
      · simp only [State.settle_frame, hqueue, List.mem_filter]
        rw [State.mem_modeEntered_other m he, hmodes]
        simp [he]

end Sys2Proof.Machine
end

