-- ==== Sys2Proof/Proofs/ItemAccess.lean ====
section
/-! O59, the clear write, reads of the items, writes to COMMAND byte by byte, and ATTN (R169 to R171, R173, R180, R181,
R184). -/

namespace Sys2Proof.Machine

/-- The port after a read of `n` bytes, its address byte acknowledged after those before it (R171). -/
def State.itemRead (s : State) (n : Nat) (before : List Bool) : State :=
  s.setPort { s.port with
    snapshot := some (s.item s.port.selected), tx := .waiting, acks := before ++ [true]
    returned := (List.range n).map (fun k => ((s.item s.port.selected)[k]?).getD 0) }

theorem State.readBytes_ended (s : State) (n : Nat) (before : List Bool) :
    (s.readBytes n before).endTransaction = s.itemRead n before := rfl

/-- The items do not show what the last write left in the port but what was selected. -/
theorem State.item_itemWritten (s : State) (i j : Item) (n : Nat) : (s.itemWritten i n).item j = s.item j := by
  cases j <;> rfl

theorem decodeCommand_eq_none {x : Byte} {rest : List Byte}
    (hone : ¬(rest.length = 0 ∧ (x = 0x01#8 ∨ x = 0x02#8 ∨ x = 0x05#8 ∨ x = 0x06#8)))
    (htwo : ¬(rest.length = 1 ∧ x = 0x03#8)) (hthree : ¬(rest.length = 2 ∧ x = 0x04#8)) :
    decodeCommand (x :: rest) = none := by
  match rest with
  | [] =>
    simp only [List.length_nil, true_and, not_or] at hone
    simp [decodeCommand, hone]
  | [a] => simpa [decodeCommand] using htwo
  | [a, b] => simpa [decodeCommand] using hthree
  | a :: b :: d :: more => rfl

theorem Item.ofByte_unknown {b : Byte} (h : 8 ≤ b.toNat) : Item.ofByte b = none := by
  obtain ⟨n, hn⟩ : ∃ n, b.toNat = n + 8 := ⟨b.toNat - 8, by omega⟩
  rw [Item.ofByte, hn]
  rfl

/-- A write to COMMAND that is no command (R173). -/
theorem State.takeCommand_unknown {s : State} {bytes : List Byte} (h : decodeCommand bytes = none) :
    s.takeCommand bytes = (s.setPort { s.port with lastCode := bytes.head? }).setResult .refusedArg := by
  simp only [State.takeCommand, h]

/-- ATTN is low exactly while the flag of an event that the mask enables is set (R181). -/
theorem State.attnLow_iff (s : State) : s.attnLow = true ↔
    ∃ k, k < 10 ∧ s.port.flags.getLsbD k = true ∧ s.cfg.eventMask.getLsbD k = true := by
  have hall : ∀ k, Config.allEvents.getLsbD k = decide (k < 10) := by
    intro k
    by_cases hk : k < 16
    · have hsmall : ∀ j : Fin 16, Config.allEvents.getLsbD j.val = decide (j.val < 10) := by decide
      exact hsmall ⟨k, hk⟩
    · rw [BitVec.getLsbD_of_ge _ _ (by omega)]
      simp
      omega
  rw [State.attnLow, bne_iff_ne, Ne, ← not_iff_not, not_not, State.enableMask]
  constructor
  · rintro h ⟨k, hk, hflag, hmask⟩
    have hbit := congrArg (fun v => v.getLsbD k) h
    simp [hflag, hmask, hall, hk] at hbit
  · intro h
    refine BitVec.eq_of_getLsbD_eq fun k hk => ?_
    by_contra hset
    obtain ⟨hflag, hmask, hlow⟩ : s.port.flags.getLsbD k = true ∧ s.cfg.eventMask.getLsbD k = true ∧ k < 10 := by
      simpa [hall] using hset
    exact h ⟨k, hlow, hflag, hmask⟩

theorem itemSelect_next {w : Span} {a : BitVec 7} {bytes : List Byte} {fin : TxEnd} {s u : State} (hu : s.pass w = u) :
    exec (.itemSelect w a bytes fin) s = .next (u.transaction a bytes fin).settle :=
  event_at (due := fun _ => true) (effect := fun t => t.transaction a bytes fin) hu rfl

/-- A transaction that touches the port alone. -/
theorem itemSelect_port {w : Span} {a : BitVec 7} {bytes : List Byte} {fin : TxEnd} {s u : State} {p : Port}
    (hu : s.pass w = u) (h : u.transaction a bytes fin = u.setPort p) :
    ∃ t, exec (.itemSelect w a bytes fin) s = .next t ∧ t.port = p ∧ t.store.slots = u.store.slots
      ∧ SameBut [.bus, .store, .picture, .port] u t := by
  refine ⟨_, itemSelect_next hu, by simp [h], by simp [h], SameBut.settle (fun part hpart => ?_) (by simp)⟩
  rw [h]
  cases part <;> simp_all [Part.same]

/-- The commands as the bytes of a write to COMMAND. -/
theorem itemSelect_command {w : Span} {c : Command} {s u : State} (hu : s.pass w = u) :
    exec (.itemSelect w u.port.address (0x07#8 :: c.bytes) .stop) s = issue w c s := by
  rw [itemSelect_next hu, issue_next hu]
  rfl

/-- Settles O59. -/
theorem itemsAreReadAndCleared : Obligations.ItemsAreReadAndCleared := by
  intro w s u hu hw
  refine ⟨fun h => ?answers, fun hheld a bytes fin => ?silent, u.attnLow_iff⟩
  case silent =>
    have hnothing : u.transaction a bytes fin = u := if_pos hheld
    exact ⟨_, itemSelect_next hu, hnothing.symm ▸ State.settle_settled u⟩
  case answers =>
    have hown := fun bytes fin => State.transaction_own (s := u) bytes fin h hw
    refine ⟨fun k => ?clear, fun i n => ?read, fun n => ?again, fun b k c bytes hc => ?command,
      fun x rest hone htwo hthree => ?unknown, fun i => ?select, fun b rest hb => ?noItem, fun a bytes fin ha => ?other⟩
    case clear =>
      have hwrite : u.hostWrite .events (wordBytes k) = (u.itemWritten .events 2).clearFlags k := by
        rw [State.hostWrite_eq _ _ h hw, wordBytes, State.endTransaction_events, bytesWord_wordBytes]
      refine ⟨_, event_at (due := fun _ => true) (effect := fun t => t.hostWrite .events (wordBytes k)) hu rfl, ?_⟩
      simp only [hwrite]
      refine ⟨by simp [State.clearFlags, State.itemWritten], by simp [State.clearFlags, State.itemWritten],
        by simp [State.clearFlags, State.itemWritten], by simp [State.clearFlags, State.itemWritten],
        by simp [State.clearFlags, State.itemWritten], SameBut.settle (fun p hp => ?_) (by simp)⟩
      cases p <;> simp_all [Part.same, State.clearFlags, State.itemWritten]
    case read =>
      have hread : u.transaction u.port.address [i.byte] (.read n) = u.setPort { u.port with
          snapshot := some (u.item i), tx := .waiting, selected := i, acks := [true, true, true]
          returned := (List.range n).map (fun k => ((u.item i)[k]?).getD 0) } := by
        rw [hown, State.finishTransaction, State.endTransaction_select, State.readBytes_ended, State.itemRead,
          State.item_itemWritten, State.writeBytes_item]
        rfl
      obtain ⟨t, ht, hport, -, hsame⟩ := itemSelect_port hu hread
      exact ⟨t, ht, by rw [hport], by rw [hport], by rw [hport], by rw [hport], by rw [hport], by rw [hport],
        by rw [hport], hsame⟩
    case again =>
      have hread : u.transaction u.port.address [] (.read n) = u.setPort { u.port with
          snapshot := some (u.item u.port.selected), acks := [true]
          returned := (List.range n).map (fun k => ((u.item u.port.selected)[k]?).getD 0) } := by
        have hnone : (u.writeBytes []).endTransaction = u.setPort { u.port with tx := .waiting, acks := [true] } := by
          cases hi : u.port.selected <;> simp [State.writeBytes, State.endTransaction, hi]
        have hitem : (u.setPort { u.port with tx := .waiting, acks := [true] }).item u.port.selected =
            u.item u.port.selected := by cases u.port.selected <;> rfl
        rw [hown, State.finishTransaction, hnone, State.readBytes_ended, State.itemRead, State.setPort_port, hitem]
        rw [← hw]
        rfl
      obtain ⟨t, ht, hport, -, hsame⟩ := itemSelect_port hu hread
      exact ⟨t, ht, hport, hsame⟩
    case command =>
      simp only [List.mem_cons, List.not_mem_nil, or_false, Prod.mk.injEq] at hc
      rcases hc with ⟨rfl, rfl⟩ | ⟨rfl, rfl⟩ | ⟨rfl, rfl⟩ | ⟨rfl, rfl⟩ | ⟨rfl, rfl⟩ | ⟨rfl, rfl⟩
      · exact itemSelect_command (c := .hold) hu
      · exact itemSelect_command (c := .release) hu
      · exact itemSelect_command (c := .setMode b) hu
      · exact itemSelect_command (c := .clearEvents k) hu
      · exact itemSelect_command (c := .clearCounters) hu
      · exact itemSelect_command (c := .restart) hu
    case unknown =>
      have hwrite : u.transaction u.port.address (0x07#8 :: x :: rest) .stop = u.setPort { u.port with
          selected := .command, lastCode := some x, result := .refusedArg
          acks := true :: true :: (List.range (rest.length + 1)).map (fun k => decide (k < 3)) } := by
        have htx : u.setPort { u.port with
            selected := .command, lastCode := some x, result := .refusedArg
            acks := true :: true :: (List.range (rest.length + 1)).map (fun k => decide (k < 3)) } =
            u.setPort { u.port with
              tx := .waiting, selected := .command, lastCode := some x, result := .refusedArg
              acks := true :: true :: (List.range (rest.length + 1)).map (fun k => decide (k < 3)) } := by
          rw [← hw]
        rw [hown, htx]
        refine (State.endTransaction_command u x rest).trans ?_
        rw [State.takeCommand_unknown (decodeCommand_eq_none hone htwo hthree)]
        rfl
      exact itemSelect_port hu hwrite
    case select =>
      have hwrite : u.transaction u.port.address [i.byte] .stop =
          u.setPort { u.port with selected := i, acks := [true, true] } := by
        rw [hown, State.finishTransaction, State.endTransaction_select, ← State.setPort_waiting _ _ hw]
        rfl
      obtain ⟨t, ht, hport, -, hsame⟩ := itemSelect_port hu hwrite
      exact ⟨t, ht, hport, hsame⟩
    case noItem =>
      have hwrite : u.transaction u.port.address (b :: rest) .stop =
          u.setPort { u.port with acks := true :: (b :: rest).map (fun _ => false) } := by
        rw [hown, State.finishTransaction, State.writeBytes, Item.ofByte_unknown hb, State.endTransaction_waiting rfl, ← hw]
      obtain ⟨t, ht, hport, -, hsame⟩ := itemSelect_port hu hwrite
      exact ⟨t, ht, hport, hsame⟩
    case other =>
      have hrefused : u.transaction a bytes fin = u.setPort { u.port with acks := [false] } := by
        rw [State.transaction_waiting _ _ _ h hw, if_neg ha]
      obtain ⟨t, ht, hport, -, hsame⟩ := itemSelect_port hu hrefused
      exact ⟨t, ht, hport, hsame⟩

end Sys2Proof.Machine
end

