-- ==== Sys2Proof/Proofs/ItemBytes.lean ====
section
/-! O60, the layouts of the eight items (R171, R172, Figure 27). -/

namespace Sys2Proof.Machine

/-! ## Numbers in bytes -/

theorem bytesNat_single (b : Byte) : bytesNat [b] = b.toNat := by
  simp [bytesNat]

theorem bytesNat_wordBytes (v : Word) : bytesNat (wordBytes v) = v.toNat := by
  have hv := v.isLt
  rw [wordBytes_toNat]
  simp only [bytesNat, List.foldl_cons, List.foldl_nil, BitVec.toNat_ofNat]
  omega

theorem bytesNat_natWordBytes (n : Nat) : bytesNat (natWordBytes n) = n % 65536 := by
  rw [natWordBytes, bytesNat_wordBytes, BitVec.toNat_ofNat]

theorem bytesNat_time (n : Nat) : bytesNat (natByte (n / 65536) :: natWordBytes (n % 65536)) = n % 16777216 := by
  have hcons : ∀ (b : Byte) (v : Word), bytesNat (b :: wordBytes v) = b.toNat * 65536 + v.toNat := by
    intro b v
    have hv := v.isLt
    rw [wordBytes_toNat]
    simp only [bytesNat, List.foldl_cons, List.foldl_nil, BitVec.toNat_ofNat]
    omega
  rw [natWordBytes, hcons, natByte, BitVec.toNat_ofNat, BitVec.toNat_ofNat]
  omega

theorem getLsbD_threeBits : ∀ a b c : Bool, (bitAt 0 a ||| bitAt 1 b ||| bitAt 2 c).getLsbD 0 = a
    ∧ (bitAt 0 a ||| bitAt 1 b ||| bitAt 2 c).getLsbD 1 = b ∧ (bitAt 0 a ||| bitAt 1 b ||| bitAt 2 c).getLsbD 2 = c := by
  decide

theorem getLsbD_twoBits : ∀ a b : Bool, (bitAt 0 a ||| bitAt 1 b).getLsbD 0 = a
    ∧ (bitAt 0 a ||| bitAt 1 b).getLsbD 1 = b := by
  decide

theorem toNat_selfCode : ∀ a : Fin 5, (5#8 ||| (BitVec.ofNat 8 a.val <<< 4)).toNat = 5 + 16 * a.val := by decide

theorem toNat_packed : ∀ (a : Bool) (l i : Fin 3) (r : Fin 4),
    (bitAt 0 a ||| (BitVec.ofNat 8 l.val <<< 1) ||| (BitVec.ofNat 8 i.val <<< 3) ||| (BitVec.ofNat 8 r.val <<< 5)).toNat =
      (if a then 1 else 0) + 2 * l.val + 8 * i.val + 32 * r.val := by
  decide

/-! ## Records of one length after one another -/

section
variable {α β : Type} {f : α → List β} {len : Nat}

/-- A part of one record of a list of records. -/
theorem drop_flatMap_record (hlen : ∀ a, (f a).length = len) {l : List α} {k : Nat} {a : α} (h : l[k]? = some a) (j : Nat)
    (hj : j ≤ len) : (l.flatMap f).drop (len * k + j) = (f a).drop j ++ (l.drop (k + 1)).flatMap f := by
  induction k generalizing l with
  | zero =>
    cases l with
    | nil => cases h
    | cons b rest =>
      cases h
      simp [List.drop_append_of_le_length, hlen, hj]
  | succ k ih =>
    cases l with
    | nil => cases h
    | cons b rest =>
      have hsum : len * (k + 1) + j = (f b).length + (len * k + j) := by rw [hlen]; ring
      rw [List.flatMap_cons, hsum, List.drop_length_add_append]
      exact ih h

theorem take_drop_flatMap (hlen : ∀ a, (f a).length = len) {l : List α} {k : Nat} {a : α} (h : l[k]? = some a) (j n : Nat)
    (hn : j + n ≤ len) : ((l.flatMap f).drop (len * k + j)).take n = ((f a).drop j).take n := by
  rw [drop_flatMap_record hlen h j (by omega), List.take_append_of_le_length (by simp [hlen]; omega)]

theorem getElem?_flatMap (hlen : ∀ a, (f a).length = len) {l : List α} {k : Nat} {a : α} (h : l[k]? = some a) (j : Nat)
    (hj : j < len) : (l.flatMap f)[len * k + j]? = (f a)[j]? := by
  have hdrop := congrArg (·[0]?) (drop_flatMap_record hlen h j hj.le)
  simp only [List.getElem?_drop, Nat.add_zero] at hdrop
  rw [hdrop, List.getElem?_append_left (by simp [hlen, hj]), List.getElem?_drop, Nat.add_zero]

theorem length_flatMap_record (hlen : ∀ a, (f a).length = len) (l : List α) : (l.flatMap f).length = len * l.length := by
  rw [List.length_flatMap, List.map_congr_left (fun a _ => hlen a), List.map_const', List.sum_replicate]
  rw [smul_eq_mul, Nat.mul_comm]

end

/-! ## The codes of an entry -/

theorem Station.code_eq (x : Station) : ∃ a : Fin 5, x.code = BitVec.ofNat 8 a.val ∧ x.code.toNat = a.val := by
  cases x
  · exact ⟨0, rfl, rfl⟩
  · exact ⟨1, rfl, rfl⟩
  · exact ⟨2, rfl, rfl⟩
  · exact ⟨3, rfl, rfl⟩
  · exact ⟨4, rfl, rfl⟩

theorem Lock.code_eq (x : Lock) : ∃ a : Fin 3, x.code = BitVec.ofNat 8 a.val ∧ x.code.toNat = a.val := by
  cases x
  · exact ⟨0, rfl, rfl⟩
  · exact ⟨1, rfl, rfl⟩
  · exact ⟨2, rfl, rfl⟩

theorem InputState.code_eq (x : InputState) : ∃ a : Fin 3, x.code = BitVec.ofNat 8 a.val ∧ x.code.toNat = a.val := by
  cases x
  · exact ⟨0, rfl, rfl⟩
  · exact ⟨1, rfl, rfl⟩
  · exact ⟨2, rfl, rfl⟩

/-- The number of a leave reason, 0 when absent (Figure 27). -/
def reasonNumber : Option LeaveReason → Fin 4
  | none => 0
  | some .hostHold => 1
  | some .inputLost => 2
  | some .silenced => 3

theorem reasonCode_eq (r : Option LeaveReason) : reasonCode r = BitVec.ofNat 8 (reasonNumber r).val := by
  cases r with
  | none => rfl
  | some r => cases r <;> rfl

/-- The byte of a roster entry that packs stamp, lock, input and leave reason (Figure 27). -/
theorem toNat_entryFlags (e : Entry) :
    (bitAt 0 e.stamp.isSome ||| (e.lock.code <<< 1) ||| (e.input.code <<< 3) ||| (reasonCode e.reason <<< 5)).toNat =
      (if e.stamp.isSome then 1 else 0) + 2 * e.lock.code.toNat + 8 * e.input.code.toNat
        + 32 * (reasonNumber e.reason).val := by
  obtain ⟨l, hl, hl'⟩ := e.lock.code_eq
  obtain ⟨i, hi, hi'⟩ := e.input.code_eq
  rw [hl', hi', hl, hi, reasonCode_eq]
  exact toNat_packed _ l i (reasonNumber e.reason)

theorem length_slotBytesOf (e : Fin 5 × Slot) : (slotBytesOf e.2).length = 10 := rfl

theorem length_entryTail (e : Entry) : (entryTail e).length = 11 := by
  cases h : e.stamp <;> simp [entryTail, stampBytes, wordBytes, natWordBytes, h]

theorem length_rosterEntryBytes (s : State) (k : Nat) : (rosterEntryBytes s k).length = 12 := by
  simp only [rosterEntryBytes]
  split
  · rw [List.length_cons, length_entryTail]
  · rw [List.length_cons, length_entryTail]

theorem Slots.toList_getElem? (x : Slots) (i : Fin 5) : x.toList[i.val]? = some (i, x.get i) := by
  fin_cases i <;> rfl

/-- The entry that the ROSTER item shows for a tile. -/
def State.shownEntry (s : State) (k : Nat) : Entry :=
  if k = s.tile.toNat then s.selfEntry else (s.member.roster[k]?).getD .absent

/-- The first byte of an entry of the ROSTER item. -/
def State.shownCode (s : State) (k : Nat) : Byte :=
  if k = s.tile.toNat then 5#8 ||| (s.member.station.code <<< 4) else (s.shownEntry k).state.code

theorem rosterEntryBytes_eq (s : State) (k : Nat) : rosterEntryBytes s k = s.shownCode k :: entryTail (s.shownEntry k) := by
  simp only [rosterEntryBytes, State.shownCode, State.shownEntry]
  split <;> rfl

/-- The bytes of a stamp shown, 0 where there is none (Figure 27). -/
theorem stampBytes_eq (p : Option Stamp) : stampBytes p =
    wordBytes (BitVec.ofNat 16 (match p with | none => 0 | some q => q.wfn.toNat))
      ++ natWordBytes (match p with | none => 0 | some q => q.line) := by
  cases p with
  | none => rfl
  | some q => simp [stampBytes]

theorem length_items (u : State) : ([.ident, .station, .input, .slots, .roster, .counters, .events, .command] : List Item).map
    (fun i => (u.item i).length) = [3, 19, 20, 50, 384, 50, 4, 2] := by
  have hroster : (rosterItem u).length = 384 := length_flatMap_record (length_rosterEntryBytes u) _
  simp only [List.map_cons, List.map_nil, State.item, hroster]
  rfl

section
variable {u : State} {num : Item → Nat → Nat → Nat} {bit : Item → Nat → Nat → Bool}

theorem num_byte (hnum : ∀ i k n, num i k n = bytesNat (((u.item i).drop k).take n)) {i : Item} {k : Nat} (b : Byte)
    (h : ((u.item i).drop k).take 1 = [b]) : num i k 1 = b.toNat := by
  rw [hnum, h, bytesNat_single]

theorem num_word (hnum : ∀ i k n, num i k n = bytesNat (((u.item i).drop k).take n)) {i : Item} {k : Nat} (v : Word)
    (h : ((u.item i).drop k).take 2 = wordBytes v) : num i k 2 = v.toNat := by
  rw [hnum, h, bytesNat_wordBytes]

theorem num_nat (hnum : ∀ i k n, num i k n = bytesNat (((u.item i).drop k).take n)) {i : Item} {k : Nat} (n : Nat)
    (h : ((u.item i).drop k).take 2 = natWordBytes n) : num i k 2 = n % 65536 := by
  rw [hnum, h, bytesNat_natWordBytes]

theorem bit_byte (hbit : ∀ i k n, bit i k n = (((u.item i)[k]?).getD 0).getLsbD n) {i : Item} {k : Nat} (n : Nat) (b : Byte)
    (h : (u.item i)[k]? = some b) : bit i k n = b.getLsbD n := by
  rw [hbit, h]
  rfl

end

theorem toNat_natByte (n : Nat) : (natByte n).toNat = n % 256 := BitVec.toNat_ofNat _ _

theorem toNat_tileByte (t : Tile) : (tileByte t).toNat = t.toNat := by
  simp [tileByte]
  omega

/-- Settles O60. -/
theorem itemLayouts : Obligations.ItemLayouts := by
  intro u num bit hnum hbit
  refine ⟨length_items u, rfl, ?station, ?input, fun i r hr => ?slots, fun k e hk he => ?roster, fun k c hc => ?counters,
    num_word hnum u.port.flags rfl, num_word hnum u.enableMask rfl, num_byte hnum _ rfl, ?result⟩
  case station =>
    have hflags := getLsbD_threeBits u.member.hostHold u.bus.latch u.bus.stuck
    refine ⟨(num_byte hnum u.member.station.code rfl).trans (by cases u.member.station <;> rfl),
      (num_byte hnum u.loader.phase.code rfl).trans (by cases u.loader.phase <;> rfl),
      (num_byte hnum (copyCode u.loader.copyInUse) rfl).trans (by rcases u.loader.copyInUse with _ | (_ | _) <;> rfl),
      (num_byte hnum u.loader.cause.code rfl).trans (by cases u.loader.cause <;> rfl),
      (bit_byte hbit 0 _ rfl).trans hflags.1, (bit_byte hbit 1 _ rfl).trans hflags.2.1,
      (bit_byte hbit 2 _ rfl).trans hflags.2.2, (num_byte hnum _ rfl).trans (toNat_natByte _), num_nat hnum _ rfl,
      (num_byte hnum _ rfl).trans (toNat_tileByte _), num_word hnum _ rfl, num_nat hnum _ rfl, num_byte hnum _ rfl,
      num_byte hnum _ rfl, num_word hnum _ rfl, (num_byte hnum _ rfl).trans (toNat_tileByte _),
      (num_byte hnum _ rfl).trans (toNat_natByte _)⟩
  case input =>
    have husable := getLsbD_twoBits u.usable u.regionMiss
    have hhigh := getLsbD_twoBits u.input.record.hsHigh u.input.record.vsHigh
    refine ⟨num_byte hnum _ rfl, (bit_byte hbit 0 _ rfl).trans husable.1, (bit_byte hbit 1 _ rfl).trans husable.2,
      num_word hnum _ rfl, num_nat hnum _ rfl, num_nat hnum _ rfl, num_nat hnum _ rfl, num_nat hnum _ rfl,
      num_nat hnum _ rfl, num_nat hnum _ rfl, (bit_byte hbit 0 _ rfl).trans hhigh.1,
      (bit_byte hbit 1 _ rfl).trans hhigh.2, (hnum _ _ _).trans ?_⟩
    exact bytesNat_time _
  case slots =>
    have hpart : ∀ j n, j + n ≤ 10 →
        ((u.item .slots).drop (10 * i.val + j)).take n = ((slotBytesOf r).drop j).take n := fun j n hjn =>
      (take_drop_flatMap length_slotBytesOf (u.store.slots.toList_getElem? i) j n hjn).trans (by rw [hr])
    have hflag : (u.item .slots)[10 * i.val + 1]? = some (bitAt 0 r.torn ||| bitAt 1 r.pledged) :=
      (getElem?_flatMap length_slotBytesOf (u.store.slots.toList_getElem? i) 1 (by omega)).trans (by rw [hr]; rfl)
    have hbits := getLsbD_twoBits r.torn r.pledged
    exact ⟨(num_byte hnum r.state.code (hpart 0 1 (by omega))).trans (by cases r.state <;> rfl),
      (bit_byte hbit 0 _ hflag).trans hbits.1, (bit_byte hbit 1 _ hflag).trans hbits.2,
      num_word hnum _ (hpart 2 2 (by omega)), num_word hnum _ (hpart 4 2 (by omega)),
      num_nat hnum _ (hpart 6 2 (by omega)), num_nat hnum _ (hpart 8 2 (by omega))⟩
  case roster =>
    have hshown : u.shownEntry k = e := he
    have hpart : ∀ j n, j + n ≤ 12 → ((u.item .roster).drop (12 * k + j)).take n =
        ((u.shownCode k :: entryTail e).drop j).take n := fun j n hjn =>
      (take_drop_flatMap (length_rosterEntryBytes u) (List.getElem?_range hk) j n hjn).trans
        (by rw [rosterEntryBytes_eq, hshown])
    have htail : entryTail e = [natByte e.heard] ++ wordBytes e.wfn
        ++ [bitAt 0 e.stamp.isSome ||| (e.lock.code <<< 1) ||| (e.input.code <<< 3) ||| (reasonCode e.reason <<< 5)]
        ++ (wordBytes (BitVec.ofNat 16 (match e.stamp with | none => 0 | some q => q.wfn.toNat))
          ++ natWordBytes (match e.stamp with | none => 0 | some q => q.line))
        ++ [modeByte e.mode] ++ wordBytes e.effective := by
      rw [entryTail, stampBytes_eq]
    rw [htail] at hpart
    refine ⟨(num_byte hnum (u.shownCode k) (hpart 0 1 (by omega))).trans ?_,
      (num_byte hnum _ (hpart 1 1 (by omega))).trans (toNat_natByte _), num_word hnum _ (hpart 2 2 (by omega)),
      (num_byte hnum _ (hpart 4 1 (by omega))).trans ((toNat_entryFlags e).trans ?_),
      (num_word hnum _ (hpart 5 2 (by omega))).trans ?_, (num_nat hnum _ (hpart 7 2 (by omega))).trans ?_,
      num_byte hnum _ (hpart 9 1 (by omega)), num_word hnum _ (hpart 10 2 (by omega))⟩
    · rw [State.shownCode, hshown]
      split
      · obtain ⟨a, ha, ha'⟩ := u.member.station.code_eq
        rw [ha', ha]
        exact toNat_selfCode a
      · cases e.state <;> rfl
    · rcases e.reason with _ | (_ | _ | _) <;> rfl
    · cases e.stamp with
      | none => rfl
      | some q => simp
    · cases e.stamp <;> rfl
  case counters =>
    have hpart : ((u.item .counters).drop (2 * k + 0)).take 2 = wordBytes (u.counters.get c) :=
      take_drop_flatMap (f := fun c => wordBytes (u.counters.get c)) (fun _ => rfl) hc 0 2 (by omega)
    exact num_word hnum _ hpart
  case result => exact (num_byte hnum _ rfl).trans (by cases u.port.result <;> rfl)

end Sys2Proof.Machine
end

