-- ==== Sys2Proof/Proofs/PllWait.lean ====
section
/-! O13, the wait for the PLL: RUN with the start of the generator, or the backup, or FAULT (R165 to R167). -/

namespace Sys2Proof.Machine

/-! ## The start of the generator (R4, R166) -/

/-- A DETACHED station without a usable input, whose bus is as given. -/
structure State.Apart (b : Bus) (s : State) : Prop where
  station : s.member.station = .detached
  input : s.usable = false
  bus : s.bus = b

theorem State.Apart.of_eq {b : Bus} {s t : State} (h : s.Apart b) (hstation : t.member.station = s.member.station)
    (hinput : t.input = s.input) (hcfg : t.cfg = s.cfg) (hbus : t.bus = s.bus) : t.Apart b :=
  ⟨hstation.trans h.station, by rw [← h.input]; simp only [State.usable, hinput, hcfg], hbus.trans h.bus⟩

theorem State.Apart.blockFrameStart {b : Bus} {s : State} (k : Block) (h : s.Apart b) : (s.blockFrameStart k).Apart b := by
  cases k with
  | store => refine h.of_eq ?_ ?_ ?_ ?_ <;> simp [State.blockFrameStart]
  | mode => refine h.of_eq ?_ ?_ ?_ ?_ <;> simp [State.blockFrameStart]
  | picture => refine h.of_eq ?_ ?_ ?_ ?_ <;> simp [State.blockFrameStart]
  | membership =>
    refine State.memberFrameStart_keeps h (fun h => ?_) (fun u h => ?_) (fun u h => ?_) (fun u h => ?_) (fun u h => ?_)
    · obtain ⟨hstation, hbus⟩ := State.takeHold_detached h.station
      exact h.of_eq (hstation.trans h.station.symm) (by simp) (by simp) hbus
    · rw [State.realign_other (by simp [h.station])]
      exact h
    · rw [State.joinTest_of_not (by simp [h.input])]
      exact h
    · exact h.of_eq (by simp) (by simp) (by simp) (by simp)
    · exact h.of_eq (by simp) (by simp) (by simp) (by simp)

/-- The generator starts in SEEK, and the bus and the input monitor at their reset values (R4, R42, R60, R166). -/
theorem State.startGenerator_parts (s : State) :
    s.startGenerator.timing = { Timing.initial with running := true, lock := .seek }
    ∧ s.startGenerator.bus = { Bus.initial with active := true }
    ∧ s.startGenerator.input = { Input.initial with active := true }
    ∧ s.startGenerator.member.station = .detached ∧ s.startGenerator.flag .stateChange = true := by
  have happart := State.blocksFrameStart_keeps (P := State.Apart { Bus.initial with active := true })
    (fun b _ => State.Apart.blockFrameStart b)
    (s := (((s.setTiming { Timing.initial with running := true, lock := .seek }).setBus
      { Bus.initial with active := true }).setInput { Input.initial with active := true }).setStation .detached) []
    ⟨by simp, by simp [State.usable, Input.initial], by simp⟩
  simp only [State.startGenerator]
  refine ⟨by simp, happart.bus, by simp, happart.station, ?_⟩
  exact State.blocksFrameStart_flag_of_flag [] (State.setStation_flag _ _)

/-! ## FAULT (R167, R182) -/

theorem State.enterFault_parts (s : State) (c : Cause) :
    (s.enterFault c).loader = { Loader.initial with phase := .fault, cause := c }
    ∧ (s.enterFault c).member = { Membership.initial with station := .fault }
    ∧ (s.enterFault c).timing = Timing.initial ∧ (s.enterFault c).bus = Bus.initial
    ∧ (s.enterFault c).input = Input.initial ∧ (s.enterFault c).store = Store.initial
    ∧ (s.enterFault c).ballot = Ballot.initial ∧ (s.enterFault c).modes = Modes.initial
    ∧ (s.enterFault c).flag .fault = true ∧ (s.enterFault c).flag .stateChange = true
    ∧ (s.enterFault c).port.result = s.port.result
    ∧ (s.enterFault c).counters = s.counters ∧ (s.enterFault c).mem = s.mem :=
  ⟨rfl, rfl, rfl, rfl, rfl, rfl, rfl, rfl, State.flag_raise_of_flag _ (State.flag_raise _ _), State.flag_raise _ _,
    rfl, rfl, rfl⟩

/-- Entry to FAULT, settled: nothing but the selection for the following lines is found again. -/
theorem State.enterFault_settle (s : State) (c : Cause) : (s.enterFault c).settle =
    (s.enterFault c).setPicture { (s.enterFault c).picture with nextSelection := (s.enterFault c).findSelection } :=
  (s.enterFault_atRest c).settle

/-! ## The wait (R165) -/

theorem Loader.pass_pll {x : Loader} (w : Span) (h : x.phase = .pll) :
    (x.pass w).pllCount = min 54000 (x.pllCount + w.xref)
    ∧ (x.pass w).pllOver = (x.pllOver || decide (54000 < x.pllCount + w.xref)) := by
  have hgap : (x.countDelays w.xref).inGap = false := by simp [Loader.inGap, Loader.countDelays, h]
  rw [Loader.pass, hgap, if_neg Bool.false_ne_true, Loader.clockFlash_only]
  simp only [Loader.countDelays, h, if_true]
  exact ⟨rfl, rfl⟩

/-- Settles O13. -/
theorem pllWaitDecides : Obligations.PllWaitDecides := by
  intro w s u hu hphase
  refine ⟨fun hpll => ?wait, fun hover => ?late, fun hnot => ?lock, fun hcount hcopy => ?backup,
    fun hcount hcopy => ?fault⟩
  case wait =>
    obtain ⟨hcount, hover⟩ := Loader.pass_pll w hpll
    rw [← hu, (State.pass_parts w s).1]
    exact ⟨hcount, by simp [hover]⟩
  case late => exact event_passed (due := State.lockRead) (effect := State.enterRun) hu (by simp [State.lockRead, hover])
  case lock =>
    refine event_exists (due := State.lockRead) (effect := State.enterRun) hu
      (by simp [State.lockRead, hnot, hphase]) ?_
    obtain ⟨htiming, hbus, hinput, hstation, hflag⟩ :=
      (u.setLoader { u.loader with phase := .run }).startGenerator_parts
    have hsettled : u.enterRun.settle.bus = { Bus.initial with active := true } := by
      rw [State.settle_bus, State.enterRun, hbus]
      split <;> rfl
    refine ⟨?_, ?_, hsettled, by rw [hsettled]; rfl, by rw [hsettled]; rfl, ?_, ?_, ?_, ?_, ?_⟩
    · simp [State.enterRun]
    · simp [State.enterRun, htiming]
    · simp [State.enterRun, hinput]
    · simp [State.enterRun, hstation]
    · rw [State.settle_flag]
      exact hflag
    · simp [State.enterRun]
    · simp [State.enterRun]
  case backup =>
    exact event_settled (due := State.pllWaitOver) (effect := State.pllTimeout) hu
      (by simp [State.pllWaitOver, hphase, hcount, Config.pllWait]) (by simp only [State.pllTimeout, hcopy]; rfl)
  case fault =>
    refine event_exists (due := State.pllWaitOver) (effect := State.pllTimeout) hu
      (by simp [State.pllWaitOver, hphase, hcount, Config.pllWait]) ?_
    have heffect : u.pllTimeout = u.enterFault .pllNoLock := by simp only [State.pllTimeout, hcopy]
    obtain ⟨hloader, hmember, -, -, -, -, -, -, hfault, hchange, -, -, -⟩ := u.enterFault_parts .pllNoLock
    rw [heffect]
    refine ⟨by simp [hloader], by simp [hmember], ?_, ?_, by simp, by simp⟩
    · rw [State.settle_flag]
      exact hfault
    · rw [State.settle_flag]
      exact hchange

end Sys2Proof.Machine
end

