-- ==== Sys2Proof/Proofs/CopyRead.lean ====
section
/-! O8 and O9, the start delay, the flash pins, the reading of a copy and what its end decides (R154, R156 to R158,
R164, R165, R169). -/

namespace Sys2Proof.Machine

/-! ## A copy read whole (R156, R158) -/

theorem Loader.pass_reading {x : Loader} (w : Span) (h : x.phase = .primary ∨ x.phase = .backup) (hr : x.reading ≠ none) :
    x.pass w = (misoLevels w).foldl Loader.flashTick x := by
  have hwait : x.phase ≠ .wait := by rcases h with h | h <;> simp [h]
  have hpll : x.phase ≠ .pll := by rcases h with h | h <;> simp [h]
  have hsome : x.reading.isSome = true := Option.isSome_iff_ne_none.mpr hr
  have hgap : x.inGap = false := by simp [Loader.inGap, hsome]
  rw [Loader.pass, Loader.countDelays_reading hwait hpll, hgap, if_neg Bool.false_ne_true, Loader.clockFlash, if_pos hsome]

theorem foldl_flashTick_ended {x : Loader} (h : readEnded x.bytes = true) (l : List Bool) :
    l.foldl Loader.flashTick x = x := by
  induction l with
  | nil => rfl
  | cons m rest ih => rw [List.foldl_cons, Loader.flashTick_ended h, ih]

/-- The reader at the beginning of a transaction. -/
theorem Loader.ReadAt.start {c : Copy} {x : Loader} (l : List Byte) (hr : x.reading = some c) (hclock : x.spiClock = 0)
    (hbytes : x.bytes = []) (hbits : x.bits = []) : Loader.ReadAt c l 0 x :=
  ⟨hr, hclock, by simp [hbytes, wholeBytes], fun b _ => by simp [hbits, sampledBits]⟩

/-- Levels that give the bytes `l` at the rising edges after the address. -/
def Gives (l : List Byte) (m : List Bool) : Prop :=
  ∀ (k j : Nat) (b : Byte), l[k]? = some b → j < 8 → 128 + 32 * k + 4 * j + 2 < m.length →
    m[128 + 32 * k + 4 * j + 2]? = some (b.getMsbD j)

theorem Gives.run {c : Copy} {l : List Byte} {m : List Bool} {x : Loader} (h : Gives l m) (hl : readEnded l = true)
    (hx : Loader.ReadAt c l 0 x) (hm : m.length ≤ 4 * (32 + 8 * l.length)) :
    Loader.ReadAt c l m.length (m.foldl Loader.flashTick x) := by
  have hrun := hx.run hl m 0 (by omega) (fun i k j b hi hb hj hk => ?_)
  · rwa [Nat.zero_add] at hrun
  · obtain rfl : i = 128 + 32 * k + 4 * j + 2 := by omega
    exact h k j b hb hj (by simpa using hi)

theorem Gives.take {l : List Byte} {m : List Bool} (h : Gives l m) (n : Nat) : Gives l (m.take n) := by
  intro k j b hb hj hlt
  rw [List.length_take] at hlt
  rw [List.getElem?_take_of_lt (by omega)]
  exact h k j b hb hj (by omega)

/-- Before its last clock the read of a copy has not ended. -/
theorem Gives.unfinished {c : Copy} {l : List Byte} {m : List Bool} {x : Loader} (h : Gives l m) (hl : readEnded l = true)
    (hx : Loader.ReadAt c l 0 x) (hm : m.length < 4 * (32 + 8 * l.length)) :
    readEnded (m.foldl Loader.flashTick x).bytes = false := by
  have hrun := h.run hl hx hm.le
  have hlen : 5 ≤ l.length := by
    simp only [readEnded, Bool.and_eq_true, decide_eq_true_eq] at hl
    exact hl.1
  rw [hrun.bytes]
  refine readEnded_take hl ?_
  simp only [wholeBytes]
  omega

/-- At its last clock it has, and the bytes are those that the levels give. -/
theorem Gives.finished {c : Copy} {l : List Byte} {m : List Bool} {x : Loader} (h : Gives l m) (hl : readEnded l = true)
    (hx : Loader.ReadAt c l 0 x) (hm : 4 * (32 + 8 * l.length) ≤ m.length) :
    (m.foldl Loader.flashTick x).bytes = l ∧ (m.foldl Loader.flashTick x).spiClock = 4 * (32 + 8 * l.length)
    ∧ (m.foldl Loader.flashTick x).reading = some c := by
  have hlen : (m.take (4 * (32 + 8 * l.length))).length = 4 * (32 + 8 * l.length) := by
    rw [List.length_take]
    omega
  have hrun := (h.take (4 * (32 + 8 * l.length))).run hl hx hlen.le
  rw [hlen] at hrun
  have hwhole : wholeBytes (4 * (32 + 8 * l.length)) = l.length := by
    simp only [wholeBytes]
    omega
  have hbytes : ((m.take (4 * (32 + 8 * l.length))).foldl Loader.flashTick x).bytes = l := by
    rw [hrun.bytes, hwhole, List.take_length]
  rw [← List.take_append_drop (4 * (32 + 8 * l.length)) m, List.foldl_append, foldl_flashTick_ended (by rw [hbytes, hl])]
  exact ⟨hbytes, hrun.clock, hrun.reading⟩

theorem State.copyReadEnded_iff (s : State) : s.copyReadEnded = true ↔
    (s.loader.phase = .primary ∨ s.loader.phase = .backup) ∧ s.loader.reading ≠ none
      ∧ readEnded s.loader.bytes = true := by
  simp [State.copyReadEnded, Option.isSome_iff_ne_none, and_assoc]

/-! ## What the end of a read decides (R157, R164, R165) -/

theorem State.copyChecked_eq {s : State} {c : Copy} (h : s.loader.reading = some c) : s.copyChecked =
    match checkCopy s.loader.bytes with
    | .rejected cause => s.rejectCopy c cause
    | .accepted k => s.acceptCopy c k := by
  simp only [State.copyChecked, h] <;> rfl

theorem State.copyChecked_rejected {s : State} {c : Copy} {k : Cause} (h : s.loader.reading = some c)
    (hk : checkCopy s.loader.bytes = .rejected k) : s.copyChecked = s.rejectCopy c k := by
  rw [State.copyChecked_eq h, hk]

theorem State.copyChecked_accepted {s : State} {c : Copy} {k : Candidate} (h : s.loader.reading = some c)
    (hk : checkCopy s.loader.bytes = .accepted k) : s.copyChecked = s.acceptCopy c k := by
  rw [State.copyChecked_eq h, hk]

theorem State.acceptCopy_sameBut (s : State) (c : Copy) (k : Candidate) :
    SameBut [.loader, .member, .modes, .picture] s (s.acceptCopy c k) := by
  intro p hp
  cases p <;> simp_all [Part.same, State.acceptCopy]

/-- Settles O9. -/
theorem copyReadDecidesLoad : Obligations.CopyReadDecidesLoad := by
  refine ⟨fun w s u c l m hu hphase hr hclock hbytes hbits hl hm hbit => ?whole, fun w s u c hu hended hr =>
    ⟨fun k hk hc => ?primary, fun k hk hc => ?backup, fun k hk => ?accepted⟩⟩
  case whole =>
    have hlen : m.length = w.xref := by rw [← hm]; exact length_misoLevels w
    have hgives : Gives l m := fun k j b hb hj hlt => hbit k j b hb hj (hlen ▸ hlt)
    have hstart := Loader.ReadAt.start l hr hclock hbytes hbits
    have hloader : u.loader = m.foldl Loader.flashTick s.loader := by
      rw [← hu, (State.pass_parts w s).1, Loader.pass_reading w hphase (by simp [hr]), ← hm]
      rfl
    refine ⟨fun hlt => ?_, fun hle => ?_⟩
    · have hnot := hgives.unfinished hl hstart (hlen.symm ▸ hlt)
      rw [← hloader] at hnot
      rw [← Bool.not_eq_true, State.copyReadEnded_iff, hnot]
      simp
    · obtain ⟨hall, hat, hreading⟩ := hgives.finished hl hstart (hlen.symm ▸ hle)
      rw [← hloader] at hall hat hreading
      have hsame : u.loader.phase = s.loader.phase := by
        rw [← hu, (State.pass_parts w s).1]
        exact (Loader.pass_keeps _ _).1
      exact ⟨(State.copyReadEnded_iff u).mpr ⟨by rwa [hsame], by simp [hreading], by rw [hall, hl]⟩, hall, hat⟩
  case primary =>
    subst hc
    exact event_settled (due := State.copyReadEnded) (effect := State.copyChecked) hu hended
      (State.copyChecked_rejected hr hk)
  case backup =>
    subst hc
    refine event_exists (due := State.copyReadEnded) (effect := State.copyChecked) hu hended ?_
    rw [State.copyChecked_rejected hr hk, State.rejectCopy, State.enterFault_settle]
    obtain ⟨hloader, hmember, htiming, hbus, hinput, hstore, hballot, hmodes, hfault, hchange, hresult, hcounters, hmem⟩ :=
      u.enterFault_parts k
    exact ⟨hloader, hmember, htiming, hbus, hinput, hstore, hballot, hmodes, hfault, hchange, hresult, hcounters, hmem⟩
  case accepted =>
    refine event_exists (due := State.copyReadEnded) (effect := State.copyChecked) hu hended ?_
    rw [State.copyChecked_accepted hr hk]
    have hloader : (u.acceptCopy c k).settle.loader = (u.acceptCopy c k).loader := by simp
    have hpicture := State.settle_picture (u.acceptCopy c k)
    have hmodes : (u.acceptCopy c k).settle.modes = (u.acceptCopy c k).modes := by simp
    rw [State.cfg, hloader, hpicture, hmodes]
    exact ⟨rfl, rfl, rfl, rfl, rfl, rfl, rfl, rfl, rfl, rfl, rfl, rfl,
      ((u.acceptCopy_sameBut c k).mono (by simp)).settle (by simp)⟩

/-! ## The delay, the gap and the flash pins (R154, R156) -/

theorem Loader.pass_startCount (x : Loader) (w : Span) :
    (x.pass w).startCount = if x.phase = .wait then min 2700 (x.startCount + w.xref) else x.startCount := by
  rw [Loader.pass]
  split
  · split
    · rfl
    · rw [Loader.clockFlash_only]
      rfl
  · rw [Loader.clockFlash_only]
    rfl

/-- Between the primary's transaction and the backup's the clocks of the gap are counted (R156). -/
theorem Loader.pass_gap {x : Loader} (w : Span) (h : x.phase = .backup) (hr : x.reading = none) :
    (x.gap + w.xref < 16 → x.pass w = { x with gap := x.gap + w.xref })
    ∧ (16 ≤ x.gap + w.xref → x.pass w = ((misoLevels w).drop (16 - x.gap)).foldl Loader.flashTick
      { x with gap := 16, reading := some .backup, spiClock := 0, bytes := [], bits := [] }) := by
  have hgap : x.inGap = true := by simp [Loader.inGap, h, hr]
  rw [Loader.pass, Loader.countDelays_reading (by simp [h]) (by simp [h]), hgap, if_pos rfl]
  exact ⟨fun hlt => if_pos hlt, fun hle => if_neg (by simpa [Config.flashGap] using hle)⟩

theorem readEnded_iff (l : List Byte) :
    readEnded l = true ↔ 5 ≤ l.length ∧ l.length = if headerGood l then imageLength l else 5 := by
  simp only [readEnded, bytesWanted, Bool.and_eq_true, decide_eq_true_eq, beq_iff_eq]
  refine and_congr_right fun h => ?_
  rw [if_neg (by omega)]

/-- The word that FL_MOSI carries at the head of a read (R156). -/
def Copy.readWord : Copy → BitVec 32
  | .primary => 0x03000000#32
  | .backup => 0x03000800#32

/-- The bits of the command and the address, one in each period, and low after them. -/
theorem readCommand_bit (c : Copy) (k : Nat) :
    ((c.readCommand.flatMap byteBits)[k]?).getD false = c.readWord.getMsbD k := by
  by_cases hk : k < 32
  · have hall : ∀ j : Fin 32, ((c.readCommand.flatMap byteBits)[j.val]?).getD false = c.readWord.getMsbD j.val := by
      cases c <;> decide
    exact hall ⟨k, hk⟩
  · have hlen : (c.readCommand.flatMap byteBits).length = 32 := by cases c <;> rfl
    rw [List.getElem?_eq_none (by omega), BitVec.getMsbD_of_ge _ _ (by omega)]
    rfl

theorem State.flashSelected_iff (s : State) :
    s.flashSelected = true ↔ s.loader.reading ≠ none ∧ readEnded s.loader.bytes = false := by
  simp [State.flashSelected, Option.isSome_iff_ne_none]

theorem State.flashPins {s : State} {c : Copy} (h : s.flashSelected = true) (hc : s.loader.reading = some c) :
    s.flashClock = decide (2 ≤ s.loader.spiClock % 4) ∧ s.flashData = c.readWord.getMsbD (s.loader.spiClock / 4) := by
  refine ⟨by rw [State.flashClock, h, Bool.true_and]; rfl, ?_⟩
  rw [State.flashData, h, Bool.true_and, State.flashCommand, hc]
  exact readCommand_bit c _

/-- Eight bits and the byte they make. -/
theorem bitsByte_getMsbD {b : List Bool} (h : b.length = 8) : ∀ k, k < 8 → b[k]? = some ((bitsByte b).getMsbD k) := by
  match b, h with
  | [b0, b1, b2, b3, b4, b5, b6, b7], _ =>
    have hall : ∀ b0 b1 b2 b3 b4 b5 b6 b7 : Bool, ∀ k : Fin 8, [b0, b1, b2, b3, b4, b5, b6, b7][k.val]? =
        some ((bitsByte [b0, b1, b2, b3, b4, b5, b6, b7]).getMsbD k.val) := by
      decide +kernel
    exact fun k hk => hall b0 b1 b2 b3 b4 b5 b6 b7 ⟨k, hk⟩

theorem Loader.sampled_eq (x : Loader) (m : Bool) :
    x.sampled m = if x.spiClock % 4 = 2 ∧ 128 ≤ x.spiClock then x.bits ++ [m] else x.bits := by
  have hcond : (sckRises x.spiClock && dataPeriod x.spiClock) = true ↔ x.spiClock % 4 = 2 ∧ 128 ≤ x.spiClock := by
    have hdata : dataPeriod x.spiClock = true ↔ 32 ≤ x.spiClock / 4 := decide_eq_true_iff
    rw [Bool.and_eq_true, hdata]
    simp only [sckRises, Config.flashPeriod, beq_iff_eq]
    omega
  simp only [Loader.sampled, hcond]

/-- One clock of a transaction in progress (R156). -/
theorem Loader.flashTick_reading {x : Loader} (m : Bool) (hr : x.reading ≠ none) (hnot : readEnded x.bytes = false) :
    (x.spiClock % 4 = 3 → (x.sampled m).length = 8 → x.flashTick m =
      { x with spiClock := x.spiClock + 1, bits := [], bytes := x.bytes ++ [bitsByte (x.sampled m)] })
    ∧ (¬(x.spiClock % 4 = 3 ∧ (x.sampled m).length = 8) →
      x.flashTick m = { x with spiClock := x.spiClock + 1, bits := x.sampled m }) := by
  have hgoing : (x.reading.isSome && !readEnded x.bytes) = true := by
    simp [Option.isSome_iff_ne_none, hr, hnot]
  have hcond : (sckEnds x.spiClock && (x.sampled m).length == 8) = true ↔
      x.spiClock % 4 = 3 ∧ (x.sampled m).length = 8 := by
    simp only [sckEnds, Config.flashPeriod, Bool.and_eq_true, beq_iff_eq]
    omega
  rw [Loader.flashTick, if_pos hgoing]
  exact ⟨fun hend hlen => if_pos (hcond.mpr ⟨hend, hlen⟩), fun h => if_neg (fun hc => h (hcond.mp hc))⟩

theorem Loader.flashTick_idle {x : Loader} (m : Bool) (h : x.reading = none ∨ readEnded x.bytes = true) :
    x.flashTick m = x := by
  have hgoing : ¬(x.reading.isSome && !readEnded x.bytes) = true := by
    rcases h with h | h <;> simp [h]
  exact if_neg hgoing

/-- Settles O8. -/
theorem startDelayBeginsRead : Obligations.StartDelayBeginsRead := by
  refine ⟨fun w a s u hu => ⟨fun hheld => ?rise, ?_, ?_, fun hwait hcount => ?expiry, fun hr => ?_, fun hnot => ?_,
    readEnded_iff, fun c hc => ?_, fun m hm => ?clocks⟩, fun x m b hb => ?tick⟩
  case rise =>
    exact event_settled (due := fun t => t.loader.phase == .held) (effect := fun t => t.resetReleased a) hu
      (by simp [hheld]) rfl
  case expiry =>
    exact event_settled (due := State.startDelayOver) (effect := State.firstRead) hu
      (by simp [State.startDelayOver, hwait, hcount, Config.startDelay]) rfl
  case clocks =>
    obtain rfl : misoLevels w = m := hm
    rw [← hu, (State.pass_parts w s).1]
    exact ⟨fun hphase hr => Loader.pass_reading w hphase hr, fun hphase hr => Loader.pass_gap w hphase hr⟩
  case tick =>
    obtain rfl : x.sampled m = b := (x.sampled_eq m).trans hb
    refine ⟨Loader.flashTick_idle m, fun hr hnot => ?_⟩
    obtain ⟨hbyte, hbit⟩ := Loader.flashTick_reading m hr hnot
    exact ⟨fun hend hlen => ⟨_, bitsByte_getMsbD hlen, hbyte hend hlen⟩, hbit⟩
  · intro hwait
    rw [← hu, (State.pass_parts w s).1, Loader.pass_startCount, if_pos hwait]
  · intro hwait
    rw [← hu, (State.pass_parts w s).1, Loader.pass_startCount, if_neg hwait]
  · rw [← Bool.not_eq_true, State.flashSelected_iff]
    simp [hr]
  · exact ⟨by rw [State.flashClock, hnot, Bool.false_and], by rw [State.flashData, hnot, Bool.false_and]⟩
  · refine ⟨by simp [State.flashSelected_iff, hc], fun hsel => ?_⟩
    obtain ⟨hclock, hdata⟩ := State.flashPins hsel hc
    refine ⟨hclock, hdata.trans ?_⟩
    cases c <;> rfl

end Sys2Proof.Machine
end

