-- ==== Sys2Proof/Proofs/ImageChecks.lean ====
section
/-! O11, the checks of a copy in their order (R158 to R163). -/

namespace Sys2Proof.Machine

/-! ## The header (R158) -/

theorem bytesNat_pair (c d : Byte) : bytesNat [c, d] = c.toNat * 256 + d.toNat := by
  simp [bytesNat]

theorem headerGood_cons (a b c d e : Byte) (rest : List Byte) : headerGood (a :: b :: c :: d :: e :: rest) = true ↔
    a = 0x24#8 ∧ b = 0x10#8 ∧ 9 ≤ c.toNat * 256 + d.toNat ∧ c.toNat * 256 + d.toNat ≤ 2048 := by
  simp only [headerGood, bytesNat_pair, Bool.and_eq_true, beq_iff_eq, decide_eq_true_eq, and_assoc]

theorem headerGood_iff (l : List Byte) : headerGood l = true ↔ ∃ (c d e : Byte) (rest : List Byte),
    l = 0x24#8 :: 0x10#8 :: c :: d :: e :: rest ∧ 9 ≤ c.toNat * 256 + d.toNat
      ∧ c.toNat * 256 + d.toNat ≤ 2048 := by
  constructor
  · intro h
    match l with
    | a :: b :: c :: d :: e :: rest =>
      obtain ⟨rfl, rfl, hlow, hhigh⟩ := (headerGood_cons a b c d e rest).mp h
      exact ⟨c, d, e, rest, rfl, hlow, hhigh⟩
  · rintro ⟨c, d, e, rest, rfl, hlow, hhigh⟩
    exact (headerGood_cons _ _ _ _ _ _).mpr ⟨rfl, rfl, hlow, hhigh⟩

/-! ## Records (R160) -/

/-- A record as it stands in an image. -/
def ImageRecord.bytes (r : ImageRecord) : List Byte := BitVec.ofNat 8 r.kind :: (natWordBytes r.body.length ++ r.body)

theorem walkRecords_bytes {rs : List ImageRecord} (h : ∀ r ∈ rs, r.kind < 256 ∧ r.body.length < 65536) :
    walkRecords rs.length (rs.flatMap ImageRecord.bytes) = some rs := by
  induction rs with
  | nil => rfl
  | cons r rest ih =>
    obtain ⟨hkind, hlen⟩ := h r List.mem_cons_self
    have hbytes : ImageRecord.bytes r = BitVec.ofNat 8 r.kind ::
        (BitVec.ofNat 16 r.body.length).extractLsb' 8 8 :: (BitVec.ofNat 16 r.body.length).extractLsb' 0 8 :: r.body := rfl
    have hnat : bytesNat [(BitVec.ofNat 16 r.body.length).extractLsb' 8 8,
        (BitVec.ofNat 16 r.body.length).extractLsb' 0 8] = r.body.length :=
      (bytesNat_natWordBytes r.body.length).trans (Nat.mod_eq_of_lt hlen)
    have hk : (BitVec.ofNat 8 r.kind).toNat = r.kind := by
      rw [BitVec.toNat_ofNat]
      exact Nat.mod_eq_of_lt hkind
    have hrest := ih (fun x hx => h x (List.mem_cons_of_mem _ hx))
    rw [List.flatMap_cons, hbytes]
    simp only [List.length_cons, List.cons_append, walkRecords, hnat, List.length_append, Nat.le_add_right, if_true,
      List.drop_left, List.take_left, hrest, Option.map_some, hk]

theorem natWordBytes_pair (hi lo : Byte) : natWordBytes (bytesNat [hi, lo]) = [hi, lo] := by
  have hlo := lo.isLt
  have hhi := hi.isLt
  have hnat : (BitVec.ofNat 16 (hi.toNat * 256 + lo.toNat)).toNat = hi.toNat * 256 + lo.toNat := by
    rw [BitVec.toNat_ofNat]
    omega
  have hhigh : (hi.toNat * 256 + lo.toNat) / 256 = hi.toNat := by omega
  have hlow : (hi.toNat * 256 + lo.toNat) % 256 = lo.toNat := by omega
  rw [bytesNat_pair, natWordBytes, wordBytes_toNat, hnat, hhigh, hlow]
  simp

theorem walkRecords_some {n : Nat} {body : List Byte} {rs : List ImageRecord} (h : walkRecords n body = some rs) :
    rs.length = n ∧ body = rs.flatMap ImageRecord.bytes := by
  induction n generalizing body rs with
  | zero =>
    cases body with
    | nil =>
      cases h
      exact ⟨rfl, rfl⟩
    | cons b rest => cases h
  | succ n ih =>
    match body with
    | k :: hi :: lo :: rest =>
      simp only [walkRecords] at h
      split at h
      · next hle =>
        obtain ⟨rs', hrs, rfl⟩ := Option.map_eq_some_iff.mp h
        obtain ⟨hlen, hbody⟩ := ih hrs
        refine ⟨by rw [List.length_cons, hlen], ?_⟩
        have htake : (rest.take (bytesNat [hi, lo])).length = bytesNat [hi, lo] := by
          rw [List.length_take]
          omega
        have hword : natWordBytes (bytesNat [hi, lo]) = [hi, lo] := natWordBytes_pair hi lo
        rw [List.flatMap_cons, ← hbody]
        simp only [ImageRecord.bytes, htake, hword, BitVec.ofNat_toNat, BitVec.setWidth_eq, List.cons_append,
          List.nil_append, List.take_append_drop]
      · cases h

/-! ## Fields (R161, R162) -/

theorem fieldOr_eq (b : List Byte) (i n d : Nat) :
    fieldOr b i n d = if i + n ≤ b.length then bytesNat ((b.drop i).take n) else d := by
  rw [fieldOr, givenField]
  split <;> rfl

theorem inRange_iff (lo hi v : Nat) : inRange lo hi v = true ↔ lo ≤ v ∧ v ≤ hi := by
  simp only [inRange, Bool.and_eq_true, decide_eq_true_eq]

/-! ## The checks in order (R159 to R163) -/

theorem checkCopy_checked {l : List Byte} {n : Nat} (hgood : headerGood l = true) (hn : imageLength l = n)
    (hcrc : (crc32 (l.take (n - 4))).toNat = bytesNat ((l.drop (n - 4)).take 4)) :
    checkCopy l = checkRecords (bytesNat ((l.drop 4).take 1)) ((l.take (n - 4)).drop 5) := by
  simp only [checkCopy, hgood, hn, Bool.not_true, if_neg Bool.false_ne_true, hcrc, ne_eq, not_true_eq_false, if_false]

theorem recordCount {l : List Byte} {count : Nat} (h : (l[4]?).map (·.toNat) = some count) :
    bytesNat ((l.drop 4).take 1) = count := by
  obtain ⟨b, hb, rfl⟩ := Option.map_eq_some_iff.mp h
  obtain ⟨hlt, rfl⟩ := List.getElem?_eq_some_iff.mp hb
  rw [List.drop_eq_getElem_cons hlt]
  exact bytesNat_single _

theorem minimumBody_some {k m : Nat} (h : minimumBody k = some m) : k ∈ [1, 2, 3, 4, 5, 6, 7, 8] := by
  simp only [minimumBody] at h
  split at h <;> simp_all

theorem lengthsSound_iff (rs : List ImageRecord) : lengthsSound rs = true ↔
    ∀ k b m, firstOf rs k = some b → minimumBody k = some m → m ≤ b.length := by
  simp only [lengthsSound, List.all_eq_true]
  constructor
  · intro h k b m hb hm
    have hk := h k (minimumBody_some hm)
    rw [hb, hm] at hk
    exact of_decide_eq_true hk
  · intro h k _
    rcases Option.eq_none_or_eq_some (firstOf rs k) with hb | ⟨b, hb⟩
    · rw [hb]
    · rcases Option.eq_none_or_eq_some (minimumBody k) with hm | ⟨m, hm⟩
      · rw [hb, hm]
      · rw [hb, hm]
        exact decide_eq_true (h k b m hb hm)

theorem mandatoryMet_iff (rs : List ImageRecord) :
    mandatoryMet rs = true ↔ ∀ k, 1 ≤ k → k ≤ 7 → firstOf rs k ≠ none := by
  simp only [mandatoryMet, List.all_eq_true, Option.isSome_iff_ne_none]
  constructor
  · intro h k hlow hhigh
    refine h k ?_
    simp only [List.mem_cons, List.not_mem_nil, or_false]
    omega
  · intro h k hk
    simp only [List.mem_cons, List.not_mem_nil, or_false] at hk
    exact h k (by omega) (by omega)

theorem rangesHold_iff {f : RawFields} {c : Settings} (h : settingsOf f = c) : rangesHold f = true ↔
    fieldOr f.station 0 1 0 ≤ 31 ∧ 1 ≤ c.skew ∧ c.skew ≤ 15 ∧ 1 ≤ c.multiplier ∧ c.multiplier ≤ 255 ∧ 1 ≤ c.divider
      ∧ c.divider ≤ 255 ∧ 256 ≤ c.htot ∧ c.htot ≤ 4095 ∧ 128 ≤ c.vtot ∧ c.vtot ≤ 2047 ∧ c.hstart ≤ 4095 ∧ 16 ≤ c.aw
      ∧ c.aw ≤ 4095 ∧ c.vstart ≤ 2047 ∧ 16 ≤ c.ah ∧ c.ah ≤ 2047 ∧ 1 ≤ c.hsw ∧ c.hsw ≤ 4095 ∧ 1 ≤ c.vsw ∧ c.vsw ≤ 2047
      ∧ fieldOr f.output 18 1 0 ≤ 7 ∧ c.sopen ≤ 2047 ∧ c.scut ≤ 2047 ∧ c.bline ≤ 2047 ∧ 16 ≤ c.lockwin
      ∧ c.lockwin ≤ 1023 ∧ 1 ≤ c.slew ∧ c.slew ≤ 65535 ∧ 2 ≤ c.lonewait ∧ c.lonewait ≤ 255 ∧ c.rx ≤ 4095 ∧ c.ry ≤ 4095
      ∧ 16 ≤ c.rw ∧ c.rw ≤ 2048 ∧ 16 ≤ c.rh ∧ c.rh ≤ 1536 ∧ c.cx ≤ 4095 ∧ c.cy ≤ 2047 ∧ 1 ≤ c.cw ∧ c.cw ≤ 4095
      ∧ 1 ≤ c.ch ∧ c.ch ≤ 2047 ∧ 4 ≤ c.foundwait ∧ c.foundwait ≤ 255 ∧ 2 ≤ c.lapse ∧ c.lapse ≤ 255
      ∧ c.holdframes ≤ 255 ∧ 4 ≤ c.modelead ∧ c.modelead ≤ 64 ∧ fieldOr f.picture 3 1 0 ≤ 1
      ∧ initialModeOf f ≠ none ∧ fieldOr f.picture 6 1 0 ≤ 1 := by
  simp only [rangesHold, h, Bool.and_eq_true, inRange_iff, Option.isSome_iff_ne_none, Nat.zero_le, true_and, and_assoc]

theorem relationsHold_iff (c : Settings) : relationsHold c = true ↔
    25 * c.divider ≤ 27 * c.multiplier ∧ 27 * c.multiplier ≤ 165 * c.divider ∧ c.hstart + c.aw ≤ c.htot
      ∧ c.vstart + c.ah ≤ c.vtot ∧ c.hsw + 1 ≤ c.htot ∧ c.vsw + 1 ≤ c.vtot ∧ 2 ≤ c.sopen ∧ c.sopen + 32 ≤ c.scut
      ∧ c.scut + 4 ≤ c.bline ∧ c.bline + 12 + (c.slew + c.htot - 1) / c.htot ≤ c.vtot ∧ 4 * c.lockwin ≤ c.htot
      ∧ c.cx + c.cw ≤ c.aw ∧ c.cy + c.ch ≤ c.ah ∧ c.rw ≤ 2 * c.cw ∧ c.cw ≤ 8 * c.rw ∧ c.rh ≤ 2 * c.ch
      ∧ c.ch ≤ 8 * c.rh ∧ c.rx + c.rw ≤ 4095 ∧ c.ry + c.rh ≤ 4095 := by
  simp only [relationsHold, Bool.and_eq_true, decide_eq_true_eq, and_assoc]
  exact Iff.rfl

/-- Settles O11. -/
theorem imageChecksDecide : Obligations.ImageChecksDecide := by
  refine ⟨headerGood_iff, fun a b c d rest => bytesNat_pair c d, fun l h => ?header, fun l body n count hgood hn hcrc hbody
    hcount => ?checks, fun rs => walkRecords_bytes, fun n body rs => walkRecords_some, rfl, fieldOr_eq,
    fun f c h => rangesHold_iff h, relationsHold_iff⟩
  case header => simp only [checkCopy, h, Bool.not_false, if_true]
  case checks =>
    have hcheck : checkCopy l = checkRecords count body := by
      rw [checkCopy_checked hgood hn hcrc, recordCount hcount, hbody]
    rw [hcheck, checkRecords]
    refine ⟨fun hnone => by rw [hnone], fun rs hrs => ?_⟩
    rw [hrs]
    dsimp only
    refine ⟨fun ⟨k, b, m, hb, hm, hlt⟩ => ?_, fun hsound => ⟨fun ⟨k, hlow, hhigh, hnone⟩ => ?_, fun hmet => ?_⟩⟩
    · have hnot : lengthsSound rs = false := by
        rw [← Bool.not_eq_true, lengthsSound_iff]
        intro hall
        have hle := hall k b m hb hm
        omega
      rw [hnot, Bool.not_false, if_pos rfl]
    · have hnot : mandatoryMet rs = false := by
        rw [← Bool.not_eq_true, mandatoryMet_iff]
        exact fun hall => hall k hlow hhigh hnone
      rw [(lengthsSound_iff rs).mpr hsound, hnot]
      rfl
    · rw [(lengthsSound_iff rs).mpr hsound, (mandatoryMet_iff rs).mpr hmet]
      refine ⟨fun hranges => ?_, fun hranges hrelations => ?_, fun hranges hrelations => ?_⟩
      · rw [hranges]
        rfl
      · rw [hranges, hrelations]
        rfl
      · rw [hranges, hrelations]
        rfl

end Sys2Proof.Machine
end

