-- ==== Sys2Proof/Proofs/ImageFields.lean ====
section
/-! O12, the settings and gamma tables that the fields of an image give (R150, R160 to R162, R164). -/

namespace Sys2Proof.Machine

theorem firstOf_eq_none_iff (rs : List ImageRecord) (k : Nat) : firstOf rs k = none ↔ ∀ r ∈ rs, r.kind ≠ k := by
  simp [firstOf]

theorem firstOf_eq_some_iff (rs : List ImageRecord) (k : Nat) (b : List Byte) : firstOf rs k = some b ↔
    ∃ before rest, rs = before ++ ⟨k, b⟩ :: rest ∧ ∀ r ∈ before, r.kind ≠ k := by
  simp only [firstOf, Option.map_eq_some_iff, List.find?_eq_some_iff_append, beq_iff_eq, Bool.not_eq_true',
    beq_eq_false_iff_ne]
  constructor
  · rintro ⟨⟨kind, body⟩, ⟨rfl, before, rest, hrs, hbefore⟩, rfl⟩
    exact ⟨before, rest, hrs, hbefore⟩
  · rintro ⟨before, rest, hrs, hbefore⟩
    exact ⟨⟨k, b⟩, ⟨rfl, before, rest, hrs, hbefore⟩, rfl⟩

/-! ## The initial mode (section 12.3) -/

theorem initialModeOf_short {f : RawFields} (h : f.picture.length < 6) : initialModeOf f = some .live := by
  have hnone : givenField f.picture 4 2 = none := if_neg (by omega)
  have hbytes : initialModeBytes f = (0, 0) := by rw [initialModeBytes, hnone]
  rw [initialModeOf, hbytes]
  rfl

/-- The mode that a kind and an index give. -/
theorem initialModeOf_given {f : RawFields} {k n : Byte} (hk : f.picture[4]? = some k) (hn : f.picture[5]? = some n) :
    initialModeOf f =
      if k.toNat = 0 then some .live
      else if k.toNat = 1 then some .fill
      else if k.toNat = 2 then (if h : n.toNat < 12 then some (.pattern ⟨n.toNat, h⟩) else none)
      else none := by
  have hnlt := n.isLt
  obtain ⟨h4, rfl⟩ := List.getElem?_eq_some_iff.mp hk
  obtain ⟨h5, rfl⟩ := List.getElem?_eq_some_iff.mp hn
  have htake : (f.picture.drop 4).take 2 = [f.picture[4], f.picture[5]] := by
    rw [List.drop_eq_getElem_cons h4, List.drop_eq_getElem_cons h5]
    rfl
  have hgiven : givenField f.picture 4 2 = some (f.picture[4].toNat * 256 + f.picture[5].toNat) := by
    rw [givenField, if_pos (by omega), htake, bytesNat_pair]
  have hbytes : initialModeBytes f = (f.picture[4].toNat, f.picture[5].toNat) := by
    rw [initialModeBytes, hgiven]
    simp only [Prod.mk.injEq]
    omega
  rw [initialModeOf, hbytes]

theorem identityGamma_get {k : Nat} (h : k < 256) : identityGamma[k]? = some (BitVec.ofNat 8 k) := by
  simp [identityGamma, h]

/-- A given gamma table is the bytes at its place in the body. -/
theorem gammaTable_get {g : List Byte} (at' : Nat) {k : Nat} (h : k < 256) : ((g.drop at').take 256)[k]? = g[at' + k]? := by
  rw [List.getElem?_take_of_lt h, List.getElem?_drop]

/-- Settles O12. -/
theorem imageFieldsGiveSettings : Obligations.ImageFieldsGiveSettings := by
  refine ⟨fun rs k => ⟨firstOf_eq_none_iff rs k, firstOf_eq_some_iff rs k⟩, fun rs => rfl, fun f c hc => ?settings,
    fun f => ⟨initialModeOf_short, fun k n hk hn => ?mode⟩, fun f => ⟨?fields, fun hnone => ?identity, fun g hg hlen k hk => ?table⟩⟩
  case settings =>
    subst hc
    exact ⟨rfl, rfl, rfl, rfl, rfl, rfl, rfl, rfl, rfl, rfl, rfl, rfl, rfl, beq_iff_eq, beq_iff_eq, beq_iff_eq, rfl, rfl,
      rfl, rfl, rfl, rfl, rfl, rfl, rfl, rfl, rfl, rfl, rfl, rfl, rfl, rfl, rfl, rfl, rfl, rfl, rfl, beq_iff_eq⟩
  case mode =>
    have hmode := initialModeOf_given hk hn
    refine ⟨fun h => ?_, fun h => ?_, fun hlt h => ?_, fun hge h => ?_, fun h => ?_⟩
    · rw [hmode, h]
      rfl
    · rw [hmode, h]
      rfl
    · rw [hmode, h]
      exact dif_pos hlt
    · rw [hmode, h]
      exact dif_neg (by omega)
    · rw [hmode, if_neg (by omega), if_neg (by omega), if_neg (by omega)]
  case fields =>
    simp only [candidateOf]
    split <;> rfl
  case identity =>
    have hcandidate : candidateOf f = ⟨settingsOf f, identityGamma, identityGamma, identityGamma⟩ := by
      simp only [candidateOf, hnone]
    rw [hcandidate]
    exact ⟨rfl, rfl, rfl, fun k hk => identityGamma_get hk⟩
  case table =>
    have hcandidate : candidateOf f =
        ⟨settingsOf f, g.take 256, (g.drop 256).take 256, (g.drop 512).take 256⟩ := by
      simp only [candidateOf, hg]
    rw [hcandidate]
    exact ⟨List.getElem?_take_of_lt hk, gammaTable_get 256 hk, gammaTable_get 512 hk⟩

end Sys2Proof.Machine
end

