-- ==== Sys2Proof/Proofs/MemberPicture.lean ====
section
/-! O20, a MEMBER shows a picture (R116). -/

namespace Sys2Proof.Machine

/-! ## The picture of a MEMBER kept -/

def State.Shows (s : State) : Prop := ∃ i, (s.store.slots.get i).state = .showing

theorem State.pictureLaw_iff (s : State) : s.PictureLaw ↔ (s.member.station = .member → s.Shows) := by
  simp only [State.PictureLaw, Nat.succ_le_iff, Slots.number_pos_iff, State.Shows]

/-- No station is raised to MEMBER, and one that stays MEMBER keeps a SHOWING slot. -/
structure PictureKept (s t : State) : Prop where
  member : t.member.station = .member → s.member.station = .member
  shows : t.member.station = .member → s.Shows → t.Shows

theorem PictureKept.law {s t : State} (h : PictureKept s t) (hs : s.PictureLaw) : t.PictureLaw := by
  rw [State.pictureLaw_iff] at hs ⊢
  exact fun hm => h.shows hm (hs (h.member hm))

theorem PictureKept.trans {s t u : State} (h : PictureKept s t) (h' : PictureKept t u) : PictureKept s u :=
  ⟨fun hm => h.member (h'.member hm), fun hm hs => h'.shows hm (h.shows (h'.member hm) hs)⟩

theorem PictureKept.of_showing {s t : State} (hstation : t.member.station = s.member.station)
    (hslots : ∀ i, (s.store.slots.get i).state = .showing → (t.store.slots.get i).state = .showing) : PictureKept s t :=
  ⟨fun hm => hstation ▸ hm, fun _ ⟨i, hi⟩ => ⟨i, hslots i hi⟩⟩

theorem PictureKept.of_eq {s t : State} (hstation : t.member.station = s.member.station)
    (hslots : t.store.slots = s.store.slots) : PictureKept s t :=
  .of_showing hstation (fun i hi => by rw [hslots]; exact hi)

theorem PictureKept.refl (s : State) : PictureKept s s := .of_eq rfl rfl

theorem PictureKept.of_apart {s t : State} (h : t.member.station ≠ .member) : PictureKept s t :=
  ⟨fun hm => absurd hm h, fun hm => absurd hm h⟩

theorem State.PictureLaw.of_apart {s : State} (h : s.member.station ≠ .member) : s.PictureLaw :=
  (State.pictureLaw_iff s).mpr (fun hm => absurd hm h)

/-! ## The input -/

/-- The capture in progress has its slot FILLING. -/
def State.CaptureFilling (s : State) : Prop :=
  ∀ p, s.input.progress = some p → (s.store.slots.get p.slot).state = .filling

theorem State.CaptureFilling.thin {s t : State} (hs : s.CaptureFilling) (h : Thinned s t) : t.CaptureFilling := by
  intro p hp
  obtain ⟨q, hq, hslot⟩ := h.progress p hp
  have hfilling := hs q hq
  rw [hslot] at hfilling
  rcases h.slot p.slot with ⟨-, hnot⟩ | ⟨hsame, -⟩
  · exact absurd hfilling hnot
  · rw [hsame, hfilling]

theorem Store.lineEnded_state (c : Settings) (p : Progress) (x : Store) (i : Fin 5) :
    ((x.lineEnded c p).slots.get i).state = (x.slots.get i).state := by
  cases h : lineUnfinished c p with
  | false => rw [Store.lineEnded_finished x h]
  | true =>
    obtain ⟨-, hother, hslot, -⟩ := x.lineEnded_parts h
    by_cases hi : i = p.slot
    · rw [hi, hslot]
    · rw [hother i hi]

theorem State.lineEndStore_state (s : State) (i : Fin 5) :
    (s.lineEndStore.slots.get i).state = (s.store.slots.get i).state := by
  cases h : s.input.progress with
  | none => simp [State.lineEndStore, h]
  | some p => simp [State.lineEndStore, h, Store.lineEnded_state]

theorem PictureKept.endInputLine (s : State) : PictureKept s s.endInputLine := by
  refine .of_showing (by simp) (fun i hi => ?_)
  rw [State.endInputLine_eq, State.setInput_store, State.setStore_store, State.lineEndStore_state, hi]

theorem PictureKept.completeCapture {s : State} (h : s.CaptureFilling) : PictureKept s s.completeCapture := by
  refine .of_showing (by simp) (fun i hi => ?_)
  rcases s.completeCapture_slots with hslots | ⟨p, hp, hslots | hslots⟩
  · rw [hslots, hi]
  · have hne : i ≠ p.slot := fun he => by simp [he, h p hp] at hi
    rw [hslots, Slots.get_modify, if_neg hne, hi]
  · have hne : i ≠ p.slot := fun he => by simp [he, h p hp] at hi
    rw [hslots, Slots.get_modify, if_neg hne, hi]

theorem PictureKept.abandonCapture (s : State) : PictureKept s s.abandonCapture := by
  refine .of_showing (by simp) (fun i hi => ?_)
  rw [State.abandonCapture_slots, Slots.get_freeWhere, if_neg (by simp [hi]), hi]

/-- A grant leaves the SHOWING slot SHOWING. -/
theorem PictureKept.beginFrame (s : State) : PictureKept s s.beginFrame := by
  have hchecked : ∀ i, (s.store.slots.get i).state = .showing →
      ((s.countFrame.windowChecked (s.input.lcs + 1)).store.slots.get i).state = .showing := by
    intro i hi
    rcases s.countFrame.windowChecked_state (s.input.lcs + 1) i with h | ⟨-, hready⟩
    · exact h.trans hi
    · cases hi.symm.trans hready
  refine .of_showing (by simp) (fun i hi => ?_)
  rcases s.beginFrame_cases with h | h | ⟨k, hk, hslots, -⟩
  · rw [h]
    exact hi
  · rw [h]
    exact hchecked i hi
  · have hne : i ≠ k := by
      rintro rfl
      rcases grantChoice_state hk with hfree | ⟨hready, -⟩
      · cases (hchecked i hi).symm.trans hfree
      · cases (hchecked i hi).symm.trans hready
    rw [hslots, Slots.get_modify, if_neg hne]
    exact hchecked i hi

theorem PictureKept.reportInput (s : State) : PictureKept s s.reportInput := by
  simp only [State.reportInput]
  split
  · exact .refl s
  · exact .of_apart s.inputLost_station.2

theorem PictureKept.lastLineTaken {s : State} (h : s.CaptureFilling) : PictureKept s s.lastLineTaken := by
  have hline := h.thin (Thinned.refl s).endInputLine
  simp only [State.lastLineTaken]
  split
  · exact (PictureKept.endInputLine s).trans (.completeCapture hline)
  · exact .endInputLine s

theorem PictureKept.shortCheck {s : State} (h : s.CaptureFilling) : PictureKept s s.shortCheck := by
  have hline := PictureKept.lastLineTaken h
  rw [State.shortCheck_eq]
  split
  · exact (hline.trans (.abandonCapture _)).trans (.of_eq rfl rfl)
  · exact hline.trans (.of_eq rfl rfl)

theorem PictureKept.inputVs {s : State} (h : s.CaptureFilling) : PictureKept s s.inputVs := by
  simp only [State.inputVs]
  split
  · simp only [State.vsInNoSignal]
    split
    · refine PictureKept.trans ?_ (.reportInput _)
      exact .of_eq rfl rfl
    · exact .of_eq rfl rfl
  · rcases s.vsInAcquiring_cases with ⟨r, hstable⟩ | ⟨c, n, hcounted⟩
    · rw [hstable]
      refine PictureKept.trans (PictureKept.trans ?_ (.beginFrame _)) (.reportInput _)
      exact .of_eq rfl rfl
    · rw [hcounted]
      exact .of_eq rfl rfl
  · have hshort := (PictureKept.shortCheck h).trans (.of_eq (t := s.shortCheck.closeFrame) rfl rfl)
    rw [State.vsInStable_eq]
    split
    · exact hshort.trans (.beginFrame _)
    · refine PictureKept.trans (hshort.trans ?_) (.reportInput _)
      exact .of_eq rfl rfl

theorem PictureKept.takeHeldVs {s : State} (h : s.CaptureFilling) : PictureKept s s.takeHeldVs := by
  refine PictureKept.trans ?_ (PictureKept.inputVs (s := s.setInput { s.input with heldVs := none }) h)
  exact .of_eq rfl rfl

theorem PictureKept.takeHs {s : State} (h : s.CaptureFilling) : PictureKept s s.takeHs := by
  have htaken : PictureKept s s.hsTaken := (PictureKept.endInputLine s).trans
    (.of_eq (by simp [State.hsTaken]) (by simp [State.hsTaken, State.endInputLine_eq]))
  have hfilling : s.hsTaken.CaptureFilling := by
    refine h.thin ((Thinned.refl s).endInputLine.trans (.of_input ?_ ?_ ?_ fun q hq => ⟨q, ?_, rfl⟩))
    · simp [State.hsTaken, State.endInputLine_eq]
    · simp [State.hsTaken, State.endInputLine_eq]
    · simp [State.hsTaken, State.endInputLine_eq]
    · simpa [State.hsTaken, State.endInputLine_eq] using hq
  rw [State.takeHs_eq]
  split
  · exact htaken.trans (.takeHeldVs hfilling)
  · exact htaken

theorem PictureKept.loseSignal (s : State) : PictureKept s s.loseSignal := by
  rw [State.loseSignal_eq]
  exact .of_apart s.signalGone.inputLost_station.2

theorem State.offerPixel_state (s : State) (x : WritePixel) (i : Fin 5) :
    ((s.offerPixel x).store.slots.get i).state = (s.store.slots.get i).state := by
  simp only [State.offerPixel]
  split
  · rfl
  · split
    · rfl
    · simp only [State.markTorn, State.setSlots_slots, Slots.get_modify]
      split <;> rfl

theorem PictureKept.takePixel (s : State) (v : Rgb) : PictureKept s (Machine.State.takePixel s v) := by
  refine .of_showing (by simp) (fun i hi => ?_)
  rcases Option.eq_none_or_eq_some s.input.progress with h | ⟨p, h⟩
  · rw [State.takePixel_idle v h]
    exact hi
  · obtain ⟨e, q, htake, -, -, ⟨-, hstore, -⟩ | ⟨-, -, -, hstore⟩ | ⟨-, -, -, hstore⟩⟩ := State.takePixel_cases v h
    · rw [htake, State.setInput_store, hstore, hi]
    · rw [htake, State.setInput_store, hstore, State.lineWritten, State.setSlots_slots, Slots.get_modify]
      split <;> simpa [State.offerPixel_state] using hi
    · rw [htake, State.setInput_store, hstore, State.offerPixel_state, hi]

/-! ## The ballot -/

theorem PictureKept.ballotReport (s : State) (p : Word) (d : Nat) : PictureKept s (s.ballotReport p d) := by
  refine .of_showing (by simp) (fun i hi => ?_)
  rw [State.ballotReport_get]
  split
  · next hpick => cases (Slots.ballotPick_state hpick).1.symm.trans hi
  · exact hi

theorem PictureKept.ballotTrouble (s : State) (c : Counter) : PictureKept s (s.ballotTrouble c) := by
  refine .of_apart fun hm => ?_
  rw [State.ballotTrouble, State.realign_station] at hm
  split at hm
  · cases hm
  · next h => exact h hm

theorem PictureKept.ballotLineEvent (s : State) (td : Level) : PictureKept s (s.ballotLineEvent td) := by
  simp only [State.ballotLineEvent]
  split
  · split
    · refine PictureKept.trans ?_ (.ballotTrouble _ _)
      exact .of_eq rfl rfl
    · refine PictureKept.trans ?_ (.ballotTrouble _ _)
      exact .of_eq rfl rfl
    · refine .of_showing (by simp) (fun i hi => ?_)
      refine Eq.trans ?_ hi
      refine (congrArg Slot.state (State.pledge_get _ i)).trans ?_
      split <;> rfl
  · exact .of_eq rfl rfl

theorem PictureKept.endBallot (s : State) : PictureKept s s.endBallot := by
  simp only [State.endBallot]
  split
  · exact .ballotTrouble s _
  · exact (PictureKept.ballotReport s s.ballot.p (resultOf s.ballot.lineResult)).trans (.of_eq (by simp) (by simp))

/-! ## Messages and the cut-off -/

theorem PictureKept.detectDuplicate (s : State) (t : Tile) : PictureKept s (s.detectDuplicate t) := by
  simp only [State.detectDuplicate]
  split
  · split
    · exact .of_eq (by simp) (by simp)
    · exact .of_apart (State.silenceStation_station _).2
  · exact .refl s

theorem PictureKept.handOver (s : State) : PictureKept s s.handOver := by
  simp only [State.handOver]
  split
  · exact .refl s
  · refine PictureKept.trans ?_ (.detectDuplicate _ _)
    split <;> exact .of_eq (by simp) (by simp)

@[simp] theorem showSlot_shows (x : Slots) (i : Fin 5) : ((showSlot x i).get i).state = .showing := by
  rw [showSlot_get_same]

/-- A station that an alignment makes a MEMBER shows the slot aligned on (R69, R116). -/
theorem State.attemptAlign_pictureLaw {s : State} (t : Tile) (m : StatusMsg) (hj : s.member.station = .joining) :
    (s.attemptAlign t m).PictureLaw := by
  simp only [State.attemptAlign]
  split
  · next v hv =>
    obtain ⟨a, -, ha⟩ := Option.bind_eq_some_iff.mp hv
    obtain ⟨i, -, hslots, -⟩ := State.align_shown ha
    refine (State.pictureLaw_iff _).mpr fun _ => ⟨i, ?_⟩
    simp [hslots]
  · exact .of_apart (by simp [hj])

/-- A station that founds a wall shows its newest picture (R70, R116). -/
theorem State.foundWall_pictureLaw {s : State} (hs : s.PictureLaw) : s.foundWall.PictureLaw := by
  simp only [State.foundWall]
  split
  · next v hv =>
    obtain ⟨i, r, -, -, hslots, -⟩ := State.foundPicture_shown hv
    refine (State.pictureLaw_iff _).mpr fun _ => ⟨i, ?_⟩
    simp [hslots]
  · exact hs

theorem State.cutoff_pictureLaw {s : State} (b : Bool) (hs : s.PictureLaw) : (s.cutoff b).PictureLaw := by
  refine State.cutoff_keeps b hs ?_ ?_ ?_ ?_ ?_
  case refine_4 =>
    refine fun u hu => State.evaluate_keeps hu (fun _ => .of_apart fun hm => ?_) (fun v t m _ _ hj _ _ =>
      State.attemptAlign_pictureLaw t m hj) (fun _ => State.foundWall_pictureLaw hu)
    rw [State.realign_station] at hm
    split at hm
    · cases hm
    · contradiction
  all_goals exact fun u hu => (PictureKept.of_eq (by simp) (by simp)).law hu

/-! ## Frame starts -/

/-- A MEMBER shows a picture and no drop-picture waits: what the blocks of a frame start keep. -/
def State.ShowsKept (s : State) : Prop := s.member.station = .member → s.Shows ∧ s.store.dropPending = false

theorem State.ShowsKept.of_eq {s t : State} (h : s.ShowsKept)
    (hstation : t.member.station = .member → s.member.station = .member)
    (hslots : t.store.slots = s.store.slots) (hdrop : t.store.dropPending = s.store.dropPending) : t.ShowsKept := by
  intro hm
  obtain ⟨⟨i, hi⟩, hd⟩ := h (hstation hm)
  exact ⟨⟨i, by rw [hslots]; exact hi⟩, hdrop.trans hd⟩

theorem State.switch_dropPending {s : State} (h : s.store.dropPending = false) : s.switch.store.dropPending = false := by
  simp only [State.switch]
  split
  · exact h
  · rw [State.slotChanged_dropPending, if_neg (by simp [State.setSlots, h])]
    exact h

theorem State.ShowsKept.switch {s : State} (h : s.ShowsKept) : s.switch.ShowsKept := by
  rcases Option.eq_none_or_eq_some (s.store.slots.first .chosen) with hnone | ⟨i, hi⟩
  · rw [State.switch_none hnone]
    exact h
  · intro hm
    obtain ⟨-, hd⟩ := h (by simpa using hm)
    refine ⟨⟨i, ?_⟩, ?_⟩
    · rw [State.switch_slots hi, hd, if_neg Bool.false_ne_true, showSlot_shows]
    · exact State.switch_dropPending hd

theorem State.ShowsKept.blockFrameStart {s : State} (b : Block) (h : s.ShowsKept) : (s.blockFrameStart b).ShowsKept := by
  cases b with
  | store => exact h.switch
  | mode => refine h.of_eq ?_ ?_ ?_ <;> simp [State.blockFrameStart]
  | picture => refine h.of_eq ?_ ?_ ?_ <;> simp [State.blockFrameStart]
  | membership =>
    intro hm
    obtain ⟨hbefore, hlocked, hheld⟩ := State.memberFrameStart_member hm
    have hsame : (s.blockFrameStart .membership).store = s.store := by
      rw [State.blockFrameStart, State.memberFrameStart_eq, hheld, if_neg (by simp [hlocked]),
        State.joinTest_of_not (by simp [hbefore]), State.countHoldTimer_of_not (.inl hbefore)]
      simp
    obtain ⟨⟨i, hi⟩, hd⟩ := h hbefore
    exact ⟨⟨i, by rw [hsame]; exact hi⟩, by rw [hsame]; exact hd⟩

theorem State.frameStarts_pictureLaw {s : State} (edge : Bool) (order : List Block) (hs : s.PictureLaw)
    (hd : s.store.dropPending = false) : (s.frameStarts edge order).PictureLaw := by
  have hkept : (s.frameStarts edge order).ShowsKept := by
    refine State.blocksFrameStart_keeps (fun b _ => State.ShowsKept.blockFrameStart b) order fun hm => ?_
    obtain ⟨i, hi⟩ := (State.pictureLaw_iff s).mp hs (by simpa using hm)
    exact ⟨⟨i, by simpa using hi⟩, by simpa using hd⟩
  exact (State.pictureLaw_iff _).mpr fun hm => (hkept hm).1

/-! ## Every step -/

theorem pictureLaw_portKeeps : PortKeeps State.PictureLaw where
  port _ _ hs _ := hs
  hold _ _ hs _ := hs
  release _ hs := hs
  setMode _ _ hs _ := (PictureKept.of_eq (by simp) (by simp)).law hs
  counters _ hs := hs
  restart _ _ := .of_apart (by simp [State.takeRestart, State.blocksReset, State.reset, Membership.initial])

theorem effectOf_pictureLaw (c : Instr) {s : State} (hs : s.PictureLaw) (hfilling : s.CaptureFilling)
    (hd : s.store.dropPending = false) : (effectOf c s).PictureLaw := by
  cases c
  case frameStart | loneLock | holdPictureTimerExpiry | rosterLapse => exact State.frameStarts_pictureLaw _ _ hs hd
  case statusCutoff | found => exact State.cutoff_pictureLaw _ hs
  case statusReceived | modeReceived | leaveReceived => exact (PictureKept.handOver s).law hs
  case copyReadEnd =>
    exact State.copyChecked_keeps hs (fun _ => hs) (fun _ => .of_apart (by simp [State.enterFault]))
      (fun _ _ _ _ => (PictureKept.of_eq (by simp) (by simp)).law hs)
  case pllWaitExpiry =>
    simp only [effectOf, State.pllTimeout]
    split
    · exact hs
    · exact .of_apart (by simp [State.enterFault])
  case pllLock =>
    exact .of_apart (by simp [effectOf, State.enterRun, (State.startGenerator_parts _).2.2.2.1])
  case hold | release | setMode | clearEvents | clearCounters | restart | eventsClearWrite | itemSelect =>
    exact pictureLaw_portKeeps.transaction _ _ _ _ hs
  case outputLineEnd =>
    exact (PictureKept.of_eq (by simp [effectOf, State.nextLine]) (by simp [effectOf])).law hs
  case ballotLine td => exact (PictureKept.ballotLineEvent s td).law hs
  case ballotEnd => exact (PictureKept.endBallot s).law hs
  case hsEdge => exact (PictureKept.takeHs hfilling).law hs
  case vsHoldExpiry => exact (PictureKept.takeHeldVs hfilling).law hs
  case inputTimerExpiry => exact (PictureKept.loseSignal s).law hs
  case captureComplete => exact (PictureKept.completeCapture hfilling).law hs
  case writeFifoOverflow w v | regionPixelEntry w v => exact (PictureKept.takePixel s v).law hs
  all_goals exact (PictureKept.of_eq (by simp [effectOf]) (by simp [effectOf, State.wantRefresh])).law hs

theorem State.pass_dropPending (w : Span) (s : State) : (s.pass w).store.dropPending = s.store.dropPending := by
  rw [(State.pass_parts w s).2.2.2.1, State.passPanel]
  split
  · rw [State.passPixels_eq]
    rfl
  · rfl

theorem State.PictureLaw.step {s t : State} (hs : s.PictureLaw) (hfilling : s.CaptureFilling)
    (hd : s.store.dropPending = false) (h : step s = .next t) : t.PictureLaw := by
  have hpass : ∀ w u, PictureKept u (u.pass w) := fun w u => .of_eq (by simp) (by simp)
  have hsettle : ∀ u, PictureKept u u.settle := fun u => .of_eq (by simp) (by simp)
  simp only [Machine.step] at h
  split at h
  · cases h
    exact hs
  · next c rest _ =>
    have hs' : (s.setPending rest).PictureLaw := hs
    rcases exec_next h with ⟨w, _, rfl⟩ | ⟨w, u, _, hu, rfl⟩ | ⟨_, _, rfl | ⟨-, rfl⟩⟩
    · exact .of_apart (by simp [State.hardReset, State.reset, Membership.initial])
    · obtain ⟨-, -, -, -, -, -, hmember, -⟩ := State.finishTransfer_frame hu
      have htransfer : PictureKept ((s.setPending rest).pass w) u :=
        .of_eq (by rw [hmember]) (State.finishTransfer_slots hu)
      exact (((hpass w _).trans htransfer).trans (hsettle u)).law hs'
    · exact ((hpass _ _).trans (hsettle _)).law hs'
    · refine (hsettle _).law (effectOf_pictureLaw c ((hpass _ _).law hs') ?_ ((State.pass_dropPending _ _).trans hd))
      exact State.CaptureFilling.thin (s := s.setPending rest) hfilling
        (.of_input (by simp) (by simp) (by simp) (fun q hq => ⟨q, by simpa using hq, rfl⟩))

/-- Settles O20: only an alignment and a founding raise a station to MEMBER, both with a slot to show, and a MEMBER's
SHOWING slot is freed only by a switch to another or on leaving MEMBER. -/
theorem memberShowsPicture : Obligations.MemberShowsPicture := by
  intro s t _ _ horder hs hd h
  have ht := hs.step horder.2.2.2 hd h
  refine ⟨ht, fun hslot hm => ?_⟩
  have hone := hslot.2.2.1
  have hsome := ht hm
  omega

end Sys2Proof.Machine
end

