-- ==== Sys2Proof/Proofs/QueueOrder.lean ====
section
/-! O18, the pending-mode queue in order, and the sizes of roster and write FIFO (R74, R107, R123, R125, R129, R130). -/

namespace Sys2Proof.Machine

/-! ## The queue kept, or less of it -/

/-- The queue has lost entries at most, and a station that leaves MEMBER has lost them all. -/
structure QueueShrinks (s t : State) : Prop where
  cfg : t.cfg = s.cfg
  wfn : t.timing.wfn = s.timing.wfn
  queue : t.modes.queue.Sublist s.modes.queue
  off : t.member.station ≠ .member → t.modes.queue = [] ∨ s.member.station ≠ .member

theorem QueueShrinks.of_eq {s t : State} (hcfg : t.cfg = s.cfg) (hwfn : t.timing.wfn = s.timing.wfn)
    (hqueue : t.modes.queue = s.modes.queue) (hstation : t.member.station = s.member.station) : QueueShrinks s t :=
  ⟨hcfg, hwfn, by rw [hqueue], fun h => .inr (hstation ▸ h)⟩

theorem QueueShrinks.refl (s : State) : QueueShrinks s s := .of_eq rfl rfl rfl rfl

theorem QueueShrinks.of_nil {s t : State} (hcfg : t.cfg = s.cfg) (hwfn : t.timing.wfn = s.timing.wfn)
    (hqueue : t.modes.queue = []) : QueueShrinks s t :=
  ⟨hcfg, hwfn, by rw [hqueue]; exact List.nil_sublist _, fun _ => .inl hqueue⟩

theorem QueueShrinks.trans {s t u : State} (h : QueueShrinks s t) (h' : QueueShrinks t u) : QueueShrinks s u := by
  refine ⟨h'.cfg.trans h.cfg, h'.wfn.trans h.wfn, h'.queue.trans h.queue, fun hu => ?_⟩
  rcases h'.off hu with hnil | ht
  · exact .inl hnil
  · refine (h.off ht).imp_left fun hnil => ?_
    have hsub := h'.queue
    rw [hnil] at hsub
    exact List.sublist_nil.mp hsub

/-- The queue's law but for the nearest target, which at a frame start may be the new WFN until the mode controller has
had its turn; the farthest lies `d` frames ahead. -/
structure State.QueueWithin (lo hi : Nat) (s : State) : Prop where
  length : s.modes.queue.length ≤ 4
  off : s.member.station ≠ .member → s.modes.queue = []
  order : InOrder s.timing.wfn s.modes.queue
  range : ∀ e ∈ s.modes.queue, lo ≤ targetDistance s.timing.wfn e.target ∧ targetDistance s.timing.wfn e.target ≤ hi
  lead : 4 ≤ s.cfg.modelead ∧ s.cfg.modelead ≤ 64

theorem State.queueLaw_iff (s : State) : s.QueueLaw ↔ s.QueueWithin 1 128 := by
  constructor
  · rintro ⟨hlength, hoff, horder, hrange, hlead⟩
    exact ⟨hlength, hoff, horder, hrange, hlead⟩
  · rintro ⟨hlength, hoff, horder, hrange, hlead⟩
    exact ⟨hlength, hoff, horder, hrange, hlead⟩

theorem QueueShrinks.within {s t : State} {lo hi : Nat} (h : QueueShrinks s t) (hs : s.QueueWithin lo hi) :
    t.QueueWithin lo hi where
  length := h.queue.length_le.trans hs.length
  off ht := by
    rcases h.off ht with hnil | hm
    · exact hnil
    · have hsub := h.queue
      rw [hs.off hm] at hsub
      exact List.sublist_nil.mp hsub
  order := by
    rw [h.wfn]
    exact List.Pairwise.sublist h.queue hs.order
  range e he := by
    rw [h.wfn]
    exact hs.range e (h.queue.subset he)
  lead := by
    rw [h.cfg]
    exact hs.lead

theorem State.QueueWithin.of_same {s t : State} {lo hi : Nat} (hs : s.QueueWithin lo hi) (hcfg : t.cfg = s.cfg)
    (hwfn : t.timing.wfn = s.timing.wfn) (hqueue : t.modes.queue = s.modes.queue)
    (hstation : t.member.station = s.member.station) : t.QueueWithin lo hi :=
  (QueueShrinks.of_eq hcfg hwfn hqueue hstation).within hs

/-- An empty queue is in order at every WFN. -/
theorem State.QueueWithin.of_nil {s : State} {lo hi : Nat} (hqueue : s.modes.queue = [])
    (hlead : 4 ≤ s.cfg.modelead ∧ s.cfg.modelead ≤ 64) : s.QueueWithin lo hi where
  length := by simp [hqueue]
  off _ := hqueue
  order := by
    rw [hqueue]
    exact List.Pairwise.nil
  range e he := by simp [hqueue] at he
  lead := hlead

/-! ## The operations that shrink the queue -/

theorem QueueShrinks.endSetMode (s : State) (r : CmdResult) : QueueShrinks s (s.endSetMode r) := by
  refine .of_eq (by simp) (by simp) ?_ (by simp)
  simp only [State.endSetMode]
  split <;> rfl

theorem QueueShrinks.removeOwnEntry (s : State) : QueueShrinks s s.removeOwnEntry := by
  refine ⟨by simp, by simp, ?_, fun h => .inr (by simpa using h)⟩
  simp only [State.removeOwnEntry]
  split
  · exact List.Sublist.refl _
  · exact List.filter_sublist

theorem QueueShrinks.modeWithdrawn (s : State) : QueueShrinks s s.modeWithdrawn := by
  simp only [State.modeWithdrawn]
  split
  · exact .refl s
  · split
    · exact (QueueShrinks.removeOwnEntry s).trans (.endSetMode _ _)
    · exact .endSetMode s _

theorem QueueShrinks.withdrawMode (s : State) (e : Ending) : QueueShrinks s (s.withdrawMode e) := by
  simp only [State.withdrawMode]
  split
  · exact .refl s
  · split
    · split
      · exact .of_eq rfl rfl rfl rfl
      · refine QueueShrinks.trans ?_ (.modeWithdrawn _)
        exact .of_eq rfl rfl rfl rfl
    · refine QueueShrinks.trans ?_ (.modeWithdrawn _)
      exact .of_eq rfl rfl rfl rfl

theorem QueueShrinks.modeDeadline (s : State) : QueueShrinks s s.modeDeadline := by
  simp only [State.modeDeadline]
  split
  · split
    · exact .withdrawMode s _
    · exact .refl s
  · exact .refl s

theorem QueueShrinks.sendingEnded (s : State) (whole : Bool) : QueueShrinks s (s.sendingEnded whole) := by
  simp only [State.sendingEnded]
  split
  · exact .refl s
  · split
    · simp only [State.modeEnded]
      split
      · refine QueueShrinks.trans ?_ (.endSetMode _ _)
        exact .of_eq rfl rfl rfl rfl
      · split
        · refine QueueShrinks.trans ?_ (.modeWithdrawn _)
          exact .of_eq rfl rfl rfl rfl
        · exact .of_eq rfl rfl rfl rfl
    · exact .of_eq (by simp) (by simp) (by simp) (by simp)
    · split
      · exact .of_eq (by simp) (by simp) (by simp) (by simp)
      · exact .of_eq (by simp) (by simp) (by simp) (by simp)

theorem QueueShrinks.clearHolding (s : State) : QueueShrinks s s.clearHolding := by
  simp only [State.clearHolding]
  refine QueueShrinks.trans ?_ (.endSetMode _ _)
  exact .of_eq rfl rfl rfl rfl

theorem QueueShrinks.inputLost (s : State) : QueueShrinks s s.inputLost := by
  cases h : s.member.station with
  | member => exact .of_nil (by simp) (by simp) (by simp [State.inputLost, h])
  | joining => exact ⟨by simp, by simp, by simp [State.inputLost, h], fun _ => .inr (by simp [h])⟩
  | _ => simpa [State.inputLost, h] using QueueShrinks.refl s

theorem QueueShrinks.silenceStation (s : State) : QueueShrinks s s.silenceStation := by
  cases h : s.member.station with
  | member => exact .of_nil (by simp) (by simp) (by simp [State.silenceStation, h])
  | joining => exact ⟨by simp, by simp, by simp [State.silenceStation, h], fun _ => .inr (by simp [h])⟩
  | _ => simpa [State.silenceStation, h] using QueueShrinks.refl s

theorem QueueShrinks.realign (s : State) : QueueShrinks s s.realign := by
  by_cases h : s.member.station = .member
  · exact .of_nil (by simp) (by simp) (State.realign_parts h).2.1
  · rw [State.realign_other h]
    exact .refl s

theorem QueueShrinks.takeHold (s : State) : QueueShrinks s s.takeHold := by
  cases h : s.member.station with
  | member => exact .of_nil (by simp) (by simp) (by simp [State.takeHold, h])
  | _ => exact ⟨by simp, by simp, by simp [State.takeHold, h], fun _ => .inr (by simp [h])⟩

theorem QueueShrinks.joinTest (s : State) : QueueShrinks s s.joinTest := by
  by_cases h : s.member.station = .detached
  · exact ⟨by simp, by simp, by simp, fun _ => .inr (by simp [h])⟩
  · rw [State.joinTest_of_not (fun hjoin => h hjoin.1)]
    exact .refl s

/-! ## The input and the ballot -/

theorem QueueShrinks.reportInput (s : State) : QueueShrinks s s.reportInput := by
  simp only [State.reportInput]
  split
  · exact .refl s
  · exact .inputLost s

theorem QueueShrinks.inputVs (s : State) : QueueShrinks s s.inputVs := by
  simp only [State.inputVs]
  split
  · simp only [State.vsInNoSignal]
    split
    · refine QueueShrinks.trans ?_ (.reportInput _)
      exact .of_eq rfl rfl rfl rfl
    · exact .of_eq rfl rfl rfl rfl
  · rcases s.vsInAcquiring_cases with ⟨r, hstable⟩ | ⟨c, n, hcounted⟩
    · rw [hstable]
      refine QueueShrinks.trans ?_ (.reportInput _)
      exact .of_eq (by simp [State.becomeStable, State.closeFrame]) (by simp [State.becomeStable, State.closeFrame])
        (by simp [State.becomeStable, State.closeFrame]) (by simp [State.becomeStable, State.closeFrame])
    · rw [hcounted]
      exact .of_eq rfl rfl rfl rfl
  · rw [State.vsInStable_eq]
    split
    · exact .of_eq (by simp [State.closeFrame]) (by simp [State.closeFrame]) (by simp [State.closeFrame])
        (by simp [State.closeFrame])
    · refine QueueShrinks.trans ?_ (.reportInput _)
      exact .of_eq (by simp [State.closeFrame]) (by simp [State.closeFrame]) (by simp [State.closeFrame])
        (by simp [State.closeFrame])

theorem QueueShrinks.takeHeldVs (s : State) : QueueShrinks s s.takeHeldVs := by
  refine QueueShrinks.trans ?_ (.inputVs (s.setInput { s.input with heldVs := none }))
  exact .of_eq rfl rfl rfl rfl

theorem QueueShrinks.takeHs (s : State) : QueueShrinks s s.takeHs := by
  have htaken : QueueShrinks s s.hsTaken := .of_eq rfl rfl rfl rfl
  rw [State.takeHs_eq]
  split
  · exact htaken.trans (.takeHeldVs _)
  · exact htaken

theorem QueueShrinks.loseSignal (s : State) : QueueShrinks s s.loseSignal := by
  rw [State.loseSignal_eq]
  refine QueueShrinks.trans ?_ (.inputLost _)
  refine .of_eq (by simp) (by simp) ?_ (by simp)
  simp only [State.signalGone]
  split <;> simp

theorem QueueShrinks.ballotTrouble (s : State) (c : Counter) : QueueShrinks s (s.ballotTrouble c) := by
  rw [State.ballotTrouble]
  refine QueueShrinks.trans ?_ (.realign _)
  exact .of_eq (by simp) (by simp) (by simp) (by simp)

theorem QueueShrinks.ballotLineEvent (s : State) (td : Level) : QueueShrinks s (s.ballotLineEvent td) := by
  simp only [State.ballotLineEvent]
  split
  · split
    · refine QueueShrinks.trans ?_ (.ballotTrouble _ _)
      exact .of_eq rfl rfl rfl rfl
    · refine QueueShrinks.trans ?_ (.ballotTrouble _ _)
      exact .of_eq rfl rfl rfl rfl
    · exact .of_eq (by simp) (by simp) (by simp) (by simp)
  · exact .of_eq rfl rfl rfl rfl

theorem QueueShrinks.endBallot (s : State) : QueueShrinks s s.endBallot := by
  simp only [State.endBallot]
  split
  · exact .ballotTrouble s _
  · exact .of_eq (by simp) (by simp) (by simp) (by simp)

/-! ## The blocks at a frame start -/

theorem QueueShrinks.applyEntry (s : State) : QueueShrinks s s.applyEntry := by
  refine ⟨by simp, by simp, ?_, fun h => .inr (by simpa using h)⟩
  simp only [State.applyEntry]
  split
  · next q rest hq =>
    split
    · rw [hq]
      exact List.sublist_cons_self _ _
    · exact List.Sublist.refl _
  · exact List.Sublist.refl _

theorem QueueShrinks.modeFrameStart (s : State) : QueueShrinks s s.modeFrameStart := by
  simp only [State.modeFrameStart]
  split
  · have hrepair : QueueShrinks s s.applyRepair :=
      .of_eq (by simp) (by simp) (by rw [State.applyRepair_modes]) (by simp)
    refine (hrepair.trans (.applyEntry _)).trans ?_
    exact .of_eq (by simp) (by simp) (by rw [State.advanceEffective_modes]) (by simp)
  · exact .refl s

theorem QueueShrinks.blockFrameStart (s : State) (b : Block) : QueueShrinks s (s.blockFrameStart b) := by
  cases b with
  | store => refine .of_eq ?_ ?_ ?_ ?_ <;> simp [State.blockFrameStart]
  | mode => exact .modeFrameStart s
  | picture => refine .of_eq ?_ ?_ ?_ ?_ <;> simp [State.blockFrameStart]
  | membership =>
    refine State.memberFrameStart_keeps (P := QueueShrinks s) (.refl s) (fun h => h.trans (.takeHold s))
      (fun u h => h.trans (.realign u)) (fun u h => h.trans (.joinTest u)) (fun u h => h.trans ?_) (fun u h => h.trans ?_)
    · exact .of_eq (by simp) (by simp) (by simp) (by simp)
    · exact .of_eq (by simp) (by simp) (by simp) (by simp)

/-- With the WFN one further on, every target is one frame nearer. -/
theorem targetDistance_next {wfn t : Word} (h : 1 ≤ targetDistance wfn t) :
    targetDistance (wfn + 1) t + 1 = targetDistance wfn t := by
  have ht := t.isLt
  have hw := wfn.isLt
  have hone : (1 : Word).toNat = 1 := rfl
  simp only [targetDistance, BitVec.toNat_sub, BitVec.toNat_add, hone] at h ⊢
  omega

theorem State.QueueWithin.nextFrame {s t : State} (hs : s.QueueWithin 1 128) (hcfg : t.cfg = s.cfg)
    (hwfn : t.timing.wfn = s.timing.wfn + 1) (hqueue : t.modes.queue = s.modes.queue)
    (hstation : t.member.station = s.member.station) : t.QueueWithin 0 128 where
  length := by
    rw [hqueue]
    exact hs.length
  off ht := by
    rw [hqueue]
    exact hs.off (hstation ▸ ht)
  order := by
    rw [hqueue, hwfn]
    refine List.Pairwise.imp_of_mem (fun {a b} ha hb hab => ?_) hs.order
    have hna := targetDistance_next (hs.range a ha).1
    have hnb := targetDistance_next (hs.range b hb).1
    omega
  range e he := by
    rw [hqueue] at he
    rw [hwfn]
    have hrange := hs.range e he
    have hnext := targetDistance_next hrange.1
    omega
  lead := by
    rw [hcfg]
    exact hs.lead

theorem targetDistance_pos {wfn t : Word} (h : t ≠ wfn) : 1 ≤ targetDistance wfn t := by
  rw [targetDistance, Nat.one_le_iff_ne_zero]
  intro hzero
  exact h (sub_eq_zero.mp (BitVec.eq_of_toNat_eq hzero))

/-- When the mode controller has had its turn, no target is the present WFN (R130). -/
theorem State.QueueWithin.modeFrameStart {s : State} (hs : s.QueueWithin 0 128) : s.modeFrameStart.QueueWithin 1 128 := by
  have hshrunk := (QueueShrinks.modeFrameStart s).within hs
  refine ⟨hshrunk.length, hshrunk.off, hshrunk.order, fun e he => ⟨?_, (hshrunk.range e he).2⟩, hshrunk.lead⟩
  have hwfn : s.modeFrameStart.timing.wfn = s.timing.wfn := by simp
  rw [hwfn]
  by_cases hm : s.member.station = .member
  · obtain ⟨r, hfirst, hwaits, -⟩ := State.modeFrameStart_member hm
    cases hq : s.modes.queue with
    | nil =>
      have hsub := (QueueShrinks.modeFrameStart s).queue.subset he
      rw [hq] at hsub
      cases hsub
    | cons q rest =>
      have horder := hs.order
      rw [hq] at horder
      obtain ⟨hlater, -⟩ := List.pairwise_cons.mp horder
      by_cases htarget : q.target = s.timing.wfn
      · rw [(hfirst q rest hq htarget).2.1] at he
        have hlt := hlater e he
        omega
      · rw [(hwaits (fun q' rest' hq' => by cases hq.symm.trans hq'; exact htarget)).2, hq] at he
        have hpos := targetDistance_pos htarget
        rcases List.mem_cons.mp he with rfl | hmem
        · exact hpos
        · have hlt := hlater e hmem
          omega
  · rw [hshrunk.off (by simpa using hm)] at he
    cases he

theorem State.frameStarts_queue {s : State} (edge : Bool) (order : List Block) (hs : s.QueueWithin 1 128) :
    (s.frameStarts edge order).QueueWithin 1 128 := by
  have hnext : (s.generatorFrameStart edge).QueueWithin 0 128 := by
    refine hs.nextFrame (by simp) ?_ (by simp) (by simp)
    rw [State.generatorFrameStart_timing s edge rfl]
  exact State.blocksFrameStart_makes (P := State.QueueWithin 0 128) (Q := State.QueueWithin 1 128) .mode
    (fun b u hu => (QueueShrinks.blockFrameStart u b).within hu) (fun u hu => hu.modeFrameStart)
    (fun b u _ hu => (QueueShrinks.blockFrameStart u b).within hu) order hnext

/-! ## Entries put into the queue (R125, R129) -/

/-- Only the targets of the entries matter to the queue's law. -/
theorem State.QueueWithin.of_targets {s t : State} {lo hi : Nat} (hs : s.QueueWithin lo hi) (hcfg : t.cfg = s.cfg)
    (hwfn : t.timing.wfn = s.timing.wfn) (hstation : t.member.station = s.member.station)
    (hqueue : t.modes.queue.map (·.target) = s.modes.queue.map (·.target)) : t.QueueWithin lo hi where
  length := by
    have hlen := congrArg List.length hqueue
    simp only [List.length_map] at hlen
    rw [hlen]
    exact hs.length
  off ht := by
    rw [hs.off (hstation ▸ ht)] at hqueue
    exact List.map_eq_nil_iff.mp hqueue
  order := by
    rw [inOrder_iff_map, hqueue, hwfn, ← inOrder_iff_map]
    exact hs.order
  range e he := by
    have hmem : e.target ∈ t.modes.queue.map (·.target) := List.mem_map_of_mem he
    rw [hqueue] at hmem
    obtain ⟨x, hx, hxe⟩ := List.mem_map.mp hmem
    rw [hwfn, ← hxe]
    exact hs.range x hx
  lead := by
    rw [hcfg]
    exact hs.lead

theorem State.QueueWithin.insert {s t : State} {lo hi : Nat} (hs : s.QueueWithin lo hi) {e : ModeEntry}
    (hcfg : t.cfg = s.cfg) (hwfn : t.timing.wfn = s.timing.wfn) (hm : t.member.station = .member)
    (hqueue : t.modes.queue = insertEntry s.timing.wfn e s.modes.queue) (hroom : s.modes.queue.length < 4)
    (hnew : ∀ x ∈ s.modes.queue, x.target ≠ e.target)
    (hrange : lo ≤ targetDistance s.timing.wfn e.target ∧ targetDistance s.timing.wfn e.target ≤ hi) :
    t.QueueWithin lo hi where
  length := by
    rw [hqueue, length_insertEntry]
    omega
  off ht := absurd hm ht
  order := by
    rw [hqueue, hwfn]
    exact hs.order.insertEntry hnew
  range x hx := by
    rw [hqueue] at hx
    rw [hwfn]
    rcases mem_insertEntry.mp hx with rfl | hx
    · exact hrange
    · exact hs.range x hx
  lead := by
    rw [hcfg]
    exact hs.lead

theorem State.QueueWithin.takeMode {s : State} (hs : s.QueueWithin 1 128) (r : Tile) (m : ModeMsg) :
    (s.takeMode r m).QueueWithin 1 128 := by
  obtain ⟨hcases, hsame⟩ := s.takeMode_cases r m
  have hmember : (s.takeMode r m).member.station = s.member.station := by simp
  rcases hcases with hmodes | hmodes | ⟨hm, hroom, hnew, hlow, hhigh, hmodes⟩
  · exact hs.of_targets (by simp) (by simp) hmember (by rw [hmodes])
  · exact hs.of_targets (by simp) (by simp) hmember (by rw [hmodes, map_target_replaceEntry])
  · exact hs.insert (by simp) (by simp) (hmember.trans hm) (by rw [hmodes]) hroom hnew ⟨hlow, hhigh⟩

theorem targetDistance_lead (wfn : Word) {k : Nat} (h : k ≤ 64) : targetDistance wfn (wfn + BitVec.ofNat 16 k) = k := by
  rw [targetDistance, add_sub_cancel_left, BitVec.toNat_ofNat]
  omega

theorem State.QueueWithin.modeEntered {s : State} (hs : s.QueueWithin 1 128) (m : Mode) (hm : s.member.station = .member)
    (hroom : s.modes.queue.length < 4 ∨ ∃ e ∈ s.modes.queue, e.target = s.modeTarget) :
    (s.modeEntered m).QueueWithin 1 128 := by
  have hcfg : (s.modeEntered m).cfg = s.cfg := by
    simp only [State.modeEntered]
    split <;> simp
  have hwfn : (s.modeEntered m).timing.wfn = s.timing.wfn := by
    simp only [State.modeEntered]
    split <;> simp
  have hstation : (s.modeEntered m).member.station = s.member.station := by
    simp only [State.modeEntered]
    split <;> simp
  rcases Option.eq_none_or_eq_some (s.entryAt s.modeTarget) with hx | ⟨x, hx⟩
  · have hnew : ∀ y ∈ s.modes.queue, y.target ≠ s.modeTarget := by simpa [State.entryAt] using hx
    have hlen : s.modes.queue.length < 4 := hroom.resolve_right (fun ⟨e, he, ht⟩ => hnew e he ht)
    have hlead := hs.lead
    have hdistance : targetDistance s.timing.wfn (s.ownEntry m).target = s.cfg.modelead :=
      targetDistance_lead _ hlead.2
    exact hs.insert hcfg hwfn (hstation.trans hm) (State.modeEntered_new m hx).2 hlen hnew (by omega)
  · obtain ⟨-, hlower, hupper⟩ := State.modeEntered_tie m hx
    refine hs.of_targets hcfg hwfn hstation ?_
    rcases Nat.lt_or_ge x.origin.toNat s.tile.toNat with hlt | hge
    · rw [hlower hlt]
    · rw [hupper hge, map_target_replaceEntry]

theorem State.QueueWithin.acceptMode {s : State} (hs : s.QueueWithin 1 128) (m : Mode) (hm : s.member.station = .member)
    (hroom : s.modes.queue.length < 4 ∨ ∃ e ∈ s.modes.queue, e.target = s.modeTarget) :
    (s.acceptMode m).QueueWithin 1 128 := by
  have hentered := hs.modeEntered m hm hroom
  rw [State.acceptMode_eq]
  rcases Option.eq_none_or_eq_some ((s.modeEntered m).placeMode ⟨s.modeTarget, m⟩) with h | ⟨t, h⟩
  · rw [h]
    exact ((QueueShrinks.removeOwnEntry _).trans (.endSetMode _ _)).within hentered
  · rw [h, State.placeMode_frame h]
    exact hentered.of_same rfl rfl rfl rfl

theorem State.QueueWithin.takeSetMode {s : State} (hs : s.QueueWithin 1 128) (b : Byte) :
    (s.takeSetMode b).QueueWithin 1 128 := by
  have hresult : ∀ r, (s.setResult r).QueueWithin 1 128 := fun r =>
    hs.of_same rfl rfl rfl rfl
  cases hmode : decodeMode b with
  | none =>
    simp only [State.takeSetMode, hmode]
    exact hresult _
  | some m =>
    obtain ⟨hout, hbusy, hcheck⟩ := State.takeSetMode_checks hmode
    by_cases hm : s.member.station = .member
    · by_cases ho : s.modes.outstanding = none
      · obtain ⟨hfull, hroom⟩ := hcheck hm ho
        by_cases hspace : s.modes.queue.length < 4 ∨ ∃ e ∈ s.modes.queue, e.target = s.modeTarget
        · rw [hroom hspace]
          exact hs.acceptMode m hm hspace
        · push Not at hspace
          rw [hfull hspace.1 hspace.2]
          exact hresult _
      · rw [hbusy hm ho]
        exact hresult _
    · rw [hout hm]
      exact hresult _

/-! ## Messages and the cut-off -/

theorem QueueShrinks.detectDuplicate (s : State) (t : Tile) : QueueShrinks s (s.detectDuplicate t) := by
  simp only [State.detectDuplicate]
  split
  · split
    · exact .of_eq rfl rfl rfl rfl
    · refine QueueShrinks.trans ?_ (.silenceStation _)
      refine QueueShrinks.trans (QueueShrinks.trans ?_ (.clearHolding
        ((s.raise .conflict).setBus { (s.raise .conflict).bus with latch := true }))) ?_
      · exact .of_eq rfl rfl rfl rfl
      · exact .of_eq rfl rfl rfl rfl
  · exact .refl s

theorem State.QueueWithin.handOver {s : State} (hs : s.QueueWithin 1 128) : s.handOver.QueueWithin 1 128 := by
  have hidle : s.rxWaitIdle.QueueWithin 1 128 := hs.of_same rfl rfl rfl rfl
  simp only [State.handOver]
  split
  · exact hs
  · refine (QueueShrinks.detectDuplicate _ _).within ?_
    split
    · exact hidle.of_same (by simp) (by simp) (by simp) (by simp)
    · exact hidle.takeMode _ _
    · exact hidle.of_same (by simp) (by simp) (by simp) (by simp)

theorem State.QueueWithin.evaluate {s : State} (hs : s.QueueWithin 1 128) : s.evaluate.QueueWithin 1 128 := by
  refine State.evaluate_keeps (P := State.QueueWithin 1 128) hs (fun _ => (QueueShrinks.realign s).within hs)
    (fun u t m hu _ hj _ _ => ?_) (fun hfound => ?_)
  · have hnil : u.modes.queue = [] := hu.off (by simp [hj])
    have hcfg : (u.attemptAlign t m).cfg = u.cfg := by simp
    refine .of_nil ?_ (by rw [hcfg]; exact hu.lead)
    simp only [State.attemptAlign]
    split
    · next v hv =>
      obtain ⟨a, -, halign⟩ := Option.bind_eq_some_iff.mp hv
      obtain ⟨-, -, -, -, -, -, -, hmodes, -⟩ := State.align_frame halign
      obtain ⟨-, -, hentered, -⟩ := v.enterMember_parts .joins ⟨m.mode, m.effective, t⟩
      rw [hentered, hmodes]
      simpa using hnil
    · simp [hnil]
  · simp only [State.foundDue, Bool.and_eq_true, beq_iff_eq] at hfound
    have hnil : s.modes.queue = [] := hs.off (by simp [hfound.1.1.1])
    have hcfg : s.foundWall.cfg = s.cfg := by simp
    refine .of_nil ?_ (by rw [hcfg]; exact hs.lead)
    simp only [State.foundWall]
    split
    · next v hv =>
      obtain ⟨-, -, -, -, -, -, -, hmodes, -⟩ := State.foundPicture_frame hv
      obtain ⟨-, -, hentered, -⟩ := v.enterMember_parts .foundings ⟨s.cfg.initialMode, s.timing.wfn, s.tile⟩
      rw [hentered, hmodes]
      exact hnil
    · exact hnil

theorem State.QueueWithin.cutoff {s : State} (hs : s.QueueWithin 1 128) (b : Bool) : (s.cutoff b).QueueWithin 1 128 := by
  refine State.cutoff_keeps (P := State.QueueWithin 1 128) b hs (fun u hu => ?_)
    (fun u hu => (QueueShrinks.modeDeadline u).within hu) (fun u hu => ?_) (fun _ hu => hu.evaluate) (fun u hu => ?_)
  · exact hu.of_same (by simp) (by simp) (by simp) (by simp)
  · exact hu.of_same (by simp) (by simp) (by simp) (by simp)
  · refine hu.of_same (by simp) (by simp) ?_ (by simp)
    simp only [State.holdRepair]
    split <;> rfl

/-! ## Start-up and the port -/

/-- An accepted copy's fields are all within their ranges, MODELEAD with them (R161, R162). -/
theorem checkCopy_modelead {l : List Byte} {k : Candidate} (h : checkCopy l = .accepted k) :
    4 ≤ k.settings.modelead ∧ k.settings.modelead ≤ 64 := by
  have hrecords : ∀ n b, checkRecords n b = .accepted k → ∃ f, rangesHold f = true ∧ k.settings = settingsOf f := by
    intro n b hb
    rw [checkRecords] at hb
    split at hb
    · cases hb
    · next rs _ =>
      simp only [Bool.not_eq_true', ← Bool.not_eq_true] at hb
      split at hb
      · cases hb
      split at hb
      · cases hb
      split at hb
      · cases hb
      next hranges =>
      split at hb
      · cases hb
      cases hb
      refine ⟨rawFields rs, by simpa using hranges, ?_⟩
      simp only [candidateOf]
      split <;> rfl
  rw [checkCopy] at h
  split at h
  · cases h
  split at h
  · cases h
  obtain ⟨f, hranges, hsettings⟩ := hrecords _ _ h
  have hall := (rangesHold_iff hsettings.symm).mp hranges
  omega

theorem State.QueueWithin.startGenerator {s : State} (hqueue : s.modes.queue = [])
    (hlead : 4 ≤ s.cfg.modelead ∧ s.cfg.modelead ≤ 64) : s.startGenerator.QueueWithin 1 128 := by
  simp only [State.startGenerator]
  refine State.blocksFrameStart_keeps (P := State.QueueWithin 1 128)
    (fun b u hu => (QueueShrinks.blockFrameStart u b).within hu) [] (.of_nil (by simpa using hqueue) ?_)
  simpa [State.cfg] using hlead

/-- Reset leaves MODELEAD in range. -/
theorem resetLead : 4 ≤ State.reset.cfg.modelead ∧ State.reset.cfg.modelead ≤ 64 := by decide

theorem queueLaw_portKeeps : PortKeeps (State.QueueWithin 1 128) where
  port _ _ hs _ := hs.of_same rfl rfl rfl rfl
  hold _ _ hs _ := hs.of_same rfl rfl rfl rfl
  release _ hs := hs.of_same rfl rfl rfl rfl
  setMode _ b hs _ := hs.takeSetMode b
  counters _ hs := hs.of_same rfl rfl rfl rfl
  restart _ _ := .of_nil rfl resetLead

/-! ## Every step -/

theorem effectOf_queueLaw (c : Instr) {s : State} (hs : s.QueueWithin 1 128) (hrest : s.RestLaw) (hdue : dueOf c s = true) :
    (effectOf c s).QueueWithin 1 128 := by
  have hempty : s.loader.phase ≠ .run → s.modes.queue = [] := fun hp => ((State.restLaw_iff s).mp hrest hp).queue
  cases c
  case frameStart | loneLock | holdPictureTimerExpiry | rosterLapse => exact State.frameStarts_queue _ _ hs
  case statusCutoff w first => exact hs.cutoff first
  case found => exact hs.cutoff true
  case statusReceived | modeReceived | leaveReceived => exact hs.handOver
  case copyReadEnd =>
    have hphase : s.loader.phase ≠ .run := by
      intro hp
      simp [dueOf, State.copyReadEnded, hp] at hdue
    refine State.copyChecked_keeps hs (fun _ => hs.of_same rfl rfl rfl rfl) (fun _ => .of_nil rfl resetLead)
      (fun c k _ hk => .of_nil (hempty hphase) (checkCopy_modelead hk))
  case pllWaitExpiry =>
    simp only [effectOf, State.pllTimeout]
    split
    · exact hs.of_same rfl rfl rfl rfl
    · exact .of_nil rfl resetLead
  case pllLock =>
    have hphase : s.loader.phase ≠ .run := by
      intro hp
      simp [dueOf, State.lockRead, hp] at hdue
    exact .startGenerator (hempty hphase) hs.lead
  case hold | release | setMode | clearEvents | clearCounters | restart | eventsClearWrite | itemSelect =>
    exact queueLaw_portKeeps.transaction _ _ _ _ hs
  case resetnRise | startDelayExpiry => exact hs.of_same rfl rfl rfl rfl
  case arbitrationLoss => exact (QueueShrinks.sendingEnded (s.count .arbLosses) _).within (hs.of_same rfl rfl rfl rfl)
  case messageSent =>
    have hsent : ((s.count .msgsSent).sendingEnded true).rxWaitIdle.QueueWithin 1 128 :=
      ((QueueShrinks.sendingEnded (s.count .msgsSent) true).within (hs.of_same rfl rfl rfl rfl)).of_same rfl rfl rfl rfl
    have hcounted : ∀ bad : Bool, (if bad then ((s.count .msgsSent).sendingEnded true).rxWaitIdle.count .rxErrors
        else ((s.count .msgsSent).sendingEnded true).rxWaitIdle).QueueWithin 1 128 := by
      intro bad
      split
      · exact hsent.of_same rfl rfl rfl rfl
      · exact hsent
    exact hcounted _
  case endBitFailure => exact ((QueueShrinks.sendingEnded s _).within hs).of_same rfl rfl rfl rfl
  case ballotLine td => exact (QueueShrinks.ballotLineEvent s td).within hs
  case ballotEnd => exact (QueueShrinks.endBallot s).within hs
  case hsEdge => exact (QueueShrinks.takeHs s).within hs
  case vsHoldExpiry => exact (QueueShrinks.takeHeldVs s).within hs
  case inputTimerExpiry => exact (QueueShrinks.loseSignal s).within hs
  case outputLineEnd =>
    have hwfn := congrArg Timing.wfn s.nextLine_timing
    exact hs.of_same (by simp [effectOf]) hwfn (by simp [effectOf]) (by simp [effectOf])
  case ballotWindowStart =>
    refine ((QueueShrinks.sendingEnded s false).trans ?_).within hs
    simp only [effectOf, State.enterBallotWindow]
    refine .of_eq ?_ ?_ ?_ ?_ <;> split <;> split <;> rfl
  case fsPulseEnd | foreignEdge | keptEdgeExpiry =>
    exact hs.of_same (by simp [effectOf]) (by simp [effectOf, State.releaseFs, State.keepEdge, State.dropEdge])
      (by simp [effectOf]) (by simp [effectOf])
  all_goals exact hs.of_same (by simp [effectOf]) (by simp [effectOf]) (by simp [effectOf]) (by simp [effectOf])

theorem State.QueueWithin.step {s t : State} (hs : s.QueueWithin 1 128) (hrest : s.RestLaw) (h : Machine.step s = .next t) :
    t.QueueWithin 1 128 := by
  have hpass : ∀ w u, State.QueueWithin 1 128 u → (u.pass w).QueueWithin 1 128 := fun w u hu =>
    hu.of_same (by simp) (by rw [State.pass_timing]) (by simp) (by simp)
  have hsettle : ∀ u, State.QueueWithin 1 128 u → u.settle.QueueWithin 1 128 := fun u hu =>
    hu.of_same (by simp) (by simp) (by simp) (by simp)
  simp only [Machine.step] at h
  split at h
  · cases h
    exact hs
  · next c rest _ =>
    have hs' : (s.setPending rest).QueueWithin 1 128 := hs.of_same rfl rfl rfl rfl
    have hrest' : (s.setPending rest).RestLaw := hrest
    rcases exec_next h with ⟨w, _, rfl⟩ | ⟨w, u, _, hu, rfl⟩ | ⟨_, _, rfl | ⟨hdue, rfl⟩⟩
    · exact .of_nil rfl resetLead
    · obtain ⟨-, -, htiming, -, -, -, hmember, hmodes, -, -, -, hcfg⟩ := State.finishTransfer_frame hu
      exact hsettle _ ((hpass w _ hs').of_same hcfg (by rw [htiming]) (by rw [hmodes]) (by rw [hmember]))
    · exact hsettle _ (hpass _ _ hs')
    · exact hsettle _ (effectOf_queueLaw c (hpass _ _ hs') (State.pass_restLaw _ hrest') hdue)

end Sys2Proof.Machine
end

