-- ==== Sys2Proof/Proofs/HeldSizes.lean ====
section
/-! O18, the second half: the roster keeps its 32 entries and the write FIFO its 2048 pixels at most (R74, R107). -/

namespace Sys2Proof.Machine

/-! ## Sizes kept -/

/-- The roster stays as long as it was, and the write FIFO within its size. -/
structure SizeKept (s t : State) : Prop where
  roster : t.member.roster.length = s.member.roster.length
  fifo : s.store.writeFifo.length ≤ 2048 → t.store.writeFifo.length ≤ 2048

theorem SizeKept.law {s t : State} (h : SizeKept s t) (hs : s.SizeLaw) : t.SizeLaw :=
  ⟨h.roster.trans hs.1, h.fifo hs.2⟩

theorem SizeKept.trans {s t u : State} (h : SizeKept s t) (h' : SizeKept t u) : SizeKept s u :=
  ⟨h'.roster.trans h.roster, fun hs => h'.fifo (h.fifo hs)⟩

theorem SizeKept.of_eq {s t : State} (hroster : t.member.roster = s.member.roster)
    (hfifo : t.store.writeFifo = s.store.writeFifo) : SizeKept s t :=
  ⟨by rw [hroster], fun hs => by rwa [hfifo]⟩

/-- Pixels leave the write FIFO at most. -/
theorem SizeKept.of_le {s t : State} (hroster : t.member.roster = s.member.roster)
    (hfifo : t.store.writeFifo.length ≤ s.store.writeFifo.length) : SizeKept s t :=
  ⟨by rw [hroster], fun hs => hfifo.trans hs⟩

theorem SizeKept.refl (s : State) : SizeKept s s := .of_eq rfl rfl

/-! ## What leaves the write FIFO as it is -/

@[simp] theorem State.slotChanged_fifo (s : State) : s.slotChanged.store.writeFifo = s.store.writeFifo :=
  (Store.writing_eq_iff.mp s.slotChanged_writing).1

@[simp] theorem State.dropPicture_fifo (s : State) : s.dropPicture.store.writeFifo = s.store.writeFifo :=
  (Store.writing_eq_iff.mp s.dropPicture_writing).1

@[simp] theorem State.outOfMember_fifo (s : State) : s.outOfMember.store.writeFifo = s.store.writeFifo :=
  (Store.writing_eq_iff.mp s.outOfMember_writing).1

@[simp] theorem State.nameRow_fifo (s : State) (j : Nat) : (s.nameRow j).store.writeFifo = s.store.writeFifo :=
  (Store.writing_eq_iff.mp (s.nameRow_writing j)).1

@[simp] theorem State.passPixels_fifo (s : State) (d : Nat) : (s.passPixels d).store.writeFifo = s.store.writeFifo := by
  rw [State.passPixels_eq]

@[simp] theorem State.passPanel_fifo (w : Span) (s : State) : (s.passPanel w).store.writeFifo = s.store.writeFifo := by
  rw [State.passPanel]
  split
  · rw [State.passPixels_fifo]
    rfl
  · rfl

@[simp] theorem State.pictureFrameStart_fifo (s : State) : s.pictureFrameStart.store.writeFifo = s.store.writeFifo := by
  simp only [State.pictureFrameStart]
  split
  · rw [State.nameRow_fifo]
    rfl
  · rfl

@[simp] theorem State.pictureLineEnd_fifo (s : State) : s.pictureLineEnd.store.writeFifo = s.store.writeFifo := by
  simp only [State.pictureLineEnd]
  repeat' split
  all_goals simp [State.discardFetches]

@[simp] theorem State.switch_fifo (s : State) : s.switch.store.writeFifo = s.store.writeFifo := by
  simp only [State.switch]
  split
  · rfl
  · split <;> simp [State.setSlots]

theorem State.align_fifo {s t : State} {x : Stamp} (h : s.align x = some t) : t.store.writeFifo = s.store.writeFifo := by
  simp only [State.align] at h
  split at h
  · cases h
  · cases h
    split <;> simp [State.setSlots]

theorem State.foundPicture_fifo {s t : State} (h : s.foundPicture = some t) : t.store.writeFifo = s.store.writeFifo := by
  simp only [State.foundPicture] at h
  split at h
  · cases h
  · cases h
    simp [State.setSlots]

@[simp] theorem State.adopt_fifo (s : State) (w : Word) : (s.adopt w).store.writeFifo = s.store.writeFifo := by
  simp only [State.adopt]
  split <;> rfl

@[simp] theorem State.inputLost_fifo (s : State) : s.inputLost.store.writeFifo = s.store.writeFifo :=
  (Store.writing_eq_iff.mp s.inputLost_writing).1

@[simp] theorem State.silenceStation_fifo (s : State) : s.silenceStation.store.writeFifo = s.store.writeFifo := by
  cases h : s.member.station <;> simp [State.silenceStation, h]

@[simp] theorem State.realign_fifo (s : State) : s.realign.store.writeFifo = s.store.writeFifo := by
  simp only [State.realign]
  split <;> simp

@[simp] theorem State.detectDuplicate_fifo (s : State) (t : Tile) :
    (s.detectDuplicate t).store.writeFifo = s.store.writeFifo := by
  simp only [State.detectDuplicate]
  split
  · split <;> simp
  · rfl

@[simp] theorem State.generatorFrameStart_fifo (s : State) (edge : Bool) :
    (s.generatorFrameStart edge).store.writeFifo = s.store.writeFifo := by
  simp [State.generatorFrameStart, State.endFrame]

theorem State.grant_writing (s : State) (n : Word) (st : Stamp) : (s.grant n st).1.store.writing = s.store.writing := by
  have hchecked : (s.windowChecked n).store.writing = s.store.writing := by
    simp only [State.windowChecked, State.staleCheck, State.rebase]
    repeat' split
    all_goals rfl
  rcases Option.eq_none_or_eq_some (grantChoice (s.windowChecked n).store.slots) with h | ⟨k, h⟩
  · rw [State.grant_none h, hchecked]
  · rw [← hchecked]
    simp only [State.windowChecked] at h ⊢
    simp only [State.grant, h]
    split <;> rfl

theorem State.beginFrame_writing (s : State) : s.beginFrame.store.writing = s.store.writing := by
  simp only [State.beginFrame]
  split
  · split
    · rw [State.setInput_store, State.grant_writing]
      rfl
    · rw [State.grant_writing]
      rfl
  · rfl

@[simp] theorem State.beginFrame_fifo (s : State) : s.beginFrame.store.writeFifo = s.store.writeFifo :=
  (Store.writing_eq_iff.mp s.beginFrame_writing).1

theorem State.finishTransfer_fifo {s t : State} (h : s.finishTransfer = some t) : t.store.writeFifo = s.store.writeFifo := by
  simp only [State.finishTransfer, State.receiveRead] at h
  repeat' split at h
  all_goals cases h <;> simp

/-- A grant takes pixels from the head of the write FIFO at most. -/
theorem Store.granted_fifo (rw : Nat) (request : Option Transfer) (x : Store) :
    (x.granted rw request).writeFifo.length ≤ x.writeFifo.length := by
  simp only [Store.granted]
  split
  · exact le_refl _
  · split
    · simp only [advanceFetch]
      split <;> exact le_refl _
    · split
      · split
        · next t rest hw =>
          simp only [writeTransfer] at hw
          split at hw
          · cases hw
          · cases hw
            exact (List.drop_sublist _ _).length_le
        · exact le_refl _
      · exact le_refl _

/-! ## Membership -/

theorem SizeKept.inputLost (s : State) : SizeKept s s.inputLost := .of_eq (by rw [State.inputLost_member]; simp) (by simp)

theorem SizeKept.silenceStation (s : State) : SizeKept s s.silenceStation := .of_eq (by simp) (by simp)

theorem SizeKept.realign (s : State) : SizeKept s s.realign := by
  refine .of_eq ?_ (by simp)
  by_cases h : s.member.station = .member
  · rw [(State.realign_parts h).1]
  · rw [State.realign_other h]

theorem SizeKept.takeHold (s : State) : SizeKept s s.takeHold := by
  refine .of_eq s.takeHold_parts.2.2.1 ?_
  cases h : s.member.station <;> simp [State.takeHold, h]

theorem SizeKept.joinTest (s : State) : SizeKept s s.joinTest := .of_eq s.joinTest_holdTimer.2.2 (by simp)

theorem SizeKept.countHoldTimer (s : State) : SizeKept s s.countHoldTimer := by
  simp only [State.countHoldTimer]
  split
  · split
    · exact .of_eq (by simp) (by simp)
    · exact .of_eq rfl rfl
  · exact .refl s

theorem SizeKept.setEntry (s : State) (t : Tile) (f : Entry → Entry) : SizeKept s (s.setEntry t f) :=
  ⟨by simp [State.setEntry], id⟩

theorem SizeKept.ageRoster (s : State) : SizeKept s s.ageRoster :=
  ⟨by simp [State.ageRoster], fun hs => by simpa [State.ageRoster] using hs⟩

theorem SizeKept.rosterStatus (s : State) (t : Tile) (m : StatusMsg) : SizeKept s (s.rosterStatus t m) := by
  simp only [State.rosterStatus]
  split
  · exact .refl s
  · refine (SizeKept.setEntry s t (Entry.hear m)).trans ?_
    split
    · exact .of_eq rfl rfl
    · exact .refl _

theorem SizeKept.rosterLeave (s : State) (t : Tile) (r : LeaveReason) : SizeKept s (s.rosterLeave t r) := by
  simp only [State.rosterLeave]
  split
  · exact .refl s
  · refine (SizeKept.setEntry s t (fun e => { e with state := .left, heard := 0, reason := some r })).trans ?_
    split
    · exact .of_eq rfl rfl
    · exact .refl _

theorem SizeKept.handOver (s : State) : SizeKept s s.handOver := by
  have hidle : SizeKept s s.rxWaitIdle := .of_eq rfl rfl
  have hduplicate : ∀ (u : State) t, SizeKept u (u.detectDuplicate t) := fun u t => .of_eq (by simp) (by simp)
  simp only [State.handOver]
  split
  · exact .refl s
  · refine SizeKept.trans ?_ (hduplicate _ _)
    split
    · next t _ m _ => exact (hidle.trans (.rosterStatus _ t m)).trans (.of_eq (by simp) (by simp))
    · exact hidle.trans (.of_eq (by simp) (by simp))
    · exact hidle.trans (.rosterLeave _ _ _)

theorem SizeKept.evaluate (s : State) : SizeKept s s.evaluate := by
  refine State.evaluate_keeps (P := SizeKept s) (.refl s) (fun _ => .realign s) (fun u t m hu _ _ _ _ => hu.trans ?_)
    (fun _ => ?_)
  · simp only [State.attemptAlign]
    split
    · next v hv =>
      obtain ⟨a, -, halign⟩ := Option.bind_eq_some_iff.mp hv
      obtain ⟨-, -, -, -, -, -, hmember, -⟩ := State.align_frame halign
      obtain ⟨hentered, hstore, -⟩ := v.enterMember_parts .joins ⟨m.mode, m.effective, t⟩
      exact .of_eq (by rw [hentered, hmember]; simp) (by rw [hstore, State.align_fifo halign, State.adopt_fifo])
    · exact .of_eq (by simp) (by simp)
  · simp only [State.foundWall]
    split
    · next v hv =>
      obtain ⟨-, -, -, -, -, -, hmember, -⟩ := State.foundPicture_frame hv
      obtain ⟨hentered, hstore, -⟩ := v.enterMember_parts .foundings ⟨s.cfg.initialMode, s.timing.wfn, s.tile⟩
      exact .of_eq (by rw [hentered, hmember]) (by rw [hstore, State.foundPicture_fifo hv])
    · exact .refl s

theorem SizeKept.cutoff (s : State) (b : Bool) : SizeKept s (s.cutoff b) := by
  refine State.cutoff_keeps (P := SizeKept s) b (.refl s) (fun u hu => hu.trans ?_) (fun u hu => hu.trans ?_)
    (fun u hu => hu.trans ?_) (fun u hu => hu.trans (.evaluate u)) (fun u hu => hu.trans ?_)
  · exact .of_eq (by simp) (by simp)
  · exact .of_eq (by simp) (by simp)
  · exact .of_eq (by rw [State.takeReference_member]) (by simp)
  · exact .of_eq (by simp) (by simp)

/-! ## Frame starts -/

theorem SizeKept.blockFrameStart (s : State) (b : Block) : SizeKept s (s.blockFrameStart b) := by
  cases b with
  | store => exact .of_eq (by simp [State.blockFrameStart]) (by simp [State.blockFrameStart])
  | mode => exact .of_eq (by simp [State.blockFrameStart]) (by simp [State.blockFrameStart])
  | picture => exact .of_eq (by simp [State.blockFrameStart]) (by simp [State.blockFrameStart])
  | membership =>
    exact State.memberFrameStart_keeps (P := SizeKept s) (.refl s) (fun h => h.trans (.takeHold s))
      (fun u h => h.trans (.realign u)) (fun u h => h.trans (.joinTest u)) (fun u h => h.trans (.countHoldTimer u))
      (fun u h => h.trans (.ageRoster u))

theorem SizeKept.frameStarts (s : State) (edge : Bool) (order : List Block) : SizeKept s (s.frameStarts edge order) := by
  have hnext : SizeKept s (s.generatorFrameStart edge) := .of_eq (by simp) (by simp)
  exact State.blocksFrameStart_keeps (P := SizeKept s) (fun b u hu => hu.trans (.blockFrameStart u b)) order hnext

/-! ## The bus and the ballot -/

@[simp] theorem State.sendingEnded_roster (s : State) (whole : Bool) :
    (s.sendingEnded whole).member.roster = s.member.roster := by
  simp only [State.sendingEnded]
  repeat' split
  all_goals simp

theorem State.openWindow_roster (s : State) : s.openWindow.member.roster = s.member.roster := by
  simp only [State.openWindow]
  split <;> simp

theorem State.enterBallotWindow_roster (s : State) : s.enterBallotWindow.member.roster = s.member.roster := by
  simp only [State.enterBallotWindow]
  repeat' split
  all_goals simp

theorem State.messageWhole_roster (s : State) : s.messageWhole.member.roster = s.member.roster := by
  have hcounted : ∀ (b : Bool) (u : State), (if b then u.count .rxErrors else u).member.roster = u.member.roster := by
    intro b u
    cases b <;> rfl
  exact (hcounted _ _).trans (by simp)

@[simp] theorem State.ballotReport_fifo (s : State) (p : Word) (d : Nat) :
    (s.ballotReport p d).store.writeFifo = s.store.writeFifo := rfl

@[simp] theorem State.pledge_fifo (s : State) : s.pledge.1.store.writeFifo = s.store.writeFifo := rfl

theorem SizeKept.ballotTrouble (s : State) (c : Counter) : SizeKept s (s.ballotTrouble c) := by
  rw [State.ballotTrouble]
  refine SizeKept.trans ?_ (.realign _)
  exact .of_eq (by simp) (by simp)

theorem SizeKept.ballotLineEvent (s : State) (td : Level) : SizeKept s (s.ballotLineEvent td) := by
  simp only [State.ballotLineEvent]
  split
  · split
    · refine SizeKept.trans ?_ (.ballotTrouble _ _)
      exact .of_eq rfl rfl
    · refine SizeKept.trans ?_ (.ballotTrouble _ _)
      exact .of_eq rfl rfl
    · exact .of_eq (by simp) rfl
  · exact .of_eq rfl rfl

theorem SizeKept.endBallot (s : State) : SizeKept s s.endBallot := by
  simp only [State.endBallot]
  split
  · exact .ballotTrouble s _
  · exact .of_eq (by simp) (by simp)

/-! ## The input -/

theorem Store.offered_all_size {i : Fin 5} {l : List WritePixel} (hl : ∀ y ∈ l, y.slot = i) {x : Store}
    (hx : x.writeFifo.length ≤ 2048) : (l.foldl Store.offered x).writeFifo.length ≤ 2048 := by
  obtain ⟨-, -, -, htorn, hsound⟩ := Store.offered_all_parts hl x
  cases h : (x.slots.get i).torn with
  | true => rwa [htorn h]
  | false =>
    rw [hsound h hx]
    exact List.length_take_le _ _

theorem SizeKept.offerPixel (s : State) (x : WritePixel) : SizeKept s (s.offerPixel x) := by
  refine ⟨by simp, fun hs => ?_⟩
  rw [State.offerPixel_eq]
  exact Store.offered_all_size (l := [x]) (i := x.slot) (by simp) hs

theorem SizeKept.endInputLine (s : State) : SizeKept s s.endInputLine := by
  refine ⟨by simp, fun hs => ?_⟩
  rw [State.endInputLine_eq, State.setInput_store, State.setStore_store]
  rcases Option.eq_none_or_eq_some s.input.progress with h | ⟨p, h⟩
  · simpa [State.lineEndStore, h] using hs
  · simp only [State.lineEndStore, h, Option.map_some, Option.getD_some]
    cases hline : lineUnfinished s.cfg p with
    | false => simpa [Store.lineEnded_finished _ hline] using hs
    | true =>
      obtain ⟨-, -, -, htorn, hsound⟩ := s.store.lineEnded_parts hline
      cases ht : (s.store.slots.get p.slot).torn with
      | true => simpa [htorn ht] using hs
      | false =>
        simp [hsound ht hs]

theorem SizeKept.completeCapture (s : State) : SizeKept s s.completeCapture := by
  rcases Option.eq_none_or_eq_some s.input.progress with h | ⟨p, h⟩
  · simpa only [State.completeCapture, h] using SizeKept.refl s
  · cases htorn : (s.store.slots.get p.slot).torn with
    | false =>
      rw [State.completeCapture_ready h htorn]
      exact .of_eq rfl rfl
    | true =>
      rw [State.completeCapture_torn h htorn]
      exact .of_le rfl (List.length_filter_le _ _)

theorem SizeKept.abandonCapture (s : State) : SizeKept s s.abandonCapture := .of_le rfl (List.length_filter_le _ _)

theorem SizeKept.takePixel (s : State) (v : Rgb) : SizeKept s (Machine.State.takePixel s v) := by
  rcases Option.eq_none_or_eq_some s.input.progress with h | ⟨p, h⟩
  · rw [State.takePixel_idle v h]
    exact .of_eq rfl rfl
  · refine ⟨by simp, fun hs => ?_⟩
    obtain ⟨e, q, htake, -, -, ⟨-, hstore, -⟩ | ⟨-, -, -, hstore⟩ | ⟨-, -, -, hstore⟩⟩ := State.takePixel_cases v h
    · rwa [htake, State.setInput_store, hstore]
    · rw [htake, State.setInput_store, hstore]
      exact (SizeKept.offerPixel s _).fifo hs
    · rw [htake, State.setInput_store, hstore]
      exact (SizeKept.offerPixel s _).fifo hs

theorem SizeKept.reportInput (s : State) : SizeKept s s.reportInput := by
  simp only [State.reportInput]
  split
  · exact .refl s
  · exact .inputLost s

theorem SizeKept.shortCheck (s : State) : SizeKept s s.shortCheck := by
  have hline : SizeKept s s.lastLineTaken := by
    simp only [State.lastLineTaken]
    split
    · exact (SizeKept.endInputLine s).trans (.completeCapture _)
    · exact .endInputLine s
  rw [State.shortCheck_eq]
  split
  · exact (hline.trans (.abandonCapture _)).trans (.of_eq rfl rfl)
  · exact hline.trans (.of_eq rfl rfl)

theorem SizeKept.inputVs (s : State) : SizeKept s s.inputVs := by
  have hbegin : ∀ u : State, SizeKept u u.beginFrame := fun u => .of_eq (by simp) (by simp)
  simp only [State.inputVs]
  split
  · simp only [State.vsInNoSignal]
    split
    · refine SizeKept.trans ?_ (.reportInput _)
      exact .of_eq rfl rfl
    · exact .of_eq rfl rfl
  · rcases s.vsInAcquiring_cases with ⟨r, hstable⟩ | ⟨c, n, hcounted⟩
    · rw [hstable]
      refine SizeKept.trans (SizeKept.trans ?_ (hbegin _)) (.reportInput _)
      exact .of_eq rfl rfl
    · rw [hcounted]
      exact .of_eq rfl rfl
  · have hshort := (SizeKept.shortCheck s).trans (.of_eq (t := s.shortCheck.closeFrame) rfl rfl)
    rw [State.vsInStable_eq]
    split
    · exact hshort.trans (hbegin _)
    · refine SizeKept.trans (hshort.trans ?_) (.reportInput _)
      exact .of_eq rfl rfl

theorem SizeKept.takeHeldVs (s : State) : SizeKept s s.takeHeldVs := by
  refine SizeKept.trans ?_ (.inputVs (s.setInput { s.input with heldVs := none }))
  exact .of_eq rfl rfl

theorem SizeKept.takeHs (s : State) : SizeKept s s.takeHs := by
  have htaken : SizeKept s s.hsTaken := (SizeKept.endInputLine s).trans
    (.of_eq (by simp [State.hsTaken]) (by simp [State.hsTaken, State.endInputLine_eq]))
  rw [State.takeHs_eq]
  split
  · exact htaken.trans (.takeHeldVs _)
  · exact htaken

theorem SizeKept.loseSignal (s : State) : SizeKept s s.loseSignal := by
  rw [State.loseSignal_eq]
  refine SizeKept.trans ?_ (.inputLost _)
  simp only [State.signalGone]
  split
  · refine SizeKept.trans ?_ (.abandonCapture _)
    exact .of_eq rfl rfl
  · exact .of_eq rfl rfl

/-! ## Every step -/

theorem SizeKept.settle (s : State) : SizeKept s s.settle := by
  refine .of_le (by simp) ?_
  rw [State.settle_store, State.arbitrate_eq]
  split
  · exact Store.granted_fifo _ _ _
  · exact le_refl _

theorem sizeLaw_reset {s : State} (hroster : s.member.roster = List.replicate 32 .absent) (hfifo : s.store.writeFifo = []) :
    s.SizeLaw := ⟨by simp [hroster], by simp [hfifo]⟩

theorem sizeLaw_portKeeps : PortKeeps State.SizeLaw where
  port _ _ hs _ := hs
  hold _ _ hs _ := hs
  release _ hs := hs
  setMode _ _ hs _ := (SizeKept.of_eq (by simp) (by simp)).law hs
  counters _ hs := hs
  restart _ _ := sizeLaw_reset rfl rfl

theorem effectOf_sizeLaw (c : Instr) {s : State} (hs : s.SizeLaw) : (effectOf c s).SizeLaw := by
  cases c
  case frameStart | loneLock | holdPictureTimerExpiry | rosterLapse => exact (SizeKept.frameStarts s _ _).law hs
  case statusCutoff w first => exact (SizeKept.cutoff s first).law hs
  case found => exact (SizeKept.cutoff s true).law hs
  case statusReceived | modeReceived | leaveReceived => exact (SizeKept.handOver s).law hs
  case copyReadEnd =>
    exact State.copyChecked_keeps hs (fun _ => hs) (fun _ => sizeLaw_reset rfl rfl)
      (fun c k _ _ => (SizeKept.setEntry s s.tile (fun _ => .absent)).law hs)
  case pllWaitExpiry =>
    simp only [effectOf, State.pllTimeout]
    split
    · exact hs
    · exact sizeLaw_reset rfl rfl
  case pllLock =>
    have hstart : SizeKept s s.enterRun := by
      simp only [State.enterRun, State.startGenerator]
      exact State.blocksFrameStart_keeps (P := SizeKept s) (fun b u hu => hu.trans (.blockFrameStart u b)) []
        (.of_eq (by simp [State.setStation]) (by simp))
    exact hstart.law hs
  case hold | release | setMode | clearEvents | clearCounters | restart | eventsClearWrite | itemSelect =>
    exact sizeLaw_portKeeps.transaction _ _ _ _ hs
  case outputLineEnd => exact (SizeKept.of_eq (by simp [effectOf]) (by simp [effectOf, State.nextLine])).law hs
  case statusOpen => exact (SizeKept.of_eq s.openWindow_roster (by simp)).law hs
  case ballotWindowStart => exact (SizeKept.of_eq s.enterBallotWindow_roster (by simp)).law hs
  case arbitrationLoss => exact (SizeKept.of_eq (by simp [effectOf, State.loseArbitration]) (by simp [effectOf])).law hs
  case messageSent => exact (SizeKept.of_eq s.messageWhole_roster (by simp)).law hs
  case endBitFailure => exact (SizeKept.of_eq (by simp [effectOf, State.endBitFails]) (by simp [effectOf])).law hs
  case refreshRequest => exact (SizeKept.of_eq (by simp [effectOf]) rfl).law hs
  case ballotLine td => exact (SizeKept.ballotLineEvent s td).law hs
  case ballotEnd => exact (SizeKept.endBallot s).law hs
  case hsEdge => exact (SizeKept.takeHs s).law hs
  case vsHoldExpiry => exact (SizeKept.takeHeldVs s).law hs
  case inputTimerExpiry => exact (SizeKept.loseSignal s).law hs
  case captureComplete => exact (SizeKept.completeCapture s).law hs
  case writeFifoOverflow w v | regionPixelEntry w v => exact (SizeKept.takePixel s v).law hs
  case readUnderflow => exact (SizeKept.of_eq (by simp [effectOf]) (by simp [effectOf, State.underflow, State.discardFetches])).law hs
  all_goals exact (SizeKept.of_eq (by simp [effectOf]) (by simp [effectOf])).law hs

theorem State.SizeLaw.step {s t : State} (hs : s.SizeLaw) (h : Machine.step s = .next t) : t.SizeLaw := by
  have hpass : ∀ w u, SizeKept u (u.pass w) := fun w u => .of_eq (by simp) (by simp)
  simp only [Machine.step] at h
  split at h
  · cases h
    exact hs
  · next c rest _ =>
    have hs' : (s.setPending rest).SizeLaw := hs
    rcases exec_next h with ⟨w, _, rfl⟩ | ⟨w, u, _, hu, rfl⟩ | ⟨_, _, rfl | ⟨-, rfl⟩⟩
    · exact sizeLaw_reset rfl rfl
    · obtain ⟨-, -, -, -, -, -, hmember, -⟩ := State.finishTransfer_frame hu
      have htransfer : SizeKept ((s.setPending rest).pass w) u := .of_eq (by rw [hmember]) (State.finishTransfer_fifo hu)
      exact (((hpass w _).trans htransfer).trans (.settle u)).law hs'
    · exact ((hpass _ _).trans (.settle _)).law hs'
    · exact (SizeKept.settle _).law (effectOf_sizeLaw c ((hpass _ _).law hs'))

/-- Settles O18: a queue only loses entries but for those that R125 and R129 insert in order, and a frame start removes
the entry whose target the new WFN reaches. -/
theorem queueStaysInOrder : Obligations.QueueStaysInOrder := by
  intro s t hrest h
  refine ⟨fun hs => ?_, fun hs => hs.step h⟩
  rw [State.queueLaw_iff] at hs ⊢
  exact hs.step hrest h

end Sys2Proof.Machine
end

