-- ==== Sys2Proof/Proofs/PanelPath.lean ====
section
/-! O53, what a panel pixel holds and what the panel port drives (R3, R137 to R145, R150 to R152). -/

namespace Sys2Proof.Machine

/-! ## Source and content -/

theorem State.findSelection_apart {s : State} (h : s.member.station = .detached ∨ s.member.station = .joining) :
    s.findSelection = if (s.store.slots.first .showing).isSome then .slot
      else match s.cfg.detachedShow with | .fill => .fill | .ident => .pattern 10 := by
  rcases h with h | h <;> rw [State.findSelection, h] <;> rfl

/-- What a mode gives a MEMBER with a SHOWING slot to output (R138). -/
def modeSource : Mode → Selection
  | .live => .slot
  | .freeze => .slot
  | .fill => .fill
  | .pattern n => .pattern n

theorem State.findSelection_member {s : State} (h : s.member.station = .member) :
    s.findSelection = if (s.store.slots.first .showing).isSome then modeSource s.modes.record.mode else .fill := by
  rw [State.findSelection, h]
  rfl

theorem inWindow_iff (c : Settings) (x y : Nat) :
    inWindow c x y = true ↔ c.cx ≤ x ∧ x < c.cx + c.cw ∧ c.cy ≤ y ∧ y < c.cy + c.ch := by
  simp only [inWindow, Bool.and_eq_true, decide_eq_true_eq, and_assoc]

/-- The columns from which a line is filled after an underflow (R145). -/
def Picture.filledFrom (p : Picture) (x : Nat) : Bool := match p.fillFrom with | some k => decide (k ≤ x) | none => false

theorem Picture.filledFrom_iff (p : Picture) (x : Nat) : p.filledFrom x = true ↔ ∃ k, p.fillFrom = some k ∧ k ≤ x := by
  cases h : p.fillFrom <;> simp [Picture.filledFrom, h]

theorem contentPixel_slot {s : State} (x y : Nat) (h : s.picture.selection = .slot) :
    contentPixel s x y = if inWindow s.cfg x y = true ∧ s.picture.filledFrom x = false
      then (scaledPixel s.cfg s.arrivedLines (x - s.cfg.cx) (y - s.cfg.cy)).getD s.cfg.fillColour
      else s.cfg.fillColour := by
  have hboth : (inWindow s.cfg x y && !s.picture.filledFrom x) = true
      ↔ inWindow s.cfg x y = true ∧ s.picture.filledFrom x = false := by
    rw [Bool.and_eq_true, Bool.not_eq_true']
  rw [contentPixel, h]
  exact if_congr hboth rfl rfl

/-! ## The scaler (R142, R143) -/

theorem redOf_lt (v : Rgb) : redOf v < 256 := (v.extractLsb' 16 8).isLt

theorem greenOf_lt (v : Rgb) : greenOf v < 256 := (v.extractLsb' 8 8).isLt

theorem blueOf_lt (v : Rgb) : blueOf v < 256 := (v.extractLsb' 0 8).isLt

/-- A blend of two components is a component. -/
theorem blend_lt {u v w : Nat} (hu : u < 256) (hv : v < 256) (hw : w ≤ 65536) : blend u v w < 256 := by
  have hleft : u * (65536 - w) ≤ 255 * (65536 - w) := Nat.mul_le_mul_right _ (by omega)
  have hright : v * w ≤ 255 * w := Nat.mul_le_mul_right _ (by omega)
  rw [blend]
  omega

/-- A component is one of the three of a colour, each blended by itself. -/
theorem component_blendRgb {comp : Rgb → Nat} (hcomp : comp = redOf ∨ comp = greenOf ∨ comp = blueOf) (u v : Rgb) {w : Nat}
    (hw : w ≤ 65536) : comp (blendRgb u v w) = blend (comp u) (comp v) w := by
  rcases hcomp with rfl | rfl | rfl
  · rw [blendRgb, redOf_rgbOf, Nat.mod_eq_of_lt (blend_lt (redOf_lt u) (redOf_lt v) hw)]
  · rw [blendRgb, greenOf_rgbOf, Nat.mod_eq_of_lt (blend_lt (greenOf_lt u) (greenOf_lt v) hw)]
  · rw [blendRgb, blueOf_rgbOf, Nat.mod_eq_of_lt (blend_lt (blueOf_lt u) (blueOf_lt v) hw)]

/-- The four pixels that the scaler needs, where all have arrived. -/
def fourPixels (store : List StoreLine) (a a2 b b2 : Nat) : Option (Rgb × Rgb × Rgb × Rgb) :=
  match storedPixel store b a, storedPixel store b a2, storedPixel store b2 a, storedPixel store b2 a2 with
  | some p, some q, some r, some t => some (p, q, r, t)
  | _, _, _, _ => none

theorem fourPixels_some {store : List StoreLine} {a a2 b b2 : Nat} {p q r t : Rgb} (hp : storedPixel store b a = some p)
    (hq : storedPixel store b a2 = some q) (hr : storedPixel store b2 a = some r) (ht : storedPixel store b2 a2 = some t) :
    fourPixels store a a2 b b2 = some (p, q, r, t) := by
  simp only [fourPixels, hp, hq, hr, ht]

theorem fourPixels_none {store : List StoreLine} {a a2 b b2 : Nat} (h : storedPixel store b a = none
    ∨ storedPixel store b a2 = none ∨ storedPixel store b2 a = none ∨ storedPixel store b2 a2 = none) :
    fourPixels store a a2 b b2 = none := by
  rw [fourPixels]
  split
  · next hp hq hr ht => simp [hp, hq, hr, ht] at h
  · rfl

theorem scaledPixel_eq {c : Settings} {i j a a2 f b b2 g : Nat} (store : List StoreLine)
    (hx : axisIndex (i * c.stepX) c.rw = (a, a2, f)) (hy : axisIndex (j * c.stepY) c.rh = (b, b2, g)) :
    scaledPixel c store i j = (fourPixels store a a2 b b2).map
      (fun v => blendRgb (blendRgb v.1 v.2.1 f) (blendRgb v.2.2.1 v.2.2.2 f) g) := by
  simp only [scaledPixel, hx, hy]
  split
  · next hp hq hr ht =>
    rw [fourPixels_some hp hq hr ht]
    rfl
  · next hmissing =>
    rw [fourPixels]
    split
    · next hp hq hr ht => exact absurd ht (hmissing _ _ _ _ hp hq hr)
    · rfl

/-! ## Gamma and dither (R150, R151) -/

/-- What a component becomes on its way to the panel. -/
def State.stage (s : State) (x y v : Nat) : Nat := if s.cfg.dither then ditherValue s.picture.dither x y v else v

theorem panelPixel_eq (s : State) (x y : Nat) : panelPixel s x y = rgbOf
    (s.stage x y (gammaOf s.picture.gammaR (redOf (contentPixel s x y))))
    (s.stage x y (gammaOf s.picture.gammaG (greenOf (contentPixel s x y))))
    (s.stage x y (gammaOf s.picture.gammaB (blueOf (contentPixel s x y)))) := rfl

theorem gammaOf_lt (table : List Byte) (v : Nat) : gammaOf table v < 256 := ((table[v]?).getD (BitVec.ofNat 8 v)).isLt

theorem State.stage_lt (s : State) (x y : Nat) {v : Nat} (hv : v < 256) : s.stage x y v < 256 := by
  rw [State.stage, ditherValue]
  split <;> omega

theorem component_panelPixel {s : State} {comp : Rgb → Nat} {table : List Byte} (x y : Nat)
    (h : (comp = redOf ∧ table = s.picture.gammaR) ∨ (comp = greenOf ∧ table = s.picture.gammaG)
      ∨ (comp = blueOf ∧ table = s.picture.gammaB)) :
    comp (panelPixel s x y) = s.stage x y (gammaOf table (comp (contentPixel s x y))) := by
  have hlt : ∀ table v, s.stage x y (gammaOf table v) < 256 := fun table v => s.stage_lt x y (gammaOf_lt table v)
  rw [panelPixel_eq]
  rcases h with ⟨rfl, rfl⟩ | ⟨rfl, rfl⟩ | ⟨rfl, rfl⟩
  · rw [redOf_rgbOf, Nat.mod_eq_of_lt (hlt _ _)]
  · rw [greenOf_rgbOf, Nat.mod_eq_of_lt (hlt _ _)]
  · rw [blueOf_rgbOf, Nat.mod_eq_of_lt (hlt _ _)]

/-! ## The panel port (R3, R152) -/

/-- A signal asserted at its polarity. -/
theorem beq_polarity (p : Prop) [Decidable p] (high : Bool) : (decide p == high) = true ↔ (p ↔ high = true) := by
  cases high <;> by_cases hp : p <;> simp [hp]

theorem State.panelSync_running {s : State} (h : s.timing.running = true) : s.panelSync =
    ⟨decide (s.timing.pixel < s.cfg.hsw) == s.cfg.hsHigh, decide (s.timing.line < s.cfg.vsw) == s.cfg.vsHigh,
      inActiveArea s.cfg s.timing.pixel s.timing.line == s.cfg.deHigh⟩ := if_pos h

/-- Settles O53: each clause is the rule of one stage of the pixel's path. -/
theorem panelPixelPath : Obligations.PanelPixelPath := by
  refine ⟨fun u => ⟨?still, fun h => ⟨?shown, ?unshown⟩, fun h => ⟨?member, ?blank⟩⟩,
    fun u x y => ⟨?inactive, ?fill, ?pattern, fun h => ⟨?border, ?cut, ?window⟩⟩, ?scaler, ?output,
    fun c x y => ?area, fun u => ⟨?driven, ?stopped⟩, fun u => ⟨?data, ?dark⟩⟩
  case still => rintro (h | h) <;> rw [State.findSelection, h]
  case shown =>
    intro hs
    rw [State.findSelection_apart h, if_pos (Option.isSome_iff_ne_none.mpr hs)]
  case unshown =>
    intro hs
    rw [State.findSelection_apart h, hs]
    rfl
  case member =>
    intro hs
    rw [State.findSelection_member h, if_pos (Option.isSome_iff_ne_none.mpr hs)]
    rfl
  case blank =>
    intro hs
    rw [State.findSelection_member h, hs]
    rfl
  case inactive =>
    intro h
    simp only [contentPixel, h]
    rfl
  case fill =>
    intro h
    simp only [contentPixel, h]
  case pattern =>
    intro n h
    simp only [contentPixel, h]
  case border =>
    intro hout
    rw [contentPixel_slot x y h, if_neg (fun hin => hout ((inWindow_iff _ x y).mp hin.1))]
  case cut =>
    intro k hk hx
    have hfilled : u.picture.filledFrom x = true := (Picture.filledFrom_iff _ x).mpr ⟨k, hk, hx⟩
    rw [contentPixel_slot x y h, if_neg (fun hin => by simp [hfilled] at hin)]
  case window =>
    intro hx hx' hy hy' hfrom
    have hfilled : u.picture.filledFrom x = false := by
      rw [← Bool.not_eq_true, Picture.filledFrom_iff]
      rintro ⟨k, hk, hle⟩
      have hlt := hfrom k hk
      omega
    rw [contentPixel_slot x y h, if_pos ⟨(inWindow_iff _ x y).mpr ⟨hx, hx', hy, hy'⟩, hfilled⟩, State.arrivedLines]
  case scaler =>
    intro c store i j a a2 f b b2 g ha hf ha2 hb hg hb2
    have hx : axisIndex (i * c.stepX) c.rw = (a, a2, f) := by rw [axisIndex, Settings.stepX, ha, hf, ha2]
    have hy : axisIndex (j * c.stepY) c.rh = (b, b2, g) := by rw [axisIndex, Settings.stepY, hb, hg, hb2]
    have hfle : f ≤ 65536 := by omega
    have hgle : g ≤ 65536 := by omega
    rw [scaledPixel_eq store hx hy]
    refine ⟨fun hmissing => by rw [fourPixels_none hmissing, Option.map_none], fun p q r t hp hq hr ht => ?_⟩
    rw [fourPixels_some hp hq hr ht]
    refine ⟨_, rfl, fun comp hcomp => ?_⟩
    rw [component_blendRgb hcomp _ _ hgle, component_blendRgb hcomp _ _ hfle, component_blendRgb hcomp _ _ hfle]
    rfl
  case output =>
    intro u x y m hm comp table v hcomp hv
    have hthreshold : ditherThreshold u.picture.dither x y = m := hm
    rw [component_panelPixel x y hcomp, gammaOf, hv, Option.getD_some, State.stage, ditherValue, hthreshold]
  case area => simp only [inActiveArea, Bool.and_eq_true, decide_eq_true_eq, and_assoc]
  case driven =>
    intro h
    rw [State.panelSync_running h]
    refine ⟨h, beq_polarity _ _, beq_polarity _ _, ?_⟩
    have hde := beq_polarity (inActiveArea u.cfg u.timing.pixel u.timing.line = true) u.cfg.deHigh
    rwa [Bool.decide_eq_true] at hde
  case stopped =>
    intro h
    exact ⟨h, if_neg (by simp [h])⟩
  case data =>
    intro h harea
    rw [State.panelData, h, harea]
    rfl
  case dark =>
    intro h
    refine if_neg fun hon => ?_
    rw [Bool.and_eq_true] at hon
    rcases h with h | h <;> simp [h] at hon

end Sys2Proof.Machine
end

