-- ==== Sys2Proof/Proofs/CanvasPatterns.lean ====
section
/-! O55, the canvas grid, the moving bar and the identity pattern (R146, R148, R149). -/

namespace Sys2Proof.Machine

/-! ## The canvas (R146, R148) -/

theorem canvasGrid_eq (c : Settings) (x y : Nat) : canvasGrid c x y =
    if canvasU c x / 4194304 ≠ canvasU c ((x : Int) - 1) / 4194304 ∨ canvasV c y / 4194304 ≠ canvasV c ((y : Int) - 1) / 4194304
    then white else black := by
  simp only [canvasGrid, Int.fdiv_eq_ediv_of_nonneg _ (show (0 : Int) ≤ 4194304 by decide)]

theorem movingBar_canvas {c : Settings} {wfn : Word} {r : Record} (x : Nat) (h : r.activePixels ≠ 0) :
    movingBar c wfn (some r) x =
      if (canvasU c x / 65536 - ((wfn.toNat * 8) % r.activePixels : Nat)) % (r.activePixels : Int) ≤ 15
      then white else black := by
  simp only [movingBar, if_neg h, Int.fdiv_eq_ediv_of_nonneg _ (show (0 : Int) ≤ 65536 by decide),
    Int.fmod_eq_emod_of_nonneg _ (Int.natCast_nonneg r.activePixels)]

theorem movingBar_twoColours (c : Settings) (wfn : Word) (stable : Option Record) (x : Nat) :
    movingBar c wfn stable x = white ∨ movingBar c wfn stable x = black := by
  unfold movingBar
  dsimp only
  repeat' split
  all_goals simp

/-! ## The identity pattern (R149) -/

/-- The dot that the identity pattern shows at a place of its 10 by 7 grid. -/
def identityDot (tile col r : Nat) : Bool :=
  (decide (col < 4) && dotLit (tile / 10) col r) || (decide (6 ≤ col) && dotLit (tile % 10) (col - 6) r)

theorem identityPixel_eq {s : State} {k : Nat} {x0 y0 : Int} (field : Rgb) (x y : Nat)
    (hk : max 1 (min s.cfg.aw s.cfg.ah / 32) = k) (hx0 : ((s.cfg.aw : Int) - 10 * k) / 2 = x0)
    (hy0 : ((s.cfg.ah : Int) - 7 * k) / 2 = y0) : identityPixel s field x y =
      if 0 ≤ (x : Int) - x0 ∧ (x : Int) - x0 < 10 * k ∧ 0 ≤ (y : Int) - y0 ∧ (y : Int) - y0 < 7 * k then
        if identityDot s.tile.toNat (((x : Int) - x0).toNat / k) (((y : Int) - y0).toNat / k) then white else field
      else field := by
  subst hx0 hy0 hk
  simp only [identityPixel, Int.fdiv_eq_ediv_of_nonneg _ (show (0 : Int) ≤ 2 by decide)]
  rfl

/-- A place within a dot of side `k`. -/
theorem dot_of_place {z z0 : Int} {k n d : Nat} (hd : d < k) (hz : z = z0 + k * n + d) :
    0 ≤ z - z0 ∧ (z - z0).toNat / k = n := by
  have hdiff : z - z0 = ((k * n + d : Nat) : Int) := by
    rw [hz]
    push_cast
    ring
  refine ⟨by rw [hdiff]; exact Int.natCast_nonneg _, ?_⟩
  rw [hdiff, Int.toNat_natCast, Nat.mul_add_div (by omega), Nat.div_eq_of_lt hd, Nat.add_zero]

theorem place_lt {z z0 : Int} {k n d m : Nat} (hn : n < m) (hd : d < k) (hz : z = z0 + k * n + d) : z - z0 < m * k := by
  have hstep : k * (n + 1) ≤ k * m := Nat.mul_le_mul_left k hn
  have hlt : k * n + d < m * k := by
    rw [Nat.mul_comm m k]
    rw [Nat.mul_add, Nat.mul_one] at hstep
    omega
  have hcast : ((k * n + d : Nat) : Int) < ((m * k : Nat) : Int) := Int.ofNat_lt.mpr hlt
  push_cast at hcast
  omega

theorem identityPixel_dot {s : State} {k col r dx dy x y : Nat} {x0 y0 : Int} (field : Rgb)
    (hk : max 1 (min s.cfg.aw s.cfg.ah / 32) = k) (hx0 : ((s.cfg.aw : Int) - 10 * k) / 2 = x0)
    (hy0 : ((s.cfg.ah : Int) - 7 * k) / 2 = y0) (hcol : col < 10) (hr : r < 7) (hdx : dx < k) (hdy : dy < k)
    (hx : (x : Int) = x0 + k * col + dx) (hy : (y : Int) = y0 + k * r + dy) :
    identityPixel s field x y = if identityDot s.tile.toNat col r then white else field := by
  obtain ⟨hxlow, hxdot⟩ := dot_of_place hdx hx
  obtain ⟨hylow, hydot⟩ := dot_of_place hdy hy
  rw [identityPixel_eq field x y hk hx0 hy0, if_pos ⟨hxlow, place_lt hcol hdx hx, hylow, place_lt hr hdy hy⟩, hxdot, hydot]

theorem identityDot_tens {tile col : Nat} (r : Nat) (h : col < 4) : identityDot tile col r = dotLit (tile / 10) col r := by
  simp [identityDot, h, show ¬6 ≤ col by omega]

theorem identityDot_units {tile col : Nat} (r : Nat) (h : 6 ≤ col) :
    identityDot tile col r = dotLit (tile % 10) (col - 6) r := by
  simp [identityDot, h, show ¬col < 4 by omega]

theorem identityDot_gap {tile col : Nat} (r : Nat) (h : col = 4 ∨ col = 5) : identityDot tile col r = false := by
  rcases h with rfl | rfl <;> simp [identityDot]

/-- Each segment with the digits that light it. -/
theorem digitSegments_eq : ∀ d, d < 10 → digitSegments d =
    ⟨decide (d ∈ [0, 2, 3, 5, 6, 7, 8, 9]), decide (d ∈ [0, 1, 2, 3, 4, 7, 8, 9]),
      decide (d ∈ [0, 1, 3, 4, 5, 6, 7, 8, 9]), decide (d ∈ [0, 2, 3, 5, 6, 8, 9]), decide (d ∈ [0, 2, 6, 8]),
      decide (d ∈ [0, 4, 5, 6, 8, 9]), decide (d ∈ [2, 3, 4, 5, 6, 8, 9])⟩ := by decide

/-- Settles O55: each clause is the pattern's own rule, with the divisions in the statement's terms. -/
theorem canvasAndIdentityPatterns : Obligations.CanvasAndIdentityPatterns := by
  refine ⟨fun u x y U V hU hV => ?canvas, fun u => ⟨?conflict, fun h => ⟨?detached, ?joining, ?member⟩⟩,
    fun u k x y x0 y0 hk hx0 hy0 => ⟨?outside, fun col r dx dy hcol hr hdx hdy hx hy => ?inside⟩, ?segments⟩
  case canvas =>
    have hUeq : U = canvasU u.cfg := funext hU
    have hVeq : V = canvasV u.cfg := funext hV
    subst hUeq hVeq
    refine ⟨canvasGrid_eq u.cfg x y, fun hnone => ?_, fun r hr hwidth => ?_, movingBar_twoColours _ _ _ _⟩
    · exact congrArg (fun o => movingBar u.cfg u.picture.patternWfn o x) hnone
    · exact (congrArg (fun o => movingBar u.cfg u.picture.patternWfn o x) hr).trans (movingBar_canvas x hwidth)
  case conflict => exact fun h => if_pos h
  case detached =>
    intro hs
    rw [State.identityField, h, hs]
    rfl
  case joining =>
    intro hs
    rw [State.identityField, h, hs]
    rfl
  case member =>
    intro hs
    rw [State.identityField, h, hs]
    rfl
  case outside =>
    intro hout
    exact (identityPixel_eq u.picture.field x y hk hx0 hy0).trans (if_neg (by omega))
  case inside =>
    have hdot : patternPixel u 10 x y = if identityDot u.tile.toNat col r then white else u.picture.field :=
      identityPixel_dot u.picture.field hk hx0 hy0 hcol hr hdx hdy hx hy
    refine ⟨fun htens => ?_, fun hgap => ?_, fun hunits => ?_⟩
    · rw [hdot, identityDot_tens r htens]
      rfl
    · rw [hdot, identityDot_gap r hgap]
      rfl
    · rw [hdot, identityDot_units r hunits]
      rfl
  case segments =>
    intro d hd c _ r _
    simp only [dotLit, digitSegments_eq d hd, Bool.or_eq_true, Bool.and_eq_true, decide_eq_true_eq, beq_iff_eq, or_assoc]
    have hlast : ∀ p q m : Prop, (m ∧ p) ∧ q ↔ p ∧ q ∧ m := fun _ _ _ => and_assoc.trans and_rotate
    exact or_congr and_comm (or_congr (hlast _ _ _) (or_congr (hlast _ _ _) (or_congr and_comm
      (or_congr (hlast _ _ _) (or_congr (hlast _ _ _) and_comm)))))

end Sys2Proof.Machine
end

