-- ==== Sys2Proof/Proofs/FrameBegins.lean ====
section
/-! What the beginning of an input frame makes of the station, in the terms of the grant alone (R51, R64, R65). -/

namespace Sys2Proof.Machine

theorem Counters.ext_get {a b : Counters} (h : ∀ c, a.get c = b.get c) : a = b := by
  cases a
  cases b
  rw [Counters.mk.injEq]
  exact ⟨h .lockLosses, h .msgsSent, h .arbLosses, h .rxErrors, h .statusDropped, h .busStuck, h .captureDone,
    h .captureShort, h .captureTorn, h .slotsOverwritten, h .rebases, h .readUnderflow, h .advances, h .repeats,
    h .ballotLate, h .ballotFaults, h .joins, h .alignMisses, h .foundings, h .realigns, h .lapses, h .modeStale,
    h .modeConflicts, h .modeOverflow, h .modeRepairs⟩

/-! ## A grant depends on the slots alone -/

/-- A counter that stands the same in two stations. -/
def SameCount (c : Counter) (s t : State) : Prop := t.counters.get c = s.counters.get c

theorem State.windowChecked_congr {s t : State} (h : t.store.slots = s.store.slots) (n : Word) :
    (t.windowChecked n).store.slots = (s.windowChecked n).store.slots
    ∧ ∀ c, SameCount c s t → SameCount c (s.windowChecked n) (t.windowChecked n) := by
  by_cases hr : ∃ r, s.store.slots.Rebased n r
  · obtain ⟨r, hr⟩ := hr
    have hr' : t.store.slots.Rebased n r := by rwa [h]
    refine ⟨Slots.ext_get fun j => by rw [Slots.get_rebased hr, Slots.get_rebased hr', h], fun c hc => ?_⟩
    by_cases hrebases : c = .rebases
    · subst hrebases
      rw [SameCount, (t.windowChecked_rebases n).1 r hr', (s.windowChecked_rebases n).1 r hr, hc]
    · rw [SameCount, (t.windowChecked_rebases n).2.2 c hrebases, (s.windowChecked_rebases n).2.2 c hrebases, hc]
  · push Not at hr
    have hr' : ∀ r, ¬t.store.slots.Rebased n r := by rwa [h]
    refine ⟨Slots.ext_get fun j => by rw [Slots.get_notRebased hr, Slots.get_notRebased hr', h], fun c hc => ?_⟩
    by_cases hrebases : c = .rebases
    · subst hrebases
      rw [SameCount, (t.windowChecked_rebases n).2.1 hr', (s.windowChecked_rebases n).2.1 hr, hc]
    · rw [SameCount, (t.windowChecked_rebases n).2.2 c hrebases, (s.windowChecked_rebases n).2.2 c hrebases, hc]

theorem State.grant_congr {s t : State} (h : t.store.slots = s.store.slots) (n : Word) (st : Stamp) :
    (t.grant n st).2 = (s.grant n st).2 ∧ (t.grant n st).1.store.slots = (s.grant n st).1.store.slots
    ∧ ∀ c, SameCount c s t → SameCount c (s.grant n st).1 (t.grant n st).1 := by
  obtain ⟨hslots, hcount⟩ := State.windowChecked_congr h n
  rcases Option.eq_none_or_eq_some (grantChoice (s.windowChecked n).store.slots) with hs | ⟨i, hs⟩
  · have ht : grantChoice (t.windowChecked n).store.slots = none := by rwa [hslots]
    rw [State.grant_none hs, State.grant_none ht]
    exact ⟨rfl, hslots, hcount⟩
  · have ht : grantChoice (t.windowChecked n).store.slots = some i := by rwa [hslots]
    obtain ⟨hchosen, hgranted⟩ := State.grant_some (t := st) hs
    obtain ⟨hchosen', hgranted'⟩ := State.grant_some (t := st) ht
    refine ⟨hchosen'.trans hchosen.symm, by rw [hgranted, hgranted', hslots], fun c hc => ?_⟩
    have hsame := hcount c hc
    rw [SameCount] at hsame ⊢
    rw [State.grant_counters hs, State.grant_counters ht, hslots, hsame]

theorem State.grant_otherCount (s : State) (n : Word) (st : Stamp) {c : Counter} (hr : c ≠ .rebases)
    (ho : c ≠ .slotsOverwritten) : SameCount c s (s.grant n st).1 := by
  have hchecked := (s.windowChecked_rebases n).2.2 c hr
  rcases Option.eq_none_or_eq_some (grantChoice (s.windowChecked n).store.slots) with h | ⟨i, h⟩
  · rw [SameCount, State.grant_none h, hchecked]
  · rw [SameCount, State.grant_counters h, if_neg (fun hc => ho hc.2), hchecked]

/-- With a FREE slot there is a grant. -/
theorem State.grant_exists {s : State} (n : Word) (st : Stamp) (h : s.store.slots.first .free ≠ none) :
    ∃ i, (s.grant n st).2 = some i
      ∧ (s.grant n st).1.store.slots.get i = ⟨.filling, n, st, 0, false, false⟩ := by
  obtain ⟨j, hj⟩ := (Slots.first_isSome_iff _ _).mp (Option.isSome_iff_ne_none.mpr h)
  rcases Option.eq_none_or_eq_some (grantChoice (s.windowChecked n).store.slots) with hnone | ⟨i, hi⟩
  · refine absurd ?_ (grantChoice_none hnone j).1
    rcases s.windowChecked_state n j with hsame | ⟨hfree, -⟩
    · exact hsame.trans hj
    · exact hfree
  · obtain ⟨hchosen, hslots⟩ := State.grant_some (t := st) hi
    exact ⟨i, hchosen, by rw [hslots, Slots.get_modify, if_pos rfl]⟩

/-! ## The beginning of a frame (R51, steps 4 to 7) -/

/-- The progress of a capture that has just begun. -/
def Progress.fresh (i : Fin 5) : Progress := ⟨i, 0, 0, 0, false⟩

theorem State.beginFrame_unusable {s : State} (h : s.usable = false) : s.beginFrame = s.countFrame := by
  have hcounted : s.countFrame.usable = false := h
  simp only [State.countFrame] at hcounted ⊢
  simp only [State.beginFrame, hcounted, if_neg Bool.false_ne_true]

/-- With a usable input the new frame is granted a slot for the new count and the present WFN and line. -/
theorem State.beginFrame_usable {s : State} (h : s.usable = true) :
    s.beginFrame.store.slots = (s.grant (s.input.lcs + 1) ⟨s.timing.wfn, s.timing.line⟩).1.store.slots
    ∧ s.beginFrame.counters = (s.grant (s.input.lcs + 1) ⟨s.timing.wfn, s.timing.line⟩).1.counters
    ∧ s.beginFrame.input = { s.input with lcs := s.input.lcs + 1, progress :=
        (((s.grant (s.input.lcs + 1) ⟨s.timing.wfn, s.timing.line⟩).2.map Progress.fresh).or s.input.progress) } := by
  have hcounted : s.countFrame.usable = true := h
  obtain ⟨hchosen, hslots, hcount⟩ := State.grant_congr (s := s) (t := s.countFrame) rfl (s.input.lcs + 1)
    ⟨s.timing.wfn, s.timing.line⟩
  have hcounters := Counters.ext_get fun c => hcount c rfl
  rw [← hchosen, ← hslots, ← hcounters]
  have hinput : (s.countFrame.grant (s.input.lcs + 1) ⟨s.timing.wfn, s.timing.line⟩).1.input = s.countFrame.input := by simp
  rcases Option.eq_none_or_eq_some (s.countFrame.grant (s.input.lcs + 1) ⟨s.timing.wfn, s.timing.line⟩).2 with hnone | ⟨i, hi⟩
  · have hbegin : s.beginFrame = (s.countFrame.grant (s.input.lcs + 1) ⟨s.timing.wfn, s.timing.line⟩).1 := by
      simp only [State.countFrame] at hnone hcounted ⊢
      simp only [State.beginFrame, hcounted, if_pos, State.setInput_timing, hnone]
    rw [hbegin, hnone, hinput]
    exact ⟨rfl, rfl, rfl⟩
  · have hbegin : s.beginFrame = (s.countFrame.grant (s.input.lcs + 1) ⟨s.timing.wfn, s.timing.line⟩).1.setInput
        { (s.countFrame.grant (s.input.lcs + 1) ⟨s.timing.wfn, s.timing.line⟩).1.input with
          progress := some (.fresh i) } := by
      simp only [State.countFrame] at hi hcounted ⊢
      simp only [State.beginFrame, hcounted, if_pos, State.setInput_timing, hi]
      rfl
    rw [hbegin, hi, hinput]
    exact ⟨rfl, rfl, rfl⟩

theorem State.beginFrame_input (s : State) : ∃ q, s.beginFrame.input = { s.input with lcs := s.input.lcs + 1, progress := q } := by
  cases h : s.usable with
  | true => exact ⟨_, (State.beginFrame_usable h).2.2⟩
  | false =>
    rw [State.beginFrame_unusable h]
    exact ⟨s.input.progress, rfl⟩

theorem State.beginFrame_otherCount (s : State) {c : Counter} (hr : c ≠ .rebases) (ho : c ≠ .slotsOverwritten) :
    SameCount c s s.beginFrame := by
  cases h : s.usable with
  | true =>
    rw [SameCount, (State.beginFrame_usable h).2.1]
    exact s.grant_otherCount _ _ hr ho
  | false =>
    rw [State.beginFrame_unusable h]
    rfl

end Sys2Proof.Machine
end

