-- ==== Sys2Proof/Proofs/FrameEnds.lean ====
section
/-! What the end of an input frame in STABLE makes of the capture in progress (R51 steps 1 to 3, R54 to R56). -/

namespace Sys2Proof.Machine

/-! ## The last line of a capture -/

/-- The region lines that finish as the line in progress ends: one, or none. -/
def lastCount (c : Settings) (p : Progress) : Nat := if lineUnfinished c p = true then 1 else 0

/-- The pixels that the end of the line in progress enters. -/
def lastPad (c : Settings) (p : Progress) : Nat := lastCount c p * (c.rw - min c.rw (p.pixel - c.rx))

theorem lastCount_eq (c : Settings) (p : Progress) : lastCount c p =
    if p.lineActive = true ∧ c.ry ≤ p.line ∧ p.line < c.ry + c.rh ∧ p.pixel < c.rx + c.rw then 1 else 0 :=
  if_congr lineUnfinished_iff rfl rfl

theorem Progress.lineEnded_parts (c : Settings) (p : Progress) :
    (p.lineEnded c).slot = p.slot ∧ (p.lineEnded c).entered = p.entered + lastCount c p := by
  rw [Progress.lineEnded, lastCount]
  cases hun : lineUnfinished c p with
  | true => simp [(lineUnfinished_iff.mp hun).1, Progress.nextLine]
  | false => cases p.lineActive <;> simp [Progress.nextLine]

/-- Pixels offered for one slot leave the others' as they wait. -/
theorem Store.offered_filter {i : Fin 5} {l : List WritePixel} (hl : ∀ y ∈ l, y.slot = i) (x : Store) :
    (l.foldl Store.offered x).writeFifo.filter (fun y => y.slot != i) = x.writeFifo.filter (fun y => y.slot != i) := by
  induction l generalizing x with
  | nil => rfl
  | cons y rest ih =>
    have hy : y.slot = i := hl y List.mem_cons_self
    rw [List.foldl_cons, ih (fun z hz => hl z (List.mem_cons_of_mem _ hz)), Store.offered]
    split
    · rfl
    · split
      · simp [List.filter_append, hy]
      · rfl

/-- A slot after the last line of its capture. -/
def Slot.lastLine (q : Slot) (c : Settings) (p : Progress) (waiting : Nat) : Slot :=
  { q with lines := q.lines + lastCount c p
           torn := q.torn || decide (lastPad c p ≠ 0 ∧ 2048 < waiting + lastPad c p) }

theorem Store.lineEnded_last (c : Settings) (p : Progress) (x : Store) :
    (∀ j, (x.lineEnded c p).slots.get j =
      if j = p.slot then (x.slots.get j).lastLine c p x.writeFifo.length else x.slots.get j)
    ∧ (x.lineEnded c p).transfer = x.transfer
    ∧ (x.lineEnded c p).writeFifo.filter (fun y => y.slot != p.slot) = x.writeFifo.filter (fun y => y.slot != p.slot) := by
  cases hun : lineUnfinished c p with
  | false =>
    rw [Store.lineEnded_finished x hun]
    exact ⟨fun j => by simp [Slot.lastLine, lastPad, lastCount, hun], rfl, rfl⟩
  | true =>
    obtain ⟨hrest, hother, hslot, -⟩ := x.lineEnded_parts hun
    have hpad : lastPad c p = (linePadding c p).length := by simp [lastPad, lastCount, hun, linePadding_length]
    have hsome : linePadding c p ≠ [] ↔ lastPad c p ≠ 0 := by rw [hpad, ne_eq, ne_eq, List.length_eq_zero_iff]
    refine ⟨fun j => ?_, by rw [hrest], ?_⟩
    · split
      · next hj =>
        rw [hj, hslot, Slot.lastLine, hpad]
        simp [lastCount, hun]
      · next hj => exact hother j hj
    · have hfifo : (x.lineEnded c p).writeFifo = ((linePadding c p).foldl Store.offered x).writeFifo := by
        rw [Store.lineEnded, if_pos hun]
      rw [hfifo, Store.offered_filter (linePadding_slot c p)]

/-! ## The end of a frame (R51, steps 1 to 3) -/

/-- The end of a frame leaves no capture in progress. -/
theorem State.shortCheck_input (s : State) : s.shortCheck.input =
    { s.input with count := { s.input.count with lineActive := false }, progress := none } := by
  have hline : ∃ q, s.lastLineTaken.input =
      { s.input with count := { s.input.count with lineActive := false }, progress := q } := by
    rw [State.lastLineTaken]
    split
    · rw [State.completeCapture_input, State.endInputLine_eq]
      exact ⟨none, rfl⟩
    · rw [State.endInputLine_eq]
      exact ⟨_, rfl⟩
  obtain ⟨q, hq⟩ := hline
  rw [State.shortCheck_eq]
  split
  · simp only [State.abandonCapture, State.freeFilling, State.count_frame, State.setStore_input, State.setInput_input, hq]
  · simp only [State.setInput_input, hq]

theorem State.captureFull_lineEnded {s : State} {p : Progress} (h : s.input.progress = some p) :
    s.endInputLine.captureFull = true ↔ s.cfg.rh ≤ p.entered + lastCount s.cfg p := by
  have hprogress : s.endInputLine.input.progress = some (p.lineEnded s.cfg) := by simp [State.endInputLine_eq, h]
  rw [State.captureFull_iff, hprogress]
  simp [(p.lineEnded_parts s.cfg).2]

theorem State.captureFull_none {s : State} (h : s.input.progress = none) : s.endInputLine.captureFull = false := by
  rw [← Bool.not_eq_true, State.captureFull_iff]
  simp [State.endInputLine_eq, h]

theorem State.endInputLine_store {s : State} {p : Progress} (h : s.input.progress = some p) :
    s.endInputLine.store = s.store.lineEnded s.cfg p := by
  rw [State.endInputLine_eq, State.setInput_store, State.setStore_store, State.lineEndStore, h]
  rfl

theorem State.endInputLine_counters (s : State) : s.endInputLine.counters = s.counters := by
  rw [State.endInputLine_eq]
  rfl

/-- A FILLING slot without all its region lines: the capture is short (R51, step 2). -/
theorem State.shortCheck_short {s : State} (hfull : s.endInputLine.captureFull = false)
    (hfilling : s.endInputLine.store.slots.first .filling ≠ none) :
    s.shortCheck.counters = s.counters.bump .captureShort
    ∧ s.shortCheck.store.slots = s.endInputLine.store.slots.freeWhere (fun r => r.state == .filling)
    ∧ s.shortCheck.store.writing =
      (s.endInputLine.store.writeFifo.filter (fun y => (s.endInputLine.store.slots.get y.slot).state != .filling),
        s.endInputLine.store.transfer.isSome) := by
  have hline : s.lastLineTaken = s.endInputLine := by rw [State.lastLineTaken, hfull, if_neg Bool.false_ne_true]
  rw [State.shortCheck_eq, hline, if_pos (Option.isSome_iff_ne_none.mpr hfilling), ← s.endInputLine_counters]
  exact ⟨rfl, rfl, rfl⟩

/-- With no slot FILLING after the line's end, the frame's end does no more. -/
theorem State.shortCheck_ended {s : State} (h : s.lastLineTaken.store.slots.first .filling = none) :
    s.shortCheck.store = s.lastLineTaken.store ∧ s.shortCheck.counters = s.lastLineTaken.counters := by
  rw [State.shortCheck_eq, h]
  exact ⟨rfl, rfl⟩

/-- With no capture in progress the end of a line leaves the store. -/
theorem State.lastLineTaken_idle {s : State} (h : s.input.progress = none) :
    s.lastLineTaken.store = s.store ∧ s.lastLineTaken.counters = s.counters ∧ s.endInputLine.store = s.store := by
  have hfull := State.captureFull_none h
  have hstore : s.endInputLine.store = s.store := by
    rw [State.endInputLine_none h]
    rfl
  rw [State.lastLineTaken, hfull, if_neg Bool.false_ne_true]
  exact ⟨hstore, s.endInputLine_counters, hstore⟩

/-- With no capture in progress a FREE slot stays FREE. -/
theorem State.shortCheck_free {s : State} (h : s.input.progress = none) (hfree : s.store.slots.first .free ≠ none) :
    s.shortCheck.store.slots.first .free ≠ none := by
  obtain ⟨hstore, -, hline⟩ := State.lastLineTaken_idle h
  by_cases hfilling : s.lastLineTaken.store.slots.first .filling = none
  · rwa [(State.shortCheck_ended hfilling).1, hstore]
  · rw [hstore, ← hline] at hfilling
    rw [(State.shortCheck_short (State.captureFull_none h) hfilling).2.1, hline]
    obtain ⟨j, hj⟩ := (Slots.first_isSome_iff _ _).mp (Option.isSome_iff_ne_none.mpr hfree)
    refine Option.isSome_iff_ne_none.mp ((Slots.first_isSome_iff _ _).mpr ⟨j, ?_⟩)
    rw [Slots.get_freeWhere, hj]
    exact hj

/-- One slot is FILLING, that of the capture in progress. -/
structure State.Captures (s : State) (p : Progress) : Prop where
  progress : s.input.progress = some p
  filling : ∀ j, (s.store.slots.get j).state = .filling ↔ j = p.slot

/-- The capture's last line has been torn, or the capture was before. -/
def State.lastTorn (s : State) (p : Progress) : Prop :=
  (s.store.slots.get p.slot).torn = true
    ∨ (lastPad s.cfg p ≠ 0 ∧ 2048 < s.store.writeFifo.length + lastPad s.cfg p)

theorem State.Captures.lineEnded {s : State} {p : Progress} (h : s.Captures p) (j : Fin 5) :
    (s.endInputLine.store.slots.get j).state = .filling ↔ j = p.slot := by
  rw [State.endInputLine_store h.progress, Store.lineEnded_state]
  exact h.filling j

/-- A short capture (R51): its slot is freed, its pixels leave the write FIFO. -/
theorem State.Captures.short {s : State} {p : Progress} (h : s.Captures p)
    (hshort : p.entered + lastCount s.cfg p < s.cfg.rh) :
    s.shortCheck.counters = s.counters.bump .captureShort
    ∧ s.shortCheck.store.slots = s.store.slots.modify p.slot (fun _ => .free)
    ∧ s.shortCheck.store.writing = (s.store.writeFifo.filter (fun y => y.slot != p.slot), s.store.transfer.isSome) := by
  have hfull : s.endInputLine.captureFull = false := by
    rw [← Bool.not_eq_true, State.captureFull_lineEnded h.progress]
    omega
  have hfilling : s.endInputLine.store.slots.first .filling ≠ none := fun hnone =>
    (Slots.first_eq_none_iff _ _).mp hnone p.slot ((h.lineEnded p.slot).mpr rfl)
  obtain ⟨hslots, htransfer, hfilter⟩ := s.store.lineEnded_last s.cfg p
  obtain ⟨hcount, hfreed, hwriting⟩ := State.shortCheck_short hfull hfilling
  refine ⟨hcount, hfreed.trans (Slots.ext_get fun j => ?_), hwriting.trans ?_⟩
  · rw [Slots.get_freeWhere, Slots.get_modify]
    by_cases hj : j = p.slot
    · rw [if_pos hj, if_pos (by rw [beq_iff_eq]; exact (h.lineEnded j).mpr hj)]
    · rw [if_neg hj, if_neg (by rw [beq_iff_eq]; exact fun hf => hj ((h.lineEnded j).mp hf)),
        State.endInputLine_store h.progress, hslots, if_neg hj]
  · have hgone : ∀ y : WritePixel, ((s.endInputLine.store.slots.get y.slot).state != .filling) = (y.slot != p.slot) := by
      intro y
      rw [Bool.eq_iff_iff, bne_iff_ne, bne_iff_ne, ne_eq, ne_eq, h.lineEnded]
    simp only [hgone]
    rw [State.endInputLine_store h.progress, htransfer, hfilter]

/-- A whole capture with a pixel lost (R55, R56): counted as torn, its slot freed. -/
theorem State.Captures.torn {s : State} {p : Progress} (h : s.Captures p)
    (hwhole : s.cfg.rh ≤ p.entered + lastCount s.cfg p) (htorn : s.lastTorn p) :
    s.shortCheck.counters = s.counters.bump .captureTorn
    ∧ s.shortCheck.store.slots = s.store.slots.modify p.slot (fun _ => .free)
    ∧ s.shortCheck.store.writing = (s.store.writeFifo.filter (fun y => y.slot != p.slot), s.store.transfer.isSome) := by
  obtain ⟨hslots, htransfer, hfilter⟩ := s.store.lineEnded_last s.cfg p
  have hprogress : s.endInputLine.input.progress = some (p.lineEnded s.cfg) := by simp [State.endInputLine_eq, h.progress]
  have hslot := (p.lineEnded_parts s.cfg).1
  have hline : (s.endInputLine.store.slots.get (p.lineEnded s.cfg).slot).torn = true := by
    rw [hslot, State.endInputLine_store h.progress, hslots, if_pos rfl, Slot.lastLine, Bool.or_eq_true, decide_eq_true_eq]
    exact htorn
  have htaken : s.lastLineTaken = _ :=
    (if_pos ((State.captureFull_lineEnded h.progress).mpr hwhole)).trans (State.completeCapture_torn hprogress hline)
  rw [hslot] at htaken
  have hfreed : s.lastLineTaken.store.slots = s.store.slots.modify p.slot (fun _ => .free) := by
    rw [htaken]
    refine Slots.ext_get fun j => ?_
    simp only [State.count_frame, State.freeSlot, State.setStore_store, State.setInput_store, Slots.get_modify]
    split
    · rfl
    · next hj => rw [State.endInputLine_store h.progress, hslots, if_neg hj]
  have hnone : s.lastLineTaken.store.slots.first .filling = none := by
    rw [Slots.first_eq_none_iff, hfreed]
    intro j
    rw [Slots.get_modify]
    split
    · simp [Slot.free]
    · next hj => exact fun hf => hj ((h.filling j).mp hf)
  obtain ⟨hstore, hcounters⟩ := State.shortCheck_ended hnone
  rw [hstore, hcounters]
  refine ⟨?_, hfreed, ?_⟩
  · rw [htaken, ← s.endInputLine_counters]
    rfl
  · rw [htaken, ← hfilter, ← htransfer, ← State.endInputLine_store h.progress]
    rfl

/-- A whole capture with no pixel lost: READY (R55). -/
theorem State.Captures.done {s : State} {p : Progress} (h : s.Captures p)
    (hwhole : s.cfg.rh ≤ p.entered + lastCount s.cfg p) (htorn : ¬s.lastTorn p) :
    s.shortCheck.counters = s.counters.bump .captureDone
    ∧ s.shortCheck.store.slots =
      s.store.slots.modify p.slot (fun q => { q with state := .ready, lines := q.lines + lastCount s.cfg p }) := by
  obtain ⟨hslots, -⟩ := s.store.lineEnded_last s.cfg p
  have hprogress : s.endInputLine.input.progress = some (p.lineEnded s.cfg) := by simp [State.endInputLine_eq, h.progress]
  have hslot := (p.lineEnded_parts s.cfg).1
  obtain ⟨hbefore, hlost⟩ := not_or.mp htorn
  rw [Bool.not_eq_true] at hbefore
  have hline : (s.endInputLine.store.slots.get (p.lineEnded s.cfg).slot).torn = false := by
    rw [hslot, State.endInputLine_store h.progress, hslots, if_pos rfl, Slot.lastLine, hbefore, Bool.false_or,
      decide_eq_false hlost]
  have htaken : s.lastLineTaken = _ :=
    (if_pos ((State.captureFull_lineEnded h.progress).mpr hwhole)).trans (State.completeCapture_ready hprogress hline)
  rw [hslot] at htaken
  have hready : s.lastLineTaken.store.slots =
      s.store.slots.modify p.slot (fun q => { q with state := .ready, lines := q.lines + lastCount s.cfg p }) := by
    rw [htaken]
    refine Slots.ext_get fun j => ?_
    simp only [State.count_frame, State.makeReady, State.setSlots_slots, State.setInput_store, Slots.get_modify]
    rw [State.endInputLine_store h.progress, hslots]
    split
    · next hj =>
      subst hj
      simp only [Slot.lastLine, decide_eq_false hlost, Bool.or_false]
    · rfl
  have hnone : s.lastLineTaken.store.slots.first .filling = none := by
    rw [Slots.first_eq_none_iff, hready]
    intro j
    rw [Slots.get_modify]
    split
    · simp
    · next hj => exact fun hf => hj ((h.filling j).mp hf)
  obtain ⟨hstore, hcounters⟩ := State.shortCheck_ended hnone
  rw [hstore, hcounters]
  refine ⟨?_, hready⟩
  rw [htaken, ← s.endInputLine_counters]
  rfl

end Sys2Proof.Machine
end

