-- ==== Sys2Proof/Proofs/InputVs.lean ====
section
/-! O49, an input VS taken (R44, R46 to R48, R50, R51). -/

namespace Sys2Proof.Machine

/-! ## Usability and records -/

theorem State.usable_iff (s : State) : s.usable = true ↔ s.input.state = .stable ∧ ∃ r, s.input.stable = some r
    ∧ s.cfg.rx + s.cfg.rw ≤ r.activePixels ∧ s.cfg.ry + s.cfg.rh ≤ r.activeLines := by
  simp only [State.usable, Bool.and_eq_true, beq_iff_eq]
  cases s.input.stable <;> simp [regionInside]

theorem State.usable_congr {s t : State} (hstate : t.input.state = s.input.state) (hstable : t.input.stable = s.input.stable)
    (hcfg : t.cfg = s.cfg) : t.usable = s.usable := by
  rw [Bool.eq_iff_iff, State.usable_iff, State.usable_iff, hstate, hstable, hcfg]

theorem recordsAgree_iff (a b : Record) : recordsAgree a b = true ↔ a.lines = b.lines ∧ a.activePixels = b.activePixels
    ∧ a.activeLines = b.activeLines ∧ a.hsPeriod ≤ b.hsPeriod + 8 ∧ b.hsPeriod ≤ a.hsPeriod + 8 := by
  have hnear : absDiff a.hsPeriod b.hsPeriod ≤ 8 ↔ a.hsPeriod ≤ b.hsPeriod + 8 ∧ b.hsPeriod ≤ a.hsPeriod + 8 := by
    rw [absDiff]
    omega
  simp only [recordsAgree, Bool.and_eq_true, beq_iff_eq, decide_eq_true_eq, hnear, and_assoc]

/-! ## The report of the input -/

theorem State.reportInput_unusable {s : State} (h : s.usable = false) : s.reportInput = s.inputLost := by
  rw [State.reportInput, h, if_neg Bool.false_ne_true]

theorem State.reportInput_usable {s : State} (h : s.usable = true) : s.reportInput = s := if_pos h

theorem State.reportInput_writing (s : State) : s.reportInput.store.writing = s.store.writing := by
  rw [State.reportInput]
  split
  · rfl
  · exact s.inputLost_writing

theorem State.reportInput_flag {s : State} {e : Event} (h : s.flag e = true) : s.reportInput.flag e = true := by
  rw [State.reportInput]
  split
  · exact h
  · exact State.inputLost_flag_of_flag h

/-! ## A VS in NO_SIGNAL (R47) -/

theorem State.inputVs_noSignal {s : State} (h : s.input.state = .noSignal) :
    s.inputVs.input.heldVs = s.input.heldVs ∧ s.inputVs.input.vsTimer = 0 ∧ s.inputVs.input.record = s.input.record
    ∧ s.inputVs.input.lcs = s.input.lcs
    ∧ s.inputVs.input.state = (if s.input.hsSeen = true ∧ s.input.hsTimer < 4096 then .acquiring else .noSignal)
    ∧ s.inputVs.store.writing = s.store.writing := by
  have htaken : s.inputVs = s.vsInNoSignal := by rw [State.inputVs, h]
  rw [htaken, State.vsInNoSignal, show Config.hsLimit = 4096 from rfl]
  by_cases hs : s.input.hsSeen = true ∧ s.input.hsTimer < 4096
  · rw [if_pos hs, if_pos hs, State.reportInput_writing]
    simp [State.openFrame]
  · rw [if_neg hs, if_neg hs]
    simp [h]

/-! ## A VS in ACQUIRING (R47) -/

theorem State.inputVs_acquiring {s : State} (h : s.input.state = .acquiring) : s.inputVs = s.vsInAcquiring := by
  rw [State.inputVs, h]

theorem State.vsInAcquiring_writing (s : State) : s.vsInAcquiring.store.writing = s.store.writing := by
  rcases s.vsInAcquiring_cases with ⟨r, hstable⟩ | ⟨c, n, hcounted⟩
  · rw [hstable, State.reportInput_writing, State.beginFrame_writing]
    rfl
  · rw [hcounted]
    rfl

/-- The third agreeing frame (R47): STABLE, and the next frame begins. -/
theorem State.becomeStable_parts {s : State} {k : Record} :
    (s.closeFrame.becomeStable k).beginFrame.reportInput.input.state = .stable
    ∧ (s.closeFrame.becomeStable k).beginFrame.reportInput.input.stable = some k
    ∧ (s.closeFrame.becomeStable k).beginFrame.reportInput.input.candidate = none
    ∧ (s.closeFrame.becomeStable k).beginFrame.reportInput.input.lcs = s.input.lcs + 1
    ∧ (s.closeFrame.becomeStable k).beginFrame.reportInput.flag .inputChange = true := by
  obtain ⟨q, hq⟩ := (s.closeFrame.becomeStable k).beginFrame_input
  have hflag : (s.closeFrame.becomeStable k).beginFrame.flag .inputChange = true := by
    rw [State.flag_of_port (s := s.closeFrame.becomeStable k) (by simp)]
    exact State.flag_raise _ _
  rw [(State.reportInput_frame _).2.2.2.1, hq]
  exact ⟨rfl, rfl, rfl, rfl, State.reportInput_flag hflag⟩

/-- Where the region lies inside the record, the frame that begins is granted its slot. -/
theorem State.becomeStable_grants {s : State} {k : Record} (hwidth : s.cfg.rx + s.cfg.rw ≤ k.activePixels)
    (hheight : s.cfg.ry + s.cfg.rh ≤ k.activeLines) {g : State} {o : Option (Fin 5)}
    (hg : s.grant (s.input.lcs + 1) ⟨s.timing.wfn, s.timing.line⟩ = (g, o)) :
    (s.closeFrame.becomeStable k).beginFrame.reportInput.store.slots = g.store.slots
    ∧ (s.closeFrame.becomeStable k).beginFrame.reportInput.counters = g.counters
    ∧ (s.closeFrame.becomeStable k).beginFrame.reportInput.input.progress = (o.map Progress.fresh).or s.input.progress := by
  have husable : (s.closeFrame.becomeStable k).usable = true :=
    (State.usable_iff _).mpr ⟨rfl, k, rfl, hwidth, hheight⟩
  obtain ⟨hslots, hcounters, hinput⟩ := State.beginFrame_usable husable
  have hbegun : (s.closeFrame.becomeStable k).beginFrame.usable = true := by
    rw [← husable]
    exact State.usable_congr (by rw [hinput]) (by rw [hinput]) (by simp)
  obtain ⟨hchosen, hgranted, hcount⟩ := State.grant_congr (s := s) (t := s.closeFrame.becomeStable k) rfl
    (s.input.lcs + 1) ⟨s.timing.wfn, s.timing.line⟩
  have hsame := Counters.ext_get fun c => hcount c rfl
  rw [hg] at hchosen hgranted hsame
  rw [State.reportInput_usable hbegun]
  refine ⟨hslots.trans hgranted, hcounters.trans hsame, (congrArg Input.progress hinput).trans ?_⟩
  exact congrArg (fun chosen => (chosen.map Progress.fresh).or s.input.progress) hchosen

/-! ## A VS in STABLE (R48, R51) -/

theorem State.inputVs_stable {s : State} (h : s.input.state = .stable) : s.inputVs = s.vsInStable := by
  rw [State.inputVs, h]

theorem State.shortCheck_inputParts (s : State) : s.shortCheck.input.close = s.input.close
    ∧ s.shortCheck.input.state = s.input.state ∧ s.shortCheck.input.stable = s.input.stable
    ∧ s.shortCheck.input.lcs = s.input.lcs ∧ s.shortCheck.input.heldVs = s.input.heldVs
    ∧ s.shortCheck.input.progress = none := by
  rw [State.shortCheck_input]
  exact ⟨rfl, rfl, rfl, rfl, rfl, rfl⟩

theorem State.closed_usable (s : State) : s.shortCheck.closeFrame.usable = s.usable := by
  obtain ⟨-, hstate, hstable, -⟩ := s.shortCheck_inputParts
  exact State.usable_congr hstate hstable (by simp [State.closeFrame])

/-- The frame differs from the stable record: STABLE is lost, and the frame is the new candidate (R48). -/
def State.stableLost (s : State) : State := (s.shortCheck.closeFrame.setInput { s.shortCheck.closeFrame.input with
  state := .acquiring, stable := none, candidate := some s.input.close, agreement := 1 }).raise .inputChange

theorem State.vsInStable_same {s : State} {k : Record} (hk : s.input.stable = some k)
    (hagree : recordsAgree s.input.close k = true) : s.vsInStable = s.shortCheck.closeFrame.beginFrame := by
  obtain ⟨hclose, -, hstable, -⟩ := s.shortCheck_inputParts
  rw [State.vsInStable_eq, if_pos]
  simp only [State.sameFrame, hstable, hk, hclose, hagree]

theorem State.vsInStable_differs {s : State} (h : ∀ k, s.input.stable = some k → recordsAgree s.input.close k = false) :
    s.vsInStable = s.stableLost.inputLost := by
  obtain ⟨hclose, -, hstable, -⟩ := s.shortCheck_inputParts
  have hdiffers : ¬s.shortCheck.sameFrame = true := by
    rw [State.sameFrame, hstable, hclose]
    split
    · next k hk => rw [h k hk]; exact Bool.false_ne_true
    · exact Bool.false_ne_true
  rw [State.vsInStable_eq, if_neg hdiffers, hclose]
  exact State.reportInput_unusable rfl

theorem State.vsInStable_cases (s : State) :
    s.vsInStable = s.shortCheck.closeFrame.beginFrame ∨ s.vsInStable = s.stableLost.inputLost := by
  by_cases h : ∀ k, s.input.stable = some k → recordsAgree s.input.close k = false
  · exact .inr (State.vsInStable_differs h)
  · push Not at h
    obtain ⟨k, hk, hagree⟩ := h
    exact .inl (State.vsInStable_same hk ((Bool.ne_false_iff).mp hagree))

/-- What the end of the frame has counted and left waiting stays so as the next one begins. -/
theorem State.vsInStable_kept (s : State) :
    (∀ c, c ≠ .rebases → c ≠ .slotsOverwritten → SameCount c s.shortCheck s.vsInStable)
    ∧ s.vsInStable.store.writing = s.shortCheck.store.writing := by
  have hclosed : s.shortCheck.closeFrame.counters = s.shortCheck.counters := by simp [State.closeFrame]
  have hlost : s.stableLost.counters = s.shortCheck.counters := by simp [State.stableLost, hclosed]
  have hstore : s.stableLost.store = s.shortCheck.store := by simp [State.stableLost]
  rcases s.vsInStable_cases with h | h
  · rw [h, State.beginFrame_writing]
    refine ⟨fun c hr ho => ?_, rfl⟩
    rw [SameCount, ← hclosed]
    exact s.shortCheck.closeFrame.beginFrame_otherCount hr ho
  · rw [h, State.inputLost_writing, hstore]
    refine ⟨fun c _ _ => ?_, rfl⟩
    rw [SameCount, (State.inputLost_frame _).2.2.2.2.2.1, hlost]

/-- With a frame that agrees and a usable input, the next frame is granted its slot, from the slots as the end of this
one leaves them. -/
theorem State.vsInStable_grants {s z : State} {k : Record} (hk : s.input.stable = some k)
    (hagree : recordsAgree s.input.close k = true) (husable : s.usable = true)
    (hslots : s.shortCheck.store.slots = z.store.slots) {g : State} {o : Option (Fin 5)}
    (hg : z.grant (s.input.lcs + 1) ⟨s.timing.wfn, s.timing.line⟩ = (g, o)) :
    s.vsInStable.store.slots = g.store.slots
    ∧ (∀ c, SameCount c z s.shortCheck → SameCount c g s.vsInStable)
    ∧ s.vsInStable.input.progress = o.map Progress.fresh := by
  obtain ⟨-, -, -, hlcs, -, hidle⟩ := s.shortCheck_inputParts
  have hinput : s.shortCheck.closeFrame.input.lcs = s.input.lcs ∧ s.shortCheck.closeFrame.input.progress = none :=
    ⟨hlcs, hidle⟩
  have htiming : s.shortCheck.closeFrame.timing = s.timing := by simp
  obtain ⟨hbegun, hcounters, hprogress⟩ := State.beginFrame_usable (s.closed_usable.trans husable)
  rw [hinput.1, htiming] at hbegun hcounters hprogress
  obtain ⟨hchosen, hgranted, hcount⟩ := State.grant_congr (s := z) (t := s.shortCheck.closeFrame) hslots
    (s.input.lcs + 1) ⟨s.timing.wfn, s.timing.line⟩
  rw [hg] at hchosen hgranted hcount
  rw [State.vsInStable_same hk hagree]
  refine ⟨hbegun.trans hgranted, fun c hc => ?_, ?_⟩
  · rw [SameCount, hcounters]
    exact hcount c hc
  · rw [hprogress, hchosen, hinput.2]
    exact Option.or_none

/-- What a VS taken in ACQUIRING or STABLE always leaves in the input. -/
theorem State.inputVs_closed {s : State} (h : s.input.state ≠ .noSignal) : s.inputVs.input.heldVs = s.input.heldVs
    ∧ s.inputVs.input.vsTimer = 0 ∧ s.inputVs.input.record = s.input.close ∧ s.inputVs.input.count = .zero := by
  cases hstate : s.input.state with
  | noSignal => exact absurd hstate h
  | acquiring =>
    rw [State.inputVs_acquiring hstate]
    rcases s.vsInAcquiring_cases with ⟨r, hstable⟩ | ⟨c, n, hcounted⟩
    · obtain ⟨q, hq⟩ := (s.closeFrame.becomeStable r).beginFrame_input
      rw [hstable, (State.reportInput_frame _).2.2.2.1, hq]
      exact ⟨rfl, rfl, rfl, rfl⟩
    · rw [hcounted]
      exact ⟨rfl, rfl, rfl, rfl⟩
  | stable =>
    obtain ⟨hclose, -, -, -, hheld, -⟩ := s.shortCheck_inputParts
    rw [State.inputVs_stable hstate, ← hheld, ← hclose]
    rcases s.vsInStable_cases with hsame | hlost
    · obtain ⟨q, hq⟩ := s.shortCheck.closeFrame.beginFrame_input
      rw [hsame, hq]
      exact ⟨rfl, rfl, rfl, rfl⟩
    · rw [hlost, (State.inputLost_frame _).2.2.2.1]
      exact ⟨rfl, rfl, rfl, rfl⟩

/-- Outside STABLE nothing is entered in the write FIFO or taken from it. -/
theorem State.inputVs_writing {s : State} (h : s.input.state ≠ .stable) : s.inputVs.store.writing = s.store.writing := by
  cases hstate : s.input.state with
  | noSignal =>
    obtain ⟨-, -, -, -, -, hwriting⟩ := State.inputVs_noSignal hstate
    exact hwriting
  | acquiring => rw [State.inputVs_acquiring hstate, State.vsInAcquiring_writing]
  | stable => exact absurd hstate h

end Sys2Proof.Machine
end

