-- ==== Sys2Proof/Proofs/InputVsTaken.lean ====
section
/-! O49, assembled: the VS taken at the end of its hold or after the HS edge that meets it. -/

namespace Sys2Proof.Machine

/-- What waits at the end of a command, from what waited before it. -/
theorem State.settle_waiting {s : State} {l : List WritePixel} {busy : Bool} (h : s.store.writing = (l, busy)) :
    (∀ y ∈ s.settle.store.writeFifo, y ∈ l) ∧ (busy = true → s.settle.store.writeFifo = l) := by
  obtain ⟨hl, -⟩ := Prod.mk_inj.mp h
  exact ⟨fun y hy => hl ▸ s.settle_writeFifo y hy, State.settle_writeFifo_busy h⟩

/-- Only the three counts of a capture's end can rise as a frame ends, and the slot of the capture has its outcome. -/
theorem State.Captures.outcome {s : State} {p : Progress} (h : s.Captures p) :
    s.shortCheck.store.slots = s.store.slots.modify p.slot (fun q =>
      if p.entered + lastCount s.cfg p < s.cfg.rh ∨ q.torn = true
          ∨ (lastPad s.cfg p ≠ 0 ∧ 2048 < s.store.writeFifo.length + lastPad s.cfg p) then .free
      else { q with state := .ready, lines := q.lines + lastCount s.cfg p })
    ∧ ∃ c, c ∈ [Counter.captureShort, .captureTorn, .captureDone] ∧ s.shortCheck.counters = s.counters.bump c := by
  have hmodify : ∀ f g : Slot → Slot, f (s.store.slots.get p.slot) = g (s.store.slots.get p.slot) →
      s.store.slots.modify p.slot f = s.store.slots.modify p.slot g := by
    intro f g hfg
    refine Slots.ext_get fun j => ?_
    rw [Slots.get_modify, Slots.get_modify]
    split
    · next hj => rw [hj, hfg]
    · rfl
  by_cases hshort : p.entered + lastCount s.cfg p < s.cfg.rh
  · obtain ⟨hcount, hslots, -⟩ := h.short hshort
    exact ⟨hslots.trans (hmodify _ _ (if_pos (.inl hshort)).symm), _, by simp, hcount⟩
  · by_cases htorn : s.lastTorn p
    · obtain ⟨hcount, hslots, -⟩ := h.torn (by omega) htorn
      exact ⟨hslots.trans (hmodify _ _ (if_pos (.inr htorn)).symm), _, by simp, hcount⟩
    · obtain ⟨hcount, hslots⟩ := h.done (by omega) htorn
      exact ⟨hslots.trans (hmodify _ _ (if_neg (not_or.mpr ⟨hshort, htorn⟩)).symm), _, by simp, hcount⟩

/-- A capture between lines that has not all its region lines is short, whichever slots are FILLING. -/
theorem State.shortCheck_betweenLines {s : State} {p : Progress} (hp : s.input.progress = some p)
    (hactive : p.lineActive = false) (hentered : p.entered < s.cfg.rh) (hfilling : s.store.slots.first .filling ≠ none) :
    s.shortCheck.counters = s.counters.bump .captureShort
    ∧ s.shortCheck.store.writing =
      (s.store.writeFifo.filter (fun y => (s.store.slots.get y.slot).state != .filling), s.store.transfer.isSome) := by
  have hun : lineUnfinished s.cfg p = false := by simp [lineUnfinished, hactive]
  have hstore : s.endInputLine.store = s.store := by
    rw [State.endInputLine_store hp, Store.lineEnded_finished _ hun]
  have hfull : s.endInputLine.captureFull = false := by
    rw [← Bool.not_eq_true, State.captureFull_lineEnded hp, lastCount, hun, if_neg Bool.false_ne_true]
    omega
  obtain ⟨hcount, -, hwriting⟩ := State.shortCheck_short hfull (by rwa [hstore])
  rw [hstore] at hwriting
  exact ⟨hcount, hwriting⟩

/-- The slots from which the next frame is granted, where the end of the frame leaves `z`. -/
theorem State.shortCheck_leaves {s : State} {z : Slots}
    (h : (s.input.progress = none ∧ s.store.slots.first .filling = none ∧ z = s.store.slots)
      ∨ ∃ p, s.Captures p ∧ z = s.store.slots.modify p.slot (fun q =>
        if p.entered + lastCount s.cfg p < s.cfg.rh ∨ q.torn = true
            ∨ (lastPad s.cfg p ≠ 0 ∧ 2048 < s.store.writeFifo.length + lastPad s.cfg p) then .free
        else { q with state := .ready, lines := q.lines + lastCount s.cfg p })) :
    s.shortCheck.store.slots = z ∧ SameCount .rebases s s.shortCheck ∧ SameCount .slotsOverwritten s s.shortCheck := by
  rcases h with ⟨hidle, hfilling, rfl⟩ | ⟨p, hp, rfl⟩
  · obtain ⟨hstore, hcounters, -⟩ := State.lastLineTaken_idle hidle
    obtain ⟨hended, hcounted⟩ := State.shortCheck_ended (s := s) (by rwa [hstore])
    rw [hended, hstore]
    have hsame := hcounted.trans hcounters
    exact ⟨rfl, congrArg (Counters.get · .rebases) hsame, congrArg (Counters.get · .slotsOverwritten) hsame⟩
  · obtain ⟨hslots, c, hc, hcounters⟩ := hp.outcome
    refine ⟨hslots, ?_, ?_⟩
    · rw [SameCount, hcounters, Counters.get_bump, if_neg]
      rintro rfl
      simp at hc
    · rw [SameCount, hcounters, Counters.get_bump, if_neg]
      rintro rfl
      simp at hc

/-- A VS is taken at the end of its hold, or after the HS edge that meets it. -/
theorem exec_inputVs {w : Span} {c : Instr} {s u x : State} (hu : s.pass w = u)
    (h : (c = .vsHoldExpiry w ∧ (∃ n, u.input.heldVs = some n ∧ 8 ≤ n) ∧ x = u.setInput { u.input with heldVs := none })
        ∨ (c = .hsEdge w ∧ u.input.active = true ∧ u.input.hs.leading = true ∧ u.input.heldVs ≠ none
          ∧ x = (u.setInput { u.input with heldVs := none }).takeHs)) :
    exec c s = .next x.inputVs.settle ∧ x.input.heldVs = none := by
  rcases h with ⟨rfl, ⟨n, hn, hlong⟩, rfl⟩ | ⟨rfl, hactive, hlead, hheld, rfl⟩
  · have hover : u.vsHoldOver = true := by
      simp only [State.vsHoldOver, hn]
      exact decide_eq_true hlong
    exact ⟨event_at (due := State.vsHoldOver) (effect := State.takeHeldVs) hu hover, rfl⟩
  · refine ⟨?_, by rw [State.takeHs_unheld rfl]; rfl⟩
    rw [← State.takeHs_held hheld]
    exact event_at (due := State.hsDue) (effect := State.takeHs) hu (by simp [State.hsDue, hactive, hlead])

/-! ## The clauses, after the end of the command -/

/-- The end of the frame, in the counters and the write FIFO that the command leaves. -/
theorem State.inputVs_counts {s : State} (h : s.input.state = .stable) {c : Counter} (hr : c ≠ .rebases)
    (ho : c ≠ .slotsOverwritten) : s.inputVs.settle.counters.get c = s.shortCheck.counters.get c := by
  rw [(State.settle_frame _).2.2.2.2.2.2.2.2.1, State.inputVs_stable h]
  exact s.vsInStable_kept.1 c hr ho

theorem State.inputVs_waiting {s : State} (h : s.input.state = .stable) {l : List WritePixel}
    (hwriting : s.shortCheck.store.writing = (l, s.store.transfer.isSome)) :
    (∀ y ∈ s.inputVs.settle.store.writeFifo, y ∈ l)
    ∧ (s.store.transfer ≠ none → s.inputVs.settle.store.writeFifo = l) := by
  have hleft : s.inputVs.store.writing = (l, s.store.transfer.isSome) := by
    rw [State.inputVs_stable h, s.vsInStable_kept.2, hwriting]
  obtain ⟨hmem, hbusy⟩ := State.settle_waiting hleft
  exact ⟨hmem, fun ht => hbusy (Option.isSome_iff_ne_none.mpr ht)⟩

theorem State.inputVs_settle (s : State) : s.inputVs.settle.input = s.inputVs.input
    ∧ s.inputVs.settle.store.slots = s.inputVs.store.slots ∧ s.inputVs.settle.counters = s.inputVs.counters
    ∧ s.inputVs.settle.member = s.inputVs.member ∧ ∀ e, s.inputVs.settle.flag e = s.inputVs.flag e :=
  ⟨by simp, by simp, by simp, by simp, fun e => State.flag_of_port (by simp) e⟩

/-- A STABLE input whose frame differs (R48). -/
theorem State.inputVs_differs {s : State} {k : Record} (h : s.input.state = .stable) (hk : s.input.stable = some k)
    (hagree : recordsAgree s.input.close k = false) :
    s.inputVs.input.state = .acquiring ∧ s.inputVs.input.stable = none ∧ s.inputVs.input.candidate = some s.input.close
    ∧ s.inputVs.input.agreement = 1 ∧ s.inputVs.input.lcs = s.input.lcs ∧ s.inputVs.flag .inputChange = true
    ∧ (s.member.station = .joining ∨ s.member.station = .member → s.inputVs.member.station = .detached) := by
  have hdiffers : ∀ k', s.input.stable = some k' → recordsAgree s.input.close k' = false := by
    intro k' hk'
    cases hk.symm.trans hk'
    exact hagree
  have hlcs : s.stableLost.input.lcs = s.input.lcs := s.shortCheck_inputParts.2.2.2.1
  have hmember : s.stableLost.member = s.member := by simp [State.stableLost]
  have hflag : s.stableLost.flag .inputChange = true := State.flag_raise _ _
  rw [State.inputVs_stable h, State.vsInStable_differs hdiffers, (State.inputLost_frame _).2.2.2.1]
  refine ⟨rfl, rfl, rfl, rfl, hlcs, State.inputLost_flag_of_flag hflag, fun hjoined => ?_⟩
  rw [State.inputLost_member, Membership.detach, hmember]
  rcases hjoined with hj | hj <;> rw [hj]

/-- A STABLE input whose frame agrees (R48, R51). -/
theorem State.inputVs_agrees {s : State} {k : Record} (h : s.input.state = .stable) (hk : s.input.stable = some k)
    (hagree : recordsAgree s.input.close k = true) :
    s.inputVs.input.state = .stable ∧ s.inputVs.input.stable = some k ∧ s.inputVs.input.lcs = s.input.lcs + 1 := by
  obtain ⟨-, hstate, hstable, hlcs, -⟩ := s.shortCheck_inputParts
  obtain ⟨q, hq⟩ := s.shortCheck.closeFrame.beginFrame_input
  rw [State.inputVs_stable h, State.vsInStable_same hk hagree, hq, ← h, ← hk, ← hstate, ← hstable, ← hlcs]
  exact ⟨rfl, rfl, rfl⟩

/-- With a FREE slot and no capture in progress, the frame that begins has a slot (R51, R65). -/
theorem State.inputVs_captures {s : State} {k : Record} (h : s.input.state = .stable) (hk : s.input.stable = some k)
    (hagree : recordsAgree s.input.close k = true) (husable : s.usable = true) (hidle : s.input.progress = none)
    (hfree : s.store.slots.first .free ≠ none) :
    ∃ i, s.inputVs.input.progress = some ⟨i, 0, 0, 0, false⟩ ∧ s.inputVs.store.slots.get i =
      ⟨.filling, s.input.lcs + 1, ⟨s.timing.wfn, s.timing.line⟩, 0, false, false⟩ := by
  obtain ⟨i, hchosen, hslot⟩ := State.grant_exists (s.input.lcs + 1) ⟨s.timing.wfn, s.timing.line⟩
    (State.shortCheck_free hidle hfree)
  obtain ⟨hslots, -, hprogress⟩ := State.vsInStable_grants hk hagree husable (z := s.shortCheck) rfl
    (g := (s.shortCheck.grant (s.input.lcs + 1) ⟨s.timing.wfn, s.timing.line⟩).1) (o := some i) (Prod.ext rfl hchosen)
  rw [State.inputVs_stable h]
  exact ⟨i, hprogress, by rw [hslots, hslot]⟩

/-- Settles O49: the VS is one of the three of its input state; in STABLE the end of the frame comes first, and the
grant and the membership's report leave what it has counted and freed. -/
theorem inputVsIsTaken : Obligations.InputVsIsTaken := by
  refine ⟨fun u => ⟨u.usable_iff, ?miss⟩, fun n => ?close, recordsAgree_iff, ?taken⟩
  case miss => simp only [State.regionMiss, Bool.and_eq_true, beq_iff_eq, Bool.not_eq_true']
  case close =>
    have hhs : n.hs.activeHigh = decide (n.hs.pulse ≠ some .low) := by
      rw [Sync.activeHigh, Bool.eq_iff_iff, bne_iff_ne, decide_eq_true_iff]
    have hvs : n.vs.activeHigh = decide (n.vs.pulse ≠ some .low) := by
      rw [Sync.activeHigh, Bool.eq_iff_iff, bne_iff_ne, decide_eq_true_iff]
    rw [Input.close, hhs, hvs]
    rfl
  case taken =>
    intro w c s u x r hu hc hr
    obtain ⟨hexec, hheld⟩ := exec_inputVs hu hc
    obtain ⟨hinput, hslots, hcounters, hmember, hflag⟩ := x.inputVs_settle
    subst hr
    refine ⟨_, hexec, ?_⟩
    rw [hinput, hslots, hmember, hflag]
    refine ⟨?held, ?timer, fun hstate => ?noSignal, fun hstate => ?closed, fun hstate => ?acquiring, fun hstate => ?stable,
      fun p hstate hp hactive hentered hfilling => ?short, fun k z g o hstate hk hagree husable hg hz => ?grants,
      fun hstate hbusy => ?waiting, fun p d k hstate hp hfilling hd hk => ?ended⟩
    case held =>
      by_cases hstate : x.input.state = .noSignal
      · exact (State.inputVs_noSignal hstate).1.trans hheld
      · exact (State.inputVs_closed hstate).1.trans hheld
    case timer =>
      by_cases hstate : x.input.state = .noSignal
      · exact (State.inputVs_noSignal hstate).2.1
      · exact (State.inputVs_closed hstate).2.1
    case noSignal =>
      obtain ⟨-, -, hrecord, hlcs, hnext, -⟩ := State.inputVs_noSignal hstate
      exact ⟨hrecord, hlcs, hnext⟩
    case closed =>
      obtain ⟨-, -, hrecord, hcount⟩ := State.inputVs_closed hstate
      exact ⟨hrecord, hcount⟩
    case acquiring =>
      rw [hcounters, State.inputVs_acquiring hstate]
      refine ⟨fun hdiffers => ?_, fun k hk hagree hfew => ?_, fun k hk hagree hthird => ?_⟩
      · rw [State.vsInAcquiring_differs hdiffers]
        exact ⟨hstate, rfl, rfl, rfl⟩
      · rw [State.vsInAcquiring_agrees hk hagree (by omega)]
        exact ⟨hstate, hk, rfl, rfl⟩
      · rw [State.vsInAcquiring_third hk hagree (by omega)]
        obtain ⟨hnext, hstable, hcandidate, hlcs, hchange⟩ := State.becomeStable_parts (s := x) (k := k)
        refine ⟨hnext, hstable, hcandidate, hlcs, hchange, fun g o hg hwidth hheight => ?_⟩
        obtain ⟨hgslots, hgcounters, hprogress⟩ := State.becomeStable_grants hwidth hheight hg
        refine ⟨hgslots, hgcounters, ?_, ?_⟩
        · rintro rfl
          exact hprogress
        · rintro i rfl
          exact hprogress
    case stable =>
      refine ⟨fun k hk hagree => ?_, fun k hk hagree => State.inputVs_differs hstate hk hagree⟩
      obtain ⟨hnext, hstable, hlcs⟩ := State.inputVs_agrees hstate hk hagree
      exact ⟨hnext, hstable, hlcs, State.inputVs_captures hstate hk hagree⟩
    case short =>
      obtain ⟨hcount, hwriting⟩ := State.shortCheck_betweenLines hp hactive hentered hfilling
      obtain ⟨hmem, hbusy⟩ := State.inputVs_waiting hstate hwriting
      refine ⟨?_, fun y hy => ?_, hbusy⟩
      · rw [State.inputVs_counts hstate (by simp) (by simp), hcount, Counters.get_bump, if_pos rfl]
      · simpa using (List.mem_filter.mp (hmem y hy)).2
    case grants =>
      have hleft := State.shortCheck_leaves (s := x) (z := z) (hz.imp id ?_)
      · obtain ⟨hended, hrebases, hover⟩ := hleft
        obtain ⟨hgslots, hgcount, hprogress⟩ := State.vsInStable_grants hk hagree husable (z := x.setSlots z) hended hg
        rw [hcounters, State.inputVs_stable hstate]
        exact ⟨hgslots, hgcount .rebases hrebases, hgcount .slotsOverwritten hover, hprogress⟩
      · rintro ⟨p, d, e, hp, hfilling, hd, he, hzp⟩
        rw [← lastCount_eq] at hd
        subst hd he
        exact ⟨p, ⟨hp, hfilling⟩, hzp⟩
    case waiting =>
      obtain ⟨-, hleft⟩ := State.settle_waiting (State.inputVs_writing hstate)
      exact hleft (Option.isSome_iff_ne_none.mpr hbusy)
    case ended =>
      have hcaptures : x.Captures p := ⟨hp, hfilling⟩
      rw [← lastCount_eq] at hd
      subst hd hk
      refine ⟨fun hshort => ?_, fun hwhole => ⟨?_, fun hbefore hroom => ?_, fun htorn => ?_⟩⟩
      · obtain ⟨hcount, -, hwriting⟩ := hcaptures.short hshort
        obtain ⟨hmem, hbusy⟩ := State.inputVs_waiting hstate hwriting
        rw [State.inputVs_counts hstate (by simp) (by simp), State.inputVs_counts hstate (by simp) (by simp),
          State.inputVs_counts hstate (by simp) (by simp), hcount]
        refine ⟨by simp [Counters.get_bump], by simp [Counters.get_bump], by simp [Counters.get_bump], fun y hy => ?_, hbusy⟩
        simpa using (List.mem_filter.mp (hmem y hy)).2
      · rw [State.inputVs_counts hstate (by simp) (by simp)]
        by_cases htorn : x.lastTorn p
        · rw [(hcaptures.torn hwhole htorn).1, Counters.get_bump, if_neg (by simp)]
        · rw [(hcaptures.done hwhole htorn).1, Counters.get_bump, if_neg (by simp)]
      · have hsound : ¬x.lastTorn p := by
          rintro (ht | ⟨hne, hlt⟩)
          · cases hbefore.symm.trans ht
          · exact hroom.elim hne (fun hle => absurd hlt (by rw [lastPad]; omega))
        rw [State.inputVs_counts hstate (by simp) (by simp), State.inputVs_counts hstate (by simp) (by simp),
          (hcaptures.done hwhole hsound).1]
        exact ⟨by simp [Counters.get_bump], by simp [Counters.get_bump]⟩
      · obtain ⟨hcount, -, hwriting⟩ := hcaptures.torn hwhole htorn
        obtain ⟨hmem, hbusy⟩ := State.inputVs_waiting hstate hwriting
        rw [State.inputVs_counts hstate (by simp) (by simp), State.inputVs_counts hstate (by simp) (by simp), hcount]
        refine ⟨by simp [Counters.get_bump], by simp [Counters.get_bump], fun y hy => ?_, hbusy⟩
        simpa using (List.mem_filter.mp (hmem y hy)).2

end Sys2Proof.Machine
end
